-- ==== Sys2Proof/Word.lean ====
section
/-!
DEFINITION. The byte, the unit of every exchange with the card and of the host block buffer
(`00_scope.md` R8, R9). Byte strings are lists of bytes, the first byte sent or received first.
-/

namespace Sys2Proof

/-- 8 bits; bit 0 is the least significant (R8). -/
abbrev Byte := BitVec 8

end Sys2Proof
end

