-- ==== Sys2Proof/Machine/Bits.lean ====
section
/-!
DEFINITION. Byte strings and bit fields (`00_scope.md` R8, R9; `20_memory.md` R60): big-endian both ways.
-/

namespace Sys2Proof.Machine

/-- The `n`-byte big-endian string of `v` (`be16` and `be32` of R9 are `beBytes 2` and `beBytes 4`). -/
def beBytes : Nat → Nat → List Byte
  | 0, _ => []
  | n + 1, v => BitVec.ofNat 8 (v / 256 ^ n) :: beBytes n v

/-- `frombe(B)` of R9: the number whose most significant byte is the first. -/
def fromBe : List Byte → Nat
  | [] => 0
  | b :: bs => b.toNat * 256 ^ bs.length + fromBe bs

/-- The slice of `width` bits of `v` whose least significant bit is bit `start` (R8). -/
def slice {n : Nat} (v : BitVec n) (start width : Nat) : BitVec width :=
  v.extractLsb' start width

end Sys2Proof.Machine
end

