-- ==== Sys2Proof/Config.lean ====
section
/-!
DEFINITION. What an implementation fixes (`00_scope.md` R7) and the free values: constants with no
body, of which nothing can be evaluated or proved.
-/

namespace Sys2Proof

/-- An argument of the transport's `configure` (`20_memory.md` R51, R56). -/
inductive BitOrder where
  | msbFirst
  | lsbFirst
  deriving DecidableEq, Repr

/-- The SPI clock mode, an argument of `configure` (`20_memory.md` R56). -/
inductive ClockMode where
  | mode0
  | mode1
  | mode2
  | mode3
  deriving DecidableEq, Repr

/-- The parameters of `00_scope.md` R7, in its order, each under the name of its row. `SECTOR_SIZE` and
`SECTOR_SHIFT` are no parameters: R7 calls the first "Not configurable" and derives the second. -/
structure Params where
  /-- `CMD0_ATTEMPTS` -/
  cmd0Attempts : Nat
  /-- `READY_POLL_ATTEMPTS` -/
  readyPollAttempts : Nat
  /-- `READY_POLL_DELAY_US` -/
  readyPollDelayUs : Nat
  /-- `CMD0_RETRY_DELAY_US` -/
  cmd0RetryDelayUs : Nat
  /-- `READY_WAIT_STEPS` -/
  readyWaitSteps : Nat
  /-- `READY_WAIT_DELAY_US` -/
  readyWaitDelayUs : Nat
  /-- `TOKEN_WAIT_STEPS` -/
  tokenWaitSteps : Nat
  /-- `TOKEN_WAIT_DELAY_US` -/
  tokenWaitDelayUs : Nat
  /-- `MAX_WAIT_BYTES` -/
  maxWaitBytes : Nat
  /-- `DUMMY_BYTES` -/
  dummyBytes : Nat
  /-- `F_INIT_HZ` -/
  fInitHz : Nat
  /-- `F_MAX_HZ` -/
  fMaxHz : Nat
  /-- `BIT_ORDER` -/
  bitOrder : BitOrder
  /-- `CLOCK_MODE` -/
  clockMode : ClockMode
  /-- `MAX_SIZE_BYTES` -/
  maxSizeBytes : Nat
  /-- `ERR_SENTINEL` (log 23) -/
  errSentinel : Byte
  /-- `CRC16_SEED` -/
  crc16Seed : BitVec 16
  deriving DecidableEq, Repr

/-- FREE VALUE (log 3): what the card answers at exchange number `n` when the input queue
`State.answers` is empty. "any byte may come back at any `Xchg`" (`20_memory.md` R54). -/
opaque Config.cardAnswer : Nat → Byte

/-- FREE VALUE (log 4): the `n`-th unspecified byte of the host block buffer: the contents of a block
whose reception failed, and of all later blocks of the operation (`20_memory.md` R66, U4). -/
opaque Config.freeByte : Nat → Byte

end Sys2Proof
end

