-- ==== Sys2Proof/Machine/Records.lean ====
section
/-!
DEFINITION. The named values of the engine: error classes, the enumerated registers, the fields of the
responses and of the two card registers, and the results the operations deliver (`30_encoding.md` R118).
-/

namespace Sys2Proof.Machine

/-- The error classes of `60_exceptions.md` R360, in the order of its codes 1-6. -/
inductive ErrorClass where
  /-- (a) -/
  | transportTimeout
  /-- (b) -/
  | protocolRejection
  /-- (c) -/
  | checksumMismatch
  /-- (d) -/
  | invalidGeometry
  /-- (e) -/
  | notInitialized
  /-- R366 -/
  | refused
  deriving DecidableEq, Repr

/-- The states of the initialization FSM, in the order of the codes 0-9 of `10_state.md` R30 (log 26). -/
inductive InitState where
  | reset
  | idleNegotiation
  | versionBranch
  | voltageCheck
  | readyPoll
  | ocrRead
  | blockLengthSet
  | geometryRead
  | done
  | failed
  deriving DecidableEq, Repr

/-- The level of the chip-select output (`10_state.md` R33). -/
inductive ChipSelect where
  | released
  | asserted
  deriving DecidableEq, Repr

/-- One duplex exchange on the transport: the byte the engine sent, the byte the card answered
(`20_memory.md` R50), and the level of chip select meanwhile. -/
structure Exchange where
  mosi : Byte
  miso : Byte
  cs   : ChipSelect
  deriving DecidableEq, Repr

/-- What `configure` handed to the transport (`20_memory.md` R56). -/
structure BusConfig where
  bitOrder    : BitOrder
  clockMode   : ClockMode
  frequencyHz : Nat
  deriving DecidableEq, Repr

/-- What `PARSE_FRAME` answers (`41_command_framer.md` R152). -/
inductive ParseOutcome where
  | ok (index : BitVec 6) (argument : BitVec 32)
  | badStartBit
  | badTransmissionBit
  | badStopBit
  | checksumMismatch
  deriving DecidableEq, Repr

/-- The record of `R1_EXTRACT` (`42_response_parser.md` R181). -/
structure R1Fields where
  valid          : Bool
  idle           : Bool
  eraseReset     : Bool
  illegalCommand : Bool
  comCrcError    : Bool
  eraseSeqError  : Bool
  addressError   : Bool
  parameterError : Bool
  error          : Bool
  deriving DecidableEq, Repr

/-- The record of `R2_EXTRACT` (`42_response_parser.md` R184). -/
structure R2Fields where
  first         : R1Fields
  value16       : BitVec 16
  cardIsLocked  : Bool
  wpEraseSkip   : Bool
  error         : Bool
  ccError       : Bool
  cardEccFailed : Bool
  wpViolation   : Bool
  eraseParam    : Bool
  outOfRange    : Bool
  deriving DecidableEq, Repr

/-- The record of `R3_EXTRACT` (`42_response_parser.md` R187). -/
structure R3Fields where
  first         : R1Fields
  ocr           : BitVec 32
  ccs           : Bool
  powerUp       : Bool
  voltageWindow : BitVec 9
  deriving DecidableEq, Repr

/-- The record of `R7_EXTRACT` (`42_response_parser.md` R190). -/
structure R7Fields where
  first           : R1Fields
  value           : BitVec 32
  echoOk          : Bool
  commandVersion  : BitVec 4
  voltageAccepted : BitVec 4
  checkPattern    : BitVec 8
  deriving DecidableEq, Repr

/-- The variant region of a CSD (`45_geometry.md` R287): "the variant fields exist only for the variant
decoded" (R285). -/
inductive CsdVariant where
  | v1 (cSize : BitVec 12) (vddRCurrMin vddRCurrMax vddWCurrMin vddWCurrMax : BitVec 3)
      (cSizeMult : BitVec 3)
  | v2 (cSize : BitVec 22)
  | v3 (cSize : BitVec 28)
  | none
  deriving DecidableEq, Repr

/-- The record of `CSD_DECODE` (`45_geometry.md` R285): the fields of R286 and R288, the variant and the
capacity in bytes. -/
structure CsdRecord where
  structureCode    : BitVec 2
  valid            : Bool
  taac             : BitVec 8
  nsac             : BitVec 8
  tranSpeed        : BitVec 8
  ccc              : BitVec 12
  readBlLen        : BitVec 4
  readBlPartial    : BitVec 1
  writeBlkMisalign : BitVec 1
  readBlkMisalign  : BitVec 1
  dsrImp           : BitVec 1
  eraseBlkEn       : BitVec 1
  sectorSize       : BitVec 7
  wpGrpSize        : BitVec 7
  wpGrpEnable      : BitVec 1
  r2wFactor        : BitVec 3
  writeBlLen       : BitVec 4
  writeBlPartial   : BitVec 1
  fileFormatGrp    : BitVec 1
  copy             : BitVec 1
  permWriteProtect : BitVec 1
  tmpWriteProtect  : BitVec 1
  fileFormat       : BitVec 2
  crc              : BitVec 7
  variant          : CsdVariant
  size             : Nat
  deriving DecidableEq, Repr

/-- The record of `CID_DECODE` (`45_geometry.md` R300). -/
structure CidRecord where
  mid   : BitVec 8
  oid   : List Byte
  pnm   : List Byte
  major : BitVec 4
  minor : BitVec 4
  psn   : BitVec 32
  year  : Nat
  month : BitVec 4
  crc   : BitVec 7
  deriving DecidableEq, Repr

/-- What an operation delivers to the host when it ends (`30_encoding.md` R118). -/
inductive Result where
  /-- no operation has ended yet -/
  | none
  /-- `raise`: the failure result (`00_scope.md` R10) -/
  | failure
  /-- an operation without a result value (`END`, a token or a frame item sent) -/
  | done
  | bool (ok : Bool)
  | sectorSize (bytes : Nat)
  | sectorCount (sectors : BitVec 64)
  | cidRegister (value : BitVec 128) (fields : CidRecord)
  | csdRegister (value : BitVec 128) (fields : CsdRecord)
  | crc7 (value : BitVec 7)
  | crc16 (value : BitVec 16)
  | frame (value : BitVec 48)
  | parsed (outcome : ParseOutcome)
  | response (r1 : Byte) (payload : Option (List Byte))
  | responseByte (r1 : Byte)
  | r1Fields (fields : R1Fields)
  | r2Fields (fields : R2Fields)
  | r3Fields (fields : R3Fields)
  | r7Fields (fields : R7Fields)
  | token (value : Byte)
  | field (width value : Nat)
  | csd (fields : CsdRecord)
  | cid (fields : CidRecord)
  deriving DecidableEq, Repr

end Sys2Proof.Machine
end

