-- ==== Sys2Proof/Machine/Flags.lean ====
section
/-!
DEFINITION. Flags and status bits: the card-type flags (`10_state.md` R25), the tests the engine makes
on a received byte (`30_encoding.md` R102, R113-R115; `42_response_parser.md` R182) and the fields of
the four response formats (`42_response_parser.md`).
-/

namespace Sys2Proof.Machine

/-! ### Card-type flags -/

/-- Bit 0 of `S.cardType`. -/
def isMmc (cardType : BitVec 4) : Bool := cardType.getLsbD 0

/-- Bit 1 of `S.cardType`. -/
def isSd1 (cardType : BitVec 4) : Bool := cardType.getLsbD 1

/-- Bit 2 of `S.cardType`. -/
def isSd2 (cardType : BitVec 4) : Bool := cardType.getLsbD 2

/-- Bit 3 of `S.cardType`: command arguments are sector numbers. -/
def isBlock (cardType : BitVec 4) : Bool := cardType.getLsbD 3

/-- The classification of state OcrRead (`44_init_fsm.md` R250). -/
def v2CardType (ccs : Bool) : BitVec 4 := if ccs then 0b1100 else 0b0100

/-- The classification of state BlockLengthSet (`44_init_fsm.md` R255). -/
def legacyCardType (pollCmd : BitVec 8) : BitVec 4 := if pollCmd = 0xA9 then 0b0010 else 0b0001

/-! ### Tests on a received byte -/

/-- A byte is an R1 response exactly when its bit 7 is 0 (R101). -/
def isResponse (b : Byte) : Bool := !b.getLsbD 7

/-- `IsIdle` (R182). -/
def isIdle (b : Byte) : Bool := b == 0x01

/-- `IsReady` (R182). -/
def isReady (b : Byte) : Bool := b == 0x00

/-- `NoError` (R182): `b ≤ 1`, unsigned. -/
def noError (b : Byte) : Bool := decide (b.toNat ≤ 1)

/-- The card is ready: the byte equals 0xFF (R114, `43_data_block.md` R200). -/
def isCardReady (b : Byte) : Bool := b == 0xFF

/-- A byte other than the filler 0xFF ends a token poll (R115). -/
def isToken (b : Byte) : Bool := b != 0xFF

/-- The data response accepts the block: its low five bits are 0b00101 (R113). -/
def isAccepted (b : Byte) : Bool := slice b 0 5 == (0b00101 : BitVec 5)

/-! ### Response fields -/

/-- R181: `R1_EXTRACT(b)`. -/
def r1Fields (b : Byte) : R1Fields where
  valid := !b.getLsbD 7
  idle := b.getLsbD 0
  eraseReset := b.getLsbD 1
  illegalCommand := b.getLsbD 2
  comCrcError := b.getLsbD 3
  eraseSeqError := b.getLsbD 4
  addressError := b.getLsbD 5
  parameterError := b.getLsbD 6
  error := slice b 1 6 != 0

/-- R184: `R2_EXTRACT(r1, payload)`. -/
def r2Fields (r1 s : Byte) : R2Fields where
  first := r1Fields r1
  value16 := r1 ++ s
  cardIsLocked := s.getLsbD 0
  wpEraseSkip := s.getLsbD 1
  error := s.getLsbD 2
  ccError := s.getLsbD 3
  cardEccFailed := s.getLsbD 4
  wpViolation := s.getLsbD 5
  eraseParam := s.getLsbD 6
  outOfRange := s.getLsbD 7

/-- R187: `R3_EXTRACT(r1, payload)`; `ocr = frombe(payload)`. -/
def r3Fields (r1 : Byte) (payload : List Byte) : R3Fields :=
  let ocr := BitVec.ofNat 32 (fromBe payload)
  { first := r1Fields r1
    ocr := ocr
    ccs := ocr.getLsbD 30
    powerUp := ocr.getLsbD 31
    voltageWindow := slice ocr 15 9 }

/-- R190: `R7_EXTRACT(r1, payload)`; `V = frombe(payload)`. -/
def r7Fields (r1 : Byte) (payload : List Byte) : R7Fields :=
  let v := BitVec.ofNat 32 (fromBe payload)
  { first := r1Fields r1
    value := v
    echoOk := slice v 0 16 == (0x01AA : BitVec 16)
    commandVersion := slice v 28 4
    voltageAccepted := slice v 8 4
    checkPattern := slice v 0 8 }

end Sys2Proof.Machine
end

