-- ==== Sys2Proof/Machine/Frame.lean ====
section
/-!
DEFINITION. The command frame (`30_encoding.md` R81-R85): the builder and the parser of
`41_command_framer.md` R150 and R152, as pure functions of a 48-bit value whose bits 47:40 are the
first byte on the wire.
-/

namespace Sys2Proof.Machine

/-- The six bytes of a frame in wire order (R81). -/
def frameBytes (f : BitVec 48) : List Byte := beBytes 6 f.toNat

/-- Byte 0 of a frame: `0x40 | index` (R82). -/
def startByte (index : BitVec 6) : Byte := 0x40 ||| index.zeroExtend 8

/-- The five bytes the CRC7 of a frame covers (R83, R85). -/
def frameBody (index : BitVec 6) (argument : BitVec 32) : List Byte :=
  startByte index :: beBytes 4 argument.toNat

/-- Byte 5 of a frame: `(crc7 << 1) | 1` (R84). -/
def crcByte (c : BitVec 7) : Byte := (c.zeroExtend 8 <<< 1) ||| 1

/-- R150: `BUILD_FRAME(index, argument)`. -/
def buildFrame (index : BitVec 6) (argument : BitVec 32) : BitVec 48 :=
  BitVec.ofNat 48 (fromBe (frameBody index argument ++ [crcByte (crc7 (frameBody index argument))]))

/-- R152: `PARSE_FRAME(F)`, the four checks in its order. -/
def parseFrame (f : BitVec 48) : ParseOutcome :=
  if f.getLsbD 47 then .badStartBit
  else if !f.getLsbD 46 then .badTransmissionBit
  else if !f.getLsbD 0 then .badStopBit
  else if crc7 ((frameBytes f).take 5) ≠ slice f 1 7 then .checksumMismatch
  else .ok (slice f 40 6) (slice f 8 32)

/-- The class a `PARSE_FRAME` answer is booked under (`60_exceptions.md` R364). -/
def parseClass : ParseOutcome → Option ErrorClass
  | .ok _ _ => none
  | .badStartBit => some .protocolRejection
  | .badTransmissionBit => some .protocolRejection
  | .badStopBit => some .protocolRejection
  | .checksumMismatch => some .checksumMismatch

end Sys2Proof.Machine
end

