-- ==== Sys2Proof/Machine/Operands.lean ====
section
/-!
DEFINITION. Operand forms: the constants of the wire (`30_encoding.md` R96, R110), the command code
(R90), the data-bearing set (R97) and its stuffing byte, the response size of each command (R98), the
address conversion (`20_memory.md` R63) and the default parameters (`00_scope.md` R7).
-/

namespace Sys2Proof.Machine

/-- `SECTOR_SIZE` (R7): fixed. -/
def sectorSize : Nat := 512

/-- `SECTOR_SHIFT` (R7). -/
def sectorShift : Nat := 9

/-- The default of each parameter (R7). -/
def defaultParams : Params where
  cmd0Attempts := 5
  readyPollAttempts := 1000
  readyPollDelayUs := 1000
  cmd0RetryDelayUs := 1000
  readyWaitSteps := 5000
  readyWaitDelayUs := 100
  tokenWaitSteps := 5000
  tokenWaitDelayUs := 100
  maxWaitBytes := 8
  dummyBytes := 10
  fInitHz := 400000
  fMaxHz := 25000000
  bitOrder := .msbFirst
  clockMode := .mode0
  maxSizeBytes := 2 ^ 64 - 1
  errSentinel := 0xFF
  crc16Seed := 0x0000

/-- `TOKEN_START` (R110). -/
def tokenStartByte : Byte := 0xFE

/-- `TOKEN_START_MULTI_WRITE` (R110). -/
def tokenStartMultiWriteByte : Byte := 0xFC

/-- `TOKEN_STOP_TRAN` (R110). -/
def tokenStopTranByte : Byte := 0xFD

/-- The command index of a command code (R90). -/
def cmdIndex (cmd : Byte) : BitVec 6 := slice cmd 0 6

/-- The application-command flag of a command code (R90). -/
def cmdApp (cmd : Byte) : Bool := cmd.getLsbD 7

/-- A code with bit 6 set is refused (R90, R121). -/
def cmdRefused (cmd : Byte) : Bool := cmd.getLsbD 6

/-- The code of a command: the application flag over the index (R90, R91). -/
def cmdCode (app : Bool) (index : BitVec 6) : Byte :=
  if app then 0x80 ||| index.zeroExtend 8 else index.zeroExtend 8

/-- R97: exactly CMD9, CMD10, CMD17 and ACMD13. -/
def dataBearing (app : Bool) (index : BitVec 6) : Bool :=
  if app then index == 13 else index == 9 || index == 10 || index == 17

/-- The stuffing bytes of a command: one, where it is data-bearing (`41_command_framer.md` R159). -/
def stuffing (app : Bool) (index : BitVec 6) : Nat := if dataBearing app index then 1 else 0

/-- The bytes captured after R1 for a command sent as its row of R95 says (R98; CMD17 as the block
layer sends it, `46_block_ops.md` R324; log 10). -/
def rowRespSize (app : Bool) (index : BitVec 6) : Nat :=
  if app then (if index = 13 then 64 else 0)
  else if index = 8 ∨ index = 58 then 4
  else if index = 13 then 1
  else if index = 9 ∨ index = 10 then 16
  else 0

/-- R63: `CmdAddr(a)`, in natural numbers; `none` where it is `Refused`. -/
def cmdAddr (block : Bool) (a : Nat) : Option (BitVec 32) :=
  let v := if block then a else a <<< sectorShift
  if v < 2 ^ 32 then some (BitVec.ofNat 32 v) else none

end Sys2Proof.Machine
end

