-- ==== Sys2Proof/Syntax.lean ====
section
/-!
DEFINITION. The instructions: one constructor for each row of `spec/opcode_table.json`, and the wire
form of an instruction, an `Item`: the format that position on the wire or the host interface gives
it (`30_encoding.md` R80, R126) and its bytes.
-/

namespace Sys2Proof

/-- Which way a data token or data block frame travels: formats DT and DB go "either" way (R80). -/
inductive Direction where
  /-- card to engine -/
  | fromCard
  /-- engine to card -/
  | toCard
  deriving DecidableEq, Repr

/-- The nine encodings of `30_encoding.md` R80. A byte string alone does not tell its format; "which
format comes next on the wire is always known from what the engine sent before". -/
inductive Format where
  | cf
  | r1
  | r2
  | r3
  | r7
  | dt (dir : Direction)
  | db (dir : Direction)
  | dr
  | op
  deriving DecidableEq, Repr

/-- An instruction's words: a format and the bytes, first byte on the wire first. -/
structure Item where
  format : Format
  bytes  : List Byte
  deriving DecidableEq, Repr

/-- The rows of `spec/opcode_table.json`. -/
inductive Instr where
  -- command frames (R81, R95); an ACMD is the two-frame form of R92
  /-- GO_IDLE_STATE -/
  | cmd0 (argument : BitVec 32)
  /-- SEND_OP_COND -/
  | cmd1 (argument : BitVec 32)
  /-- SEND_IF_COND -/
  | cmd8 (argument : BitVec 32)
  /-- SEND_CSD -/
  | cmd9 (argument : BitVec 32)
  /-- SEND_CID -/
  | cmd10 (argument : BitVec 32)
  /-- STOP_TRANSMISSION -/
  | cmd12 (argument : BitVec 32)
  /-- SEND_STATUS -/
  | cmd13 (argument : BitVec 32)
  /-- SET_BLOCKLEN -/
  | cmd16 (argument : BitVec 32)
  /-- READ_SINGLE_BLOCK -/
  | cmd17 (argument : BitVec 32)
  /-- READ_MULTIPLE_BLOCK -/
  | cmd18 (argument : BitVec 32)
  /-- SET_BLOCK_COUNT -/
  | cmd23 (argument : BitVec 32)
  /-- WRITE_BLOCK -/
  | cmd24 (argument : BitVec 32)
  /-- WRITE_MULTIPLE_BLOCK -/
  | cmd25 (argument : BitVec 32)
  /-- ERASE_WR_BLK_START -/
  | cmd32 (argument : BitVec 32)
  /-- ERASE_WR_BLK_END -/
  | cmd33 (argument : BitVec 32)
  /-- ERASE -/
  | cmd38 (argument : BitVec 32)
  /-- APP_CMD -/
  | cmd55 (argument : BitVec 32)
  /-- READ_OCR -/
  | cmd58 (argument : BitVec 32)
  /-- SD_STATUS -/
  | acmd13 (argument : BitVec 32)
  /-- SET_WR_BLK_ERASE_COUNT -/
  | acmd23 (argument : BitVec 32)
  /-- SEND_OP_COND (SD) -/
  | acmd41 (argument : BitVec 32)
  -- responses (R100-R105): the seven bits below bit 7 of the R1 byte, then what follows it
  | r1 (flags : BitVec 7)
  | r2 (flags : BitVec 7) (status : Byte)
  | r3 (flags : BitVec 7) (ocr : BitVec 32)
  | r7 (flags : BitVec 7) (value : BitVec 32)
  -- data tokens (R110), the data response (R113), the data block frame (R112)
  | tokenStart (dir : Direction)
  | tokenStartMultiWrite
  | tokenStopTran
  | dataResponseAccepted (ignored : BitVec 3)
  | dataBlock (dir : Direction) (token : Byte) (payload : List Byte)
  -- host operations (R118, select 0-9)
  | beginOp (frequency : Nat)
  | endOp
  | readSectors (address : BitVec 64) (count : Nat)
  | writeSectors (address : BitVec 64) (count : Nat)
  | eraseSectors (address : BitVec 64) (count : Nat)
  | sync
  | getSectorSize
  | getSectorCount
  | getCid
  | getCsd
  -- unit operations (R118, select 16-31)
  | crc7 (data : List Byte)
  | crc16 (seed : BitVec 16) (data : List Byte)
  | buildFrame (index : BitVec 6) (argument : BitVec 32)
  | parseFrame (frame : BitVec 48)
  | sendCommand (cmd : Byte) (argument : BitVec 32) (respSize : Nat)
  | sendCommandRetry (cmd : Byte) (argument : BitVec 32) (required : Byte) (maxAttempts delayUs : Nat)
  | r1Extract (b : Byte)
  | r2Extract (first status : Byte)
  | r3Extract (first : Byte) (payload : List Byte)
  | r7Extract (first : Byte) (payload : List Byte)
  | waitReady
  | receiveBlock (offset length : Nat)
  | transmitBlock (offset : Nat) (token : Byte)
  | field (value : BitVec 128) (start width : Nat)
  | csdDecode (value : BitVec 128)
  | cidDecode (value : BitVec 128)
  -- reserved operation selects 10-15 (R122)
  | reserved (select : BitVec 5)
  deriving DecidableEq, Repr

end Sys2Proof
end

