-- ==== Sys2Proof/WellFormed.lean ====
section
/-!
DEFINITION. When an instruction has an encoding: its natural-number operands fit the widths of the
request layout (log 7), its byte strings have the lengths the spec gives them, a data block frame
carries a token of `30_encoding.md` R110 and a reserved select is one of 10-15 (R122).
-/

namespace Sys2Proof

/-- A natural-number operand of a request fits 64 bits (log 7). -/
def fits64 (n : Nat) : Bool := decide (n < 2 ^ 64)

/-- The token and the length a data block frame may have: received blocks open with `0xFE`, sent ones
with `0xFE` or `0xFC` and carry one sector (R110, R112, R215). -/
def blockShape : Direction → Byte → List Byte → Bool
  | .fromCard, token, _ => token == 0xFE
  | .toCard, token, payload => (token == 0xFE || token == 0xFC) && payload.length == 512

def Instr.wellFormed : Instr → Bool
  | .cmd0 _ => true
  | .cmd1 _ => true
  | .cmd8 _ => true
  | .cmd9 _ => true
  | .cmd10 _ => true
  | .cmd12 _ => true
  | .cmd13 _ => true
  | .cmd16 _ => true
  | .cmd17 _ => true
  | .cmd18 _ => true
  | .cmd23 _ => true
  | .cmd24 _ => true
  | .cmd25 _ => true
  | .cmd32 _ => true
  | .cmd33 _ => true
  | .cmd38 _ => true
  | .cmd55 _ => true
  | .cmd58 _ => true
  | .acmd13 _ => true
  | .acmd23 _ => true
  | .acmd41 _ => true
  | .r1 _ => true
  | .r2 _ _ => true
  | .r3 _ _ => true
  | .r7 _ _ => true
  | .tokenStart _ => true
  | .tokenStartMultiWrite => true
  | .tokenStopTran => true
  | .dataResponseAccepted _ => true
  | .dataBlock dir token payload => blockShape dir token payload
  | .beginOp frequency => fits64 frequency
  | .endOp => true
  | .readSectors _ count => fits64 count
  | .writeSectors _ count => fits64 count
  | .eraseSectors _ count => fits64 count
  | .sync => true
  | .getSectorSize => true
  | .getSectorCount => true
  | .getCid => true
  | .getCsd => true
  | .crc7 _ => true
  | .crc16 _ _ => true
  | .buildFrame _ _ => true
  | .parseFrame _ => true
  | .sendCommand _ _ respSize => fits64 respSize
  | .sendCommandRetry _ _ _ maxAttempts delayUs => fits64 maxAttempts && fits64 delayUs
  | .r1Extract _ => true
  | .r2Extract _ _ => true
  | .r3Extract _ payload => payload.length == 4
  | .r7Extract _ payload => payload.length == 4
  | .waitReady => true
  | .receiveBlock offset length => fits64 offset && fits64 length
  | .transmitBlock offset _ => fits64 offset
  | .field _ start width => decide (start < 256) && decide (width < 256)
  | .csdDecode _ => true
  | .cidDecode _ => true
  | .reserved select => decide (10 ≤ select.toNat ∧ select.toNat ≤ 15)

end Sys2Proof
end

