-- ==== Sys2Proof/Decode.lean ====
section
/-!
DEFINITION. From words to instructions and back. `decode` is total on any item, rejecting by name;
`encode` is written from the same tables of `30_encoding.md`. Both take the parameter `CRC16_SEED`, the seed of
the CRC16 "for every data block" (`00_scope.md` R7). Natural-number and register operands of an operation
request are laid out big-endian after the select byte (log 7).
-/

namespace Sys2Proof

open Sys2Proof.Machine

/-- Why an item is no encoding of `30_encoding.md`. -/
inductive DecodeError where
  /-- the item has not the length its format gives it (R80) -/
  | badLength
  /-- R152, R124 -/
  | badStartBit
  /-- R152, R124 -/
  | badTransmissionBit
  /-- R152, R124 -/
  | badStopBit
  /-- R152, R124 -/
  | frameChecksum
  /-- a command frame whose index has no row in R95 -/
  | unlistedCommand (index : BitVec 6)
  /-- the second frame of an application command whose index has no ACMD row in R95 -/
  | unlistedAppCommand (index : BitVec 6)
  /-- two frames of which the first is not CMD55(0) (R92) -/
  | notPrefixed
  /-- a response whose first byte has bit 7 = 1 (R101) -/
  | notAResponse
  /-- a byte that is no token of R110 in that direction -/
  | unknownToken (token : Byte)
  /-- a data response whose low five bits are not 0b00101 (R113) -/
  | notAccepted
  /-- a data block frame whose token or length R110, R112, R215 do not give -/
  | badBlockShape
  /-- a data block frame whose trailer is not the CRC16 of its payload (R112) -/
  | blockChecksum
  /-- a select byte of more than five bits (R118) -/
  | badSelect
  /-- an operand wider than R118 gives it -/
  | badOperand
  deriving DecidableEq, Repr

/-! ### Operand fields -/

/-- Cut `bs` into big-endian numbers of the given widths in bytes, with nothing left over. -/
def splitOperands : List Nat → List Byte → Option (List Nat)
  | [], [] => some []
  | [], _ :: _ => none
  | w :: ws, bs =>
    if bs.length < w then none
    else (splitOperands ws (bs.drop w)).map (fun vs => fromBe (bs.take w) :: vs)

/-- The operand bytes of numbers of the given widths. -/
def joinOperands : List Nat → List Nat → List Byte
  | w :: ws, v :: vs => beBytes w v ++ joinOperands ws vs
  | _, _ => []

/-! ### Decoding -/

/-- A command frame of six bytes, checked as `PARSE_FRAME` checks it (R124). -/
def decodeFrame (bytes : List Byte) : Except DecodeError (BitVec 6 × BitVec 32) :=
  if bytes.length ≠ 6 then .error .badLength
  else match parseFrame (BitVec.ofNat 48 (fromBe bytes)) with
    | .ok index argument => .ok (index, argument)
    | .badStartBit => .error .badStartBit
    | .badTransmissionBit => .error .badTransmissionBit
    | .badStopBit => .error .badStopBit
    | .checksumMismatch => .error .frameChecksum

/-- The CMD rows of R95. -/
def plainCommand (index : BitVec 6) (argument : BitVec 32) : Except DecodeError Instr :=
  match index.toNat with
  | 0 => .ok (.cmd0 argument)
  | 1 => .ok (.cmd1 argument)
  | 8 => .ok (.cmd8 argument)
  | 9 => .ok (.cmd9 argument)
  | 10 => .ok (.cmd10 argument)
  | 12 => .ok (.cmd12 argument)
  | 13 => .ok (.cmd13 argument)
  | 16 => .ok (.cmd16 argument)
  | 17 => .ok (.cmd17 argument)
  | 18 => .ok (.cmd18 argument)
  | 23 => .ok (.cmd23 argument)
  | 24 => .ok (.cmd24 argument)
  | 25 => .ok (.cmd25 argument)
  | 32 => .ok (.cmd32 argument)
  | 33 => .ok (.cmd33 argument)
  | 38 => .ok (.cmd38 argument)
  | 55 => .ok (.cmd55 argument)
  | 58 => .ok (.cmd58 argument)
  | _ => .error (.unlistedCommand index)

/-- The ACMD rows of R95. -/
def appCommand (index : BitVec 6) (argument : BitVec 32) : Except DecodeError Instr :=
  match index.toNat with
  | 13 => .ok (.acmd13 argument)
  | 23 => .ok (.acmd23 argument)
  | 41 => .ok (.acmd41 argument)
  | _ => .error (.unlistedAppCommand index)

/-- Format CF: one frame, or the two frames of an application command (R92). -/
def decodeCommand (bytes : List Byte) : Except DecodeError Instr :=
  if bytes.length ≤ 6 then
    match decodeFrame bytes with
    | .ok (index, argument) => plainCommand index argument
    | .error e => .error e
  else
    match decodeFrame (bytes.take 6), decodeFrame (bytes.drop 6) with
    | .ok pre, .ok (index, argument) =>
      if pre = (55, 0) then appCommand index argument else .error .notPrefixed
    | .error e, _ => .error e
    | _, .error e => .error e

/-- Format R1 (R101). -/
def decodeR1 : List Byte → Except DecodeError Instr
  | [b] => if isResponse b then .ok (.r1 (slice b 0 7)) else .error .notAResponse
  | _ => .error .badLength

/-- Format R2 (R103). -/
def decodeR2 : List Byte → Except DecodeError Instr
  | [b, s] => if isResponse b then .ok (.r2 (slice b 0 7) s) else .error .notAResponse
  | _ => .error .badLength

/-- Format R3 (R104). -/
def decodeR3 : List Byte → Except DecodeError Instr
  | b :: bs =>
    if bs.length ≠ 4 then .error .badLength
    else if isResponse b then .ok (.r3 (slice b 0 7) (BitVec.ofNat 32 (fromBe bs)))
    else .error .notAResponse
  | [] => .error .badLength

/-- Format R7 (R105). -/
def decodeR7 : List Byte → Except DecodeError Instr
  | b :: bs =>
    if bs.length ≠ 4 then .error .badLength
    else if isResponse b then .ok (.r7 (slice b 0 7) (BitVec.ofNat 32 (fromBe bs)))
    else .error .notAResponse
  | [] => .error .badLength

/-- Format DT (R110): of the three tokens the card sends only the start token. -/
def decodeToken : Direction → List Byte → Except DecodeError Instr
  | .fromCard, [b] => if b = tokenStartByte then .ok (.tokenStart .fromCard) else .error (.unknownToken b)
  | .toCard, [b] =>
    if b = tokenStartByte then .ok (.tokenStart .toCard)
    else if b = tokenStartMultiWriteByte then .ok .tokenStartMultiWrite
    else if b = tokenStopTranByte then .ok .tokenStopTran
    else .error (.unknownToken b)
  | _, _ => .error .badLength

/-- Format DR (R113). -/
def decodeDataResponse : List Byte → Except DecodeError Instr
  | [b] => if isAccepted b then .ok (.dataResponseAccepted (slice b 5 3)) else .error .notAccepted
  | _ => .error .badLength

/-- The CRC16 trailer of a data block frame (R112), with the seed `CRC16_SEED` (`00_scope.md` R7). -/
def blockTrailer (seed : BitVec 16) (payload : List Byte) : List Byte :=
  beBytes 2 (crc16 seed payload).toNat

/-- Format DB (R112): token, payload, CRC16. -/
def decodeBlock (seed : BitVec 16) (dir : Direction) : List Byte → Except DecodeError Instr
  | token :: bs =>
    if bs.length < 2 then .error .badLength
    else if bs.drop (bs.length - 2) ≠ blockTrailer seed (bs.take (bs.length - 2)) then .error .blockChecksum
    else if blockShape dir token (bs.take (bs.length - 2)) then
      .ok (.dataBlock dir token (bs.take (bs.length - 2)))
    else .error .badBlockShape
  | [] => .error .badLength

/-- An operation whose operands are numbers of the given widths. -/
def withOperands (widths : List Nat) (bs : List Byte) (build : List Nat → Except DecodeError Instr) :
    Except DecodeError Instr :=
  match splitOperands widths bs with
  | some vs => build vs
  | none => .error .badLength

/-- An operation without operands. -/
def withoutOperands (bs : List Byte) (i : Instr) : Except DecodeError Instr :=
  if bs.isEmpty then .ok i else .error .badLength

/-- Format OP (R118): the operation of a select, with its operand bytes. -/
def decodeSelect (select : Nat) (bs : List Byte) : Except DecodeError Instr :=
  match select with
  | 0 => withOperands [8] bs (fun | [f] => .ok (.beginOp f) | _ => .error .badLength)
  | 1 => withoutOperands bs .endOp
  | 2 => withOperands [8, 8] bs (fun | [a, c] => .ok (.readSectors (.ofNat 64 a) c) | _ => .error .badLength)
  | 3 => withOperands [8, 8] bs (fun | [a, c] => .ok (.writeSectors (.ofNat 64 a) c) | _ => .error .badLength)
  | 4 => withOperands [8, 8] bs (fun | [a, c] => .ok (.eraseSectors (.ofNat 64 a) c) | _ => .error .badLength)
  | 5 => withoutOperands bs .sync
  | 6 => withoutOperands bs .getSectorSize
  | 7 => withoutOperands bs .getSectorCount
  | 8 => withoutOperands bs .getCid
  | 9 => withoutOperands bs .getCsd
  | 16 => .ok (.crc7 bs)
  | 17 =>
    if bs.length < 2 then .error .badLength
    else .ok (.crc16 (.ofNat 16 (fromBe (bs.take 2))) (bs.drop 2))
  | 18 => withOperands [1, 4] bs (fun
    | [i, a] => if i < 64 then .ok (.buildFrame (.ofNat 6 i) (.ofNat 32 a)) else .error .badOperand
    | _ => .error .badLength)
  | 19 => withOperands [6] bs (fun | [f] => .ok (.parseFrame (.ofNat 48 f)) | _ => .error .badLength)
  | 20 => withOperands [1, 4, 8] bs (fun
    | [c, a, n] => .ok (.sendCommand (.ofNat 8 c) (.ofNat 32 a) n)
    | _ => .error .badLength)
  | 21 => withOperands [1, 4, 1, 8, 8] bs (fun
    | [c, a, q, n, d] => .ok (.sendCommandRetry (.ofNat 8 c) (.ofNat 32 a) (.ofNat 8 q) n d)
    | _ => .error .badLength)
  | 22 => withOperands [1] bs (fun | [b] => .ok (.r1Extract (.ofNat 8 b)) | _ => .error .badLength)
  | 23 => withOperands [1, 1] bs (fun
    | [b, s] => .ok (.r2Extract (.ofNat 8 b) (.ofNat 8 s))
    | _ => .error .badLength)
  | 24 => match bs with
    | b :: payload => if payload.length = 4 then .ok (.r3Extract b payload) else .error .badLength
    | [] => .error .badLength
  | 25 => match bs with
    | b :: payload => if payload.length = 4 then .ok (.r7Extract b payload) else .error .badLength
    | [] => .error .badLength
  | 26 => withoutOperands bs .waitReady
  | 27 => withOperands [8, 8] bs (fun | [o, n] => .ok (.receiveBlock o n) | _ => .error .badLength)
  | 28 => withOperands [8, 1] bs (fun | [o, t] => .ok (.transmitBlock o (.ofNat 8 t)) | _ => .error .badLength)
  | 29 => withOperands [16, 1, 1] bs (fun
    | [v, s, w] => .ok (.field (.ofNat 128 v) s w)
    | _ => .error .badLength)
  | 30 => withOperands [16] bs (fun | [v] => .ok (.csdDecode (.ofNat 128 v)) | _ => .error .badLength)
  | 31 => withOperands [16] bs (fun | [v] => .ok (.cidDecode (.ofNat 128 v)) | _ => .error .badLength)
  | n =>
    if 10 ≤ n ∧ n ≤ 15 then withoutOperands bs (.reserved (.ofNat 5 n)) else .error .badSelect

/-- Format OP: the select byte, then the operands. -/
def decodeOp : List Byte → Except DecodeError Instr
  | b :: bs => decodeSelect b.toNat bs
  | [] => .error .badLength

/-- The instruction of an item, for an engine whose `CRC16_SEED` is `seed`. -/
def decode (seed : BitVec 16) (item : Item) : Except DecodeError Instr :=
  match item.format with
  | .cf => decodeCommand item.bytes
  | .r1 => decodeR1 item.bytes
  | .r2 => decodeR2 item.bytes
  | .r3 => decodeR3 item.bytes
  | .r7 => decodeR7 item.bytes
  | .dt dir => decodeToken dir item.bytes
  | .db dir => decodeBlock seed dir item.bytes
  | .dr => decodeDataResponse item.bytes
  | .op => decodeOp item.bytes

/-! ### Encoding -/

/-- The frame of a command (R81). -/
def commandItem (index : BitVec 6) (argument : BitVec 32) : Item :=
  { format := .cf, bytes := frameBytes (buildFrame index argument) }

/-- The two frames of an application command (R92). -/
def appCommandItem (index : BitVec 6) (argument : BitVec 32) : Item :=
  { format := .cf, bytes := frameBytes (buildFrame 55 0) ++ frameBytes (buildFrame index argument) }

/-- A response byte: bit 7 is 0 (R101). -/
def responseByte (flags : BitVec 7) : Byte := flags.zeroExtend 8

/-- An accepting data response (R113). -/
def acceptedByte (ignored : BitVec 3) : Byte := (ignored.zeroExtend 8 <<< 5) ||| 0x05

/-- A request with a select and its operand bytes (R118). -/
def opItem (select : Nat) (operands : List Byte) : Item :=
  { format := .op, bytes := BitVec.ofNat 8 select :: operands }

/-- The words of an instruction, for an engine whose `CRC16_SEED` is `seed`. -/
def encode (seed : BitVec 16) : Instr → Item
  | .cmd0 argument => commandItem 0 argument
  | .cmd1 argument => commandItem 1 argument
  | .cmd8 argument => commandItem 8 argument
  | .cmd9 argument => commandItem 9 argument
  | .cmd10 argument => commandItem 10 argument
  | .cmd12 argument => commandItem 12 argument
  | .cmd13 argument => commandItem 13 argument
  | .cmd16 argument => commandItem 16 argument
  | .cmd17 argument => commandItem 17 argument
  | .cmd18 argument => commandItem 18 argument
  | .cmd23 argument => commandItem 23 argument
  | .cmd24 argument => commandItem 24 argument
  | .cmd25 argument => commandItem 25 argument
  | .cmd32 argument => commandItem 32 argument
  | .cmd33 argument => commandItem 33 argument
  | .cmd38 argument => commandItem 38 argument
  | .cmd55 argument => commandItem 55 argument
  | .cmd58 argument => commandItem 58 argument
  | .acmd13 argument => appCommandItem 13 argument
  | .acmd23 argument => appCommandItem 23 argument
  | .acmd41 argument => appCommandItem 41 argument
  | .r1 flags => { format := .r1, bytes := [responseByte flags] }
  | .r2 flags status => { format := .r2, bytes := [responseByte flags, status] }
  | .r3 flags ocr => { format := .r3, bytes := responseByte flags :: beBytes 4 ocr.toNat }
  | .r7 flags value => { format := .r7, bytes := responseByte flags :: beBytes 4 value.toNat }
  | .tokenStart dir => { format := .dt dir, bytes := [tokenStartByte] }
  | .tokenStartMultiWrite => { format := .dt .toCard, bytes := [tokenStartMultiWriteByte] }
  | .tokenStopTran => { format := .dt .toCard, bytes := [tokenStopTranByte] }
  | .dataResponseAccepted ignored => { format := .dr, bytes := [acceptedByte ignored] }
  | .dataBlock dir token payload =>
    { format := .db dir, bytes := token :: (payload ++ blockTrailer seed payload) }
  | .beginOp frequency => opItem 0 (joinOperands [8] [frequency])
  | .endOp => opItem 1 []
  | .readSectors address count => opItem 2 (joinOperands [8, 8] [address.toNat, count])
  | .writeSectors address count => opItem 3 (joinOperands [8, 8] [address.toNat, count])
  | .eraseSectors address count => opItem 4 (joinOperands [8, 8] [address.toNat, count])
  | .sync => opItem 5 []
  | .getSectorSize => opItem 6 []
  | .getSectorCount => opItem 7 []
  | .getCid => opItem 8 []
  | .getCsd => opItem 9 []
  | .crc7 data => opItem 16 data
  | .crc16 first data => opItem 17 (beBytes 2 first.toNat ++ data)
  | .buildFrame index argument => opItem 18 (joinOperands [1, 4] [index.toNat, argument.toNat])
  | .parseFrame frame => opItem 19 (joinOperands [6] [frame.toNat])
  | .sendCommand cmd argument respSize =>
    opItem 20 (joinOperands [1, 4, 8] [cmd.toNat, argument.toNat, respSize])
  | .sendCommandRetry cmd argument required maxAttempts delayUs =>
    opItem 21 (joinOperands [1, 4, 1, 8, 8]
      [cmd.toNat, argument.toNat, required.toNat, maxAttempts, delayUs])
  | .r1Extract b => opItem 22 (joinOperands [1] [b.toNat])
  | .r2Extract first status => opItem 23 (joinOperands [1, 1] [first.toNat, status.toNat])
  | .r3Extract first payload => opItem 24 (first :: payload)
  | .r7Extract first payload => opItem 25 (first :: payload)
  | .waitReady => opItem 26 []
  | .receiveBlock offset length => opItem 27 (joinOperands [8, 8] [offset, length])
  | .transmitBlock offset token => opItem 28 (joinOperands [8, 1] [offset, token.toNat])
  | .field value start width => opItem 29 (joinOperands [16, 1, 1] [value.toNat, start, width])
  | .csdDecode value => opItem 30 (joinOperands [16] [value.toNat])
  | .cidDecode value => opItem 31 (joinOperands [16] [value.toNat])
  | .reserved select => opItem select.toNat []

/-! ### The words of the opcode table -/

/-- The operand bytes that follow a select byte; a data string may be empty (R118, log 7). -/
def operandLength : Nat → Nat
  | 0 => 8
  | 2 => 16
  | 3 => 16
  | 4 => 16
  | 17 => 2
  | 18 => 5
  | 19 => 6
  | 20 => 13
  | 21 => 22
  | 22 => 1
  | 23 => 2
  | 24 => 5
  | 25 => 5
  | 27 => 16
  | 28 => 9
  | 29 => 18
  | 30 => 16
  | 31 => 16
  | _ => 0

/-- A command frame whose CRC7 field the table leaves open (log 13): the table derives the field from
the other bits ("CRC7 of bits 47:8"), so a word with the field at 0 stands for the frame with its CRC7. -/
def completeFrame (f : BitVec 48) : BitVec 48 :=
  if slice f 1 7 = (0 : BitVec 7) then f ||| ((crc7 ((frameBytes f).take 5)).zeroExtend 48 <<< 1) else f

/-- The item of a table row's bits. Every word of the table is one big-endian number whose most
significant byte travels first, so bit 0 is in its last byte. The table's rows do not say which format a
word is in; where two rows own the same word the row that fixes more of its bits is taken (log 13). Index
41 has only an ACMD row, so its frame comes with its prefix (R92). -/
def tableItem (nbits w : Nat) : Item :=
  if nbits ≤ 8 then
    let b : Byte := BitVec.ofNat 8 w
    if b.toNat < 32 then opItem b.toNat (List.replicate (operandLength b.toNat) 0)
    else if b = tokenStartByte then { format := .dt .fromCard, bytes := [b] }
    else if b = tokenStartMultiWriteByte ∨ b = tokenStopTranByte then
      { format := .dt .toCard, bytes := [b] }
    else if isAccepted b then { format := .dr, bytes := [b] }
    else { format := .r1, bytes := [b] }
  else if nbits ≤ 16 then { format := .r2, bytes := beBytes 2 w }
  else if nbits ≤ 40 then { format := .r3, bytes := beBytes 5 w }
  else
    let f := completeFrame (BitVec.ofNat 48 w)
    if slice f 40 6 = (41 : BitVec 6) then
      { format := .cf, bytes := frameBytes (buildFrame 55 0) ++ frameBytes f }
    else { format := .cf, bytes := frameBytes f }

/-- What the decoder reads from a table row's word (log 13). No word of the table is a data block frame, so
this does not depend on `CRC16_SEED`. -/
def decodeTableWord (nbits w : Nat) : Option Instr :=
  match decode defaultParams.crc16Seed (tableItem nbits w) with
  | .ok i => some i
  | .error _ => none

end Sys2Proof
end

