-- ==== Sys2Proof/Machine/State.lean ====
section
/-!
DEFINITION. The state of the engine (`10_state.md`), as plain data: every element R23-R40 name, the
parameters, and the ports through which the host and the card meet the engine. INVENTORY.md lists each
field with its rule and its reset value.
-/

namespace Sys2Proof.Machine

/-- The host block buffer `BUF` (`10_state.md` R38): the bytes that differ from what an unlisted address
reads as, by rising address. -/
abbrev Memory := List Host.Cell

/-- The engine has no fault: every operation ends in a result (`60_exceptions.md` R361, R372), so nothing
raises one. -/
inductive Fault
  deriving DecidableEq, Repr

/-- Why a step refuses. -/
inductive Refusal where
  /-- Raised by `exec` for an instruction that has no meaning yet. Safe: the machine stops. -/
  | notModelled (mnemonic : String)
  /-- Raised by `step` for a request that is no encoding of `30_encoding.md` (log 25). Safe: the machine
  stops, and no host of the spec issues one. -/
  | undecodable (reason : DecodeError)
  deriving DecidableEq, Repr

@[ext]
structure State where
  -- configuration: the parameters (`00_scope.md` R7); no step writes them (log 5)
  params      : Params
  -- session registers (R24-R28)
  initialized : Bool
  cardType    : BitVec 4
  sectorCount : BitVec 64
  csd         : BitVec 128
  cid         : BitVec 128
  -- sequencer and output registers (R30-R35)
  initState   : InitState
  pathV2      : Bool
  pollCmd     : BitVec 8
  pollArg     : BitVec 32
  cs          : ChipSelect
  clockHz     : Nat
  attempt     : Nat
  -- transient storage (R36-R40)
  frame       : BitVec 48
  crc7acc     : BitVec 7
  crc16acc    : BitVec 16
  resp        : List Byte
  tok         : Byte
  -- the host block buffer (R38)
  buf         : Memory
  -- the host's port: pending requests, oldest first; the last operation's result and class
  requests    : List Item
  result      : Result
  error       : Option ErrorClass
  -- the card's port: its pending answers, first first; the exchanges so far, newest first (log 19)
  answers     : List Byte
  trace       : List Exchange
  xchgCount   : Nat
  busConfig   : Option BusConfig
  -- ghost time (R430) and the counter of free values (log 4)
  delayUs     : Nat
  freeCount   : Nat
  deriving DecidableEq, Repr

/-- R44 and R400, for an engine built with the parameters `p` (`00_scope.md` R7). The fields for which R44 says "unspecified" and the model's own fields have the values
logs 1, 2, 3, 4, 8, 12, 17, 18 and 19 name. -/
def State.resetWith (p : Params) : State where
  params := p
  initialized := false
  cardType := 0
  sectorCount := 0
  csd := 0
  cid := 0
  initState := .reset
  pathV2 := false
  pollCmd := 0
  pollArg := 0
  cs := .released
  clockHz := p.fInitHz
  attempt := 0
  frame := 0
  crc7acc := 0
  crc16acc := 0
  resp := []
  tok := 0
  buf := []
  requests := []
  result := .none
  error := none
  answers := []
  trace := []
  xchgCount := 0
  busConfig := none
  delayUs := 0
  freeCount := 0

/-- The state after reset of an engine built with the default of each parameter (R7). -/
def State.reset : State := State.resetWith defaultParams

end Sys2Proof.Machine
end

