-- ==== Sys2Proof/Machine/Ops.lean ====
section
/-!
DEFINITION. The named operations over the state: register writes, the block buffer, the transport
primitives of `20_memory.md` R50-R57, the bounded polls of `60_exceptions.md` R380, and the end of an
operation, which is also how an error is taken (R361, R372).
-/

namespace Sys2Proof.Machine

/-- What a meaning answers. -/
abbrev Answer := Host.Outcome State Fault Refusal

/-! ### The block buffer -/

/-- What a buffer byte that nothing has written reads as (log 2). -/
def Memory.blank : Byte := 0

/-- The canonical form: strictly rising addresses, all at least `low`, and no byte equal to `blank`. -/
def Memory.wfFrom : Nat → Memory → Bool
  | _, [] => true
  | low, (a, v) :: m => decide (low ≤ a) && v != Memory.blank && Memory.wfFrom (a + 1) m

/-- The canonical form of the whole buffer. -/
def Memory.wf (m : Memory) : Bool := Memory.wfFrom 0 m

/-- One byte of the buffer. -/
def Memory.read : Memory → Nat → Byte
  | [], _ => Memory.blank
  | (b, v) :: m, a => if a = b then v else Memory.read m a

/-- A byte put in front of the rest of the buffer, unless it is the blank. -/
def Memory.put (a : Nat) (v : Byte) (m : Memory) : Memory :=
  if v = Memory.blank then m else (a, v) :: m

/-- Write one byte, keeping the canonical form. -/
def Memory.write : Memory → Nat → Byte → Memory
  | [], a, v => Memory.put a v []
  | (b, w) :: m, a, v =>
    if a < b then Memory.put a v ((b, w) :: m)
    else if a = b then Memory.put a v m
    else (b, w) :: Memory.write m a v

/-- `MemRead(addr, n)` (`00_scope.md` R10). -/
def Memory.readBytes (m : Memory) (a : Nat) : Nat → List Byte
  | 0 => []
  | n + 1 => m.read a :: Memory.readBytes m (a + 1) n

/-- `MemWrite(addr, n, v)` (`00_scope.md` R10). -/
def Memory.writeBytes (m : Memory) (a : Nat) : List Byte → Memory
  | [] => m
  | v :: vs => Memory.writeBytes (m.write a v) (a + 1) vs

/-! ### Register writes -/

namespace State

/-- `SetCS(level)` (`10_state.md` R33). -/
def setCs (level : ChipSelect) (s : State) : State := { s with cs := level }

/-- `SetClock(hz)` (`20_memory.md` R57). -/
def setClock (hz : Nat) (s : State) : State := { s with clockHz := hz }

/-- `configure(BIT_ORDER, CLOCK_MODE, F_INIT_HZ)` (`20_memory.md` R56, log 18). -/
def configure (s : State) : State :=
  { s with
    clockHz := s.params.fInitHz
    busConfig := some ⟨s.params.bitOrder, s.params.clockMode, s.params.fInitHz⟩ }

/-- The index of the running bounded loop (`10_state.md` R35, log 16). -/
def setAttempt (k : Nat) (s : State) : State := { s with attempt := k }

/-- `Delay(us)` (`70_reset_and_hazards.md` R430, log 17). -/
def delay (us : Nat) (s : State) : State := { s with delayUs := s.delayUs + us }

/-- `FRAME <- ...` (`10_state.md` R36). -/
def setFrame (f : BitVec 48) (s : State) : State := { s with frame := f }

/-- The CRC7 accumulator at the end of a computation (`10_state.md` R39, log 20). -/
def setCrc7 (c : BitVec 7) (s : State) : State := { s with crc7acc := c }

/-- The CRC16 accumulator at the end of a computation (`10_state.md` R39, log 20). -/
def setCrc16 (c : BitVec 16) (s : State) : State := { s with crc16acc := c }

/-- `RESP <- ...` (`10_state.md` R40). -/
def setResp (bytes : List Byte) (s : State) : State := { s with resp := bytes }

/-- `TOK <- b` (`10_state.md` R40). -/
def setTok (b : Byte) (s : State) : State := { s with tok := b }

/-- `MemWrite` on the block buffer. -/
def storeBytes (a : Nat) (bytes : List Byte) (s : State) : State :=
  { s with buf := s.buf.writeBytes a bytes }

/-- `n` bytes of the block buffer become unspecified: free values (`20_memory.md` R66, log 4). -/
def unspecify (a n : Nat) (s : State) : State :=
  { s with
    buf := s.buf.writeBytes a ((List.range n).map (fun k => Config.freeByte (s.freeCount + k)))
    freeCount := s.freeCount + n }

/-- `S.initState <- next` (`44_init_fsm.md` R231). -/
def setInitState (next : InitState) (s : State) : State := { s with initState := next }

/-- `S.pathV2 <- b` (`10_state.md` R31). -/
def setPathV2 (b : Bool) (s : State) : State := { s with pathV2 := b }

/-- `S.pollCmd <- cmd; S.pollArg <- arg` (`10_state.md` R32). -/
def setPoll (cmd : BitVec 8) (arg : BitVec 32) (s : State) : State :=
  { s with pollCmd := cmd, pollArg := arg }

/-- `S.cardType <- v` (`10_state.md` R25). -/
def setCardType (v : BitVec 4) (s : State) : State := { s with cardType := v }

/-- `S.csd <- v` (`10_state.md` R27). -/
def setCsd (v : BitVec 128) (s : State) : State := { s with csd := v }

/-- `S.cid <- v` (`10_state.md` R28). -/
def setCid (v : BitVec 128) (s : State) : State := { s with cid := v }

/-- `S.sectorCount <- n` (`10_state.md` R26). -/
def setSectorCount (n : BitVec 64) (s : State) : State := { s with sectorCount := n }

/-- `S.initialized <- b` (`10_state.md` R24). -/
def setInitialized (b : Bool) (s : State) : State := { s with initialized := b }

/-- The end of an operation: `return v` with no class, or an error with its class. Nothing is saved and
nothing is entered; the engine is idle again (`60_exceptions.md` R361, R372, log 8). -/
def finish (value : Result) (cls : Option ErrorClass) (s : State) : State :=
  { s with result := value, error := cls }

/-- `raise Refused` (`60_exceptions.md` R366): the operation ends with the failure result. -/
def refuse (s : State) : State := s.finish .failure (some .refused)

/-- The card has the bytes of an item on its output line: they are its next answers (log 9). -/
def drive (bytes : List Byte) (s : State) : State := { s with answers := bytes ++ s.answers }

end State

/-! ### The transport -/

/-- The byte the card answers to the next exchange: the head of its queue, or a free value when the queue
is empty (`20_memory.md` R54, log 3). -/
def nextAnswer (s : State) : Byte :=
  match s.answers with
  | [] => Config.cardAnswer s.xchgCount
  | b :: _ => b

/-- `Xchg(o) -> i` (`20_memory.md` R50). -/
def xchg (o : Byte) (s : State) : Byte × State :=
  (nextAnswer s,
    { s with
      answers := s.answers.tail
      trace := ⟨o, nextAnswer s, s.cs⟩ :: s.trace
      xchgCount := s.xchgCount + 1 })

/-- `Send(o)` (`20_memory.md` R53): the byte received is ignored. -/
def send (o : Byte) (s : State) : State := (xchg o s).2

/-- `Recv()` (`20_memory.md` R53): the engine sends 0xFF. -/
def recv (s : State) : Byte × State := xchg 0xFF s

/-- `Send` of each byte in order, with no byte between them. -/
def sendBytes : List Byte → State → State
  | [], s => s
  | o :: os, s => sendBytes os (send o s)

/-- `n` times `Recv()`. -/
def recvBytes : Nat → State → List Byte × State
  | 0, s => ([], s)
  | n + 1, s =>
    ((recv s).1 :: (recvBytes n (recv s).2).1, (recvBytes n (recv s).2).2)

/-- A bounded poll (`60_exceptions.md` R380): for `S.attempt` from `k`, at most `fuel` receptions, up to
the first byte that `stop` accepts, with a delay after each miss. -/
def pollFrom (stop : Byte → Bool) (delayUs : Nat) : Nat → Nat → State → Option Byte × State
  | 0, _, s => (none, s)
  | fuel + 1, k, s =>
    let r := recv (s.setAttempt k)
    if stop r.1 then (some r.1, r.2)
    else pollFrom stop delayUs fuel (k + 1) (r.2.delay delayUs)

/-- A bounded poll with `S.attempt` in `1..budget`. -/
def poll (stop : Byte → Bool) (delayUs budget : Nat) (s : State) : Option Byte × State :=
  pollFrom stop delayUs budget 1 s

/-- The response poll of `41_command_framer.md` R158. -/
def pollResponse (s : State) : Option Byte × State := poll isResponse 0 s.params.maxWaitBytes s

/-- The in-command token poll of `41_command_framer.md` R160. -/
def pollTokenShort (s : State) : Option Byte × State := poll isToken 0 s.params.maxWaitBytes s

/-- The token poll of `43_data_block.md` R205. -/
def pollTokenLong (s : State) : Option Byte × State :=
  poll isToken s.params.tokenWaitDelayUs s.params.tokenWaitSteps s

/-- `WAIT_READY()` (`43_data_block.md` R200). -/
def waitReady (s : State) : Bool × State :=
  let r := poll isCardReady s.params.readyWaitDelayUs s.params.readyWaitSteps s
  (r.1.isSome, r.2)

end Sys2Proof.Machine
end

