-- ==== Sys2Proof/Machine/Command.lean ====
section
/-!
DEFINITION. The command sender (`41_command_framer.md` R155-R168) and the meanings of the Framer's unit
operations.
-/

namespace Sys2Proof.Machine

/-- What `SEND_COMMAND` returns: the response byte, the payload where R162 defines one, and the class
R163 books. -/
structure CmdOut where
  r1      : Byte
  payload : Option (List Byte)
  cls     : Option ErrorClass
  deriving DecidableEq, Repr

/-- The class of a command whose answer is not the one its caller requires (R163, log 15). -/
def CmdOut.failClass (o : CmdOut) : ErrorClass := o.cls.getD .protocolRejection

/-- A return with `ERR_SENTINEL` in place of a response (R106). -/
def sentinelOut (cls : ErrorClass) (s : State) : CmdOut × State :=
  (⟨s.params.errSentinel, none, some cls⟩, s)

/-- R150 as an operation: `FRAME <- BUILD_FRAME(index, argument)`. -/
def loadFrame (index : BitVec 6) (argument : BitVec 32) (s : State) : State :=
  (s.setCrc7 (crc7 (frameBody index argument))).setFrame (buildFrame index argument)

/-- Lines 6-8 of R155: the frame goes out, then the stuffing byte of a data-bearing command (R159). -/
def sendFrame (app : Bool) (index : BitVec 6) (argument : BitVec 32) (s : State) : State :=
  let s1 := loadFrame index argument s
  let s2 := sendBytes (frameBytes s1.frame) s1
  if dataBearing app index then (recv s2).2 else s2

/-- Lines 15-17 of R155 (R161): the payload that follows R1 directly. -/
def captureDirect (r1 : Byte) (respSize : Nat) (s : State) : CmdOut × State :=
  let r := recvBytes respSize s
  (⟨r1, some r.1, none⟩, r.2.setResp r.1)

/-- Lines 24-27 of R155 (R160): payload, CRC16, comparison. -/
def captureBlock (r1 : Byte) (respSize : Nat) (s : State) : CmdOut × State :=
  let r := recvBytes respSize s
  let t := recvBytes 2 (r.2.setResp r.1)
  let c := crc16 s.params.crc16Seed r.1
  if c.toNat = fromBe t.1 then (⟨r1, some r.1, none⟩, t.2.setCrc16 c)
  else sentinelOut .checksumMismatch (t.2.setCrc16 c)

/-- Lines 19-27 of R155 (R160): the start token, then the block. -/
def captureData (r1 : Byte) (respSize : Nat) (s : State) : CmdOut × State :=
  match pollTokenShort s with
  | (none, s1) => sentinelOut .transportTimeout s1
  | (some t, s1) =>
    if t = tokenStartByte then captureBlock r1 respSize (s1.setTok t)
    else sentinelOut .transportTimeout (s1.setTok t)

/-- Lines 14-27 of R155, once a response byte has arrived. -/
def afterResponse (bearing : Bool) (r1 : Byte) (respSize : Nat) (s : State) : CmdOut × State :=
  if respSize = 0 then (⟨r1, none, none⟩, s)
  else if !bearing then captureDirect r1 respSize s
  else if r1 ≠ 0 then (⟨r1, none, some .protocolRejection⟩, s)
  else captureData r1 respSize s

/-- Lines 6-27 of R155: one complete command transaction. -/
def transact (app : Bool) (index : BitVec 6) (argument : BitVec 32) (respSize : Nat) (s : State) :
    CmdOut × State :=
  match pollResponse (sendFrame app index argument s) with
  | (none, s1) => sentinelOut .transportTimeout s1
  | (some r1, s1) => afterResponse (dataBearing app index) r1 respSize s1

/-- R155: `SEND_COMMAND(cmd, argument, respSize)`; a refused code (line 1) answers class `refused` and
touches nothing (R121). -/
def sendCommand (cmd : Byte) (argument : BitVec 32) (respSize : Nat) (s : State) : CmdOut × State :=
  if cmdRefused cmd then sentinelOut .refused s
  else if cmdApp cmd then
    let p := transact false 55 0 0 s
    if noError p.1.r1 then transact true (cmdIndex cmd) argument respSize p.2
    else (⟨p.1.r1, none, some p.1.failClass⟩, p.2)
  else transact false (cmdIndex cmd) argument respSize s

/-- The loop of R165 for `S.attempt` from `k`; `last` is the response of the attempt before. -/
def retryFrom (cmd : Byte) (argument : BitVec 32) (required : Byte) (delayUs : Nat) :
    Nat → Nat → CmdOut → State → CmdOut × State
  | 0, _, last, s => (last, s)
  | fuel + 1, k, _, s =>
    let r := sendCommand cmd argument 0 (s.setAttempt k)
    if r.1.r1 = required then (⟨r.1.r1, none, none⟩, r.2)
    else retryFrom cmd argument required delayUs fuel (k + 1)
      ⟨r.1.r1, none, some r.1.failClass⟩ (r.2.delay delayUs)

/-- R165: `SEND_COMMAND_RETRY(cmd, argument, required, maxAttempts, delayUs)`. The first attempt with a
refused code raises `Refused` before anything is written (R366); without an attempt nothing is raised
(logs 14, 15). -/
def sendCommandRetry (cmd : Byte) (argument : BitVec 32) (required : Byte) (maxAttempts delayUs : Nat)
    (s : State) : CmdOut × State :=
  if cmdRefused cmd ∧ maxAttempts ≠ 0 then sentinelOut .refused s
  else retryFrom cmd argument required delayUs maxAttempts 1
    ⟨s.params.errSentinel, none, some .transportTimeout⟩ s

/-- The result of a command operation, or the failure of a refused one. -/
def finishCommand (r : CmdOut × State) : State :=
  if r.1.cls = some .refused then r.2.refuse
  else r.2.finish (.response r.1.r1 r.1.payload) r.1.cls

/-- The result of a retrying command operation, or the failure of a refused one. -/
def finishRetry (r : CmdOut × State) : State :=
  if r.1.cls = some .refused then r.2.refuse else r.2.finish (.responseByte r.1.r1) r.1.cls

/-- A command sent as its row of R95 says: its code and the response size of R98. -/
def commandRow (app : Bool) (index : BitVec 6) (argument : BitVec 32) (s : State) : State :=
  finishCommand (sendCommand (cmdCode app index) argument (rowRespSize app index) s)

/-! ### Meanings of the Framer's operations -/

/-- BUILD_FRAME (R150). -/
def execBuildFrame (index : BitVec 6) (argument : BitVec 32) (s : State) : Answer :=
  .next ((loadFrame index argument s).finish (.frame (buildFrame index argument)) none)

/-- The accumulator after PARSE_FRAME: the CRC7 is computed only when the first three checks pass
(R152, log 20). -/
def parseAccumulator (f : BitVec 48) (s : State) : State :=
  if !f.getLsbD 47 && f.getLsbD 46 && f.getLsbD 0 then s.setCrc7 (crc7 ((frameBytes f).take 5)) else s

/-- PARSE_FRAME (R152). -/
def execParseFrame (frame : BitVec 48) (s : State) : Answer :=
  .next ((parseAccumulator frame s).finish (.parsed (parseFrame frame)) (parseClass (parseFrame frame)))

/-- SEND_COMMAND (R155). -/
def execSendCommand (cmd : Byte) (argument : BitVec 32) (respSize : Nat) (s : State) : Answer :=
  .next (finishCommand (sendCommand cmd argument respSize s))

/-- SEND_COMMAND_RETRY (R165). -/
def execSendCommandRetry (cmd : Byte) (argument : BitVec 32) (required : Byte)
    (maxAttempts delayUs : Nat) (s : State) : Answer :=
  .next (finishRetry (sendCommandRetry cmd argument required maxAttempts delayUs s))

end Sys2Proof.Machine
end

