-- ==== Sys2Proof/Machine/Geometry.lean ====
section
/-!
DEFINITION. The Geometry Decoder (`45_geometry.md`): the bit-field reader and the CSD and CID decoders,
pure functions of a 128-bit register in wire order.
-/

namespace Sys2Proof.Machine

/-- R281: `FIELD(value, start, width)`, the position counted from bit 0; `none` where it is `Refused`; any width the
register holds (log 21). -/
def fieldOf (value : BitVec 128) (start width : Nat) : Option Nat :=
  if width = 0 ∨ 128 < start + width then none else some (value.toNat / 2 ^ start % 2 ^ width)

/-- R294: the capacity of a v1 register, in natural numbers. -/
def sizeV1 (cSize : BitVec 12) (cSizeMult : BitVec 3) (readBlLen : BitVec 4) : Nat :=
  ((cSize.toNat + 1) <<< (cSizeMult.toNat + 2)) <<< readBlLen.toNat

/-- R295: the capacity of a v2 or v3 register: units of 512 KiB. -/
def sizeFlat (cSize : Nat) : Nat := (cSize + 1) * 524288

/-- The variant region (R287) of the structure code (R285, R290). -/
def csdVariant (v : BitVec 128) : CsdVariant :=
  match (slice v 126 2).toNat with
  | 0 => .v1 (slice v 62 12) (slice v 59 3) (slice v 56 3) (slice v 53 3) (slice v 50 3) (slice v 47 3)
  | 1 => .v2 (slice v 48 22)
  | 2 => .v3 (slice v 48 28)
  | _ => .none

/-- The capacity of each variant (R294, R295); 0 for the unknown structure (R296). -/
def variantSize (readBlLen : BitVec 4) : CsdVariant → Nat
  | .v1 cSize _ _ _ _ cSizeMult => sizeV1 cSize cSizeMult readBlLen
  | .v2 cSize => sizeFlat cSize.toNat
  | .v3 cSize => sizeFlat cSize.toNat
  | .none => 0

/-- The structure is one of the three known (R285, R290). -/
def variantValid : CsdVariant → Bool
  | .v1 _ _ _ _ _ _ => true
  | .v2 _ => true
  | .v3 _ => true
  | .none => false

/-- R285: `CSD_DECODE(v)`; the positions are those of R286 and R288. -/
def csdDecode (v : BitVec 128) : CsdRecord where
  structureCode := slice v 126 2
  valid := variantValid (csdVariant v)
  taac := slice v 112 8
  nsac := slice v 104 8
  tranSpeed := slice v 96 8
  ccc := slice v 84 12
  readBlLen := slice v 80 4
  readBlPartial := slice v 79 1
  writeBlkMisalign := slice v 78 1
  readBlkMisalign := slice v 77 1
  dsrImp := slice v 76 1
  eraseBlkEn := slice v 46 1
  sectorSize := slice v 39 7
  wpGrpSize := slice v 32 7
  wpGrpEnable := slice v 31 1
  r2wFactor := slice v 26 3
  writeBlLen := slice v 22 4
  writeBlPartial := slice v 21 1
  fileFormatGrp := slice v 15 1
  copy := slice v 14 1
  permWriteProtect := slice v 13 1
  tmpWriteProtect := slice v 12 1
  fileFormat := slice v 10 2
  crc := slice v 1 7
  variant := csdVariant v
  size := variantSize (slice v 80 4) (csdVariant v)

/-- R300: `CID_DECODE(v)`; the positions are those of R301. -/
def cidDecode (v : BitVec 128) : CidRecord where
  mid := slice v 120 8
  oid := beBytes 2 (slice v 104 16).toNat
  pnm := beBytes 5 (slice v 64 40).toNat
  major := slice v 60 4
  minor := slice v 56 4
  psn := slice v 24 32
  year := 2000 + (slice v 12 8).toNat
  month := slice v 8 4
  crc := slice v 1 7

end Sys2Proof.Machine
end

