-- ==== Sys2Proof/Machine/Transceiver.lean ====
section
/-!
DEFINITION. The Data Block Transceiver (`43_data_block.md`). The operations answer the class of their
failure, or none when the spec's result is `true`.
-/

namespace Sys2Proof.Machine

/-- Lines 8-12 of R204, after the token 0xFE. -/
def receivePayload (offset length : Nat) (s : State) : Option ErrorClass × State :=
  let r := recvBytes length s
  let t := recvBytes 2 r.2
  let c := crc16 s.params.crc16Seed r.1
  if c.toNat = fromBe t.1 then (none, (t.2.setCrc16 c).storeBytes offset r.1)
  else (some .checksumMismatch, (t.2.setCrc16 c).unspecify offset length)

/-- R204: `RECEIVE_BLOCK(offset, length)`. After a failure the bytes at `offset` are unspecified (R208,
log 4). -/
def receiveBlock (offset length : Nat) (s : State) : Option ErrorClass × State :=
  match pollTokenLong s with
  | (none, s1) => (some .transportTimeout, s1.unspecify offset length)
  | (some t, s1) =>
    if t = tokenStartByte then receivePayload offset length (s1.setTok t)
    else (some .transportTimeout, (s1.setTok t).unspecify offset length)

/-- Lines 1-2 of R210: the token, once the card is ready; without a ready card nothing is sent (R211). -/
def sendToken (token : Byte) (s : State) : Option ErrorClass × State :=
  let r := waitReady s
  if r.1 then (none, send token r.2) else (some .transportTimeout, r.2)

/-- Lines 4-9 of R210: payload, computed CRC16 (R212), data response (R213). -/
def sendPayload (payload : List Byte) (s : State) : Option ErrorClass × State :=
  let c := crc16 s.params.crc16Seed payload
  let r := recv (sendBytes (payload ++ beBytes 2 c.toNat) (s.setCrc16 c))
  (if isAccepted r.1 then none else some .protocolRejection, r.2)

/-- R210 with the payload given: the stop token carries none (R123). -/
def transmitFrame (token : Byte) (payload : List Byte) (s : State) : Option ErrorClass × State :=
  match sendToken token s with
  | (some e, s1) => (some e, s1)
  | (none, s1) => if token = tokenStopTranByte then (none, s1) else sendPayload payload s1

/-- R210: `TRANSMIT_BLOCK(offset, token)`. -/
def transmitBlock (offset : Nat) (token : Byte) (s : State) : Option ErrorClass × State :=
  transmitFrame token (s.buf.readBytes offset sectorSize) s

/-- The end of an operation whose result is a boolean. -/
def finishBool (r : Option ErrorClass × State) : State := r.2.finish (.bool r.1.isNone) r.1

/-- WAIT_READY (R200). -/
def execWaitReady (s : State) : Answer :=
  let r := waitReady s
  .next (finishBool (if r.1 then none else some .transportTimeout, r.2))

/-- RECEIVE_BLOCK (R204). -/
def execReceiveBlock (offset length : Nat) (s : State) : Answer :=
  .next (finishBool (receiveBlock offset length s))

/-- TRANSMIT_BLOCK (R210). -/
def execTransmitBlock (offset : Nat) (token : Byte) (s : State) : Answer :=
  .next (finishBool (transmitBlock offset token s))

end Sys2Proof.Machine
end

