-- ==== Sys2Proof/Machine/Block.lean ====
section
/-!
DEFINITION. The Block Operation Layer (`46_block_ops.md`).
-/

namespace Sys2Proof.Machine

/-- The class of a command that must answer 0, or none when it did (`30_encoding.md` R102). -/
def requireReady (o : CmdOut) : Option ErrorClass := if isReady o.r1 then none else some o.failClass

/-- Steps 3-6 of R321: chip select is asserted around the body and released on every path. -/
def onBus (body : State → Option ErrorClass × State) (s : State) : State :=
  let r := body (s.setCs .asserted)
  (r.2.setCs .released).finish (.bool r.1.isNone) r.1

/-- Step 1 of R321 and `60_exceptions.md` R365: the not-initialized gate, before everything else. -/
def gated (s : State) (operation : State) : State :=
  if s.initialized then operation else s.finish (.bool false) (some .notInitialized)

/-! ### READ_SECTORS -/

/-- Lines 13-14 of R323: `n` blocks from block `k`; the first failure ends the loop, and every later
block of the operation is unspecified (R327, `20_memory.md` R66). -/
def readBlocks : Nat → Nat → State → Option ErrorClass × State
  | 0, _, s => (none, s)
  | n + 1, k, s =>
    match receiveBlock (sectorSize * k) sectorSize s with
    | (none, s1) => readBlocks n (k + 1) s1
    | (some e, s1) => (some e, s1.unspecify (sectorSize * (k + 1)) (sectorSize * n))

/-- Lines 6-8 of R323: CMD17 and one block. -/
def readSingle (arg : BitVec 32) (s : State) : Option ErrorClass × State :=
  let r := sendCommand 0x11 arg 0 s
  match requireReady r.1 with
  | none => receiveBlock 0 sectorSize r.2
  | some e => (some e, r.2.unspecify 0 sectorSize)

/-- Lines 10-15 of R323: CMD18, the blocks, and CMD12 whenever CMD18 was accepted (R326). -/
def readMultiple (arg : BitVec 32) (count : Nat) (s : State) : Option ErrorClass × State :=
  let r := sendCommand 0x12 arg 0 s
  match requireReady r.1 with
  | none =>
    let b := readBlocks count 0 r.2
    (b.1, (sendCommand 0x0C 0 0 b.2).2)
  | some e => (some e, r.2.unspecify 0 (sectorSize * count))

/-- R323 after the gate. -/
def readOperation (address : BitVec 64) (count : Nat) (s : State) : State :=
  if count = 0 then s.finish (.bool false) none
  else match cmdAddr (isBlock s.cardType) address.toNat with
    | none => s.refuse
    | some arg => onBus (if count = 1 then readSingle arg else readMultiple arg count) s

/-- READ_SECTORS (R323). -/
def execReadSectors (address : BitVec 64) (count : Nat) (s : State) : Answer :=
  .next (gated s (readOperation address count s))

/-! ### WRITE_SECTORS -/

/-- Lines 15-16 of R330: `n` blocks from block `k`, up to the first one not accepted. -/
def writeBlocks : Nat → Nat → State → Option ErrorClass × State
  | 0, _, s => (none, s)
  | n + 1, k, s =>
    match transmitBlock (sectorSize * k) tokenStartMultiWriteByte s with
    | (none, s1) => writeBlocks n (k + 1) s1
    | (some e, s1) => (some e, s1)

/-- Lines 6-8 of R330: CMD24 and one block. -/
def writeSingle (arg : BitVec 32) (s : State) : Option ErrorClass × State :=
  let r := sendCommand 0x18 arg 0 s
  match requireReady r.1 with
  | none => transmitBlock 0 tokenStartByte r.2
  | some e => (some e, r.2)

/-- Lines 10-11 of R330: the pre-erase count, on SD cards only; its result is ignored (R331). -/
def preErase (count : Nat) (s : State) : State :=
  if isSd1 s.cardType || isSd2 s.cardType then (sendCommand 0x97 (BitVec.ofNat 32 count) 0 s).2 else s

/-- Lines 10-17 of R330: CMD25, the blocks, and the stop token whenever CMD25 was accepted (R334). -/
def writeMultiple (arg : BitVec 32) (count : Nat) (s : State) : Option ErrorClass × State :=
  let r := sendCommand 0x19 arg 0 (preErase count s)
  match requireReady r.1 with
  | none =>
    let b := writeBlocks count 0 r.2
    let t := transmitBlock 0 tokenStopTranByte b.2
    (b.1.or t.1, t.2)
  | some e => (some e, r.2)

/-- R330 after the gate. -/
def writeOperation (address : BitVec 64) (count : Nat) (s : State) : State :=
  if count = 0 then s.finish (.bool false) none
  else match cmdAddr (isBlock s.cardType) address.toNat with
    | none => s.refuse
    | some arg => onBus (if count = 1 then writeSingle arg else writeMultiple arg count) s

/-- WRITE_SECTORS (R330). -/
def execWriteSectors (address : BitVec 64) (count : Nat) (s : State) : Answer :=
  .next (gated s (writeOperation address count s))

/-! ### ERASE_SECTORS -/

/-- Lines 6-8 of R338: CMD32, CMD33, CMD38, each only after the one before answered 0. -/
def eraseRange (first last : BitVec 32) (s : State) : Option ErrorClass × State :=
  let r := sendCommand 0x20 first 0 s
  match requireReady r.1 with
  | some e => (some e, r.2)
  | none =>
    let q := sendCommand 0x21 last 0 r.2
    match requireReady q.1 with
    | some e => (some e, q.2)
    | none =>
      let p := sendCommand 0x26 0 0 q.2
      (requireReady p.1, p.2)

/-- R338 after the gate; the end address is the last sector of the range (R339). -/
def eraseOperation (address : BitVec 64) (count : Nat) (s : State) : State :=
  if count = 0 then s.finish (.bool false) none
  else match cmdAddr (isBlock s.cardType) address.toNat,
      cmdAddr (isBlock s.cardType) (address.toNat + count - 1) with
    | some first, some last => onBus (eraseRange first last) s
    | none, _ => s.refuse
    | _, none => s.refuse

/-- ERASE_SECTORS (R338). -/
def execEraseSectors (address : BitVec 64) (count : Nat) (s : State) : Answer :=
  .next (gated s (eraseOperation address count s))

/-! ### SYNC and the accessors -/

/-- The body of SYNC (R343). -/
def syncBody (s : State) : Option ErrorClass × State :=
  let r := waitReady s
  (if r.1 then none else some .transportTimeout, r.2)

/-- SYNC (R343). -/
def execSync (s : State) : Answer := .next (gated s (onBus syncBody s))

/-- GET_SECTOR_SIZE (R346). -/
def execGetSectorSize (s : State) : Answer := .next (s.finish (.sectorSize sectorSize) none)

/-- GET_SECTOR_COUNT (R347). -/
def execGetSectorCount (s : State) : Answer := .next (s.finish (.sectorCount s.sectorCount) none)

/-- GET_CID (R348): the register, with its fields (`30_encoding.md` R118, log 22). -/
def execGetCid (s : State) : Answer :=
  .next (s.finish (.cidRegister s.cid (cidDecode s.cid)) none)

/-- GET_CSD (R349): the register, with its fields (`30_encoding.md` R118, log 22). -/
def execGetCsd (s : State) : Answer :=
  .next (s.finish (.csdRegister s.csd (csdDecode s.csd)) none)

end Sys2Proof.Machine
end

