-- ==== Sys2Proof/Machine/CommandRows.lean ====
section
/-!
DEFINITION. The command rows of `30_encoding.md` R95 as instructions: each is the command transaction of
`41_command_framer.md` R155 with the row's code and the response size of R98 (log 10).
-/

namespace Sys2Proof.Machine

/-- CMD0 (GO_IDLE_STATE, R241). -/
def execCmd0 (argument : BitVec 32) (s : State) : Answer := .next (commandRow false 0 argument s)

/-- CMD1 (SEND_OP_COND, R248). -/
def execCmd1 (argument : BitVec 32) (s : State) : Answer := .next (commandRow false 1 argument s)

/-- CMD8 (SEND_IF_COND, R243: R7). -/
def execCmd8 (argument : BitVec 32) (s : State) : Answer := .next (commandRow false 8 argument s)

/-- CMD9 (SEND_CSD, R260: R1 and a data block of 16). -/
def execCmd9 (argument : BitVec 32) (s : State) : Answer := .next (commandRow false 9 argument s)

/-- CMD10 (SEND_CID, R263: R1 and a data block of 16). -/
def execCmd10 (argument : BitVec 32) (s : State) : Answer := .next (commandRow false 10 argument s)

/-- CMD12 (STOP_TRANSMISSION, R326). -/
def execCmd12 (argument : BitVec 32) (s : State) : Answer := .next (commandRow false 12 argument s)

/-- CMD13 (SEND_STATUS, R95: R2). -/
def execCmd13 (argument : BitVec 32) (s : State) : Answer := .next (commandRow false 13 argument s)

/-- CMD16 (SET_BLOCKLEN, R258). -/
def execCmd16 (argument : BitVec 32) (s : State) : Answer := .next (commandRow false 16 argument s)

/-- CMD17 (READ_SINGLE_BLOCK, R324: R1; the block is received by RECEIVE_BLOCK). -/
def execCmd17 (argument : BitVec 32) (s : State) : Answer := .next (commandRow false 17 argument s)

/-- CMD18 (READ_MULTIPLE_BLOCK, R325). -/
def execCmd18 (argument : BitVec 32) (s : State) : Answer := .next (commandRow false 18 argument s)

/-- CMD23 (SET_BLOCK_COUNT, R95). -/
def execCmd23 (argument : BitVec 32) (s : State) : Answer := .next (commandRow false 23 argument s)

/-- CMD24 (WRITE_BLOCK, R332). -/
def execCmd24 (argument : BitVec 32) (s : State) : Answer := .next (commandRow false 24 argument s)

/-- CMD25 (WRITE_MULTIPLE_BLOCK, R333). -/
def execCmd25 (argument : BitVec 32) (s : State) : Answer := .next (commandRow false 25 argument s)

/-- CMD32 (ERASE_WR_BLK_START, R338). -/
def execCmd32 (argument : BitVec 32) (s : State) : Answer := .next (commandRow false 32 argument s)

/-- CMD33 (ERASE_WR_BLK_END, R338). -/
def execCmd33 (argument : BitVec 32) (s : State) : Answer := .next (commandRow false 33 argument s)

/-- CMD38 (ERASE, R338). -/
def execCmd38 (argument : BitVec 32) (s : State) : Answer := .next (commandRow false 38 argument s)

/-- CMD55 (APP_CMD, R156). -/
def execCmd55 (argument : BitVec 32) (s : State) : Answer := .next (commandRow false 55 argument s)

/-- CMD58 (READ_OCR, R250: R3). -/
def execCmd58 (argument : BitVec 32) (s : State) : Answer := .next (commandRow false 58 argument s)

/-- ACMD13 (SD_STATUS, R95, R425: R1 and a data block of 64 (log 11)). -/
def execAcmd13 (argument : BitVec 32) (s : State) : Answer := .next (commandRow true 13 argument s)

/-- ACMD23 (SET_WR_BLK_ERASE_COUNT, R331). -/
def execAcmd23 (argument : BitVec 32) (s : State) : Answer := .next (commandRow true 23 argument s)

/-- ACMD41 (SEND_OP_COND (SD), R248). -/
def execAcmd41 (argument : BitVec 32) (s : State) : Answer := .next (commandRow true 41 argument s)

end Sys2Proof.Machine
end

