-- ==== Sys2Proof/Machine/Init.lean ====
section
/-!
DEFINITION. The initialization state machine (`44_init_fsm.md`): BEGIN as the state machine of R231, one
definition per state, and END.
-/

namespace Sys2Proof.Machine

/-- What the action of a state leads to: the next state is entered, or the initialization fails with a
class (`60_exceptions.md` R362). -/
abbrev InitStep := Option ErrorClass × State

/-- The transition of a state whose action succeeded. -/
def goto (next : InitState) (s : State) : InitStep := (none, s.setInitState next)

/-- The transition to `Failed`. -/
def fail (cls : ErrorClass) (s : State) : InitStep := (some cls, s.setInitState .failed)

/-- R233: the entry of BEGIN. -/
def beginEntry (s : State) : State :=
  ((((((s.setInitialized false).setCardType 0).setSectorCount 0).configure).setClock
    s.params.fInitHz).setCs .released).setInitState .reset

/-- R240: state `Reset`. -/
def initReset (s : State) : InitStep :=
  goto .idleNegotiation
    ((sendBytes (List.replicate s.params.dummyBytes 0xFF) s).setCs .asserted)

/-- R241: state `IdleNegotiation`. -/
def initIdleNegotiation (s : State) : InitStep :=
  let r := sendCommandRetry 0x00 0 1 s.params.cmd0Attempts s.params.cmd0RetryDelayUs s
  if isIdle r.1.r1 then goto .versionBranch r.2 else fail r.1.failClass r.2

/-- R243: state `VersionBranch`; the payload stays in `RESP`. -/
def initVersionBranch (s : State) : InitStep :=
  let r := sendCommand 0x08 0x000001AA 4 s
  if isIdle r.1.r1 then goto .voltageCheck r.2 else goto .readyPoll (r.2.setPathV2 false)

/-- R244: state `VoltageCheck`. -/
def initVoltageCheck (s : State) : InitStep :=
  if (r7Fields 0x01 s.resp).echoOk then
    goto .readyPoll ((s.setPathV2 true).setPoll 0xA9 0x40000000)
  else goto .readyPoll (s.setPathV2 false)

/-- R252: the legacy probe of state `ReadyPoll`. -/
def legacyProbe (s : State) : State :=
  let q := sendCommand 0xA9 0 0 s
  q.2.setPoll (if noError q.1.r1 then 0xA9 else 0x01) 0

/-- R248: state `ReadyPoll`, after the probe of R252 on the legacy path. -/
def initReadyPoll (s : State) : InitStep :=
  let s1 := if s.pathV2 then s else legacyProbe s
  let r := sendCommandRetry s1.pollCmd s1.pollArg 0 s1.params.readyPollAttempts
    s1.params.readyPollDelayUs s1
  if isReady r.1.r1 then goto (if r.2.pathV2 then .ocrRead else .blockLengthSet) r.2
  else fail r.1.failClass r.2

/-- R250: state `OcrRead`. -/
def initOcrRead (s : State) : InitStep :=
  let r := sendCommand 0x3A 0 4 s
  if isReady r.1.r1 then
    goto .geometryRead (r.2.setCardType (v2CardType (r3Fields r.1.r1 r.2.resp).ccs))
  else fail r.1.failClass r.2

/-- R258, R255: state `BlockLengthSet`. -/
def initBlockLengthSet (s : State) : InitStep :=
  let r := sendCommand 0x10 512 0 s
  if isReady r.1.r1 then goto .geometryRead (r.2.setCardType (legacyCardType r.2.pollCmd))
  else fail r.1.failClass r.2

/-- R263: the CID half of state `GeometryRead`. -/
def readCid (s : State) : InitStep :=
  let r := sendCommand 0x0A 0 16 s
  if isReady r.1.r1 then goto .done (r.2.setCid (BitVec.ofNat 128 (fromBe r.2.resp)))
  else fail r.1.failClass r.2

/-- R262: the decoded capacity is usable. -/
def sizeAccepted (p : Params) (size : Nat) : Bool := size != 0 && decide (size ≤ p.maxSizeBytes)

/-- R260, R262, R263: state `GeometryRead`. -/
def initGeometryRead (s : State) : InitStep :=
  let r := sendCommand 0x09 0 16 s
  if isReady r.1.r1 then
    let s1 := r.2.setCsd (BitVec.ofNat 128 (fromBe r.2.resp))
    if sizeAccepted s1.params (csdDecode s1.csd).size then readCid s1 else fail .invalidGeometry s1
  else fail r.1.failClass r.2

/-- R231: the action of the current state and its transition. `Done` and `Failed` are terminal. -/
def initStep (s : State) : InitStep :=
  match s.initState with
  | .reset => initReset s
  | .idleNegotiation => initIdleNegotiation s
  | .versionBranch => initVersionBranch s
  | .voltageCheck => initVoltageCheck s
  | .readyPoll => initReadyPoll s
  | .ocrRead => initOcrRead s
  | .blockLengthSet => initBlockLengthSet s
  | .geometryRead => initGeometryRead s
  | .done => (none, s)
  | .failed => (none, s)

/-- At most `fuel` transitions, up to the first failure. -/
def runInit : Nat → State → InitStep
  | 0, s => (none, s)
  | fuel + 1, s =>
    match initStep s with
    | (none, s1) => runInit fuel s1
    | (some e, s1) => (some e, s1)

/-- The states of R231 from `Reset` to `Done`, longest path: `Reset`, `IdleNegotiation`,
`VersionBranch`, `VoltageCheck`, `ReadyPoll`, `OcrRead` or `BlockLengthSet`, `GeometryRead`. -/
def longestPath : Nat := 7

/-- R265: the actions of state `Done`. -/
def beginDone (frequency : Nat) (s : State) : State :=
  ((((s.setSectorCount (BitVec.ofNat 64 ((csdDecode s.csd).size >>> sectorShift))).setClock
    (min frequency s.params.fMaxHz)).setInitialized true).setCs .released).finish (.bool true) none

/-- R266: the actions of state `Failed`. -/
def beginFailed (cls : ErrorClass) (s : State) : State :=
  ((((s.setCardType 0).setSectorCount 0).setInitialized false).setCs .released).finish
    (.bool false) (some cls)

/-- BEGIN (R232). -/
def execBegin (frequency : Nat) (s : State) : Answer :=
  .next (match runInit longestPath (beginEntry s) with
    | (none, s1) => beginDone frequency s1
    | (some cls, s1) => beginFailed cls s1)

/-- END (R270). -/
def execEnd (s : State) : Answer :=
  .next (((s.setInitialized false).setCs .released).finish .done none)

end Sys2Proof.Machine
end

