-- ==== Sys2Proof/Machine/Units.lean ====
section
/-!
DEFINITION. The meanings of the pure unit operations: checksums (`40_checksum.md`), response extractors
(`42_response_parser.md`), geometry decoders (`45_geometry.md`), and of the reserved selects. None of
them exchanges a byte.
-/

namespace Sys2Proof.Machine

/-- CRC7 (R131). -/
def execCrc7 (data : List Byte) (s : State) : Answer :=
  .next ((s.setCrc7 (crc7 data)).finish (.crc7 (crc7 data)) none)

/-- CRC16 (R136). -/
def execCrc16 (seed : BitVec 16) (data : List Byte) (s : State) : Answer :=
  .next ((s.setCrc16 (crc16 seed data)).finish (.crc16 (crc16 seed data)) none)

/-- R1_EXTRACT (R181). -/
def execR1Extract (b : Byte) (s : State) : Answer :=
  .next (s.finish (.r1Fields (r1Fields b)) none)

/-- R2_EXTRACT (R184). -/
def execR2Extract (first status : Byte) (s : State) : Answer :=
  .next (s.finish (.r2Fields (r2Fields first status)) none)

/-- R3_EXTRACT (R187). -/
def execR3Extract (first : Byte) (payload : List Byte) (s : State) : Answer :=
  .next (s.finish (.r3Fields (r3Fields first payload)) none)

/-- R7_EXTRACT (R190). -/
def execR7Extract (first : Byte) (payload : List Byte) (s : State) : Answer :=
  .next (s.finish (.r7Fields (r7Fields first payload)) none)

/-- FIELD (R281). -/
def execField (value : BitVec 128) (start width : Nat) (s : State) : Answer :=
  .next (match fieldOf value start width with
    | some v => s.finish (.field width v) none
    | none => s.refuse)

/-- CSD_DECODE (R285); an unknown structure is class (d), reported in the record (`60_exceptions.md`
R364). -/
def execCsdDecode (value : BitVec 128) (s : State) : Answer :=
  .next (s.finish (.csd (csdDecode value))
    (if (csdDecode value).valid then none else some .invalidGeometry))

/-- CID_DECODE (R300). -/
def execCidDecode (value : BitVec 128) (s : State) : Answer :=
  .next (s.finish (.cid (cidDecode value)) none)

/-- The reserved selects 10-15 (`30_encoding.md` R122): `Refused`, "with no state change". -/
def execReserved (_select : BitVec 5) (s : State) : Answer := .next s.refuse

end Sys2Proof.Machine
end

