-- ==== Sys2Proof/Machine/WireItems.lean ====
section
/-!
DEFINITION. The rows of the opcode table that are items on the wire: responses (`30_encoding.md`
R100-R105), data tokens (R110), the data response (R113) and the data block frame (R112). An item the
card sends is driven by the card and read by the engine's own reader of its format; an item the engine
sends is sent as `43_data_block.md` R210 sends it (log 9).
-/

namespace Sys2Proof.Machine

/-- The response poll (`41_command_framer.md` R158), then `extra` bytes directly after R1 (R161); `make`
gives the fields. -/
def readResponse (extra : Nat) (make : Byte → List Byte → Result) (s : State) : State :=
  match pollResponse s with
  | (none, s1) => s1.finish .failure (some .transportTimeout)
  | (some r1, s1) =>
    let r := captureDirect r1 extra s1
    r.2.finish (make r1 r.2.resp) none

/-- R1 (R101, R181): no byte follows, so nothing is captured. -/
def execR1 (flags : BitVec 7) (s : State) : Answer :=
  .next (match pollResponse (s.drive [responseByte flags]) with
    | (none, s1) => s1.finish .failure (some .transportTimeout)
    | (some r1, s1) => s1.finish (.r1Fields (r1Fields r1)) none)

/-- R2 (R103, R184): one status byte follows. -/
def execR2 (flags : BitVec 7) (status : Byte) (s : State) : Answer :=
  .next (readResponse 1 (fun r1 p => .r2Fields (r2Fields r1 (p.getD 0 0)))
    (s.drive [responseByte flags, status]))

/-- R3 (R104, R187): the four bytes of the OCR follow. -/
def execR3 (flags : BitVec 7) (ocr : BitVec 32) (s : State) : Answer :=
  .next (readResponse 4 (fun r1 p => .r3Fields (r3Fields r1 p))
    (s.drive (responseByte flags :: beBytes 4 ocr.toNat)))

/-- R7 (R105, R190): the four bytes of the interface condition follow. -/
def execR7 (flags : BitVec 7) (value : BitVec 32) (s : State) : Answer :=
  .next (readResponse 4 (fun r1 p => .r7Fields (r7Fields r1 p))
    (s.drive (responseByte flags :: beBytes 4 value.toNat)))

/-- The token poll of `43_data_block.md` R205 and its test. -/
def receiveToken (s : State) : State :=
  match pollTokenLong s with
  | (none, s1) => s1.finish .failure (some .transportTimeout)
  | (some t, s1) =>
    (s1.setTok t).finish (.token t) (if t = tokenStartByte then none else some .transportTimeout)

/-- TOKEN_START (R110): received before a read block, sent before a single-block write (R111). -/
def execTokenStart (dir : Direction) (s : State) : Answer :=
  match dir with
  | .fromCard => .next (receiveToken (s.drive [tokenStartByte]))
  | .toCard => .next (finishBool (sendToken tokenStartByte s))

/-- TOKEN_START_MULTI_WRITE (R110): sent before each block of CMD25. -/
def execTokenStartMultiWrite (s : State) : Answer :=
  .next (finishBool (sendToken tokenStartMultiWriteByte s))

/-- TOKEN_STOP_TRAN (R110, R210): "return success immediately (no payload)". -/
def execTokenStopTran (s : State) : Answer :=
  .next (finishBool (transmitFrame tokenStopTranByte [] s))

/-- DATA_RESPONSE_ACCEPTED (R113, `43_data_block.md` R213): one byte, no polling. -/
def execDataResponseAccepted (ignored : BitVec 3) (s : State) : Answer :=
  let r := recv (s.drive [acceptedByte ignored])
  .next (finishBool (if isAccepted r.1 then none else some .protocolRejection, r.2))

/-- DATA_BLOCK (R112): received to the start of the block buffer as R204 receives it, or sent as R210
sends it (log 24). -/
def execDataBlock (dir : Direction) (token : Byte) (payload : List Byte) (s : State) : Answer :=
  match dir with
  | .fromCard =>
    .next (finishBool (receiveBlock 0 payload.length
      (s.drive (token :: (payload ++ beBytes 2 (crc16 s.params.crc16Seed payload).toNat)))))
  | .toCard => .next (finishBool (transmitFrame token payload s))

end Sys2Proof.Machine
end

