-- ==== Sys2Proof/Machine/Dispatch.lean ====
section
/-!
DEFINITION. One arm per instruction.
-/

namespace Sys2Proof.Machine

def exec (i : Instr) (s : State) : Host.Outcome State Fault Refusal :=
  match i with
  | .cmd0 argument => Sys2Proof.Machine.execCmd0 argument s
  | .cmd1 argument => Sys2Proof.Machine.execCmd1 argument s
  | .cmd8 argument => Sys2Proof.Machine.execCmd8 argument s
  | .cmd9 argument => Sys2Proof.Machine.execCmd9 argument s
  | .cmd10 argument => Sys2Proof.Machine.execCmd10 argument s
  | .cmd12 argument => Sys2Proof.Machine.execCmd12 argument s
  | .cmd13 argument => Sys2Proof.Machine.execCmd13 argument s
  | .cmd16 argument => Sys2Proof.Machine.execCmd16 argument s
  | .cmd17 argument => Sys2Proof.Machine.execCmd17 argument s
  | .cmd18 argument => Sys2Proof.Machine.execCmd18 argument s
  | .cmd23 argument => Sys2Proof.Machine.execCmd23 argument s
  | .cmd24 argument => Sys2Proof.Machine.execCmd24 argument s
  | .cmd25 argument => Sys2Proof.Machine.execCmd25 argument s
  | .cmd32 argument => Sys2Proof.Machine.execCmd32 argument s
  | .cmd33 argument => Sys2Proof.Machine.execCmd33 argument s
  | .cmd38 argument => Sys2Proof.Machine.execCmd38 argument s
  | .cmd55 argument => Sys2Proof.Machine.execCmd55 argument s
  | .cmd58 argument => Sys2Proof.Machine.execCmd58 argument s
  | .acmd13 argument => Sys2Proof.Machine.execAcmd13 argument s
  | .acmd23 argument => Sys2Proof.Machine.execAcmd23 argument s
  | .acmd41 argument => Sys2Proof.Machine.execAcmd41 argument s
  | .r1 flags => Sys2Proof.Machine.execR1 flags s
  | .r2 flags status => Sys2Proof.Machine.execR2 flags status s
  | .r3 flags ocr => Sys2Proof.Machine.execR3 flags ocr s
  | .r7 flags value => Sys2Proof.Machine.execR7 flags value s
  | .tokenStart dir => Sys2Proof.Machine.execTokenStart dir s
  | .tokenStartMultiWrite => Sys2Proof.Machine.execTokenStartMultiWrite s
  | .tokenStopTran => Sys2Proof.Machine.execTokenStopTran s
  | .dataResponseAccepted ignored => Sys2Proof.Machine.execDataResponseAccepted ignored s
  | .dataBlock dir token payload => Sys2Proof.Machine.execDataBlock dir token payload s
  | .beginOp frequency => Sys2Proof.Machine.execBegin frequency s
  | .endOp => Sys2Proof.Machine.execEnd s
  | .readSectors address count => Sys2Proof.Machine.execReadSectors address count s
  | .writeSectors address count => Sys2Proof.Machine.execWriteSectors address count s
  | .eraseSectors address count => Sys2Proof.Machine.execEraseSectors address count s
  | .sync => Sys2Proof.Machine.execSync s
  | .getSectorSize => Sys2Proof.Machine.execGetSectorSize s
  | .getSectorCount => Sys2Proof.Machine.execGetSectorCount s
  | .getCid => Sys2Proof.Machine.execGetCid s
  | .getCsd => Sys2Proof.Machine.execGetCsd s
  | .crc7 data => Sys2Proof.Machine.execCrc7 data s
  | .crc16 seed data => Sys2Proof.Machine.execCrc16 seed data s
  | .buildFrame index argument => Sys2Proof.Machine.execBuildFrame index argument s
  | .parseFrame frame => Sys2Proof.Machine.execParseFrame frame s
  | .sendCommand cmd argument respSize => Sys2Proof.Machine.execSendCommand cmd argument respSize s
  | .sendCommandRetry cmd argument required maxAttempts delayUs => Sys2Proof.Machine.execSendCommandRetry cmd argument required maxAttempts delayUs s
  | .r1Extract b => Sys2Proof.Machine.execR1Extract b s
  | .r2Extract first status => Sys2Proof.Machine.execR2Extract first status s
  | .r3Extract first payload => Sys2Proof.Machine.execR3Extract first payload s
  | .r7Extract first payload => Sys2Proof.Machine.execR7Extract first payload s
  | .waitReady => Sys2Proof.Machine.execWaitReady s
  | .receiveBlock offset length => Sys2Proof.Machine.execReceiveBlock offset length s
  | .transmitBlock offset token => Sys2Proof.Machine.execTransmitBlock offset token s
  | .field value start width => Sys2Proof.Machine.execField value start width s
  | .csdDecode value => Sys2Proof.Machine.execCsdDecode value s
  | .cidDecode value => Sys2Proof.Machine.execCidDecode value s
  | .reserved select => Sys2Proof.Machine.execReserved select s

end Sys2Proof.Machine
end

