-- ==== Sys2Proof/Machine/Step.lean ====
section
/-!
DEFINITION. One step: the engine takes the oldest request of the host, decodes it and runs it to its end
(`00_scope.md` R12, R15; `20_memory.md` R70). With no request the engine is idle and a step changes
nothing (log 6).
-/

namespace Sys2Proof.Machine

def step (s : State) : Host.Outcome State Fault Refusal :=
  match s.requests with
  | [] => .next s
  | item :: rest =>
    match decode s.params.crc16Seed item with
    | .ok i => exec i { s with requests := rest }
    | .error e => .refused (.undecodable e)

/-- The step as `00_scope.md` R7 has it: the whole record `Params` is an argument of the step function. `step` is
this function at the record that the state carries (log 5; `step_eq_stepWith`). -/
def stepWith (p : Params) (s : State) : Host.Outcome State Fault Refusal := step { s with params := p }

/-- The state with the instruction of a table row's word as its oldest request (logs 12, 13). -/
def State.withFetchWord (s : State) (nbits w : Nat) : State :=
  { s with requests := tableItem nbits w :: s.requests }

end Sys2Proof.Machine
end

