-- ==== Sys2Proof/Machine/Bounds.lean ====
section
/-!
DEFINITION. The worst cases of `70_reset_and_hazards.md` R431, row by row of its table, as functions of the
parameters: the exchanges of an operation (counted in `State.xchgCount`) and its delays in microseconds
(counted in `State.delayUs`, log 17). R431 gives their values at the defaults of `00_scope.md` R7. No step
reads them: they say how long an operation can take.
-/

namespace Sys2Proof.Machine

/-! ### Exchanges -/

/-- After the response byte: nothing, the direct payload of `n` bytes, or the token poll and a block with its
CRC16 (`41_command_framer.md` R160, R161); `w` is `MAX_WAIT_BYTES`. -/
def tailBound (bearing : Bool) (w n : Nat) : Nat :=
  if n = 0 then 0 else if bearing then w + (n + 2) else n

/-- One command transaction: frame, stuffing byte, response poll, and what follows (R155 lines 6-27). -/
def transactBound (app : Bool) (index : BitVec 6) (w n : Nat) : Nat :=
  6 + stuffing app index + w + tailBound (dataBearing app index) w n

/-- R431, rows `SEND_COMMAND`: one transaction; of an application command the CMD55 transaction more; a
refused code touches no wire (`30_encoding.md` R121). -/
def commandBound (cmd : Byte) (w n : Nat) : Nat :=
  if cmdRefused cmd then 0
  else if cmdApp cmd then transactBound false 55 w 0 + transactBound true (cmdIndex cmd) w n
  else transactBound false (cmdIndex cmd) w n

/-- R431, row `WAIT_READY`. -/
def waitReadyBound (p : Params) : Nat := p.readyWaitSteps

/-- R431, row `RECEIVE_BLOCK(_, length)`: token poll, payload, CRC16. -/
def receiveBlockBound (p : Params) (length : Nat) : Nat := p.tokenWaitSteps + length + 2

/-- R431, row `TRANSMIT_BLOCK`: ready wait, token, payload, CRC16, data response. -/
def transmitBlockBound (p : Params) : Nat := waitReadyBound p + 1 + sectorSize + 2 + 1

/-- R431, rows `BEGIN`: the dummy bytes; CMD0; CMD8; the legacy probe, where the path is not V2; the poll of
ACMD41; CMD58 or CMD16; CMD9; CMD10. -/
def beginBound (p : Params) (v2 : Bool) : Nat :=
  p.dummyBytes + p.cmd0Attempts * commandBound 0x00 p.maxWaitBytes 0 + commandBound 0x08 p.maxWaitBytes 4 +
    (if v2 then 0 else commandBound 0xA9 p.maxWaitBytes 0) +
    p.readyPollAttempts * commandBound 0xA9 p.maxWaitBytes 0 +
    (if v2 then commandBound 0x3A p.maxWaitBytes 4 else commandBound 0x10 p.maxWaitBytes 0) +
    (commandBound 0x09 p.maxWaitBytes 16 + commandBound 0x0A p.maxWaitBytes 16)

/-! ### Delays, in microseconds -/

/-- R431: the CMD0 loop (`44_init_fsm.md` R241). -/
def cmd0LoopDelay (p : Params) : Nat := p.cmd0Attempts * p.cmd0RetryDelayUs

/-- R431: the ready poll (`44_init_fsm.md` R248). -/
def readyPollDelay (p : Params) : Nat := p.readyPollAttempts * p.readyPollDelayUs

/-- R431: the action of a state of the initialization; none but these two delays. -/
def stateDelay (p : Params) : InitState → Nat
  | .idleNegotiation => cmd0LoopDelay p
  | .readyPoll => readyPollDelay p
  | .reset | .versionBranch | .voltageCheck | .ocrRead | .blockLengthSet | .geometryRead | .done | .failed => 0

/-- R431: one ready wait (`43_data_block.md` R200). -/
def readyWaitDelay (p : Params) : Nat := p.readyWaitSteps * p.readyWaitDelayUs

/-- R431: one token wait (`43_data_block.md` R205). -/
def tokenWaitDelay (p : Params) : Nat := p.tokenWaitSteps * p.tokenWaitDelayUs

end Sys2Proof.Machine
end

