-- ==== Sys2Proof/Safety.lean ====
section
/-!
DEFINITION. The terms claims are made in: what travels on the wire, what a card answers, which parts of
the state an operation leaves alone, and the invariant of an idle engine.
-/

namespace Sys2Proof.Machine

/-! ### The wire -/

/-- `n` bytes 0xFF: what the engine sends while it only receives (`20_memory.md` R53). -/
def fillers (n : Nat) : List Byte := List.replicate n 0xFF

/-- The bytes the engine has sent so far, first first. -/
def State.sent (s : State) : List Byte := (s.trace.map Exchange.mosi).reverse

/-- The bytes the card has sent so far, first first. -/
def State.got (s : State) : List Byte := (s.trace.map Exchange.miso).reverse

/-- The exchanges of `mosi` against `miso` under one level of chip select, newest first. -/
def exchanges (cs : ChipSelect) (mosi miso : List Byte) : List Exchange :=
  (List.zipWith (fun o i => ⟨o, i, cs⟩) mosi miso).reverse

/-- The state after exactly the exchanges of `mosi`, which the card answered with `miso`, and nothing
else. -/
def State.onWire (mosi miso : List Byte) (s : State) : State :=
  { s with
    answers := s.answers.drop mosi.length
    trace := exchanges s.cs mosi miso ++ s.trace
    xchgCount := s.xchgCount + mosi.length }

/-- What a card answers to one command (`70_reset_and_hazards.md` R411, R412): bytes the engine ignores
while it sends the frame and the stuffing byte, filler, one response byte. -/
structure Reply where
  ignored : List Byte
  fill    : List Byte
  r1      : Byte
  deriving DecidableEq, Repr

/-- The reply as it arrives. -/
def Reply.bytes (q : Reply) : List Byte := q.ignored ++ (q.fill ++ [q.r1])

/-- The reply is one the engine hears: the filler has bit 7 = 1, the response has bit 7 = 0 and comes
within the budget (R411). -/
def Reply.Heard (maxWait stuff : Nat) (q : Reply) : Prop :=
  q.ignored.length = 6 + stuff ∧ (∀ b ∈ q.fill, b.getLsbD 7 = true) ∧ q.fill.length < maxWait ∧
    q.r1.getLsbD 7 = false

/-- What the engine sends for a command up to its response byte. -/
def Reply.mosi (app : Bool) (index : BitVec 6) (argument : BitVec 32) (q : Reply) : List Byte :=
  frameBytes (buildFrame index argument) ++ fillers (stuffing app index + q.fill.length + 1)

/-- The bytes that precede the reply to a command: for an application command the reply `p` to CMD55. -/
def Reply.lead (app : Bool) (p : Reply) : List Byte := if app then p.bytes else []

/-- For an application command: CMD55 is answered and accepted. -/
def Reply.Leads (app : Bool) (maxWait : Nat) (p : Reply) : Prop :=
  app = true → p.Heard maxWait 0 ∧ p.r1.toNat ≤ 1

/-- What the engine sends before the frame of a command: for an application command its CMD55. -/
def Reply.leadMosi (app : Bool) (p : Reply) : List Byte := if app then p.mosi false 55 0 else []

/-- The card drives `ignored` during a frame and its stuffing byte and then `silent`, the whole response poll,
without a response (`41_command_framer.md` R158). -/
structure Silent (maxWait stuff : Nat) (ignored silent : List Byte) : Prop where
  duringFrame : ignored.length = 6 + stuff
  wholePoll   : silent.length = maxWait
  noReply     : ∀ b ∈ silent, b.getLsbD 7 = true

/-- How a command without payload can go (`41_command_framer.md` R155 lines 1-14): it is answered, or not; of
an application command CMD55 is turned away (R156), or not answered. `lead` is the answer to CMD55, which only
an application command sends. -/
inductive Attempt where
  | answered (lead reply : Reply)
  | unanswered (lead : Reply) (ignored silent : List Byte)
  | leadRejected (lead : Reply)
  | leadUnanswered (ignored silent : List Byte)
  deriving DecidableEq, Repr

/-- What the card drives meanwhile. -/
def Attempt.bytes (app : Bool) : Attempt → List Byte
  | .answered lead reply => lead.lead app ++ reply.bytes
  | .unanswered lead ignored silent => lead.lead app ++ (ignored ++ silent)
  | .leadRejected lead => lead.bytes
  | .leadUnanswered ignored silent => ignored ++ silent

/-- What the engine sends meanwhile. -/
def Attempt.mosi (app : Bool) (index : BitVec 6) (argument : BitVec 32) : Attempt → List Byte
  | .answered lead reply => lead.leadMosi app ++ reply.mosi app index argument
  | .unanswered lead _ silent => lead.leadMosi app ++
      (frameBytes (buildFrame index argument) ++ fillers (stuffing app index + silent.length))
  | .leadRejected lead => lead.mosi false 55 0
  | .leadUnanswered _ silent => frameBytes (buildFrame 55 0) ++ fillers silent.length

/-- The command goes so. A CMD55 that is not answered counts as rejected because the sentinel that stands for
its answer exceeds 1 (R156; by `30_encoding.md` R106 its bit 7 is 1, log 23). -/
def Attempt.Runs (p : Params) (app : Bool) (index : BitVec 6) : Attempt → Prop
  | .answered lead reply => lead.Leads app p.maxWaitBytes ∧ reply.Heard p.maxWaitBytes (stuffing app index)
  | .unanswered lead ignored silent =>
    lead.Leads app p.maxWaitBytes ∧ Silent p.maxWaitBytes (stuffing app index) ignored silent
  | .leadRejected lead => app = true ∧ lead.Heard p.maxWaitBytes 0 ∧ 1 < lead.r1.toNat
  | .leadUnanswered ignored silent =>
    app = true ∧ Silent p.maxWaitBytes 0 ignored silent ∧ 1 < p.errSentinel.toNat

/-- The result of SEND_COMMAND (R156, R158, R162). -/
def Attempt.r1 (sentinel : Byte) : Attempt → Byte
  | .answered _ reply => reply.r1
  | .unanswered _ _ _ => sentinel
  | .leadRejected lead => lead.r1
  | .leadUnanswered _ _ => sentinel

/-- The class of the attempt where its result is not the one required (R163, log 15). -/
def Attempt.failClass : Attempt → ErrorClass
  | .answered _ _ => .protocolRejection
  | .unanswered _ _ _ => .transportTimeout
  | .leadRejected _ => .protocolRejection
  | .leadUnanswered _ _ => .transportTimeout

/-- The command itself is answered, so that bytes may follow its R1. -/
def Attempt.responds : Attempt → Bool
  | .answered _ _ => true
  | _ => false

/-- The command transaction an instruction is: its code (`30_encoding.md` R90, R95), its argument, and the
payload bytes captured after R1 (R98; CMD17 as `46_block_ops.md` R324 sends it, log 10). -/
def commandOf : Instr → Option (Byte × BitVec 32 × Nat)
  | .cmd0 argument => some (0x00, argument, 0)
  | .cmd1 argument => some (0x01, argument, 0)
  | .cmd8 argument => some (0x08, argument, 4)
  | .cmd9 argument => some (0x09, argument, 16)
  | .cmd10 argument => some (0x0A, argument, 16)
  | .cmd12 argument => some (0x0C, argument, 0)
  | .cmd13 argument => some (0x0D, argument, 1)
  | .cmd16 argument => some (0x10, argument, 0)
  | .cmd17 argument => some (0x11, argument, 0)
  | .cmd18 argument => some (0x12, argument, 0)
  | .cmd23 argument => some (0x17, argument, 0)
  | .cmd24 argument => some (0x18, argument, 0)
  | .cmd25 argument => some (0x19, argument, 0)
  | .cmd32 argument => some (0x20, argument, 0)
  | .cmd33 argument => some (0x21, argument, 0)
  | .cmd38 argument => some (0x26, argument, 0)
  | .cmd55 argument => some (0x37, argument, 0)
  | .cmd58 argument => some (0x3A, argument, 4)
  | .acmd13 argument => some (0x8D, argument, 64)
  | .acmd23 argument => some (0x97, argument, 0)
  | .acmd41 argument => some (0xA9, argument, 0)
  | .sendCommand cmd argument respSize => some (cmd, argument, respSize)
  | _ => none

/-- A data block as a card sends it (`70_reset_and_hazards.md` R413): `wait` bytes 0xFF, the start token,
the payload, its CRC16. -/
structure Block where
  wait    : Nat
  payload : List Byte
  deriving DecidableEq, Repr

/-- The block as it arrives. -/
def Block.bytes (seed : BitVec 16) (d : Block) : List Byte :=
  fillers d.wait ++ (tokenStartByte :: (d.payload ++ beBytes 2 (crc16 seed d.payload).toNat))

/-- The exchanges a block takes. -/
def Block.count (d : Block) : Nat := d.wait + 1 + d.payload.length + 2

/-- The block is one the engine accepts: the token comes within the budget. -/
def Block.Sector (tokenWait : Nat) (d : Block) : Prop := d.wait < tokenWait ∧ d.payload.length = 512

/-- What the card sends where the reception of a block of `n` bytes fails, and the class of the failure
(`43_data_block.md` R205, R207): no token within the budget, another token, or a CRC16 that does not match. -/
inductive BrokenBlock (p : Params) (n : Nat) : List Byte → ErrorClass → Prop
  | noToken : BrokenBlock p n (fillers p.tokenWaitSteps) .transportTimeout
  | wrongToken (k : Nat) (token : Byte) : k < p.tokenWaitSteps → token ≠ 0xFF → token ≠ 0xFE →
    BrokenBlock p n (fillers k ++ [token]) .transportTimeout
  | wrongChecksum (k : Nat) (payload : List Byte) (hi lo : Byte) : k < p.tokenWaitSteps → payload.length = n →
    (crc16 p.crc16Seed payload).toNat ≠ fromBe [hi, lo] →
    BrokenBlock p n (fillers k ++ (0xFE :: (payload ++ [hi, lo]))) .checksumMismatch

/-- A ready wait as a card answers it (R414): `busy` bytes other than 0xFF, then 0xFF. -/
def readyBytes (busy : List Byte) : List Byte := busy ++ [0xFF]

/-- A written block as the engine sends it, after the ready wait: token, payload, CRC16, and the byte
during which it reads the data response (`43_data_block.md` R210). -/
def blockMosi (seed : BitVec 16) (token : Byte) (payload : List Byte) : List Byte :=
  token :: (payload ++ beBytes 2 (crc16 seed payload).toNat ++ fillers 1)

/-- How a card takes a written block: `busy` bytes other than 0xFF and then 0xFF, the bytes it drives
during token, payload and CRC16, its data response (`70_reset_and_hazards.md` R414, R415). -/
structure Taken where
  busy    : List Byte
  ignored : List Byte
  resp    : Byte
  deriving DecidableEq, Repr

/-- The bytes as they arrive. -/
def Taken.bytes (d : Taken) : List Byte := readyBytes d.busy ++ (d.ignored ++ [d.resp])

/-- The card becomes ready within the budget and answers one data response. -/
def Taken.Heard (readyWait : Nat) (d : Taken) : Prop :=
  (∀ b ∈ d.busy, b ≠ 0xFF) ∧ d.busy.length < readyWait ∧ d.ignored.length = 515

/-- What the engine sends for a written block, its ready wait included. -/
def Taken.mosi (seed : BitVec 16) (token : Byte) (payload : List Byte) (d : Taken) : List Byte :=
  fillers (d.busy.length + 1) ++ blockMosi seed token payload

/-- How a card does not take a written block: it answers a data response that is no acceptance
(`43_data_block.md` R213), or stays busy through the whole ready wait (R211). -/
inductive Untaken where
  | rejected (d : Taken)
  | busy (bytes : List Byte)
  deriving DecidableEq, Repr

/-- The bytes as they arrive. -/
def Untaken.bytes : Untaken → List Byte
  | .rejected d => d.bytes
  | .busy bytes => bytes

/-- The card does not take the block. -/
def Untaken.Heard (readyWait : Nat) : Untaken → Prop
  | .rejected d => d.Heard readyWait ∧ slice d.resp 0 5 ≠ (0b00101 : BitVec 5)
  | .busy bytes => (∀ b ∈ bytes, b ≠ 0xFF) ∧ bytes.length = readyWait

/-- What the engine sends for the block: of a card that stays busy it only waits (R211). -/
def Untaken.mosi (seed : BitVec 16) (token : Byte) (payload : List Byte) : Untaken → List Byte
  | .rejected d => d.mosi seed token payload
  | .busy bytes => fillers bytes.length

/-- The class of the failure (log 15). -/
def Untaken.failClass : Untaken → ErrorClass
  | .rejected _ => .protocolRejection
  | .busy _ => .transportTimeout

/-! ### The state after one exchange of messages with a card that answers as R411-R415 say -/

/-- After one command up to its response byte: the exchanges, the frame and the checksum it ends with,
the poll's index (logs 16, 20). -/
def State.replied (app : Bool) (index : BitVec 6) (argument : BitVec 32) (q : Reply) (s : State) : State :=
  (((s.onWire (q.mosi app index argument) q.bytes).setFrame (buildFrame index argument)).setCrc7
    (crc7 (frameBody index argument))).setAttempt (q.fill.length + 1)

/-- After the CMD55 of an application command, where there is one. -/
def State.led (app : Bool) (p : Reply) (s : State) : State := if app then s.replied false 55 0 p else s

/-- After a command that no byte of the response poll answered: the card drove `ignored` during the frame
and the stuffing byte, then `silent` (`41_command_framer.md` R158). -/
def State.unanswered (app : Bool) (index : BitVec 6) (argument : BitVec 32) (ignored silent : List Byte)
    (s : State) : State :=
  (((s.onWire (frameBytes (buildFrame index argument) ++ fillers (stuffing app index + silent.length))
    (ignored ++ silent)).setFrame (buildFrame index argument)).setCrc7
    (crc7 (frameBody index argument))).setAttempt (if silent = [] then s.attempt else silent.length)

/-- After `bytes` that the card puts on its line and the engine receives to the last. -/
def State.heard (bytes : List Byte) (s : State) : State :=
  (s.drive bytes).onWire (fillers bytes.length) bytes

/-- After the bytes that follow R1 directly (`41_command_framer.md` R161). -/
def State.captured (payload : List Byte) (s : State) : State :=
  (s.onWire (fillers payload.length) payload).setResp payload

/-- After a data block has arrived up to its CRC16, with the poll's index, the token and the checksum. -/
def State.blockHeard (d : Block) (s : State) : State :=
  (((s.onWire (fillers d.count) (d.bytes s.params.crc16Seed)).setAttempt (d.wait + 1)).setTok
    tokenStartByte).setCrc16 (crc16 s.params.crc16Seed d.payload)

/-- After the data block of a data-bearing command (`41_command_framer.md` R160). -/
def State.capturedBlock (d : Block) (s : State) : State := (s.blockHeard d).setResp d.payload

/-- After a data block received into the block buffer (`43_data_block.md` R204). -/
def State.received (offset : Nat) (d : Block) (s : State) : State :=
  ((s.blockHeard d).storeBytes offset d.payload).delay (d.wait * s.params.tokenWaitDelayUs)

/-- After a ready wait that ended at the byte 0xFF (`43_data_block.md` R200). -/
def State.waited (busy : List Byte) (s : State) : State :=
  ((s.onWire (fillers (busy.length + 1)) (readyBytes busy)).setAttempt (busy.length + 1)).delay
    (busy.length * s.params.readyWaitDelayUs)

/-- After a ready wait that ran out of its budget: every byte of it was `busy` (`43_data_block.md` R200). -/
def State.stillBusy (busy : List Byte) (s : State) : State :=
  ((s.onWire (fillers busy.length) busy).setAttempt (if busy = [] then s.attempt else busy.length)).delay
    (busy.length * s.params.readyWaitDelayUs)

/-- After a written block, its ready wait included: the card drove `ignored` meanwhile and answered the
data response `resp` (`43_data_block.md` R210). -/
def State.transmitted (token : Byte) (payload busy ignored : List Byte) (resp : Byte) (s : State) : State :=
  ((s.waited busy).onWire (blockMosi s.params.crc16Seed token payload) (ignored ++ [resp])).setCrc16
    (crc16 s.params.crc16Seed payload)

/-- After a command without payload, however it went. -/
def State.attempted (app : Bool) (index : BitVec 6) (argument : BitVec 32) (s : State) : Attempt → State
  | .answered lead reply => (s.led app lead).replied app index argument reply
  | .unanswered lead ignored silent => (s.led app lead).unanswered app index argument ignored silent
  | .leadRejected lead => s.replied false 55 0 lead
  | .leadUnanswered ignored silent => s.unanswered false 55 0 ignored silent

/-- After the attempts of a retry loop from number `k` on, none of them the last of the loop: each is followed
by the delay (`41_command_framer.md` R165). -/
def State.attempts (app : Bool) (index : BitVec 6) (argument : BitVec 32) (delayUs : Nat) (s : State) :
    Nat → List Attempt → State
  | _, [] => s
  | k, a :: as => State.attempts app index argument delayUs
      (((s.setAttempt k).attempted app index argument a).delay delayUs) (k + 1) as

/-- The bytes of sector `k` in the host block buffer (`20_memory.md` R61). -/
def State.sector (s : State) (k : Nat) : List Byte := s.buf.readBytes (sectorSize * k) sectorSize

/-! ### A healthy card during BEGIN (`70_reset_and_hazards.md` R411-R413, R416) -/

/-- What every card answers first: to the dummy bytes, to CMD0 until it is idle, to CMD8. -/
structure Opening where
  dummy   : List Byte
  misses  : List Attempt
  idle    : Attempt
  ifCond  : Attempt
  ifValue : List Byte
  deriving DecidableEq, Repr

def Opening.bytes (o : Opening) : List Byte :=
  o.dummy ++ (o.misses.flatMap (Attempt.bytes false) ++ (o.idle.bytes false ++
    (o.ifCond.bytes false ++ o.ifValue)))

def Opening.mosi (o : Opening) : List Byte :=
  fillers o.dummy.length ++ (o.misses.flatMap (Attempt.mosi false 0 0) ++ (o.idle.mosi false 0 0 ++
    (o.ifCond.mosi false 8 0x000001AA ++ fillers o.ifValue.length)))

/-- CMD0 is answered 1 within its budget; CMD8 is answered, with four bytes after its R1 (R161), or not answered
(R243; the sentinel that stands for its answer is then not 1, log 23). -/
structure Opening.Healthy (p : Params) (o : Opening) : Prop where
  dummy   : o.dummy.length = p.dummyBytes
  misses  : ∀ a ∈ o.misses, a.Runs p false 0 ∧ a.r1 p.errSentinel ≠ 1
  budget  : o.misses.length < p.cmd0Attempts
  idle    : o.idle.Runs p false 0 ∧ o.idle.r1 p.errSentinel = 1
  ifCond  : o.ifCond.Runs p false 8
  ifValue : o.ifValue.length = if o.ifCond.responds then 4 else 0
  silence : o.ifCond.responds = false → p.errSentinel ≠ 1

/-- The answer to CMD8 that selects the V2 path (`44_init_fsm.md` R243, R244). -/
def Opening.V2 (o : Opening) : Prop :=
  (∃ lead q, o.ifCond = .answered lead q ∧ q.r1 = 1) ∧ o.ifValue.drop 2 = [0x01, 0xAA]

/-- What every card answers last: to CMD9 and to CMD10. -/
structure Closing where
  csdReply : Reply
  csd      : Block
  cidReply : Reply
  cid      : Block
  deriving DecidableEq, Repr

def Closing.bytes (seed : BitVec 16) (c : Closing) : List Byte :=
  c.csdReply.bytes ++ (c.csd.bytes seed ++ (c.cidReply.bytes ++ c.cid.bytes seed))

def Closing.mosi (c : Closing) : List Byte :=
  c.csdReply.mosi false 9 0 ++ (fillers c.csd.count ++ (c.cidReply.mosi false 10 0 ++ fillers c.cid.count))

/-- The CSD of a bring-up (`20_memory.md` R60). -/
def Closing.csdValue (c : Closing) : BitVec 128 := BitVec.ofNat 128 (fromBe c.csd.payload)

/-- The CID of a bring-up (`20_memory.md` R60). -/
def Closing.cidValue (c : Closing) : BitVec 128 := BitVec.ofNat 128 (fromBe c.cid.payload)

/-- Both registers arrive whole and the capacity is one the build supports. -/
structure Closing.Healthy (p : Params) (c : Closing) : Prop where
  csdReply : c.csdReply.Heard p.maxWaitBytes 1 ∧ c.csdReply.r1 = 0
  csd      : c.csd.wait < p.maxWaitBytes ∧ c.csd.payload.length = 16
  cidReply : c.cidReply.Heard p.maxWaitBytes 1 ∧ c.cidReply.r1 = 0
  cid      : c.cid.wait < p.maxWaitBytes ∧ c.cid.payload.length = 16
  size     : 0 < (csdDecode c.csdValue).size ∧ (csdDecode c.csdValue).size ≤ p.maxSizeBytes

/-- How the registers of a card whose bring-up got as far as CMD9 make it fail (`44_init_fsm.md` R260, R262, R263):
CMD9 is not answered 0, or not answered; the capacity is not one the build supports; CMD10 is not answered 0, or
not answered. -/
inductive BrokenClosing where
  | csdRefused (csd : Attempt)
  | capacity (csdReply : Reply) (csd : Block)
  | cidRefused (csdReply : Reply) (csd : Block) (cid : Attempt)
  deriving DecidableEq, Repr

def BrokenClosing.bytes (seed : BitVec 16) : BrokenClosing → List Byte
  | .csdRefused a => a.bytes false
  | .capacity q d => q.bytes ++ d.bytes seed
  | .cidRefused q d a => q.bytes ++ (d.bytes seed ++ a.bytes false)

def BrokenClosing.mosi : BrokenClosing → List Byte
  | .csdRefused a => a.mosi false 9 0
  | .capacity q d => q.mosi false 9 0 ++ fillers d.count
  | .cidRefused q d a => q.mosi false 9 0 ++ (fillers d.count ++ a.mosi false 10 0)

/-- The CSD after the failure: the one received, if one was (`44_init_fsm.md` R266). -/
def BrokenClosing.csdValue (before : BitVec 128) : BrokenClosing → BitVec 128
  | .csdRefused _ => before
  | .capacity _ d => BitVec.ofNat 128 (fromBe d.payload)
  | .cidRefused _ d _ => BitVec.ofNat 128 (fromBe d.payload)

/-- The class of the failure (`60_exceptions.md` R362, log 15). -/
def BrokenClosing.failClass : BrokenClosing → ErrorClass
  | .csdRefused a => a.failClass
  | .capacity _ _ => .invalidGeometry
  | .cidRefused _ _ a => a.failClass

/-- The registers fail so. -/
def BrokenClosing.Breaks (p : Params) : BrokenClosing → Prop
  | .csdRefused a => a.Runs p false 9 ∧ a.r1 p.errSentinel ≠ 0
  | .capacity q d => (q.Heard p.maxWaitBytes 1 ∧ q.r1 = 0) ∧
    (d.wait < p.maxWaitBytes ∧ d.payload.length = 16) ∧
    sizeAccepted p (csdDecode (BitVec.ofNat 128 (fromBe d.payload))).size = false
  | .cidRefused q d a => (q.Heard p.maxWaitBytes 1 ∧ q.r1 = 0) ∧
    (d.wait < p.maxWaitBytes ∧ d.payload.length = 16) ∧
    sizeAccepted p (csdDecode (BitVec.ofNat 128 (fromBe d.payload))).size = true ∧
    a.Runs p false 10 ∧ a.r1 p.errSentinel ≠ 0

/-- What an SD v2 card answers between the two: to ACMD41 until it is ready, to CMD58. -/
structure V2Middle where
  polls    : List Attempt
  ready    : Attempt
  ocrReply : Reply
  ocr      : List Byte
  deriving DecidableEq, Repr

def V2Middle.bytes (m : V2Middle) : List Byte :=
  m.polls.flatMap (Attempt.bytes true) ++ (m.ready.bytes true ++ (m.ocrReply.bytes ++ m.ocr))

def V2Middle.mosi (m : V2Middle) : List Byte :=
  m.polls.flatMap (Attempt.mosi true 41 0x40000000) ++ (m.ready.mosi true 41 0x40000000 ++
    (m.ocrReply.mosi false 58 0 ++ fillers m.ocr.length))

structure V2Middle.Healthy (p : Params) (m : V2Middle) : Prop where
  polls    : ∀ a ∈ m.polls, a.Runs p true 41 ∧ a.r1 p.errSentinel ≠ 0
  budget   : m.polls.length < p.readyPollAttempts
  ready    : m.ready.Runs p true 41 ∧ m.ready.r1 p.errSentinel = 0
  ocrReply : m.ocrReply.Heard p.maxWaitBytes 0 ∧ m.ocrReply.r1 = 0
  ocr      : m.ocr.length = 4

/-- What a legacy card answers between the two: to the probe ACMD41 (`44_init_fsm.md` R252), to the poll until
it is ready, to CMD16. -/
structure LegacyMiddle where
  probe       : Attempt
  polls       : List Attempt
  ready       : Attempt
  blockLength : Reply
  deriving DecidableEq, Repr

/-- The probe is answered 0 or 1: an SD v1 card, polled with ACMD41. Every other way the probe can go leaves an
MMC card, polled with CMD1 (R252). -/
def LegacyMiddle.isSd1 (sentinel : Byte) (m : LegacyMiddle) : Bool := decide ((m.probe.r1 sentinel).toNat ≤ 1)

/-- The index of the poll command (R252). -/
def LegacyMiddle.pollIndex (sentinel : Byte) (m : LegacyMiddle) : BitVec 6 :=
  if m.isSd1 sentinel then 41 else 1

def LegacyMiddle.bytes (sentinel : Byte) (m : LegacyMiddle) : List Byte :=
  m.probe.bytes true ++ (m.polls.flatMap (Attempt.bytes (m.isSd1 sentinel)) ++
    (m.ready.bytes (m.isSd1 sentinel) ++ m.blockLength.bytes))

def LegacyMiddle.mosi (sentinel : Byte) (m : LegacyMiddle) : List Byte :=
  m.probe.mosi true 41 0 ++
    (m.polls.flatMap (Attempt.mosi (m.isSd1 sentinel) (m.pollIndex sentinel) 0) ++
      (m.ready.mosi (m.isSd1 sentinel) (m.pollIndex sentinel) 0 ++ m.blockLength.mosi false 16 512))

structure LegacyMiddle.Healthy (p : Params) (m : LegacyMiddle) : Prop where
  probe       : m.probe.Runs p true 41
  polls       : ∀ a ∈ m.polls,
    a.Runs p (m.isSd1 p.errSentinel) (m.pollIndex p.errSentinel) ∧ a.r1 p.errSentinel ≠ 0
  budget      : m.polls.length < p.readyPollAttempts
  ready       : m.ready.Runs p (m.isSd1 p.errSentinel) (m.pollIndex p.errSentinel) ∧
    m.ready.r1 p.errSentinel = 0
  blockLength : m.blockLength.Heard p.maxWaitBytes 0 ∧ m.blockLength.r1 = 0

/-- The card type of a legacy card (`44_init_fsm.md` R255). -/
def LegacyMiddle.cardType (sentinel : Byte) (m : LegacyMiddle) : BitVec 4 :=
  if m.isSd1 sentinel then 0b0010 else 0b0001

/-- Between `s` and `t` the card sent a data block of 16 bytes with its CRC16, and `v` is the register they make
(`10_state.md` R29). -/
def Fetched (v : BitVec 128) (s t : State) : Prop :=
  ∃ before payload after : List Byte, t.got = s.got ++ (before ++ (payload ++
      (beBytes 2 (crc16 s.params.crc16Seed payload).toNat ++ after))) ∧
    payload.length = 16 ∧ v = BitVec.ofNat 128 (fromBe payload)

/-- The path and poll registers of a run that got as far as the ready poll (`44_init_fsm.md` R244, R252). -/
def ChosenPath (s : State) : Prop :=
  (s.pathV2 = true ∧ s.pollCmd = 0xA9 ∧ s.pollArg = 0x40000000) ∨
  (s.pathV2 = false ∧ (s.pollCmd = 0xA9 ∨ s.pollCmd = 0x01) ∧ s.pollArg = 0)

/-! ### The command that opens a transfer -/

/-- CMD17 or CMD18, as READ_SECTORS sends it (`46_block_ops.md` R323 lines 4-11). -/
def readCommand (count : Nat) (arg : BitVec 32) (s : State) : CmdOut × State :=
  sendCommand (if count = 1 then 0x11 else 0x12) arg 0 (s.setCs .asserted)

/-- CMD24, or CMD25 after its hint, as WRITE_SECTORS sends it (`46_block_ops.md` R330 lines 4-13). -/
def writeCommand (count : Nat) (arg : BitVec 32) (s : State) : CmdOut × State :=
  if count = 1 then sendCommand 0x18 arg 0 (s.setCs .asserted)
  else sendCommand 0x19 arg 0 (preErase count (s.setCs .asserted))

/-! ### The initialization FSM (`44_init_fsm.md` R231) -/

/-- The next state R231 gives each state, its conditions in terms of the commands the state sends. -/
def nextInitState (s : State) : InitState :=
  match s.initState with
  | .reset => .idleNegotiation
  | .idleNegotiation =>
    if (sendCommandRetry 0x00 0 1 s.params.cmd0Attempts s.params.cmd0RetryDelayUs s).1.r1 = 1 then
      .versionBranch
    else .failed
  | .versionBranch => if (sendCommand 0x08 0x000001AA 4 s).1.r1 = 1 then .voltageCheck else .readyPoll
  | .voltageCheck => .readyPoll
  | .readyPoll =>
    let s1 := if s.pathV2 then s else legacyProbe s
    if (sendCommandRetry s1.pollCmd s1.pollArg 0 s.params.readyPollAttempts s.params.readyPollDelayUs
        s1).1.r1 = 0 then
      if s.pathV2 then .ocrRead else .blockLengthSet
    else .failed
  | .ocrRead => if (sendCommand 0x3A 0 4 s).1.r1 = 0 then .geometryRead else .failed
  | .blockLengthSet => if (sendCommand 0x10 512 0 s).1.r1 = 0 then .geometryRead else .failed
  | .geometryRead =>
    let r := sendCommand 0x09 0 16 s
    let size := (csdDecode (BitVec.ofNat 128 (fromBe r.2.resp))).size
    if r.1.r1 = 0 ∧ size ≠ 0 ∧ size ≤ s.params.maxSizeBytes ∧
        (sendCommand 0x0A 0 16 (r.2.setCsd (BitVec.ofNat 128 (fromBe r.2.resp)))).1.r1 = 0 then .done
    else .failed
  | .done => .done
  | .failed => .failed

/-- The operation is one of the four that the gate of `60_exceptions.md` R365 guards. -/
def isGated : Instr → Bool
  | .readSectors _ _ => true
  | .writeSectors _ _ => true
  | .eraseSectors _ _ => true
  | .sync => true
  | _ => false

/-- The row is a response on the wire (`30_encoding.md` R100-R105). -/
def isResponseItem : Instr → Bool
  | .r1 _ => true
  | .r2 _ _ => true
  | .r3 _ _ => true
  | .r7 _ _ => true
  | _ => false

/-- The row is work of the Data Block Transceiver: its three operations, and the items of its formats on the
wire (`43_data_block.md` R199). -/
def isDataUnit : Instr → Bool
  | .waitReady => true
  | .receiveBlock _ _ => true
  | .transmitBlock _ _ => true
  | .tokenStart _ => true
  | .tokenStartMultiWrite => true
  | .tokenStopTran => true
  | .dataResponseAccepted _ => true
  | .dataBlock _ _ _ => true
  | _ => false

/-- Those of them that await a token from the card. -/
def awaitsToken : Instr → Bool
  | .receiveBlock _ _ => true
  | .tokenStart .fromCard => true
  | .dataBlock .fromCard _ _ => true
  | _ => false

/-- Those of them that carry a payload with its CRC16. -/
def carriesPayload : Instr → Bool
  | .receiveBlock _ _ => true
  | .transmitBlock _ _ => true
  | .dataBlock _ _ _ => true
  | _ => false

/-! ### Operands without a meaning -/

/-- The operands an operation refuses (R366; for SEND_COMMAND_RETRY see log 14), once the gate and the test
for an empty request are passed (R371). -/
def RefusesOperands (i : Instr) (s : State) : Prop :=
  (∃ select, i = .reserved select) ∨
  (∃ cmd argument n, i = .sendCommand cmd argument n ∧ cmd.getLsbD 6 = true) ∨
  (∃ cmd argument required maxAttempts delayUs,
    i = .sendCommandRetry cmd argument required maxAttempts delayUs ∧ cmd.getLsbD 6 = true ∧ maxAttempts ≠ 0) ∨
  (∃ value start width, i = .field value start width ∧ (width = 0 ∨ 128 < start + width)) ∨
  (∃ address count, (i = .readSectors address count ∨ i = .writeSectors address count) ∧
    s.initialized = true ∧ count ≠ 0 ∧
    2 ^ 32 ≤ (if s.cardType.getLsbD 3 then address.toNat else address.toNat * 512)) ∨
  (∃ address count, i = .eraseSectors address count ∧ s.initialized = true ∧ count ≠ 0 ∧
    2 ^ 32 ≤ (if s.cardType.getLsbD 3 then address.toNat + count - 1 else (address.toNat + count - 1) * 512))

/-! ### Frames -/

/-- The session registers are unchanged (`46_block_ops.md` R322). -/
structure SameSession (s t : State) : Prop where
  initialized : t.initialized = s.initialized
  cardType    : t.cardType = s.cardType
  sectorCount : t.sectorCount = s.sectorCount
  csd         : t.csd = s.csd
  cid         : t.cid = s.cid

/-- The sequencer and output registers are unchanged (`10_state.md` R30-R34). -/
structure SameControl (s t : State) : Prop where
  initState : t.initState = s.initState
  pathV2    : t.pathV2 = s.pathV2
  pollCmd   : t.pollCmd = s.pollCmd
  pollArg   : t.pollArg = s.pollArg
  cs        : t.cs = s.cs
  clockHz   : t.clockHz = s.clockHz
  busConfig : t.busConfig = s.busConfig

/-- The transient storage is unchanged (`10_state.md` R35, R36, R39, R40). -/
structure SameTransients (s t : State) : Prop where
  attempt  : t.attempt = s.attempt
  frame    : t.frame = s.frame
  crc7acc  : t.crc7acc = s.crc7acc
  crc16acc : t.crc16acc = s.crc16acc
  resp     : t.resp = s.resp
  tok      : t.tok = s.tok

/-- Nothing happened on the wire and no time passed. -/
structure SameWire (s t : State) : Prop where
  answers   : t.answers = s.answers
  trace     : t.trace = s.trace
  xchgCount : t.xchgCount = s.xchgCount
  delayUs   : t.delayUs = s.delayUs

/-- The parameters and the host's other requests are unchanged. -/
structure SameHost (s t : State) : Prop where
  params   : t.params = s.params
  requests : t.requests = s.requests

/-- Every byte of the host block buffer reads as before. -/
def SameBuffer (s t : State) : Prop := ∀ a, t.buf.read a = s.buf.read a

/-- Every byte of the host block buffer outside `n` bytes from `offset` reads as before. -/
def SameBufferOutside (offset n : Nat) (s t : State) : Prop :=
  ∀ a, a < offset ∨ offset + n ≤ a → t.buf.read a = s.buf.read a

/-- The wire only grows, by at most `n` exchanges, each of which takes one answer of the card
(`20_memory.md` R55, R67) under the level of chip select `s` has (`10_state.md` R33). -/
def Grows (n : Nat) (s t : State) : Prop :=
  ∃ new, t.trace = new ++ s.trace ∧ new.length ≤ n ∧ t.xchgCount = s.xchgCount + new.length ∧
    t.answers = s.answers.drop new.length ∧ ∀ e ∈ new, e.cs = s.cs

/-- Time only passes, and at most `us` microseconds of delays do (`70_reset_and_hazards.md` R430, R431; log 17). -/
def Delays (us : Nat) (s t : State) : Prop := s.delayUs ≤ t.delayUs ∧ t.delayUs ≤ s.delayUs + us

/-! ### The idle engine -/

/-- The values of `S.cardType` that are ever written (`10_state.md` R25). -/
def legalCardType (v : BitVec 4) : Prop :=
  v = 0b0000 ∨ v = 0b0001 ∨ v = 0b0010 ∨ v = 0b0100 ∨ v = 0b1100

/-- What holds of the engine whenever no operation is running. -/
structure State.Inv (s : State) : Prop where
  /-- the block buffer is in its canonical form -/
  buf : s.buf.wf = true
  /-- `10_state.md` R33 -/
  cs : s.cs = .released
  /-- `10_state.md` R25 -/
  cardType : legalCardType s.cardType
  /-- `10_state.md` R30: between operations -/
  initState : s.initState = .reset ∨ s.initState = .done ∨ s.initState = .failed
  /-- `10_state.md` R24 -/
  initialized : s.initialized = true → s.initState = .done
  /-- `44_init_fsm.md` R265: a card type was detected, its capacity is usable, the clock is capped -/
  done : s.initState = .done → s.cardType ≠ 0 ∧ sizeAccepted s.params (csdDecode s.csd).size = true ∧
    s.sectorCount = BitVec.ofNat 64 ((csdDecode s.csd).size / 512) ∧ s.clockHz ≤ s.params.fMaxHz
  /-- `44_init_fsm.md` R266, `10_state.md` R44 -/
  notDone : s.initState ≠ .done → s.cardType = 0 ∧ s.sectorCount = 0 ∧ s.clockHz = s.params.fInitHz
  /-- `10_state.md` R32 -/
  pollCmd : s.pollCmd = 0x00 ∨ s.pollCmd = 0xA9 ∨ s.pollCmd = 0x01
  /-- `10_state.md` R31, R32 -/
  pathV2 : s.pathV2 = true → s.pollCmd = 0xA9 ∧ s.pollArg = 0x40000000
  /-- `10_state.md` R32 -/
  pathLegacy : s.pollArg = 0 ∨ s.pollArg = 0x40000000
  /-- `20_memory.md` R55 -/
  exchanged : s.trace.length = s.xchgCount

end Sys2Proof.Machine
end

