-- ==== Sys2Proof/Certificates/Slice0/Obligations.lean ====
section
/-!
DEFINITION. The statements for the provers. "The card answers" always means: those bytes are the front of
the card's queue `answers`; what follows them in the queue is any list `rest`.
-/

open Sys2Proof Sys2Proof.Machine

/-! ### Encoding and the step -/

/-- Decoding the encoding of a well-formed instruction gives it back, whatever `CRC16_SEED` is. -/
def Obligations.DecodeOfEncode : Prop :=
  ∀ (seed : BitVec 16) (i : Instr), i.wellFormed = true → decode seed (encode seed i) = .ok i

/-- An item the decoder accepts is the encoding of a well-formed instruction, and of no other. -/
def Obligations.DecodedIsEncoding : Prop :=
  ∀ (seed : BitVec 16) (item : Item) (i : Instr), decode seed item = .ok i →
    i.wellFormed = true ∧ encode seed i = item

/-- Words written out from the spec's encodings decode to the instruction they stand for; the last is a data
block of an engine with another `CRC16_SEED` (vector K27). The bytes of the operation requests 0x05, 0x0C and
0x16 0xFF are the model's layout of a request (log 7, DESIGN CHOICE). -/
def Obligations.SpecWordsDecode : Prop :=
  decode 0 ⟨.cf, [0x40, 0, 0, 0, 0, 0x95]⟩ = .ok (.cmd0 0) ∧
  decode 0 ⟨.cf, [0x48, 0, 0, 0x01, 0xAA, 0x87]⟩ = .ok (.cmd8 0x1AA) ∧
  decode 0 ⟨.cf, [0x77, 0, 0, 0, 0, 0x65, 0x69, 0x40, 0, 0, 0, 0x77]⟩ = .ok (.acmd41 0x40000000) ∧
  decode 0 ⟨.r1, [0x09]⟩ = .ok (.r1 0b0001001) ∧
  decode 0 ⟨.r2, [0x00, 0x84]⟩ = .ok (.r2 0 0x84) ∧
  decode 0 ⟨.r3, [0x00, 0xC0, 0xFF, 0x80, 0x00]⟩ = .ok (.r3 0 0xC0FF8000) ∧
  decode 0 ⟨.r7, [0x01, 0x00, 0x00, 0x01, 0xAA]⟩ = .ok (.r7 1 0x1AA) ∧
  decode 0 ⟨.dt .fromCard, [0xFE]⟩ = .ok (.tokenStart .fromCard) ∧
  decode 0 ⟨.dt .toCard, [0xFC]⟩ = .ok .tokenStartMultiWrite ∧
  decode 0 ⟨.dt .toCard, [0xFD]⟩ = .ok .tokenStopTran ∧
  decode 0 ⟨.dr, [0xE5]⟩ = .ok (.dataResponseAccepted 0b111) ∧
  decode 0 ⟨.db .fromCard, [0xFE, 0x01, 0x10, 0x21]⟩ = .ok (.dataBlock .fromCard 0xFE [0x01]) ∧
  decode 0 ⟨.op, [0x05]⟩ = .ok .sync ∧
  decode 0 ⟨.op, [0x0C]⟩ = .ok (.reserved 12) ∧
  decode 0 ⟨.op, [0x16, 0xFF]⟩ = .ok (.r1Extract 0xFF) ∧
  decode 0xFFFF ⟨.db .fromCard, [0xFE, 0x31, 0x32, 0x33, 0x34, 0x35, 0x36, 0x37, 0x38, 0x39, 0x29, 0xB1]⟩ =
    .ok (.dataBlock .fromCard 0xFE [0x31, 0x32, 0x33, 0x34, 0x35, 0x36, 0x37, 0x38, 0x39])

/-- With a request pending, a step decodes the oldest one and runs it with the others still pending; a
request that is no encoding is refused by name; without a request a step changes nothing. So it is of the step
that takes the parameters as an argument (R7), and `step` is that step at the parameters the state carries
(log 5). -/
def Obligations.StepRunsOldestRequest : Prop :=
  (∀ (p : Params) (i : Instr) (rest : List Item) (s : State), i.wellFormed = true →
    s.requests = encode p.crc16Seed i :: rest →
    stepWith p s = exec i { s with params := p, requests := rest }) ∧
  (∀ (p : Params) (item : Item) (rest : List Item) (e : DecodeError) (s : State), s.requests = item :: rest →
    decode p.crc16Seed item = .error e → stepWith p s = .refused (.undecodable e)) ∧
  (∀ (p : Params) (s : State), s.requests = [] → stepWith p s = .next { s with params := p }) ∧
  (∀ s : State, step s = stepWith s.params s)

/-- The instruction the decoder reads from a table word is the one the next step runs after
`withFetchWord`, on the state as it was. -/
def Obligations.FetchedWordRuns : Prop :=
  ∀ (nbits w : Nat) (i : Instr) (s : State), decodeTableWord nbits w = some i →
    step (s.withFetchWord nbits w) = exec i s

/-! ### Checksums -/

/-- R142: the bit-serial and the table-driven form of each CRC are equal for every input; the tables are the
bit-serial results of the 256 one-byte strings. -/
def Obligations.SerialAndTableFormsAgree : Prop :=
  (∀ data : List Byte, crc7 data = crc7Table data) ∧
  (∀ (seed : BitVec 16) (data : List Byte), crc16 seed data = crc16Table seed data) ∧
  t7 = serialT7 ∧ t16 = serialT16

/-- R135: linearity, leading zero bytes, the residue, chaining; and the residue of a command frame. -/
def Obligations.Crc7Laws : Prop :=
  (∀ a b : List Byte, a.length = b.length →
    crc7 (List.zipWith (· ^^^ ·) a b) = crc7 a ^^^ crc7 b) ∧
  (∀ (n : Nat) (a : List Byte), crc7 (List.replicate n 0 ++ a) = crc7 a) ∧
  (∀ m : List Byte, crc7 (m ++ [(crc7 m).zeroExtend 8 <<< 1]) = 0 ∧
    crc7 (m ++ [((crc7 m).zeroExtend 8 <<< 1) ||| 1]) = 0x09) ∧
  (∀ a b : List Byte, crc7From (crc7 a) b = crc7 (a ++ b)) ∧
  (∀ (index : BitVec 6) (argument : BitVec 32), crc7 (frameBytes (buildFrame index argument)) = 0x09)

/-- R140: chaining through the seed, the residue and the equivalent test for zero, leading zero bytes,
linearity. -/
def Obligations.Crc16Laws : Prop :=
  (∀ (seed : BitVec 16) (a b : List Byte), crc16 (crc16 seed a) b = crc16 seed (a ++ b)) ∧
  (∀ m : List Byte, crc16 0 (m ++ beBytes 2 (crc16 0 m).toNat) = 0) ∧
  (∀ (m : List Byte) (hi lo : Byte), crc16 0 (m ++ [hi, lo]) = 0 ↔ (crc16 0 m).toNat = fromBe [hi, lo]) ∧
  (∀ (n : Nat) (a : List Byte), crc16 0 (List.replicate n 0 ++ a) = crc16 0 a) ∧
  (∀ a b : List Byte, a.length = b.length →
    crc16 0 (List.zipWith (· ^^^ ·) a b) = crc16 0 a ^^^ crc16 0 b)

/-- CRC7 and CRC16 as operations answer what the golden tables give; only the accumulator of the unit
(log 20) and the report change. -/
def Obligations.ChecksumOperations : Prop :=
  ∀ s : State,
    (∀ data : List Byte, exec (.crc7 data) s = .next
      { s with crc7acc := crc7Table data, result := .crc7 (crc7Table data), error := none }) ∧
    (∀ (seed : BitVec 16) (data : List Byte), exec (.crc16 seed data) s = .next
      { s with crc16acc := crc16Table seed data, result := .crc16 (crc16Table seed data), error := none })

/-! ### The frame -/

/-- R81-R85: BUILD_FRAME completes with a frame whose fields lie where R81 puts them. Everything but
`FRAME`, the accumulator (log 20) and the report is unchanged. -/
def Obligations.BuildFrameLayout : Prop :=
  ∀ (index : BitVec 6) (argument : BitVec 32) (s : State), ∃ f : BitVec 48,
    exec (.buildFrame index argument) s = .next
      { s with frame := f, crc7acc := slice f 1 7, result := .frame f, error := none } ∧
    f.getLsbD 47 = false ∧ f.getLsbD 46 = true ∧ slice f 40 6 = index ∧ slice f 8 32 = argument ∧
    slice f 1 7 = crc7 ((frameBytes f).take 5) ∧ f.getLsbD 0 = true ∧
    frameBytes f = [0x40 ||| index.zeroExtend 8, slice argument 24 8, slice argument 16 8,
      slice argument 8 8, slice argument 0 8, (crc7 ((frameBytes f).take 5)).zeroExtend 8 <<< 1 ||| 1]

/-- R152: PARSE_FRAME makes its four checks in the stated order and answers index and argument when all
pass; R364's classes. Only the report changes, and the accumulator when the CRC7 was computed (log 20). -/
def Obligations.ParseFrameChecks : Prop :=
  ∀ (b0 b1 b2 b3 b4 b5 : Byte) (f : BitVec 48) (s : State), frameBytes f = [b0, b1, b2, b3, b4, b5] →
    (b0.getLsbD 7 = true → exec (.parseFrame f) s = .next
      { s with result := .parsed .badStartBit, error := some .protocolRejection }) ∧
    (b0.getLsbD 7 = false → b0.getLsbD 6 = false → exec (.parseFrame f) s = .next
      { s with result := .parsed .badTransmissionBit, error := some .protocolRejection }) ∧
    (b0.getLsbD 7 = false → b0.getLsbD 6 = true → b5.getLsbD 0 = false → exec (.parseFrame f) s = .next
      { s with result := .parsed .badStopBit, error := some .protocolRejection }) ∧
    (b0.getLsbD 7 = false → b0.getLsbD 6 = true → b5.getLsbD 0 = true →
      crc7 [b0, b1, b2, b3, b4] ≠ slice b5 1 7 → exec (.parseFrame f) s = .next
        { s with
          crc7acc := crc7 [b0, b1, b2, b3, b4]
          result := .parsed .checksumMismatch
          error := some .checksumMismatch }) ∧
    (b0.getLsbD 7 = false → b0.getLsbD 6 = true → b5.getLsbD 0 = true →
      crc7 [b0, b1, b2, b3, b4] = slice b5 1 7 → exec (.parseFrame f) s = .next
        { s with
          crc7acc := slice b5 1 7
          result := .parsed (.ok (slice b0 0 6) (BitVec.ofNat 32 (fromBe [b1, b2, b3, b4])))
          error := none })

/-- R153: builder and parser are inverses, exactly 2^38 of the 2^48 six-byte strings are frames, and the
parser cannot tell an application command from an ordinary one. -/
def Obligations.FrameRoundTrip : Prop :=
  (∀ (index : BitVec 6) (argument : BitVec 32), parseFrame (buildFrame index argument) = .ok index argument) ∧
  (∀ (f : BitVec 48) (index : BitVec 6) (argument : BitVec 32),
    parseFrame f = .ok index argument → buildFrame index argument = f) ∧
  Nat.card { f : BitVec 48 // ∃ index argument, parseFrame f = .ok index argument } = 2 ^ 38 ∧
  (∀ (seed : BitVec 16) (argument : BitVec 32),
    (encode seed (.acmd13 argument)).bytes.drop 6 = (encode seed (.cmd13 argument)).bytes ∧
    (encode seed (.acmd23 argument)).bytes.drop 6 = (encode seed (.cmd23 argument)).bytes)

/-! ### The command sender -/

/-- R155 lines 1-14: a command without payload (`respSize = 0`), ordinary or application, data-bearing or
not, ends with the card's response byte. The next state says everything that changed. -/
def Obligations.CommandWithoutPayload : Prop :=
  ∀ (i : Instr) (cmd : Byte) (argument : BitVec 32) (p q : Reply) (rest : List Byte) (s : State),
    commandOf i = some (cmd, argument, 0) → cmd.getLsbD 6 = false →
    p.Leads (cmdApp cmd) s.params.maxWaitBytes →
    q.Heard s.params.maxWaitBytes (stuffing (cmdApp cmd) (cmdIndex cmd)) →
    s.answers = p.lead (cmdApp cmd) ++ (q.bytes ++ rest) →
    exec i s = .next (((s.led (cmdApp cmd) p).replied (cmdApp cmd) (cmdIndex cmd) argument q).finish
      (.response q.r1 none) none)

/-- R155 lines 15-17, R161: the payload of a command that is not data-bearing follows R1 directly and is
captured whatever R1 is. -/
def Obligations.CommandWithDirectPayload : Prop :=
  ∀ (i : Instr) (cmd : Byte) (argument : BitVec 32) (p q : Reply) (payload rest : List Byte) (s : State),
    commandOf i = some (cmd, argument, payload.length) → cmd.getLsbD 6 = false → payload ≠ [] →
    dataBearing (cmdApp cmd) (cmdIndex cmd) = false →
    p.Leads (cmdApp cmd) s.params.maxWaitBytes → q.Heard s.params.maxWaitBytes 0 →
    s.answers = p.lead (cmdApp cmd) ++ (q.bytes ++ (payload ++ rest)) →
    exec i s = .next
      ((((s.led (cmdApp cmd) p).replied (cmdApp cmd) (cmdIndex cmd) argument q).captured payload).finish
        (.response q.r1 (some payload)) none)

/-- R155 lines 18-27, R160: the payload of a data-bearing command arrives as a data block with a matching
CRC16. -/
def Obligations.CommandWithDataBlock : Prop :=
  ∀ (i : Instr) (cmd : Byte) (argument : BitVec 32) (p q : Reply) (d : Block) (rest : List Byte) (s : State),
    commandOf i = some (cmd, argument, d.payload.length) → cmd.getLsbD 6 = false → d.payload ≠ [] →
    dataBearing (cmdApp cmd) (cmdIndex cmd) = true →
    p.Leads (cmdApp cmd) s.params.maxWaitBytes → q.Heard s.params.maxWaitBytes 1 → q.r1 = 0 →
    d.wait < s.params.maxWaitBytes →
    s.answers = p.lead (cmdApp cmd) ++ (q.bytes ++ (d.bytes s.params.crc16Seed ++ rest)) →
    exec i s = .next
      ((((s.led (cmdApp cmd) p).replied (cmdApp cmd) (cmdIndex cmd) argument q).capturedBlock d).finish
        (.response 0 (some d.payload)) none)

/-- R156, R158, R163: a CMD55 answered with a value above 1 ends an application command with that value and
the second frame is not sent; a command no byte answers ends with the sentinel, class (a); so does an
application command whose CMD55 no byte answers, and its own frame is not sent (the sentinel exceeds 1: by R106
its bit 7 is 1, log 23). -/
def Obligations.CommandTurnedAway : Prop :=
  (∀ (i : Instr) (cmd : Byte) (argument : BitVec 32) (n : Nat) (p : Reply) (rest : List Byte) (s : State),
    commandOf i = some (cmd, argument, n) → cmd.getLsbD 6 = false → cmdApp cmd = true →
    p.Heard s.params.maxWaitBytes 0 → 1 < p.r1.toNat → s.answers = p.bytes ++ rest →
    exec i s = .next ((s.replied false 55 0 p).finish (.response p.r1 none) (some .protocolRejection))) ∧
  (∀ (i : Instr) (cmd : Byte) (argument : BitVec 32) (n : Nat) (p : Reply) (ignored silent rest : List Byte)
    (s : State),
    commandOf i = some (cmd, argument, n) → cmd.getLsbD 6 = false →
    p.Leads (cmdApp cmd) s.params.maxWaitBytes →
    ignored.length = 6 + stuffing (cmdApp cmd) (cmdIndex cmd) →
    silent.length = s.params.maxWaitBytes → (∀ b ∈ silent, b.getLsbD 7 = true) →
    s.answers = p.lead (cmdApp cmd) ++ (ignored ++ (silent ++ rest)) →
    exec i s = .next
      (((s.led (cmdApp cmd) p).unanswered (cmdApp cmd) (cmdIndex cmd) argument ignored silent).finish
        (.response s.params.errSentinel none) (some .transportTimeout))) ∧
  (∀ (i : Instr) (cmd : Byte) (argument : BitVec 32) (n : Nat) (ignored silent rest : List Byte) (s : State),
    commandOf i = some (cmd, argument, n) → cmd.getLsbD 6 = false → cmdApp cmd = true →
    Silent s.params.maxWaitBytes 0 ignored silent → 1 < s.params.errSentinel.toNat →
    s.answers = ignored ++ (silent ++ rest) →
    exec i s = .next ((s.unanswered false 55 0 ignored silent).finish
      (.response s.params.errSentinel none) (some .transportTimeout)))

/-- R160, R163: how the data path of a data-bearing command fails. An error R1 ends it with that byte, and
nothing more is clocked; without a start token, or with another token, the result is the sentinel, class
(a), and neither payload nor CRC is clocked; a CRC16 mismatch is found after payload and CRC, class (c). -/
def Obligations.CommandDataFailures : Prop :=
  ∀ (i : Instr) (cmd : Byte) (argument : BitVec 32) (n : Nat) (p q : Reply) (tail rest : List Byte) (s : State),
    commandOf i = some (cmd, argument, n) → cmd.getLsbD 6 = false → n ≠ 0 →
    dataBearing (cmdApp cmd) (cmdIndex cmd) = true →
    p.Leads (cmdApp cmd) s.params.maxWaitBytes → q.Heard s.params.maxWaitBytes 1 →
    s.answers = p.lead (cmdApp cmd) ++ (q.bytes ++ (tail ++ rest)) →
    (q.r1 ≠ 0 → tail = [] → exec i s = .next
      (((s.led (cmdApp cmd) p).replied (cmdApp cmd) (cmdIndex cmd) argument q).finish
        (.response q.r1 none) (some .protocolRejection))) ∧
    (q.r1 = 0 → tail = fillers s.params.maxWaitBytes → ∃ t, exec i s = .next t ∧ t.answers = rest ∧
      t.result = .response s.params.errSentinel none ∧ t.error = some .transportTimeout) ∧
    (∀ (k : Nat) (token : Byte), q.r1 = 0 → k < s.params.maxWaitBytes → token ≠ 0xFF → token ≠ 0xFE →
      tail = fillers k ++ [token] → ∃ t, exec i s = .next t ∧ t.answers = rest ∧
        t.result = .response s.params.errSentinel none ∧ t.error = some .transportTimeout) ∧
    (∀ (k : Nat) (payload : List Byte) (hi lo : Byte), q.r1 = 0 → k < s.params.maxWaitBytes →
      payload.length = n → (crc16 s.params.crc16Seed payload).toNat ≠ fromBe [hi, lo] →
      tail = fillers k ++ (0xFE :: (payload ++ [hi, lo])) → ∃ t, exec i s = .next t ∧ t.answers = rest ∧
        t.result = .response s.params.errSentinel none ∧ t.error = some .checksumMismatch)

/-- R167: the bound on the exchanges of SEND_COMMAND and SEND_COMMAND_RETRY, whatever the card answers. And the
rows SEND_COMMAND of R431: each kind of command has its own bound, with its value at the default parameters;
the bound of an application command is that of the command and 14 more. -/
def Obligations.CommandBounds : Prop :=
  (∀ (cmd : Byte) (argument : BitVec 32) (respSize : Nat) (s : State), ∃ t,
    exec (.sendCommand cmd argument respSize) s = .next t ∧
    Grows (2 * (6 + s.params.maxWaitBytes) + 1 + s.params.maxWaitBytes + respSize + 2) s t) ∧
  (∀ (cmd : Byte) (argument : BitVec 32) (required : Byte) (maxAttempts delayUs : Nat) (s : State), ∃ t,
    exec (.sendCommandRetry cmd argument required maxAttempts delayUs) s = .next t ∧
    Grows (maxAttempts * (2 * (6 + s.params.maxWaitBytes) + 1)) s t) ∧
  (∀ (cmd : Byte) (argument : BitVec 32) (respSize : Nat) (s : State), ∃ t,
    exec (.sendCommand cmd argument respSize) s = .next t ∧
    Grows (commandBound cmd s.params.maxWaitBytes respSize) s t) ∧
  (∀ (cmd : Byte) (n : Nat), cmd.getLsbD 6 = false → (dataBearing (cmdApp cmd) (cmdIndex cmd) = true → n ≠ 0) →
    commandBound cmd defaultParams.maxWaitBytes n = (if cmdApp cmd then 14 else 0) +
      (if dataBearing (cmdApp cmd) (cmdIndex cmd) then 6 + 1 + 8 + 8 + n + 2 else 6 + 8 + n))

/-- The frame of the Framer's commands, whatever the card answers: session, sequencer and output registers,
the block buffer and the host's requests are unchanged; the payload buffer changes only where a payload is
captured, token and CRC16 accumulator only where a data block is. -/
def Obligations.CommandFrame : Prop :=
  ∀ (i : Instr) (cmd : Byte) (argument : BitVec 32) (n : Nat) (s t : State),
    (commandOf i = some (cmd, argument, n) ∨
      ∃ required maxAttempts delayUs, n = 0 ∧
        i = .sendCommandRetry cmd argument required maxAttempts delayUs) →
    exec i s = .next t →
    SameHost s t ∧ SameSession s t ∧ SameControl s t ∧ t.buf = s.buf ∧ t.freeCount = s.freeCount ∧
    (n = 0 → t.resp = s.resp) ∧
    (n = 0 ∨ dataBearing (cmdApp cmd) (cmdIndex cmd) = false → t.tok = s.tok ∧ t.crc16acc = s.crc16acc)

/-- R165: the retry loop ends at the first attempt whose result is the required byte, after a delay for each
miss; when every attempt misses it ends with the result of the last; without an attempt it ends with the
sentinel. An attempt that is not answered, or whose CMD55 is turned away or not answered, counts as one with the
result SEND_COMMAND has then. An application command sends CMD55 and its own frame in each attempt. -/
def Obligations.RetryOutcomes : Prop :=
  (∀ (cmd : Byte) (argument : BitVec 32) (required : Byte) (maxAttempts delayUs : Nat) (misses : List Attempt)
    (rest : List Byte) (s : State), cmd.getLsbD 6 = false →
    (∀ a ∈ misses, a.Runs s.params (cmdApp cmd) (cmdIndex cmd) ∧ a.r1 s.params.errSentinel ≠ required) →
    (∀ a : Attempt, misses.length < maxAttempts → a.Runs s.params (cmdApp cmd) (cmdIndex cmd) →
      a.r1 s.params.errSentinel = required →
      s.answers = misses.flatMap (Attempt.bytes (cmdApp cmd)) ++ (a.bytes (cmdApp cmd) ++ rest) →
      exec (.sendCommandRetry cmd argument required maxAttempts delayUs) s = .next
        ((((s.attempts (cmdApp cmd) (cmdIndex cmd) argument delayUs 1 misses).setAttempt
          (misses.length + 1)).attempted (cmdApp cmd) (cmdIndex cmd) argument a).finish
          (.responseByte required) none)) ∧
    (∀ a : Attempt, misses.getLast? = some a → misses.length = maxAttempts →
      s.answers = misses.flatMap (Attempt.bytes (cmdApp cmd)) ++ rest →
      exec (.sendCommandRetry cmd argument required maxAttempts delayUs) s = .next
        ((s.attempts (cmdApp cmd) (cmdIndex cmd) argument delayUs 1 misses).finish
          (.responseByte (a.r1 s.params.errSentinel)) (some a.failClass)))) ∧
  (∀ (cmd : Byte) (argument : BitVec 32) (required : Byte) (delayUs : Nat) (s : State),
    exec (.sendCommandRetry cmd argument required 0 delayUs) s = .next
      (s.finish (.responseByte s.params.errSentinel) (some .transportTimeout)))

/-- R366, R121, R122: exactly these operands are refused; a refused operation changes nothing but the
report. -/
def Obligations.RefusedExactly : Prop :=
  ∀ (i : Instr) (s : State),
    (RefusesOperands i s →
      exec i s = .next { s with result := .failure, error := some .refused }) ∧
    (∀ t, exec i s = .next t → t.error = some .refused → RefusesOperands i s)

/-! ### Response extractors -/

/-- R181, R182, R184, R187, R190: the four extractors complete with the fields of their bytes, and what the
engine's three comparisons of the response byte say in these fields. -/
def Obligations.ResponseFields : Prop :=
  (∀ (b : Byte) (s : State), ∃ f : R1Fields,
    exec (.r1Extract b) s = .next { s with result := .r1Fields f, error := none } ∧
    f.valid = !b.getLsbD 7 ∧ f.idle = b.getLsbD 0 ∧ f.eraseReset = b.getLsbD 1 ∧
    f.illegalCommand = b.getLsbD 2 ∧ f.comCrcError = b.getLsbD 3 ∧ f.eraseSeqError = b.getLsbD 4 ∧
    f.addressError = b.getLsbD 5 ∧ f.parameterError = b.getLsbD 6 ∧
    (f.error = true ↔ b.toNat / 2 % 64 ≠ 0) ∧
    (isIdle b = true ↔ b = 0x01) ∧ (isReady b = true ↔ b = 0x00) ∧ (noError b = true ↔ b.toNat ≤ 1) ∧
    (noError b = true ↔ f.valid = true ∧ f.error = false)) ∧
  (∀ (first status : Byte) (s : State), ∃ f : R2Fields,
    exec (.r2Extract first status) s = .next { s with result := .r2Fields f, error := none } ∧
    f.first = r1Fields first ∧ f.value16.toNat = first.toNat * 256 + status.toNat ∧
    f.cardIsLocked = status.getLsbD 0 ∧ f.wpEraseSkip = status.getLsbD 1 ∧ f.error = status.getLsbD 2 ∧
    f.ccError = status.getLsbD 3 ∧ f.cardEccFailed = status.getLsbD 4 ∧ f.wpViolation = status.getLsbD 5 ∧
    f.eraseParam = status.getLsbD 6 ∧ f.outOfRange = status.getLsbD 7) ∧
  (∀ (first p0 p1 p2 p3 : Byte) (s : State), ∃ f : R3Fields,
    exec (.r3Extract first [p0, p1, p2, p3]) s = .next { s with result := .r3Fields f, error := none } ∧
    f.first = r1Fields first ∧ f.ocr = p0 ++ p1 ++ p2 ++ p3 ∧ f.ccs = p0.getLsbD 6 ∧
    f.powerUp = p0.getLsbD 7 ∧ f.voltageWindow = slice f.ocr 15 9) ∧
  (∀ (first p0 p1 p2 p3 : Byte) (s : State), ∃ f : R7Fields,
    exec (.r7Extract first [p0, p1, p2, p3]) s = .next { s with result := .r7Fields f, error := none } ∧
    f.first = r1Fields first ∧ f.value = p0 ++ p1 ++ p2 ++ p3 ∧
    (f.echoOk = true ↔ p2 = 0x01 ∧ p3 = 0xAA) ∧ f.commandVersion = slice p0 4 4 ∧
    f.voltageAccepted = slice p2 0 4 ∧ f.checkPattern = p3)

/-- R192: the extractors are total functions of their bytes alone, the OCR and the interface condition read the
payload big-endian, a byte without an error bit is a valid response, and 0xFF passes no test. -/
def Obligations.ExtractorLaws : Prop :=
  (∀ (first second : Byte) (payload : List Byte) (s s' : State) (i : Instr),
    i ∈ [Instr.r1Extract first, .r2Extract first second, .r3Extract first payload, .r7Extract first payload] →
    ∃ t t', exec i s = .next t ∧ exec i s' = .next t' ∧ t.result = t'.result ∧ t.error = t'.error) ∧
  (∀ (first : Byte) (payload : List Byte), payload.length = 4 →
    beBytes 4 (r3Fields first payload).ocr.toNat = payload ∧
    beBytes 4 (r7Fields first payload).value.toNat = payload) ∧
  (∀ b : Byte, noError b = true → (r1Fields b).valid = true) ∧
  ((r1Fields 0xFF).valid = false ∧ isIdle 0xFF = false ∧ isReady 0xFF = false ∧ noError 0xFF = false)

/-! ### The transceiver -/

/-- R200: the ready wait ends at the first byte 0xFF, or runs out of its budget (class (a)). -/
def Obligations.WaitReadyOutcomes : Prop :=
  ∀ (busy rest : List Byte) (s : State), (∀ b ∈ busy, b ≠ 0xFF) →
    (busy.length < s.params.readyWaitSteps → s.answers = readyBytes busy ++ rest →
      exec .waitReady s = .next ((s.waited busy).finish (.bool true) none)) ∧
    (busy.length = s.params.readyWaitSteps → s.answers = busy ++ rest →
      exec .waitReady s = .next ((s.stillBusy busy).finish (.bool false) (some .transportTimeout)))

/-- R204-R208: a block received puts exactly the bytes received at `offset`, byte `k` at `offset + k`, and
no other byte of the buffer changes. -/
def Obligations.ReceiveBlockCompletes : Prop :=
  ∀ (offset : Nat) (d : Block) (rest : List Byte) (s : State),
    d.wait < s.params.tokenWaitSteps → s.answers = d.bytes s.params.crc16Seed ++ rest → ∃ t,
      exec (.receiveBlock offset d.payload.length) s = .next t ∧
      t = (s.received offset d).finish (.bool true) none ∧ t.answers = rest ∧
      (s.buf.wf = true → t.buf.readBytes offset d.payload.length = d.payload) ∧
      SameBufferOutside offset d.payload.length s t

/-- R205, R207: how a reception fails: no token within the budget, a wrong token (payload and CRC are not
clocked), a CRC16 that differs. Nothing outside the block's bytes is written; those are free values
(log 4). -/
def Obligations.ReceiveBlockFails : Prop :=
  ∀ (offset n : Nat) (tail rest : List Byte) (s : State), s.answers = tail ++ rest →
    (tail = fillers s.params.tokenWaitSteps → ∃ t, exec (.receiveBlock offset n) s = .next t ∧
      t.answers = rest ∧ t.result = .bool false ∧ t.error = some .transportTimeout ∧
      SameBufferOutside offset n s t) ∧
    (∀ (k : Nat) (token : Byte), k < s.params.tokenWaitSteps → token ≠ 0xFF → token ≠ 0xFE →
      tail = fillers k ++ [token] → ∃ t, exec (.receiveBlock offset n) s = .next t ∧
        t.answers = rest ∧ t.tok = token ∧ t.result = .bool false ∧ t.error = some .transportTimeout ∧
        SameBufferOutside offset n s t) ∧
    (∀ (k : Nat) (payload : List Byte) (hi lo : Byte), k < s.params.tokenWaitSteps → payload.length = n →
      (crc16 s.params.crc16Seed payload).toNat ≠ fromBe [hi, lo] →
      tail = fillers k ++ (0xFE :: (payload ++ [hi, lo])) → ∃ t, exec (.receiveBlock offset n) s = .next t ∧
        t.answers = rest ∧ t.tok = 0xFE ∧ t.result = .bool false ∧ t.error = some .checksumMismatch ∧
        SameBufferOutside offset n s t)

/-- R210-R215: a block sent from the 512 bytes at `offset` ends with the card's data response; the stop
token goes out alone; a card that stays busy is sent nothing. The block buffer is only read. -/
def Obligations.TransmitBlockOutcomes : Prop :=
  ∀ (offset : Nat) (token : Byte) (s : State),
    (∀ (d : Taken) (rest : List Byte), token ≠ 0xFD → d.Heard s.params.readyWaitSteps →
      s.answers = d.bytes ++ rest →
      exec (.transmitBlock offset token) s = .next
        ((s.transmitted token (s.buf.readBytes offset 512) d.busy d.ignored d.resp).finish
          (.bool (slice d.resp 0 5 == (0b00101 : BitVec 5)))
          (if slice d.resp 0 5 = (0b00101 : BitVec 5) then none else some .protocolRejection))) ∧
    (∀ (busy rest : List Byte) (ignored : Byte), token = 0xFD → (∀ b ∈ busy, b ≠ 0xFF) →
      busy.length < s.params.readyWaitSteps → s.answers = readyBytes busy ++ (ignored :: rest) →
      exec (.transmitBlock offset token) s = .next
        (((s.waited busy).onWire [0xFD] [ignored]).finish (.bool true) none)) ∧
    (∀ busy rest : List Byte, (∀ b ∈ busy, b ≠ 0xFF) → busy.length = s.params.readyWaitSteps →
      s.answers = busy ++ rest → ∃ t, exec (.transmitBlock offset token) s = .next t ∧
        t.sent = s.sent ++ fillers busy.length ∧ t.answers = rest ∧ t.result = .bool false ∧
        t.error = some .transportTimeout)

/-- R216 and the rows of R431: the bounds on the exchanges and on the delays of the three transceiver operations,
whatever the card answers, and the numbers R431 gives at the default parameters. That delays are counted is
log 17. -/
def Obligations.TransceiverBounds : Prop :=
  (∀ s : State,
    (∃ t, exec .waitReady s = .next t ∧ Grows s.params.readyWaitSteps s t ∧
      Grows (waitReadyBound s.params) s t ∧ Delays (readyWaitDelay s.params) s t) ∧
    (∀ offset length : Nat, ∃ t, exec (.receiveBlock offset length) s = .next t ∧
      Grows (s.params.tokenWaitSteps + length + 2) s t ∧
      Grows (receiveBlockBound s.params length) s t ∧ Delays (tokenWaitDelay s.params) s t) ∧
    (∀ (offset : Nat) (token : Byte), ∃ t, exec (.transmitBlock offset token) s = .next t ∧
      Grows (s.params.readyWaitSteps + 1 + 512 + 2 + 1) s t ∧
      Grows (transmitBlockBound s.params) s t ∧ Delays (readyWaitDelay s.params) s t)) ∧
  waitReadyBound defaultParams = 5000 ∧ receiveBlockBound defaultParams 512 = 5000 + 512 + 2 ∧
  transmitBlockBound defaultParams = 5000 + 1 + 512 + 2 + 1 ∧
  readyWaitDelay defaultParams = 500000 ∧ tokenWaitDelay defaultParams = 500000

/-- The frame of the transceiver (R199) and of the items on the wire (log 9), whatever the card answers:
nothing but the scratch R199 names, the payload bytes of a response, the bytes of a received block, the wire
and the report changes. -/
def Obligations.TransceiverFrame : Prop :=
  ∀ (i : Instr) (s t : State), exec i s = .next t → isDataUnit i = true ∨ isResponseItem i = true →
    SameHost s t ∧ SameSession s t ∧ SameControl s t ∧ t.frame = s.frame ∧ t.crc7acc = s.crc7acc ∧
    (isDataUnit i = true → t.resp = s.resp) ∧
    (awaitsToken i = false → t.tok = s.tok) ∧
    (carriesPayload i = false → t.crc16acc = s.crc16acc) ∧
    (awaitsToken i = false ∨ carriesPayload i = false → t.buf = s.buf ∧ t.freeCount = s.freeCount) ∧
    (∀ offset length, i = .receiveBlock offset length → SameBufferOutside offset length s t) ∧
    (∀ token payload, i = .dataBlock .fromCard token payload → SameBufferOutside 0 payload.length s t)

/-! ### Items on the wire (log 9) -/

/-- A response the card sends is read as its format says (R100-R105, R158, R161) and decoded into its
fields. -/
def Obligations.ResponseItems : Prop :=
  ∀ s : State, 0 < s.params.maxWaitBytes →
    (∀ flags : BitVec 7, exec (.r1 flags) s = .next
      (((s.heard [flags.zeroExtend 8]).setAttempt 1).finish (.r1Fields (r1Fields (flags.zeroExtend 8))) none)) ∧
    (∀ (flags : BitVec 7) (status : Byte), exec (.r2 flags status) s = .next
      ((((s.heard [flags.zeroExtend 8, status]).setAttempt 1).setResp [status]).finish
        (.r2Fields (r2Fields (flags.zeroExtend 8) status)) none)) ∧
    (∀ (flags : BitVec 7) (ocr : BitVec 32), exec (.r3 flags ocr) s = .next
      ((((s.heard (flags.zeroExtend 8 :: beBytes 4 ocr.toNat)).setAttempt 1).setResp
        (beBytes 4 ocr.toNat)).finish
        (.r3Fields (r3Fields (flags.zeroExtend 8) (beBytes 4 ocr.toNat))) none)) ∧
    (∀ (flags : BitVec 7) (value : BitVec 32), exec (.r7 flags value) s = .next
      ((((s.heard (flags.zeroExtend 8 :: beBytes 4 value.toNat)).setAttempt 1).setResp
        (beBytes 4 value.toNat)).finish
        (.r7Fields (r7Fields (flags.zeroExtend 8) (beBytes 4 value.toNat))) none))

/-- The start token and the data response a card sends are read; the tokens the engine sends go out once the
card is ready, with nothing after them (R110, R113, R210, R213). -/
def Obligations.TokenItems : Prop :=
  ∀ s : State,
    (0 < s.params.tokenWaitSteps → exec (.tokenStart .fromCard) s = .next
      ((((s.heard [0xFE]).setAttempt 1).setTok 0xFE).finish (.token 0xFE) none)) ∧
    (∀ ignored : BitVec 3, exec (.dataResponseAccepted ignored) s = .next
      ((s.heard [(ignored ++ (0b00101 : BitVec 5))]).finish (.bool true) none)) ∧
    (∀ (busy rest : List Byte) (answer : Byte), (∀ b ∈ busy, b ≠ 0xFF) →
      busy.length < s.params.readyWaitSteps → s.answers = readyBytes busy ++ (answer :: rest) →
      exec (.tokenStart .toCard) s = .next
        (((s.waited busy).onWire [0xFE] [answer]).finish (.bool true) none) ∧
      exec .tokenStartMultiWrite s = .next
        (((s.waited busy).onWire [0xFC] [answer]).finish (.bool true) none) ∧
      exec .tokenStopTran s = .next
        (((s.waited busy).onWire [0xFD] [answer]).finish (.bool true) none))

/-- A data block frame the card sends is received to the start of the block buffer; one the engine sends
goes out with its payload and ends with the data response (R112, R204, R210; log 24). -/
def Obligations.DataBlockItems : Prop :=
  (∀ (payload : List Byte) (s : State), 0 < s.params.tokenWaitSteps → ∃ t,
    exec (.dataBlock .fromCard 0xFE payload) s = .next t ∧
    t = ((((((s.heard (0xFE :: (payload ++ beBytes 2 (crc16 s.params.crc16Seed payload).toNat))).setAttempt
      1).setTok 0xFE).setCrc16 (crc16 s.params.crc16Seed payload)).storeBytes 0 payload)).finish
        (.bool true) none ∧
    (s.buf.wf = true → t.buf.readBytes 0 payload.length = payload)) ∧
  (∀ (token : Byte) (payload : List Byte) (d : Taken) (rest : List Byte) (s : State),
    (Instr.dataBlock .toCard token payload).wellFormed = true → d.Heard s.params.readyWaitSteps →
    s.answers = d.bytes ++ rest →
    exec (.dataBlock .toCard token payload) s = .next
      ((s.transmitted token payload d.busy d.ignored d.resp).finish
        (.bool (slice d.resp 0 5 == (0b00101 : BitVec 5)))
        (if slice d.resp 0 5 = (0b00101 : BitVec 5) then none else some .protocolRejection)))

/-! ### BEGIN and END -/

/-- R231: every transition of the initialization FSM is the one of the table; a transition to `Failed`
carries an error class and no other does; on the way `S.pathV2` records the path; and no instruction but
BEGIN changes `S.initState`. -/
def Obligations.InitTransitions : Prop :=
  (∀ s : State, (initStep s).2.initState = nextInitState s ∧
    (s.initState ≠ .failed → ((initStep s).1 ≠ none ↔ nextInitState s = .failed)) ∧
    (s.initState = .versionBranch → nextInitState s = .readyPoll → (initStep s).2.pathV2 = false) ∧
    (s.initState = .voltageCheck → (initStep s).2.pathV2 = decide (fromBe s.resp % 65536 = 0x01AA))) ∧
  (∀ (i : Instr) (s t : State), (∀ frequency, i ≠ .beginOp frequency) → exec i s = .next t →
    t.initState = s.initState)

/-- R322 says it of the block operations and the five session registers; R24-R34 say of each register who
writes it: no instruction but BEGIN writes a session or sequencer register, except END the initialized flag.
Chip select and clock change by BEGIN alone, but for its release at the end of a block operation and by END. So
does what the transport was configured with (a field of the model's own, log 18). -/
def Obligations.SessionWrittenByBeginAlone : Prop :=
  ∀ (i : Instr) (s t : State), (∀ frequency, i ≠ .beginOp frequency) → exec i s = .next t →
    t.cardType = s.cardType ∧ t.sectorCount = s.sectorCount ∧ t.csd = s.csd ∧ t.cid = s.cid ∧
    t.pathV2 = s.pathV2 ∧ t.pollCmd = s.pollCmd ∧ t.pollArg = s.pollArg ∧ t.clockHz = s.clockHz ∧
    t.busConfig = s.busConfig ∧
    (i ≠ .endOp → t.initialized = s.initialized) ∧
    (isGated i = false → i ≠ .endOp → t.cs = s.cs)

/-- R233, R265, R266, R269: whatever the card answers, BEGIN ends in `Done` with the session of a usable card,
or in `Failed` with the session cleared and one of the classes of R362 (log 15). It has handed the transport
`BIT_ORDER`, `CLOCK_MODE` and `F_INIT_HZ` (R56, R233; that the last ones handed over stand in a field is log
18). The dummy bytes go out with chip select released, everything after them with chip select asserted (R240,
R33). In `Done` both registers are 16 bytes the card sent in this run, each with its CRC16 (R29). In `Failed`
the CID is the one from before and the CSD too, unless the card sent one in this run; it is kept where its
capacity is not usable (R262); path and poll registers are those from before or as the run chose (R233, R266).
That a sentinel is not 0 is R106 (log 23). -/
def Obligations.BeginOutcome : Prop :=
  ∀ (frequency : Nat) (s : State), ∃ t, exec (.beginOp frequency) s = .next t ∧
    SameHost s t ∧ t.buf = s.buf ∧ t.cs = .released ∧
    t.busConfig = some ⟨s.params.bitOrder, s.params.clockMode, s.params.fInitHz⟩ ∧
    (∃ asserted dummy, t.trace = asserted ++ (dummy ++ s.trace) ∧ dummy.length = s.params.dummyBytes ∧
      (∀ e ∈ dummy, e.cs = .released ∧ e.mosi = 0xFF) ∧ ∀ e ∈ asserted, e.cs = .asserted) ∧
    ((t.initState = .done ∧ t.result = .bool true ∧ t.error = none ∧ t.initialized = true ∧
        (t.cardType = 0b0001 ∨ t.cardType = 0b0010 ∨ t.cardType = 0b0100 ∨ t.cardType = 0b1100) ∧
        0 < (csdDecode t.csd).size ∧ (csdDecode t.csd).size ≤ s.params.maxSizeBytes ∧
        t.sectorCount = BitVec.ofNat 64 ((csdDecode t.csd).size / 512) ∧
        t.clockHz = min frequency s.params.fMaxHz ∧ ChosenPath t ∧
        (s.params.errSentinel ≠ 0 → Fetched t.csd s t ∧ Fetched t.cid s t)) ∨
      (t.initState = .failed ∧ t.result = .bool false ∧ t.initialized = false ∧ t.cardType = 0 ∧
        t.sectorCount = 0 ∧ t.clockHz = s.params.fInitHz ∧
        (t.error = some .transportTimeout ∨ t.error = some .protocolRejection ∨
          t.error = some .checksumMismatch ∨ t.error = some .invalidGeometry) ∧
        t.cid = s.cid ∧ (s.params.errSentinel ≠ 0 → t.csd = s.csd ∨ Fetched t.csd s t) ∧
        (t.error = some .invalidGeometry →
          (csdDecode t.csd).size = 0 ∨ s.params.maxSizeBytes < (csdDecode t.csd).size) ∧
        ((t.pathV2 = s.pathV2 ∧ t.pollCmd = s.pollCmd ∧ t.pollArg = s.pollArg) ∨ ChosenPath t)))

/-- R232 on a healthy SD v2 card: the commands of R269 in order, and the session the card's answers give. A card
that is healthy but for its registers makes BEGIN fail, with the session cleared and the registers that R266
keeps. -/
def Obligations.BringUpOfV2Card : Prop :=
  (∀ (frequency : Nat) (o : Opening) (m : V2Middle) (c : Closing) (rest : List Byte) (s : State),
    o.Healthy s.params → o.V2 → m.Healthy s.params → c.Healthy s.params →
    s.answers = o.bytes ++ (m.bytes ++ (c.bytes s.params.crc16Seed ++ rest)) → ∃ t,
      exec (.beginOp frequency) s = .next t ∧ t.result = .bool true ∧ t.error = none ∧
      t.initialized = true ∧ t.initState = .done ∧ t.pathV2 = true ∧ t.pollCmd = 0xA9 ∧
      t.pollArg = 0x40000000 ∧ t.cs = .released ∧ t.clockHz = min frequency s.params.fMaxHz ∧
      t.cardType = (if (BitVec.ofNat 32 (fromBe m.ocr)).getLsbD 30 then 0b1100 else 0b0100) ∧
      t.csd = c.csdValue ∧ t.cid = c.cidValue ∧
      t.sectorCount = BitVec.ofNat 64 ((csdDecode c.csdValue).size / 512) ∧
      t.sent = s.sent ++ (o.mosi ++ (m.mosi ++ c.mosi)) ∧ t.answers = rest ∧ t.buf = s.buf) ∧
  (∀ (frequency : Nat) (o : Opening) (m : V2Middle) (c : BrokenClosing) (rest : List Byte) (s : State),
    o.Healthy s.params → o.V2 → m.Healthy s.params → c.Breaks s.params →
    s.answers = o.bytes ++ (m.bytes ++ (c.bytes s.params.crc16Seed ++ rest)) → ∃ t,
      exec (.beginOp frequency) s = .next t ∧ t.result = .bool false ∧ t.error = some c.failClass ∧
      t.initialized = false ∧ t.initState = .failed ∧ t.pathV2 = true ∧ t.pollCmd = 0xA9 ∧
      t.pollArg = 0x40000000 ∧ t.cs = .released ∧ t.clockHz = s.params.fInitHz ∧ t.cardType = 0 ∧
      t.sectorCount = 0 ∧ t.csd = c.csdValue s.csd ∧ t.cid = s.cid ∧
      t.sent = s.sent ++ (o.mosi ++ (m.mosi ++ c.mosi)) ∧ t.answers = rest ∧ t.buf = s.buf)

/-- R232 on a healthy SD v1 or MMC card, whose answer to CMD8 is an error or a wrong echo or does not come
(R243, R244): the commands of R269 in order, and the session the card's answers give. The probe makes it an SD v1
card when it is answered 0 or 1, and an MMC card in every other case (R252): CMD55 turned away or not answered,
ACMD41 itself rejected or not answered. A card that is healthy but for its registers makes BEGIN fail, with the
session cleared and the registers that R266 keeps. -/
def Obligations.BringUpOfLegacyCard : Prop :=
  (∀ (frequency : Nat) (o : Opening) (m : LegacyMiddle) (c : Closing) (rest : List Byte) (s : State),
    o.Healthy s.params → ¬ o.V2 → m.Healthy s.params → c.Healthy s.params →
    s.answers = o.bytes ++ (m.bytes s.params.errSentinel ++ (c.bytes s.params.crc16Seed ++ rest)) → ∃ t,
      exec (.beginOp frequency) s = .next t ∧ t.result = .bool true ∧ t.error = none ∧
      t.initialized = true ∧ t.initState = .done ∧ t.pathV2 = false ∧
      t.pollCmd = (if m.isSd1 s.params.errSentinel then 0xA9 else 0x01) ∧ t.pollArg = 0 ∧
      t.cs = .released ∧ t.clockHz = min frequency s.params.fMaxHz ∧
      t.cardType = m.cardType s.params.errSentinel ∧ t.csd = c.csdValue ∧ t.cid = c.cidValue ∧
      t.sectorCount = BitVec.ofNat 64 ((csdDecode c.csdValue).size / 512) ∧
      t.sent = s.sent ++ (o.mosi ++ (m.mosi s.params.errSentinel ++ c.mosi)) ∧ t.answers = rest ∧
      t.buf = s.buf) ∧
  (∀ (frequency : Nat) (o : Opening) (m : LegacyMiddle) (c : BrokenClosing) (rest : List Byte) (s : State),
    o.Healthy s.params → ¬ o.V2 → m.Healthy s.params → c.Breaks s.params →
    s.answers = o.bytes ++ (m.bytes s.params.errSentinel ++ (c.bytes s.params.crc16Seed ++ rest)) → ∃ t,
      exec (.beginOp frequency) s = .next t ∧ t.result = .bool false ∧ t.error = some c.failClass ∧
      t.initialized = false ∧ t.initState = .failed ∧ t.pathV2 = false ∧
      t.pollCmd = (if m.isSd1 s.params.errSentinel then 0xA9 else 0x01) ∧ t.pollArg = 0 ∧
      t.cs = .released ∧ t.clockHz = s.params.fInitHz ∧ t.cardType = 0 ∧ t.sectorCount = 0 ∧
      t.csd = c.csdValue s.csd ∧ t.cid = s.cid ∧
      t.sent = s.sent ++ (o.mosi ++ (m.mosi s.params.errSentinel ++ c.mosi)) ∧ t.answers = rest ∧
      t.buf = s.buf)

/-- R241, R266 with no card in the socket (every answer 0xFF): CMD0 is tried `CMD0_ATTEMPTS` times, each
with the whole response poll, then BEGIN fails with class (a). The session is cleared; the CSD, the CID and the
path and poll registers stay what they were, since R233 does not clear them and the run wrote none (R266). -/
def Obligations.BringUpWithoutCard : Prop :=
  ∀ (frequency : Nat) (rest : List Byte) (s : State), s.params.errSentinel ≠ 1 →
    s.answers = fillers (s.params.dummyBytes + s.params.cmd0Attempts * (6 + s.params.maxWaitBytes)) ++ rest →
    ∃ t, exec (.beginOp frequency) s = .next t ∧ t.result = .bool false ∧
      t.error = some .transportTimeout ∧ t.initState = .failed ∧ t.cardType = 0 ∧ t.initialized = false ∧
      t.sectorCount = 0 ∧ t.csd = s.csd ∧ t.cid = s.cid ∧ t.pathV2 = s.pathV2 ∧ t.pollCmd = s.pollCmd ∧
      t.pollArg = s.pollArg ∧ t.cs = .released ∧ t.clockHz = s.params.fInitHz ∧ t.buf = s.buf ∧
      t.answers = rest ∧
      t.sent = s.sent ++ (fillers s.params.dummyBytes ++ (List.replicate s.params.cmd0Attempts
        ([0x40, 0, 0, 0, 0, 0x95] ++ fillers s.params.maxWaitBytes)).flatten)

/-- R431, R380: the bounds on the exchanges and on the delays of BEGIN, whatever the card answers: over both paths,
for the path that the run took, and the delays state by state. With the default parameters they are the numbers of
R431: 28222 exchanges, 28198 on the V2 path, 5 ms in the CMD0 loop and 1 s in the ready poll. That delays are
counted is log 17. -/
def Obligations.BeginBound : Prop :=
  (∀ (frequency : Nat) (s : State), ∃ t new, exec (.beginOp frequency) s = .next t ∧
    t.trace = new ++ s.trace ∧ t.xchgCount = s.xchgCount + new.length ∧
    t.answers = s.answers.drop new.length ∧
    new.length ≤ s.params.dummyBytes + s.params.cmd0Attempts * (6 + s.params.maxWaitBytes) +
      (6 + s.params.maxWaitBytes + 4) + 2 * (6 + s.params.maxWaitBytes) +
      s.params.readyPollAttempts * (2 * (6 + s.params.maxWaitBytes)) + (6 + s.params.maxWaitBytes) +
      2 * (6 + 1 + s.params.maxWaitBytes + s.params.maxWaitBytes + 16 + 2) ∧
    new.length ≤ beginBound s.params t.pathV2 ∧
    Delays (cmd0LoopDelay s.params + readyPollDelay s.params) s t) ∧
  (∀ (frequency : Nat) (s : State), s.params = defaultParams → ∃ t new,
    exec (.beginOp frequency) s = .next t ∧ t.trace = new ++ s.trace ∧ new.length ≤ 28222 ∧
    (t.pathV2 = true → new.length ≤ 28198) ∧ Delays (5000 + 1000000) s t) ∧
  (∀ s : State, Delays (if s.initState = .idleNegotiation then cmd0LoopDelay s.params
    else if s.initState = .readyPoll then readyPollDelay s.params else 0) s (initStep s).2) ∧
  beginBound defaultParams false = 10 + 5 * 14 + 18 + 28 + 1000 * 28 + 14 + 2 * 41 ∧
  beginBound defaultParams true = 10 + 5 * 14 + 18 + 1000 * 28 + 18 + 2 * 41 ∧
  cmd0LoopDelay defaultParams = 5000 ∧ readyPollDelay defaultParams = 1000000

/-- R270: END clears the flag, releases chip select and does nothing else. Its result `done` is the model's: R118
and R270 give END none (log 8). On an uninitialized idle session (chip select is released there, R33) nothing
changes but the report; after END every bus-using operation fails. -/
def Obligations.EndClearsTheFlag : Prop :=
  ∀ s : State,
    exec .endOp s = .next { s with initialized := false, cs := .released, result := .done, error := none } ∧
    (s.initialized = false → s.cs = .released →
      exec .endOp s = .next { s with result := .done, error := none }) ∧
    (∀ (i : Instr) (t : State), isGated i = true → exec .endOp s = .next t →
      exec i t = .next { t with result := .bool false, error := some .notInitialized })

/-! ### Geometry -/

/-- R281: FIELD is the slice of the value counted from bit 0, and is refused exactly outside the register. -/
def Obligations.FieldReadsTheSlice : Prop :=
  ∀ (value : BitVec 128) (start width : Nat) (s : State),
    (width ≠ 0 → start + width ≤ 128 → ∃ v, exec (.field value start width) s = .next
        { s with result := .field width v, error := none } ∧
      v < 2 ^ width ∧ (∀ k, k < width → v.testBit k = value.getLsbD (start + k)) ∧
      v = (value >>> start).toNat % 2 ^ width) ∧
    (width = 0 ∨ 128 < start + width → exec (.field value start width) s = .next
      { s with result := .failure, error := some .refused })

/-- R285-R288: CSD_DECODE completes with the record whose fields are those FIELD reads at the positions of
the layout; an unknown structure is the decode error of R285, with size 0. That the error port then holds class
(d) is the model's reading of R364 (log 15): R285 itself raises nothing. -/
def Obligations.CsdFields : Prop :=
  ∀ (v : BitVec 128) (s : State), ∃ c : CsdRecord,
    exec (.csdDecode v) s = .next
      { s with result := .csd c, error := if c.valid then none else some .invalidGeometry } ∧
    fieldOf v 126 2 = some c.structureCode.toNat ∧ fieldOf v 112 8 = some c.taac.toNat ∧
    fieldOf v 104 8 = some c.nsac.toNat ∧ fieldOf v 96 8 = some c.tranSpeed.toNat ∧
    fieldOf v 84 12 = some c.ccc.toNat ∧ fieldOf v 80 4 = some c.readBlLen.toNat ∧
    fieldOf v 79 1 = some c.readBlPartial.toNat ∧ fieldOf v 78 1 = some c.writeBlkMisalign.toNat ∧
    fieldOf v 77 1 = some c.readBlkMisalign.toNat ∧ fieldOf v 76 1 = some c.dsrImp.toNat ∧
    fieldOf v 46 1 = some c.eraseBlkEn.toNat ∧ fieldOf v 39 7 = some c.sectorSize.toNat ∧
    fieldOf v 32 7 = some c.wpGrpSize.toNat ∧ fieldOf v 31 1 = some c.wpGrpEnable.toNat ∧
    fieldOf v 26 3 = some c.r2wFactor.toNat ∧ fieldOf v 22 4 = some c.writeBlLen.toNat ∧
    fieldOf v 21 1 = some c.writeBlPartial.toNat ∧ fieldOf v 15 1 = some c.fileFormatGrp.toNat ∧
    fieldOf v 14 1 = some c.copy.toNat ∧ fieldOf v 13 1 = some c.permWriteProtect.toNat ∧
    fieldOf v 12 1 = some c.tmpWriteProtect.toNat ∧ fieldOf v 10 2 = some c.fileFormat.toNat ∧
    fieldOf v 1 7 = some c.crc.toNat ∧
    (c.structureCode = 0 → c.valid = true ∧ ∃ cSize rMin rMax wMin wMax mult,
      c.variant = .v1 cSize rMin rMax wMin wMax mult ∧ fieldOf v 62 12 = some cSize.toNat ∧
      fieldOf v 59 3 = some rMin.toNat ∧ fieldOf v 56 3 = some rMax.toNat ∧
      fieldOf v 53 3 = some wMin.toNat ∧ fieldOf v 50 3 = some wMax.toNat ∧
      fieldOf v 47 3 = some mult.toNat ∧
      c.size = (cSize.toNat + 1) * 2 ^ (mult.toNat + 2) * 2 ^ c.readBlLen.toNat) ∧
    (c.structureCode = 1 → c.valid = true ∧ ∃ cSize, c.variant = .v2 cSize ∧
      fieldOf v 48 22 = some cSize.toNat ∧ c.size = (cSize.toNat + 1) * 524288) ∧
    (c.structureCode = 2 → c.valid = true ∧ ∃ cSize, c.variant = .v3 cSize ∧
      fieldOf v 48 28 = some cSize.toNat ∧ c.size = (cSize.toNat + 1) * 524288) ∧
    (c.structureCode = 3 → c.valid = false ∧ c.variant = .none ∧ c.size = 0)

/-- R308, R296: totality and determinism, validity and size 0, the all-zero register, the granularity of v2 and v3, equal sizes
under a v2 and a v3 reading, and the bits that no size depends on. -/
def Obligations.CapacityLaws : Prop :=
  (∀ (v : BitVec 128) (start width : Nat) (s s' : State) (i : Instr),
    i ∈ [Instr.field v start width, .csdDecode v, .cidDecode v] →
    ∃ t t', exec i s = .next t ∧ exec i s' = .next t' ∧ t.result = t'.result ∧ t.error = t'.error) ∧
  (∀ v : BitVec 128, ((csdDecode v).valid = true ↔ slice v 126 2 ≠ (3 : BitVec 2)) ∧
    ((csdDecode v).size = 0 ↔ (csdDecode v).valid = false)) ∧
  ((csdDecode 0).valid = true ∧ (csdDecode 0).structureCode = 0 ∧ (csdDecode 0).size = 4) ∧
  (∀ (v : BitVec 128) (cSize : Nat),
    ((slice v 126 2 = (1 : BitVec 2) ∧ cSize = (slice v 48 22 : BitVec 22).toNat) ∨
      (slice v 126 2 = (2 : BitVec 2) ∧ cSize = (slice v 48 28 : BitVec 28).toNat)) →
    (csdDecode v).size % 524288 = 0 ∧ (csdDecode v).size >>> 9 = (cSize + 1) * 1024) ∧
  (∀ low : BitVec 126, slice low 70 6 = (0 : BitVec 6) →
    (csdDecode ((1 : BitVec 2) ++ low)).size = (csdDecode ((2 : BitVec 2) ++ low)).size) ∧
  (∀ v w : BitVec 128, slice v 126 2 = (slice w 126 2 : BitVec 2) →
    (slice v 126 2 = (0 : BitVec 2) → slice v 62 12 = (slice w 62 12 : BitVec 12) ∧
      slice v 47 3 = (slice w 47 3 : BitVec 3) ∧ slice v 80 4 = (slice w 80 4 : BitVec 4)) →
    (slice v 126 2 = (1 : BitVec 2) → slice v 48 22 = (slice w 48 22 : BitVec 22)) →
    (slice v 126 2 = (2 : BitVec 2) → slice v 48 28 = (slice w 48 28 : BitVec 28)) →
    (csdDecode v).size = (csdDecode w).size)

/-- R300, R301: CID_DECODE completes with the fields of the layout, `B` being the register's bytes in wire
order. -/
def Obligations.CidFields : Prop :=
  ∀ (v : BitVec 128) (s : State), ∃ c : CidRecord,
    exec (.cidDecode v) s = .next { s with result := .cid c, error := none } ∧
    beBytes 16 v.toNat = c.mid :: (c.oid ++ (c.pnm ++ ((c.major ++ c.minor : BitVec 8) ::
      (beBytes 4 c.psn.toNat ++ (beBytes 16 v.toNat).drop 13)))) ∧
    c.oid.length = 2 ∧ c.pnm.length = 5 ∧
    fieldOf v 8 12 = some ((c.year - 2000) * 16 + c.month.toNat) ∧ 2000 ≤ c.year ∧
    fieldOf v 1 7 = some c.crc.toNat

/-! ### The block layer -/

/-- R365, R371: a bus-using operation of an uninitialized session answers `false` and does nothing, whatever
its other operands are; of an initialized one with `count = 0` too, without a class; R321. -/
def Obligations.GateComesFirst : Prop :=
  (∀ (i : Instr) (s : State), isGated i = true → s.initialized = false → exec i s = .next
    { s with result := .bool false, error := some .notInitialized }) ∧
  (∀ (i : Instr) (address : BitVec 64) (s : State), s.initialized = true →
    i ∈ [Instr.readSectors address 0, .writeSectors address 0, .eraseSectors address 0] →
    exec i s = .next { s with result := .bool false, error := none })

/-- R63, R64: the argument of an address is the sector number or the byte offset, a multiple of 512, and no
bit is lost: an address that does not fit is refused. -/
def Obligations.AddressConversion : Prop :=
  (∀ (a : Nat) (v : BitVec 32), cmdAddr true a = some v ↔ v.toNat = a) ∧
  (∀ (a : Nat) (v : BitVec 32), cmdAddr false a = some v ↔ v.toNat = a * 512) ∧
  (∀ a : Nat, (cmdAddr true a = none ↔ 2 ^ 32 ≤ a) ∧ (cmdAddr false a = none ↔ 2 ^ 32 ≤ a * 512))

/-- R323-R326, R61 on a healthy card: CMD17 and one block, or CMD18, the blocks and CMD12, whose result is ignored
and may not come at all; sector `k` of the buffer is the payload of block `k`. -/
def Obligations.ReadSectorsCompletes : Prop :=
  (∀ (address : BitVec 64) (arg : BitVec 32) (q : Reply) (d : Block) (rest : List Byte) (s : State),
    s.initialized = true → cmdAddr (isBlock s.cardType) address.toNat = some arg →
    q.Heard s.params.maxWaitBytes 1 → q.r1 = 0 → d.Sector s.params.tokenWaitSteps →
    s.answers = q.bytes ++ (d.bytes s.params.crc16Seed ++ rest) → s.buf.wf = true → ∃ t,
      exec (.readSectors address 1) s = .next t ∧ t.result = .bool true ∧ t.error = none ∧
      t.sector 0 = d.payload ∧ SameBufferOutside 0 512 s t ∧ t.cs = .released ∧ t.answers = rest ∧
      t.sent = s.sent ++ (q.mosi false 17 arg ++ fillers d.count)) ∧
  (∀ (address : BitVec 64) (arg : BitVec 32) (q : Reply) (stop : Attempt) (blocks : List Block)
    (rest : List Byte) (s : State),
    s.initialized = true → cmdAddr (isBlock s.cardType) address.toNat = some arg → 1 < blocks.length →
    q.Heard s.params.maxWaitBytes 0 → q.r1 = 0 → (∀ d ∈ blocks, d.Sector s.params.tokenWaitSteps) →
    stop.Runs s.params false 12 →
    s.answers = q.bytes ++ (blocks.flatMap (Block.bytes s.params.crc16Seed) ++ (stop.bytes false ++ rest)) →
    s.buf.wf = true → ∃ t,
      exec (.readSectors address blocks.length) s = .next t ∧ t.result = .bool true ∧ t.error = none ∧
      (∀ k d, blocks[k]? = some d → t.sector k = d.payload) ∧
      SameBufferOutside 0 (512 * blocks.length) s t ∧ t.cs = .released ∧ t.answers = rest ∧
      t.sent = s.sent ++ (q.mosi false 18 arg ++
        (fillers (blocks.map Block.count).sum ++ stop.mosi false 12 0)))

/-- R327, R326, R66: a read whose block does not arrive (no token, a wrong one, or a CRC16 that does not match)
answers `false`. A multi-block read that breaks off so after some good blocks is closed by CMD12, however that
goes, and the earlier sectors hold their data; a single-block read sends nothing after the block. Nothing outside
the operation's buffer is written. -/
def Obligations.AbortedReadKeepsGoodSectors : Prop :=
  (∀ (address : BitVec 64) (arg : BitVec 32) (q : Reply) (broken rest : List Byte) (cls : ErrorClass)
    (s : State),
    s.initialized = true → cmdAddr (isBlock s.cardType) address.toNat = some arg →
    q.Heard s.params.maxWaitBytes 1 → q.r1 = 0 → BrokenBlock s.params 512 broken cls →
    s.answers = q.bytes ++ (broken ++ rest) → ∃ t,
      exec (.readSectors address 1) s = .next t ∧ t.result = .bool false ∧ t.error = some cls ∧
      SameBufferOutside 0 512 s t ∧ t.cs = .released ∧ t.answers = rest ∧
      t.sent = s.sent ++ (q.mosi false 17 arg ++ fillers broken.length)) ∧
  (∀ (address : BitVec 64) (count : Nat) (arg : BitVec 32) (q : Reply) (stop : Attempt)
    (blocks : List Block) (broken rest : List Byte) (cls : ErrorClass) (s : State),
    s.initialized = true → cmdAddr (isBlock s.cardType) address.toNat = some arg → 1 < count →
    blocks.length < count → q.Heard s.params.maxWaitBytes 0 → q.r1 = 0 →
    (∀ d ∈ blocks, d.Sector s.params.tokenWaitSteps) → BrokenBlock s.params 512 broken cls →
    stop.Runs s.params false 12 →
    s.answers = q.bytes ++ (blocks.flatMap (Block.bytes s.params.crc16Seed) ++
      (broken ++ (stop.bytes false ++ rest))) →
    s.buf.wf = true → ∃ t,
      exec (.readSectors address count) s = .next t ∧ t.result = .bool false ∧ t.error = some cls ∧
      (∀ j d, blocks[j]? = some d → t.sector j = d.payload) ∧
      SameBufferOutside 0 (512 * count) s t ∧ t.cs = .released ∧ t.answers = rest ∧
      t.sent = s.sent ++ (q.mosi false 18 arg ++
        (fillers ((blocks.map Block.count).sum + broken.length) ++ stop.mosi false 12 0)))

/-- R330-R334 on a healthy card: CMD24 and one block with the token 0xFE, or ACMD23 on SD cards (however it
goes: its result is ignored, R331), CMD25, the blocks with the token 0xFC and the stop token. The bytes sent are
the bytes of the block buffer (R61), which is only read. -/
def Obligations.WriteSectorsCompletes : Prop :=
  (∀ (address : BitVec 64) (arg : BitVec 32) (q : Reply) (d : Taken) (rest : List Byte) (s : State),
    s.initialized = true → cmdAddr (isBlock s.cardType) address.toNat = some arg →
    q.Heard s.params.maxWaitBytes 0 → q.r1 = 0 → d.Heard s.params.readyWaitSteps →
    slice d.resp 0 5 = (0b00101 : BitVec 5) → s.answers = q.bytes ++ (d.bytes ++ rest) → ∃ t,
      exec (.writeSectors address 1) s = .next t ∧ t.result = .bool true ∧ t.error = none ∧
      t.buf = s.buf ∧ t.cs = .released ∧ t.answers = rest ∧
      t.sent = s.sent ++ (q.mosi false 24 arg ++ d.mosi s.params.crc16Seed 0xFE (s.sector 0))) ∧
  (∀ (address : BitVec 64) (arg : BitVec 32) (hint : Attempt) (q : Reply) (blocks : List Taken)
    (busy : List Byte) (ignored : Byte) (rest : List Byte) (s : State),
    s.initialized = true → cmdAddr (isBlock s.cardType) address.toNat = some arg → 1 < blocks.length →
    hint.Runs s.params true 23 → q.Heard s.params.maxWaitBytes 0 → q.r1 = 0 →
    (∀ d ∈ blocks, d.Heard s.params.readyWaitSteps ∧ slice d.resp 0 5 = (0b00101 : BitVec 5)) →
    (∀ b ∈ busy, b ≠ 0xFF) → busy.length < s.params.readyWaitSteps →
    s.answers = (if isSd1 s.cardType || isSd2 s.cardType then hint.bytes true else []) ++
      (q.bytes ++ (blocks.flatMap Taken.bytes ++ (readyBytes busy ++ (ignored :: rest)))) → ∃ t,
      exec (.writeSectors address blocks.length) s = .next t ∧ t.result = .bool true ∧ t.error = none ∧
      t.buf = s.buf ∧ t.cs = .released ∧ t.answers = rest ∧
      t.sent = s.sent ++ ((if isSd1 s.cardType || isSd2 s.cardType then
          hint.mosi true 23 (BitVec.ofNat 32 blocks.length) else []) ++
        (q.mosi false 25 arg ++
          ((blocks.mapIdx (fun k d => d.mosi s.params.crc16Seed 0xFC (s.sector k))).flatten ++
            (fillers (busy.length + 1) ++ [0xFD])))))

/-- R338-R340: CMD32, CMD33 with the last sector of the range, CMD38, and nothing after its R1. A command that is
not answered 0, or not answered at all, ends the sequence with `false`, and the later ones are not sent (the
classes are log 15). R343: SYNC is one ready wait; where it runs out the answer is `false`, class (a). Chip select
is released on every path (R321). The next state says everything that changed. -/
def Obligations.EraseAndSyncOutcomes : Prop :=
  (∀ (address : BitVec 64) (count : Nat) (first last : BitVec 32) (a0 a1 a2 : Attempt) (rest : List Byte)
    (s : State),
    s.initialized = true → count ≠ 0 → cmdAddr (isBlock s.cardType) address.toNat = some first →
    cmdAddr (isBlock s.cardType) (address.toNat + count - 1) = some last → a0.Runs s.params false 32 →
    (a0.r1 s.params.errSentinel ≠ 0 → s.answers = a0.bytes false ++ rest →
      exec (.eraseSectors address count) s = .next
        ((((s.setCs .asserted).attempted false 32 first a0).setCs .released).finish (.bool false)
          (some a0.failClass))) ∧
    (a0.r1 s.params.errSentinel = 0 → a1.Runs s.params false 33 → a1.r1 s.params.errSentinel ≠ 0 →
      s.answers = a0.bytes false ++ (a1.bytes false ++ rest) →
      exec (.eraseSectors address count) s = .next
        (((((s.setCs .asserted).attempted false 32 first a0).attempted false 33 last a1).setCs .released).finish
          (.bool false) (some a1.failClass))) ∧
    (a0.r1 s.params.errSentinel = 0 → a1.Runs s.params false 33 → a1.r1 s.params.errSentinel = 0 →
      a2.Runs s.params false 38 →
      s.answers = a0.bytes false ++ (a1.bytes false ++ (a2.bytes false ++ rest)) →
      exec (.eraseSectors address count) s = .next
        ((((((s.setCs .asserted).attempted false 32 first a0).attempted false 33 last a1).attempted false 38 0
          a2).setCs .released).finish (.bool (decide (a2.r1 s.params.errSentinel = 0)))
          (if a2.r1 s.params.errSentinel = 0 then none else some a2.failClass)))) ∧
  (∀ (busy rest : List Byte) (s : State), s.initialized = true → (∀ b ∈ busy, b ≠ 0xFF) →
    (busy.length < s.params.readyWaitSteps → s.answers = readyBytes busy ++ rest →
      exec .sync s = .next
        ((((s.setCs .asserted).waited busy).setCs .released).finish (.bool true) none)) ∧
    (busy.length = s.params.readyWaitSteps → s.answers = busy ++ rest →
      exec .sync s = .next
        ((((s.setCs .asserted).stillBusy busy).setCs .released).finish (.bool false)
          (some .transportTimeout))))

/-- R324-R326 and R332-R335, whatever the card answers to the command that opens the transfer. One not answered 0
(or not at all) ends the operation with `false` and nothing more is clocked. An accepted CMD18 is closed by
CMD12: its frame and at most the response poll are the last bytes sent, with nothing but 0xFF before them. An accepted CMD25 is closed by the stop
token, the last byte sent, unless the ready wait before it runs out, and then the result is `false`. A block that
is not accepted makes the result `false`: no later block is sent, and only the ready wait and the stop token
follow it, of a CMD25. The classes are log 15. -/
def Obligations.AcceptedTransfersAreClosed : Prop :=
  ∀ (address : BitVec 64) (count : Nat) (arg : BitVec 32) (s t : State),
    s.initialized = true → count ≠ 0 → cmdAddr (isBlock s.cardType) address.toNat = some arg →
    (exec (.readSectors address count) s = .next t →
      ((readCommand count arg s).1.r1 ≠ 0 →
        t.result = .bool false ∧ t.error = some (readCommand count arg s).1.failClass ∧
        t.trace = (readCommand count arg s).2.trace ∧
        t.frame = buildFrame (if count = 1 then 17 else 18) arg) ∧
      ((readCommand count arg s).1.r1 = 0 → 1 < count → t.frame = buildFrame 12 0 ∧
        ∃ n k, k ≤ s.params.maxWaitBytes ∧ t.sent = (readCommand count arg s).2.sent ++
          (fillers n ++ (frameBytes (buildFrame 12 0) ++ fillers k)))) ∧
    (exec (.writeSectors address count) s = .next t →
      t.frame = buildFrame (if count = 1 then 24 else 25) arg ∧
      ((writeCommand count arg s).1.r1 ≠ 0 →
        t.result = .bool false ∧ t.error = some (writeCommand count arg s).1.failClass ∧
        t.trace = (writeCommand count arg s).2.trace) ∧
      ((writeCommand count arg s).1.r1 = 0 → 1 < count →
        ((waitReady (writeBlocks count 0 (writeCommand count arg s).2).2).1 = true →
          t.trace.head?.map Exchange.mosi = some 0xFD) ∧
        ((waitReady (writeBlocks count 0 (writeCommand count arg s).2).2).1 = false →
          t.result = .bool false)) ∧
      ∀ (blocks : List Taken) (last : Untaken) (rest : List Byte),
        (writeCommand count arg s).1.r1 = 0 → blocks.length < count →
        (∀ d ∈ blocks, d.Heard s.params.readyWaitSteps ∧ slice d.resp 0 5 = (0b00101 : BitVec 5)) →
        last.Heard s.params.readyWaitSteps →
        (writeCommand count arg s).2.answers = blocks.flatMap Taken.bytes ++ (last.bytes ++ rest) →
        t.result = .bool false ∧ t.error = some last.failClass ∧
        ∃ stop : List Byte, t.sent = (writeCommand count arg s).2.sent ++
            ((blocks.mapIdx (fun k d => d.mosi s.params.crc16Seed (if count = 1 then 0xFE else 0xFC)
              (s.sector k))).flatten ++
            (last.mosi s.params.crc16Seed (if count = 1 then 0xFE else 0xFC) (s.sector blocks.length) ++ stop)) ∧
          (count = 1 → stop = []) ∧
          ∃ n, n ≤ s.params.readyWaitSteps ∧ (stop = fillers n ∨ stop = fillers n ++ [0xFD]))

/-- R321, R33, R55, R66: the frame of the four bus-using operations, whatever the card answers. Every exchange
takes place with chip select asserted and chip select is released at the end; only READ_SECTORS writes the
block buffer, and only the sectors of the operation; transient storage an operation does not use is kept. For
the session and sequencer registers see `SessionWrittenByBeginAlone`. -/
def Obligations.BlockOperationFrame : Prop :=
  ∀ (i : Instr) (s t : State), isGated i = true → exec i s = .next t →
    SameHost s t ∧ (t.cs = s.cs ∨ t.cs = .released) ∧
    (∃ new, t.trace = new ++ s.trace ∧ t.xchgCount = s.xchgCount + new.length ∧
      t.answers = s.answers.drop new.length ∧ (∀ e ∈ new, e.cs = .asserted) ∧
      (new ≠ [] → s.initialized = true ∧ t.cs = .released)) ∧
    (∀ address count, i = .readSectors address count → SameBufferOutside 0 (512 * count) s t) ∧
    ((∀ address count, i ≠ .readSectors address count) →
      t.buf = s.buf ∧ t.tok = s.tok ∧ t.freeCount = s.freeCount) ∧
    t.resp = s.resp ∧
    (∀ address count, i = .eraseSectors address count ∨ i = .sync → t.crc16acc = s.crc16acc) ∧
    (i = .sync → t.frame = s.frame ∧ t.crc7acc = s.crc7acc)

/-- R346-R349: the accessors deliver the constant and the registers, with no bus activity and whatever the
initialized flag is. -/
def Obligations.Accessors : Prop :=
  ∀ s : State,
    exec .getSectorSize s = .next { s with result := .sectorSize 512, error := none } ∧
    exec .getSectorCount s = .next { s with result := .sectorCount s.sectorCount, error := none } ∧
    exec .getCid s = .next { s with result := .cidRegister s.cid (cidDecode s.cid), error := none } ∧
    exec .getCsd s = .next { s with result := .csdRegister s.csd (csdDecode s.csd), error := none }

/-- R421 (ii): a card that keeps answering its busy byte 0x00 makes ERASE_SECTORS answer `true` although
every one of the 21 bytes was the busy byte, while READ_SECTORS of one sector and of several answer
`false`. -/
def Obligations.BusyCardHazard : Prop :=
  ∀ (address : BitVec 64) (count : Nat) (first last : BitVec 32) (rest : List Byte) (s : State),
    s.initialized = true → count ≠ 0 → 0 < s.params.maxWaitBytes → 0 < s.params.tokenWaitSteps →
    cmdAddr (isBlock s.cardType) address.toNat = some first →
    cmdAddr (isBlock s.cardType) (address.toNat + count - 1) = some last →
    s.answers = List.replicate 21 0x00 ++ rest →
    (∃ t, exec (.eraseSectors address count) s = .next t ∧ t.result = .bool true ∧ t.answers = rest) ∧
    (∃ t, exec (.readSectors address count) s = .next t ∧ t.result = .bool false ∧
      t.error = some .transportTimeout)

/-! ### Reset, invariants, whole-machine rules -/

/-- R44, R400: the value of every element of state after engine reset that the spec gives one, for every value of
the parameters; after reset they are the defaults of R7 (log 5). No byte has been exchanged (R400; the trace that
says so is the model's own field, log 19). -/
def Obligations.ResetValues : Prop :=
  (∀ (p : Params) (s : State), s = State.resetWith p →
    s.params = p ∧ s.initialized = false ∧ s.cardType = 0 ∧ s.sectorCount = 0 ∧ s.csd = 0 ∧ s.cid = 0 ∧
    s.initState = .reset ∧ s.pathV2 = false ∧ s.pollCmd = 0 ∧ s.pollArg = 0 ∧ s.cs = .released ∧
    s.clockHz = p.fInitHz ∧ s.attempt = 0 ∧ s.trace = []) ∧
  State.reset = State.resetWith defaultParams

/-- The state after reset satisfies the invariant of an idle engine, whatever the parameters are. -/
def Obligations.ResetIsIdle : Prop := State.reset.Inv ∧ ∀ p : Params, (State.resetWith p).Inv

/-- Every step of a state that satisfies the invariant of an idle engine answers a state that satisfies it. -/
def Obligations.StepKeepsIdleState : Prop :=
  ∀ s t : State, s.Inv → step s = .next t → t.Inv

/-- R361, R368: no instruction reads the report of an earlier one. -/
def Obligations.ReportsAreNeverRead : Prop :=
  ∀ (i : Instr) (s : State) (result : Result) (error : Option ErrorClass),
    exec i { s with result := result, error := error } = exec i s

/-- R365, R24: only the four gated operations read the initialized flag. Every other instruction does the
same whatever the flag is; BEGIN and END write it, the others keep it. -/
def Obligations.OnlyTheGateReadsTheFlag : Prop :=
  ∀ (i : Instr) (s t : State) (b : Bool), isGated i = false → exec i s = .next t →
    exec i { s with initialized := b } = .next
      (match i with
        | .beginOp _ => t
        | .endOp => t
        | _ => { t with initialized := b })

/-- R13, R54, R15: every instruction ends in a next state in every state, whatever the card answers, and the
wire only grows: earlier exchanges stay, and every new one is counted. -/
def Obligations.EveryOperationEnds : Prop :=
  ∀ (i : Instr) (s : State), ∃ t new, exec i s = .next t ∧ SameHost s t ∧ t.trace = new ++ s.trace ∧
    t.xchgCount = s.xchgCount + new.length
end

