-- ==== Sys2Proof/Laws/Bits.lean ====
section
/-!
SUPPORT. Big-endian byte strings and numbers are inverse to each other (`20_memory.md` R60).
-/

namespace Sys2Proof.Machine

@[simp] theorem beBytes_length (n v : Nat) : (beBytes n v).length = n := by
  induction n with
  | zero => rfl
  | succ n ih => simp [beBytes, ih]

theorem fromBe_append (a b : List Byte) : fromBe (a ++ b) = fromBe a * 256 ^ b.length + fromBe b := by
  induction a with
  | nil => simp [fromBe]
  | cons x a ih =>
    simp only [List.cons_append, fromBe, ih, List.length_append, Nat.pow_add]
    ring

theorem fromBe_lt (bs : List Byte) : fromBe bs < 256 ^ bs.length := by
  induction bs with
  | nil => simp [fromBe]
  | cons b bs ih =>
    have hb : b.toNat ≤ 255 := by have := b.isLt; omega
    have := Nat.mul_le_mul_right (256 ^ bs.length) hb
    simp only [fromBe, List.length_cons, Nat.pow_succ]
    omega

theorem fromBe_beBytes (n v : Nat) : fromBe (beBytes n v) = v % 256 ^ n := by
  induction n with
  | zero => simp [beBytes, fromBe, Nat.mod_one]
  | succ n ih =>
    simp only [beBytes, fromBe, beBytes_length, ih, BitVec.toNat_ofNat]
    have h : v % 256 ^ (n + 1) = v % 256 ^ n + 256 ^ n * (v / 256 ^ n % 256) := by
      rw [Nat.pow_succ, Nat.mod_mul]
    rw [h, Nat.mul_comm (256 ^ n), Nat.add_comm]

theorem fromBe_beBytes_of_lt {n v : Nat} (h : v < 256 ^ n) : fromBe (beBytes n v) = v := by
  rw [fromBe_beBytes, Nat.mod_eq_of_lt h]

theorem beBytes_fromBe (bs : List Byte) : beBytes bs.length (fromBe bs) = bs := by
  induction bs with
  | nil => rfl
  | cons b bs ih =>
    have hlt := fromBe_lt bs
    have hpos : 0 < 256 ^ bs.length := Nat.lt_of_le_of_lt (Nat.zero_le _) hlt
    have hdiv : (b.toNat * 256 ^ bs.length + fromBe bs) / 256 ^ bs.length = b.toNat := by
      rw [Nat.mul_comm, Nat.mul_add_div hpos, Nat.div_eq_of_lt hlt, Nat.add_zero]
    have hrest : ∀ n k v, beBytes n (k * 256 ^ n + v) = beBytes n v := by
      intro n
      induction n with
      | zero => intros; rfl
      | succ n ih =>
        intro k v
        have h1 : k * 256 ^ (n + 1) + v = (k * 256) * 256 ^ n + v := by rw [Nat.pow_succ]; ring
        have hp : 0 < 256 ^ n := Nat.pow_pos (by decide)
        have h2 : ((k * 256) * 256 ^ n + v) / 256 ^ n = k * 256 + v / 256 ^ n := by
          rw [Nat.mul_comm (k * 256), Nat.mul_add_div hp]
        simp only [beBytes]
        rw [h1, ih, h2]
        congr 1
        apply BitVec.eq_of_toNat_eq
        simp only [BitVec.toNat_ofNat]
        omega
    simp only [List.length_cons, beBytes, fromBe, hdiv, hrest, ih, BitVec.ofNat_toNat]
    simp

theorem fromBe_take_drop (k : Nat) (bs : List Byte) :
    fromBe bs = fromBe (bs.take k) * 256 ^ (bs.drop k).length + fromBe (bs.drop k) := by
  rw [← fromBe_append, List.take_append_drop]

theorem slice_eq_of_toNat {n w : Nat} (v : BitVec n) (start : Nat) :
    (slice v start w).toNat = v.toNat / 2 ^ start % 2 ^ w := by
  simp [slice, BitVec.extractLsb'_toNat, Nat.shiftRight_eq_div_pow]

@[simp] theorem slice_getLsbD {n : Nat} (v : BitVec n) (start width i : Nat) :
    (slice v start width).getLsbD i = (decide (i < width) && v.getLsbD (start + i)) := by
  simp [slice]

end Sys2Proof.Machine
end

