-- ==== Sys2Proof/Laws/Bounds.lean ====
section
/-!
SUPPORT. The worst cases of `70_reset_and_hazards.md` R431 row by row, and the exchanges of BEGIN as a sum.
-/

namespace Sys2Proof.Machine

theorem tailBound_zero (b : Bool) (w : Nat) : tailBound b w 0 = 0 := rfl

theorem tailBound_direct (w n : Nat) : tailBound false w n = n := by
  unfold tailBound; split <;> simp_all

theorem tailBound_block {w n : Nat} (h : n ≠ 0) : tailBound true w n = w + (n + 2) := by
  simp [tailBound, h]

/-- A transaction that is not data-bearing. -/
theorem transactBound_direct {app : Bool} {index : BitVec 6} (h : dataBearing app index = false) (w n : Nat) :
    transactBound app index w n = 6 + w + n := by
  simp [transactBound, stuffing, h, tailBound_direct]

/-- A data-bearing transaction with a payload. -/
theorem transactBound_data {app : Bool} {index : BitVec 6} (h : dataBearing app index = true) (w : Nat) {n : Nat}
    (hn : n ≠ 0) : transactBound app index w n = 6 + 1 + w + (w + (n + 2)) := by
  simp [transactBound, stuffing, h, tailBound_block hn]

theorem transactBound_cmd55 (w : Nat) : transactBound false 55 w 0 = 6 + w := transactBound_direct rfl w 0

/-- The transaction of an ordinary command. -/
theorem commandBound_ordinary {cmd : Byte} (h6 : cmdRefused cmd = false) (h7 : cmdApp cmd = false) (w n : Nat) :
    commandBound cmd w n = transactBound false (cmdIndex cmd) w n := by
  simp [commandBound, h6, h7]

/-- The two transactions of an application command. -/
theorem commandBound_application {cmd : Byte} (h6 : cmdRefused cmd = false) (h7 : cmdApp cmd = true) (w n : Nat) :
    commandBound cmd w n = (6 + w) + transactBound true (cmdIndex cmd) w n := by
  rw [commandBound, transactBound_cmd55]; simp [h6, h7]

theorem commandBound_ordinary_direct {cmd : Byte} (h6 : cmdRefused cmd = false) (h7 : cmdApp cmd = false)
    (h : dataBearing false (cmdIndex cmd) = false) (w n : Nat) : commandBound cmd w n = 6 + w + n :=
  (commandBound_ordinary h6 h7 w n).trans (transactBound_direct h w n)

theorem commandBound_00 (w : Nat) : commandBound 0x00 w 0 = 6 + w := commandBound_ordinary_direct rfl rfl rfl w 0
theorem commandBound_01 (w : Nat) : commandBound 0x01 w 0 = 6 + w := commandBound_ordinary_direct rfl rfl rfl w 0
theorem commandBound_08 (w : Nat) : commandBound 0x08 w 4 = 6 + w + 4 :=
  commandBound_ordinary_direct rfl rfl rfl w 4
theorem commandBound_3A (w : Nat) : commandBound 0x3A w 4 = 6 + w + 4 :=
  commandBound_ordinary_direct rfl rfl rfl w 4
theorem commandBound_10 (w : Nat) : commandBound 0x10 w 0 = 6 + w := commandBound_ordinary_direct rfl rfl rfl w 0
theorem commandBound_09 (w : Nat) : commandBound 0x09 w 16 = 6 + 1 + w + (w + (16 + 2)) :=
  (commandBound_ordinary rfl rfl w 16).trans (transactBound_data rfl w (by decide))
theorem commandBound_0A (w : Nat) : commandBound 0x0A w 16 = 6 + 1 + w + (w + (16 + 2)) :=
  (commandBound_ordinary rfl rfl w 16).trans (transactBound_data rfl w (by decide))
theorem commandBound_A9 (w : Nat) : commandBound 0xA9 w 0 = 2 * (6 + w) := by
  rw [commandBound_application rfl rfl, transactBound_direct rfl]; omega

/-- `41_command_framer.md` R167, first half. -/
theorem commandBound_le (cmd : Byte) (w n : Nat) :
    commandBound cmd w n ≤ 2 * (6 + w) + 1 + w + n + 2 := by
  rw [commandBound, transactBound_cmd55]
  unfold transactBound tailBound stuffing
  repeat' split
  all_goals omega

theorem commandBound_le_noPayload (cmd : Byte) (w : Nat) : commandBound cmd w 0 ≤ 2 * (6 + w) + 1 := by
  rw [commandBound, transactBound_cmd55]
  unfold transactBound stuffing
  simp only [tailBound_zero]
  repeat' split
  all_goals omega

/-- R431, rows BEGIN. -/
theorem beginBound_eq (p : Params) (v2 : Bool) : beginBound p v2 =
    p.dummyBytes + p.cmd0Attempts * (6 + p.maxWaitBytes) + (6 + p.maxWaitBytes + 4) +
      (if v2 then 0 else 2 * (6 + p.maxWaitBytes)) + p.readyPollAttempts * (2 * (6 + p.maxWaitBytes)) +
      (if v2 then 6 + p.maxWaitBytes + 4 else 6 + p.maxWaitBytes) +
      2 * (6 + 1 + p.maxWaitBytes + p.maxWaitBytes + 16 + 2) := by
  simp only [beginBound, commandBound_00, commandBound_08, commandBound_A9, commandBound_3A, commandBound_10,
    commandBound_09, commandBound_0A]
  omega

end Sys2Proof.Machine
end

