-- ==== Sys2Proof/Laws/State.lean ====
section
/-!
SUPPORT. What each register write of Machine/Ops.lean does to each field of the state, one lemma a field,
so that no proof unfolds a record update. The proofs are written `(rfl)`, which keeps `simp` from using them up
to unfolding: unfolding a frame or a checksum beside a field is what makes a proof slow.
-/

namespace Sys2Proof.Machine

variable (s : State)

@[simp] theorem State.setCs_params (v : ChipSelect) : (s.setCs v).params = s.params := (rfl)
@[simp] theorem State.setCs_initialized (v : ChipSelect) : (s.setCs v).initialized = s.initialized := (rfl)
@[simp] theorem State.setCs_cardType (v : ChipSelect) : (s.setCs v).cardType = s.cardType := (rfl)
@[simp] theorem State.setCs_sectorCount (v : ChipSelect) : (s.setCs v).sectorCount = s.sectorCount := (rfl)
@[simp] theorem State.setCs_csd (v : ChipSelect) : (s.setCs v).csd = s.csd := (rfl)
@[simp] theorem State.setCs_cid (v : ChipSelect) : (s.setCs v).cid = s.cid := (rfl)
@[simp] theorem State.setCs_initState (v : ChipSelect) : (s.setCs v).initState = s.initState := (rfl)
@[simp] theorem State.setCs_pathV2 (v : ChipSelect) : (s.setCs v).pathV2 = s.pathV2 := (rfl)
@[simp] theorem State.setCs_pollCmd (v : ChipSelect) : (s.setCs v).pollCmd = s.pollCmd := (rfl)
@[simp] theorem State.setCs_pollArg (v : ChipSelect) : (s.setCs v).pollArg = s.pollArg := (rfl)
@[simp] theorem State.setCs_cs (v : ChipSelect) : (s.setCs v).cs = v := (rfl)
@[simp] theorem State.setCs_clockHz (v : ChipSelect) : (s.setCs v).clockHz = s.clockHz := (rfl)
@[simp] theorem State.setCs_attempt (v : ChipSelect) : (s.setCs v).attempt = s.attempt := (rfl)
@[simp] theorem State.setCs_frame (v : ChipSelect) : (s.setCs v).frame = s.frame := (rfl)
@[simp] theorem State.setCs_crc7acc (v : ChipSelect) : (s.setCs v).crc7acc = s.crc7acc := (rfl)
@[simp] theorem State.setCs_crc16acc (v : ChipSelect) : (s.setCs v).crc16acc = s.crc16acc := (rfl)
@[simp] theorem State.setCs_resp (v : ChipSelect) : (s.setCs v).resp = s.resp := (rfl)
@[simp] theorem State.setCs_tok (v : ChipSelect) : (s.setCs v).tok = s.tok := (rfl)
@[simp] theorem State.setCs_buf (v : ChipSelect) : (s.setCs v).buf = s.buf := (rfl)
@[simp] theorem State.setCs_requests (v : ChipSelect) : (s.setCs v).requests = s.requests := (rfl)
@[simp] theorem State.setCs_result (v : ChipSelect) : (s.setCs v).result = s.result := (rfl)
@[simp] theorem State.setCs_error (v : ChipSelect) : (s.setCs v).error = s.error := (rfl)
@[simp] theorem State.setCs_answers (v : ChipSelect) : (s.setCs v).answers = s.answers := (rfl)
@[simp] theorem State.setCs_trace (v : ChipSelect) : (s.setCs v).trace = s.trace := (rfl)
@[simp] theorem State.setCs_xchgCount (v : ChipSelect) : (s.setCs v).xchgCount = s.xchgCount := (rfl)
@[simp] theorem State.setCs_busConfig (v : ChipSelect) : (s.setCs v).busConfig = s.busConfig := (rfl)
@[simp] theorem State.setCs_delayUs (v : ChipSelect) : (s.setCs v).delayUs = s.delayUs := (rfl)
@[simp] theorem State.setCs_freeCount (v : ChipSelect) : (s.setCs v).freeCount = s.freeCount := (rfl)

@[simp] theorem State.setClock_params (v : Nat) : (s.setClock v).params = s.params := (rfl)
@[simp] theorem State.setClock_initialized (v : Nat) : (s.setClock v).initialized = s.initialized := (rfl)
@[simp] theorem State.setClock_cardType (v : Nat) : (s.setClock v).cardType = s.cardType := (rfl)
@[simp] theorem State.setClock_sectorCount (v : Nat) : (s.setClock v).sectorCount = s.sectorCount := (rfl)
@[simp] theorem State.setClock_csd (v : Nat) : (s.setClock v).csd = s.csd := (rfl)
@[simp] theorem State.setClock_cid (v : Nat) : (s.setClock v).cid = s.cid := (rfl)
@[simp] theorem State.setClock_initState (v : Nat) : (s.setClock v).initState = s.initState := (rfl)
@[simp] theorem State.setClock_pathV2 (v : Nat) : (s.setClock v).pathV2 = s.pathV2 := (rfl)
@[simp] theorem State.setClock_pollCmd (v : Nat) : (s.setClock v).pollCmd = s.pollCmd := (rfl)
@[simp] theorem State.setClock_pollArg (v : Nat) : (s.setClock v).pollArg = s.pollArg := (rfl)
@[simp] theorem State.setClock_cs (v : Nat) : (s.setClock v).cs = s.cs := (rfl)
@[simp] theorem State.setClock_clockHz (v : Nat) : (s.setClock v).clockHz = v := (rfl)
@[simp] theorem State.setClock_attempt (v : Nat) : (s.setClock v).attempt = s.attempt := (rfl)
@[simp] theorem State.setClock_frame (v : Nat) : (s.setClock v).frame = s.frame := (rfl)
@[simp] theorem State.setClock_crc7acc (v : Nat) : (s.setClock v).crc7acc = s.crc7acc := (rfl)
@[simp] theorem State.setClock_crc16acc (v : Nat) : (s.setClock v).crc16acc = s.crc16acc := (rfl)
@[simp] theorem State.setClock_resp (v : Nat) : (s.setClock v).resp = s.resp := (rfl)
@[simp] theorem State.setClock_tok (v : Nat) : (s.setClock v).tok = s.tok := (rfl)
@[simp] theorem State.setClock_buf (v : Nat) : (s.setClock v).buf = s.buf := (rfl)
@[simp] theorem State.setClock_requests (v : Nat) : (s.setClock v).requests = s.requests := (rfl)
@[simp] theorem State.setClock_result (v : Nat) : (s.setClock v).result = s.result := (rfl)
@[simp] theorem State.setClock_error (v : Nat) : (s.setClock v).error = s.error := (rfl)
@[simp] theorem State.setClock_answers (v : Nat) : (s.setClock v).answers = s.answers := (rfl)
@[simp] theorem State.setClock_trace (v : Nat) : (s.setClock v).trace = s.trace := (rfl)
@[simp] theorem State.setClock_xchgCount (v : Nat) : (s.setClock v).xchgCount = s.xchgCount := (rfl)
@[simp] theorem State.setClock_busConfig (v : Nat) : (s.setClock v).busConfig = s.busConfig := (rfl)
@[simp] theorem State.setClock_delayUs (v : Nat) : (s.setClock v).delayUs = s.delayUs := (rfl)
@[simp] theorem State.setClock_freeCount (v : Nat) : (s.setClock v).freeCount = s.freeCount := (rfl)

@[simp] theorem State.configure_params : (s.configure).params = s.params := (rfl)
@[simp] theorem State.configure_initialized : (s.configure).initialized = s.initialized := (rfl)
@[simp] theorem State.configure_cardType : (s.configure).cardType = s.cardType := (rfl)
@[simp] theorem State.configure_sectorCount : (s.configure).sectorCount = s.sectorCount := (rfl)
@[simp] theorem State.configure_csd : (s.configure).csd = s.csd := (rfl)
@[simp] theorem State.configure_cid : (s.configure).cid = s.cid := (rfl)
@[simp] theorem State.configure_initState : (s.configure).initState = s.initState := (rfl)
@[simp] theorem State.configure_pathV2 : (s.configure).pathV2 = s.pathV2 := (rfl)
@[simp] theorem State.configure_pollCmd : (s.configure).pollCmd = s.pollCmd := (rfl)
@[simp] theorem State.configure_pollArg : (s.configure).pollArg = s.pollArg := (rfl)
@[simp] theorem State.configure_cs : (s.configure).cs = s.cs := (rfl)
@[simp] theorem State.configure_clockHz : (s.configure).clockHz = s.params.fInitHz := (rfl)
@[simp] theorem State.configure_attempt : (s.configure).attempt = s.attempt := (rfl)
@[simp] theorem State.configure_frame : (s.configure).frame = s.frame := (rfl)
@[simp] theorem State.configure_crc7acc : (s.configure).crc7acc = s.crc7acc := (rfl)
@[simp] theorem State.configure_crc16acc : (s.configure).crc16acc = s.crc16acc := (rfl)
@[simp] theorem State.configure_resp : (s.configure).resp = s.resp := (rfl)
@[simp] theorem State.configure_tok : (s.configure).tok = s.tok := (rfl)
@[simp] theorem State.configure_buf : (s.configure).buf = s.buf := (rfl)
@[simp] theorem State.configure_requests : (s.configure).requests = s.requests := (rfl)
@[simp] theorem State.configure_result : (s.configure).result = s.result := (rfl)
@[simp] theorem State.configure_error : (s.configure).error = s.error := (rfl)
@[simp] theorem State.configure_answers : (s.configure).answers = s.answers := (rfl)
@[simp] theorem State.configure_trace : (s.configure).trace = s.trace := (rfl)
@[simp] theorem State.configure_xchgCount : (s.configure).xchgCount = s.xchgCount := (rfl)
@[simp] theorem State.configure_busConfig : (s.configure).busConfig = some ⟨s.params.bitOrder, s.params.clockMode, s.params.fInitHz⟩ := (rfl)
@[simp] theorem State.configure_delayUs : (s.configure).delayUs = s.delayUs := (rfl)
@[simp] theorem State.configure_freeCount : (s.configure).freeCount = s.freeCount := (rfl)

@[simp] theorem State.setAttempt_params (v : Nat) : (s.setAttempt v).params = s.params := (rfl)
@[simp] theorem State.setAttempt_initialized (v : Nat) : (s.setAttempt v).initialized = s.initialized := (rfl)
@[simp] theorem State.setAttempt_cardType (v : Nat) : (s.setAttempt v).cardType = s.cardType := (rfl)
@[simp] theorem State.setAttempt_sectorCount (v : Nat) : (s.setAttempt v).sectorCount = s.sectorCount := (rfl)
@[simp] theorem State.setAttempt_csd (v : Nat) : (s.setAttempt v).csd = s.csd := (rfl)
@[simp] theorem State.setAttempt_cid (v : Nat) : (s.setAttempt v).cid = s.cid := (rfl)
@[simp] theorem State.setAttempt_initState (v : Nat) : (s.setAttempt v).initState = s.initState := (rfl)
@[simp] theorem State.setAttempt_pathV2 (v : Nat) : (s.setAttempt v).pathV2 = s.pathV2 := (rfl)
@[simp] theorem State.setAttempt_pollCmd (v : Nat) : (s.setAttempt v).pollCmd = s.pollCmd := (rfl)
@[simp] theorem State.setAttempt_pollArg (v : Nat) : (s.setAttempt v).pollArg = s.pollArg := (rfl)
@[simp] theorem State.setAttempt_cs (v : Nat) : (s.setAttempt v).cs = s.cs := (rfl)
@[simp] theorem State.setAttempt_clockHz (v : Nat) : (s.setAttempt v).clockHz = s.clockHz := (rfl)
@[simp] theorem State.setAttempt_attempt (v : Nat) : (s.setAttempt v).attempt = v := (rfl)
@[simp] theorem State.setAttempt_frame (v : Nat) : (s.setAttempt v).frame = s.frame := (rfl)
@[simp] theorem State.setAttempt_crc7acc (v : Nat) : (s.setAttempt v).crc7acc = s.crc7acc := (rfl)
@[simp] theorem State.setAttempt_crc16acc (v : Nat) : (s.setAttempt v).crc16acc = s.crc16acc := (rfl)
@[simp] theorem State.setAttempt_resp (v : Nat) : (s.setAttempt v).resp = s.resp := (rfl)
@[simp] theorem State.setAttempt_tok (v : Nat) : (s.setAttempt v).tok = s.tok := (rfl)
@[simp] theorem State.setAttempt_buf (v : Nat) : (s.setAttempt v).buf = s.buf := (rfl)
@[simp] theorem State.setAttempt_requests (v : Nat) : (s.setAttempt v).requests = s.requests := (rfl)
@[simp] theorem State.setAttempt_result (v : Nat) : (s.setAttempt v).result = s.result := (rfl)
@[simp] theorem State.setAttempt_error (v : Nat) : (s.setAttempt v).error = s.error := (rfl)
@[simp] theorem State.setAttempt_answers (v : Nat) : (s.setAttempt v).answers = s.answers := (rfl)
@[simp] theorem State.setAttempt_trace (v : Nat) : (s.setAttempt v).trace = s.trace := (rfl)
@[simp] theorem State.setAttempt_xchgCount (v : Nat) : (s.setAttempt v).xchgCount = s.xchgCount := (rfl)
@[simp] theorem State.setAttempt_busConfig (v : Nat) : (s.setAttempt v).busConfig = s.busConfig := (rfl)
@[simp] theorem State.setAttempt_delayUs (v : Nat) : (s.setAttempt v).delayUs = s.delayUs := (rfl)
@[simp] theorem State.setAttempt_freeCount (v : Nat) : (s.setAttempt v).freeCount = s.freeCount := (rfl)

@[simp] theorem State.delay_params (v : Nat) : (s.delay v).params = s.params := (rfl)
@[simp] theorem State.delay_initialized (v : Nat) : (s.delay v).initialized = s.initialized := (rfl)
@[simp] theorem State.delay_cardType (v : Nat) : (s.delay v).cardType = s.cardType := (rfl)
@[simp] theorem State.delay_sectorCount (v : Nat) : (s.delay v).sectorCount = s.sectorCount := (rfl)
@[simp] theorem State.delay_csd (v : Nat) : (s.delay v).csd = s.csd := (rfl)
@[simp] theorem State.delay_cid (v : Nat) : (s.delay v).cid = s.cid := (rfl)
@[simp] theorem State.delay_initState (v : Nat) : (s.delay v).initState = s.initState := (rfl)
@[simp] theorem State.delay_pathV2 (v : Nat) : (s.delay v).pathV2 = s.pathV2 := (rfl)
@[simp] theorem State.delay_pollCmd (v : Nat) : (s.delay v).pollCmd = s.pollCmd := (rfl)
@[simp] theorem State.delay_pollArg (v : Nat) : (s.delay v).pollArg = s.pollArg := (rfl)
@[simp] theorem State.delay_cs (v : Nat) : (s.delay v).cs = s.cs := (rfl)
@[simp] theorem State.delay_clockHz (v : Nat) : (s.delay v).clockHz = s.clockHz := (rfl)
@[simp] theorem State.delay_attempt (v : Nat) : (s.delay v).attempt = s.attempt := (rfl)
@[simp] theorem State.delay_frame (v : Nat) : (s.delay v).frame = s.frame := (rfl)
@[simp] theorem State.delay_crc7acc (v : Nat) : (s.delay v).crc7acc = s.crc7acc := (rfl)
@[simp] theorem State.delay_crc16acc (v : Nat) : (s.delay v).crc16acc = s.crc16acc := (rfl)
@[simp] theorem State.delay_resp (v : Nat) : (s.delay v).resp = s.resp := (rfl)
@[simp] theorem State.delay_tok (v : Nat) : (s.delay v).tok = s.tok := (rfl)
@[simp] theorem State.delay_buf (v : Nat) : (s.delay v).buf = s.buf := (rfl)
@[simp] theorem State.delay_requests (v : Nat) : (s.delay v).requests = s.requests := (rfl)
@[simp] theorem State.delay_result (v : Nat) : (s.delay v).result = s.result := (rfl)
@[simp] theorem State.delay_error (v : Nat) : (s.delay v).error = s.error := (rfl)
@[simp] theorem State.delay_answers (v : Nat) : (s.delay v).answers = s.answers := (rfl)
@[simp] theorem State.delay_trace (v : Nat) : (s.delay v).trace = s.trace := (rfl)
@[simp] theorem State.delay_xchgCount (v : Nat) : (s.delay v).xchgCount = s.xchgCount := (rfl)
@[simp] theorem State.delay_busConfig (v : Nat) : (s.delay v).busConfig = s.busConfig := (rfl)
@[simp] theorem State.delay_delayUs (v : Nat) : (s.delay v).delayUs = s.delayUs + v := (rfl)
@[simp] theorem State.delay_freeCount (v : Nat) : (s.delay v).freeCount = s.freeCount := (rfl)

@[simp] theorem State.setFrame_params (v : BitVec 48) : (s.setFrame v).params = s.params := (rfl)
@[simp] theorem State.setFrame_initialized (v : BitVec 48) : (s.setFrame v).initialized = s.initialized := (rfl)
@[simp] theorem State.setFrame_cardType (v : BitVec 48) : (s.setFrame v).cardType = s.cardType := (rfl)
@[simp] theorem State.setFrame_sectorCount (v : BitVec 48) : (s.setFrame v).sectorCount = s.sectorCount := (rfl)
@[simp] theorem State.setFrame_csd (v : BitVec 48) : (s.setFrame v).csd = s.csd := (rfl)
@[simp] theorem State.setFrame_cid (v : BitVec 48) : (s.setFrame v).cid = s.cid := (rfl)
@[simp] theorem State.setFrame_initState (v : BitVec 48) : (s.setFrame v).initState = s.initState := (rfl)
@[simp] theorem State.setFrame_pathV2 (v : BitVec 48) : (s.setFrame v).pathV2 = s.pathV2 := (rfl)
@[simp] theorem State.setFrame_pollCmd (v : BitVec 48) : (s.setFrame v).pollCmd = s.pollCmd := (rfl)
@[simp] theorem State.setFrame_pollArg (v : BitVec 48) : (s.setFrame v).pollArg = s.pollArg := (rfl)
@[simp] theorem State.setFrame_cs (v : BitVec 48) : (s.setFrame v).cs = s.cs := (rfl)
@[simp] theorem State.setFrame_clockHz (v : BitVec 48) : (s.setFrame v).clockHz = s.clockHz := (rfl)
@[simp] theorem State.setFrame_attempt (v : BitVec 48) : (s.setFrame v).attempt = s.attempt := (rfl)
@[simp] theorem State.setFrame_frame (v : BitVec 48) : (s.setFrame v).frame = v := (rfl)
@[simp] theorem State.setFrame_crc7acc (v : BitVec 48) : (s.setFrame v).crc7acc = s.crc7acc := (rfl)
@[simp] theorem State.setFrame_crc16acc (v : BitVec 48) : (s.setFrame v).crc16acc = s.crc16acc := (rfl)
@[simp] theorem State.setFrame_resp (v : BitVec 48) : (s.setFrame v).resp = s.resp := (rfl)
@[simp] theorem State.setFrame_tok (v : BitVec 48) : (s.setFrame v).tok = s.tok := (rfl)
@[simp] theorem State.setFrame_buf (v : BitVec 48) : (s.setFrame v).buf = s.buf := (rfl)
@[simp] theorem State.setFrame_requests (v : BitVec 48) : (s.setFrame v).requests = s.requests := (rfl)
@[simp] theorem State.setFrame_result (v : BitVec 48) : (s.setFrame v).result = s.result := (rfl)
@[simp] theorem State.setFrame_error (v : BitVec 48) : (s.setFrame v).error = s.error := (rfl)
@[simp] theorem State.setFrame_answers (v : BitVec 48) : (s.setFrame v).answers = s.answers := (rfl)
@[simp] theorem State.setFrame_trace (v : BitVec 48) : (s.setFrame v).trace = s.trace := (rfl)
@[simp] theorem State.setFrame_xchgCount (v : BitVec 48) : (s.setFrame v).xchgCount = s.xchgCount := (rfl)
@[simp] theorem State.setFrame_busConfig (v : BitVec 48) : (s.setFrame v).busConfig = s.busConfig := (rfl)
@[simp] theorem State.setFrame_delayUs (v : BitVec 48) : (s.setFrame v).delayUs = s.delayUs := (rfl)
@[simp] theorem State.setFrame_freeCount (v : BitVec 48) : (s.setFrame v).freeCount = s.freeCount := (rfl)

@[simp] theorem State.setCrc7_params (v : BitVec 7) : (s.setCrc7 v).params = s.params := (rfl)
@[simp] theorem State.setCrc7_initialized (v : BitVec 7) : (s.setCrc7 v).initialized = s.initialized := (rfl)
@[simp] theorem State.setCrc7_cardType (v : BitVec 7) : (s.setCrc7 v).cardType = s.cardType := (rfl)
@[simp] theorem State.setCrc7_sectorCount (v : BitVec 7) : (s.setCrc7 v).sectorCount = s.sectorCount := (rfl)
@[simp] theorem State.setCrc7_csd (v : BitVec 7) : (s.setCrc7 v).csd = s.csd := (rfl)
@[simp] theorem State.setCrc7_cid (v : BitVec 7) : (s.setCrc7 v).cid = s.cid := (rfl)
@[simp] theorem State.setCrc7_initState (v : BitVec 7) : (s.setCrc7 v).initState = s.initState := (rfl)
@[simp] theorem State.setCrc7_pathV2 (v : BitVec 7) : (s.setCrc7 v).pathV2 = s.pathV2 := (rfl)
@[simp] theorem State.setCrc7_pollCmd (v : BitVec 7) : (s.setCrc7 v).pollCmd = s.pollCmd := (rfl)
@[simp] theorem State.setCrc7_pollArg (v : BitVec 7) : (s.setCrc7 v).pollArg = s.pollArg := (rfl)
@[simp] theorem State.setCrc7_cs (v : BitVec 7) : (s.setCrc7 v).cs = s.cs := (rfl)
@[simp] theorem State.setCrc7_clockHz (v : BitVec 7) : (s.setCrc7 v).clockHz = s.clockHz := (rfl)
@[simp] theorem State.setCrc7_attempt (v : BitVec 7) : (s.setCrc7 v).attempt = s.attempt := (rfl)
@[simp] theorem State.setCrc7_frame (v : BitVec 7) : (s.setCrc7 v).frame = s.frame := (rfl)
@[simp] theorem State.setCrc7_crc7acc (v : BitVec 7) : (s.setCrc7 v).crc7acc = v := (rfl)
@[simp] theorem State.setCrc7_crc16acc (v : BitVec 7) : (s.setCrc7 v).crc16acc = s.crc16acc := (rfl)
@[simp] theorem State.setCrc7_resp (v : BitVec 7) : (s.setCrc7 v).resp = s.resp := (rfl)
@[simp] theorem State.setCrc7_tok (v : BitVec 7) : (s.setCrc7 v).tok = s.tok := (rfl)
@[simp] theorem State.setCrc7_buf (v : BitVec 7) : (s.setCrc7 v).buf = s.buf := (rfl)
@[simp] theorem State.setCrc7_requests (v : BitVec 7) : (s.setCrc7 v).requests = s.requests := (rfl)
@[simp] theorem State.setCrc7_result (v : BitVec 7) : (s.setCrc7 v).result = s.result := (rfl)
@[simp] theorem State.setCrc7_error (v : BitVec 7) : (s.setCrc7 v).error = s.error := (rfl)
@[simp] theorem State.setCrc7_answers (v : BitVec 7) : (s.setCrc7 v).answers = s.answers := (rfl)
@[simp] theorem State.setCrc7_trace (v : BitVec 7) : (s.setCrc7 v).trace = s.trace := (rfl)
@[simp] theorem State.setCrc7_xchgCount (v : BitVec 7) : (s.setCrc7 v).xchgCount = s.xchgCount := (rfl)
@[simp] theorem State.setCrc7_busConfig (v : BitVec 7) : (s.setCrc7 v).busConfig = s.busConfig := (rfl)
@[simp] theorem State.setCrc7_delayUs (v : BitVec 7) : (s.setCrc7 v).delayUs = s.delayUs := (rfl)
@[simp] theorem State.setCrc7_freeCount (v : BitVec 7) : (s.setCrc7 v).freeCount = s.freeCount := (rfl)

@[simp] theorem State.setCrc16_params (v : BitVec 16) : (s.setCrc16 v).params = s.params := (rfl)
@[simp] theorem State.setCrc16_initialized (v : BitVec 16) : (s.setCrc16 v).initialized = s.initialized := (rfl)
@[simp] theorem State.setCrc16_cardType (v : BitVec 16) : (s.setCrc16 v).cardType = s.cardType := (rfl)
@[simp] theorem State.setCrc16_sectorCount (v : BitVec 16) : (s.setCrc16 v).sectorCount = s.sectorCount := (rfl)
@[simp] theorem State.setCrc16_csd (v : BitVec 16) : (s.setCrc16 v).csd = s.csd := (rfl)
@[simp] theorem State.setCrc16_cid (v : BitVec 16) : (s.setCrc16 v).cid = s.cid := (rfl)
@[simp] theorem State.setCrc16_initState (v : BitVec 16) : (s.setCrc16 v).initState = s.initState := (rfl)
@[simp] theorem State.setCrc16_pathV2 (v : BitVec 16) : (s.setCrc16 v).pathV2 = s.pathV2 := (rfl)
@[simp] theorem State.setCrc16_pollCmd (v : BitVec 16) : (s.setCrc16 v).pollCmd = s.pollCmd := (rfl)
@[simp] theorem State.setCrc16_pollArg (v : BitVec 16) : (s.setCrc16 v).pollArg = s.pollArg := (rfl)
@[simp] theorem State.setCrc16_cs (v : BitVec 16) : (s.setCrc16 v).cs = s.cs := (rfl)
@[simp] theorem State.setCrc16_clockHz (v : BitVec 16) : (s.setCrc16 v).clockHz = s.clockHz := (rfl)
@[simp] theorem State.setCrc16_attempt (v : BitVec 16) : (s.setCrc16 v).attempt = s.attempt := (rfl)
@[simp] theorem State.setCrc16_frame (v : BitVec 16) : (s.setCrc16 v).frame = s.frame := (rfl)
@[simp] theorem State.setCrc16_crc7acc (v : BitVec 16) : (s.setCrc16 v).crc7acc = s.crc7acc := (rfl)
@[simp] theorem State.setCrc16_crc16acc (v : BitVec 16) : (s.setCrc16 v).crc16acc = v := (rfl)
@[simp] theorem State.setCrc16_resp (v : BitVec 16) : (s.setCrc16 v).resp = s.resp := (rfl)
@[simp] theorem State.setCrc16_tok (v : BitVec 16) : (s.setCrc16 v).tok = s.tok := (rfl)
@[simp] theorem State.setCrc16_buf (v : BitVec 16) : (s.setCrc16 v).buf = s.buf := (rfl)
@[simp] theorem State.setCrc16_requests (v : BitVec 16) : (s.setCrc16 v).requests = s.requests := (rfl)
@[simp] theorem State.setCrc16_result (v : BitVec 16) : (s.setCrc16 v).result = s.result := (rfl)
@[simp] theorem State.setCrc16_error (v : BitVec 16) : (s.setCrc16 v).error = s.error := (rfl)
@[simp] theorem State.setCrc16_answers (v : BitVec 16) : (s.setCrc16 v).answers = s.answers := (rfl)
@[simp] theorem State.setCrc16_trace (v : BitVec 16) : (s.setCrc16 v).trace = s.trace := (rfl)
@[simp] theorem State.setCrc16_xchgCount (v : BitVec 16) : (s.setCrc16 v).xchgCount = s.xchgCount := (rfl)
@[simp] theorem State.setCrc16_busConfig (v : BitVec 16) : (s.setCrc16 v).busConfig = s.busConfig := (rfl)
@[simp] theorem State.setCrc16_delayUs (v : BitVec 16) : (s.setCrc16 v).delayUs = s.delayUs := (rfl)
@[simp] theorem State.setCrc16_freeCount (v : BitVec 16) : (s.setCrc16 v).freeCount = s.freeCount := (rfl)

@[simp] theorem State.setResp_params (v : List Byte) : (s.setResp v).params = s.params := (rfl)
@[simp] theorem State.setResp_initialized (v : List Byte) : (s.setResp v).initialized = s.initialized := (rfl)
@[simp] theorem State.setResp_cardType (v : List Byte) : (s.setResp v).cardType = s.cardType := (rfl)
@[simp] theorem State.setResp_sectorCount (v : List Byte) : (s.setResp v).sectorCount = s.sectorCount := (rfl)
@[simp] theorem State.setResp_csd (v : List Byte) : (s.setResp v).csd = s.csd := (rfl)
@[simp] theorem State.setResp_cid (v : List Byte) : (s.setResp v).cid = s.cid := (rfl)
@[simp] theorem State.setResp_initState (v : List Byte) : (s.setResp v).initState = s.initState := (rfl)
@[simp] theorem State.setResp_pathV2 (v : List Byte) : (s.setResp v).pathV2 = s.pathV2 := (rfl)
@[simp] theorem State.setResp_pollCmd (v : List Byte) : (s.setResp v).pollCmd = s.pollCmd := (rfl)
@[simp] theorem State.setResp_pollArg (v : List Byte) : (s.setResp v).pollArg = s.pollArg := (rfl)
@[simp] theorem State.setResp_cs (v : List Byte) : (s.setResp v).cs = s.cs := (rfl)
@[simp] theorem State.setResp_clockHz (v : List Byte) : (s.setResp v).clockHz = s.clockHz := (rfl)
@[simp] theorem State.setResp_attempt (v : List Byte) : (s.setResp v).attempt = s.attempt := (rfl)
@[simp] theorem State.setResp_frame (v : List Byte) : (s.setResp v).frame = s.frame := (rfl)
@[simp] theorem State.setResp_crc7acc (v : List Byte) : (s.setResp v).crc7acc = s.crc7acc := (rfl)
@[simp] theorem State.setResp_crc16acc (v : List Byte) : (s.setResp v).crc16acc = s.crc16acc := (rfl)
@[simp] theorem State.setResp_resp (v : List Byte) : (s.setResp v).resp = v := (rfl)
@[simp] theorem State.setResp_tok (v : List Byte) : (s.setResp v).tok = s.tok := (rfl)
@[simp] theorem State.setResp_buf (v : List Byte) : (s.setResp v).buf = s.buf := (rfl)
@[simp] theorem State.setResp_requests (v : List Byte) : (s.setResp v).requests = s.requests := (rfl)
@[simp] theorem State.setResp_result (v : List Byte) : (s.setResp v).result = s.result := (rfl)
@[simp] theorem State.setResp_error (v : List Byte) : (s.setResp v).error = s.error := (rfl)
@[simp] theorem State.setResp_answers (v : List Byte) : (s.setResp v).answers = s.answers := (rfl)
@[simp] theorem State.setResp_trace (v : List Byte) : (s.setResp v).trace = s.trace := (rfl)
@[simp] theorem State.setResp_xchgCount (v : List Byte) : (s.setResp v).xchgCount = s.xchgCount := (rfl)
@[simp] theorem State.setResp_busConfig (v : List Byte) : (s.setResp v).busConfig = s.busConfig := (rfl)
@[simp] theorem State.setResp_delayUs (v : List Byte) : (s.setResp v).delayUs = s.delayUs := (rfl)
@[simp] theorem State.setResp_freeCount (v : List Byte) : (s.setResp v).freeCount = s.freeCount := (rfl)

@[simp] theorem State.setTok_params (v : Byte) : (s.setTok v).params = s.params := (rfl)
@[simp] theorem State.setTok_initialized (v : Byte) : (s.setTok v).initialized = s.initialized := (rfl)
@[simp] theorem State.setTok_cardType (v : Byte) : (s.setTok v).cardType = s.cardType := (rfl)
@[simp] theorem State.setTok_sectorCount (v : Byte) : (s.setTok v).sectorCount = s.sectorCount := (rfl)
@[simp] theorem State.setTok_csd (v : Byte) : (s.setTok v).csd = s.csd := (rfl)
@[simp] theorem State.setTok_cid (v : Byte) : (s.setTok v).cid = s.cid := (rfl)
@[simp] theorem State.setTok_initState (v : Byte) : (s.setTok v).initState = s.initState := (rfl)
@[simp] theorem State.setTok_pathV2 (v : Byte) : (s.setTok v).pathV2 = s.pathV2 := (rfl)
@[simp] theorem State.setTok_pollCmd (v : Byte) : (s.setTok v).pollCmd = s.pollCmd := (rfl)
@[simp] theorem State.setTok_pollArg (v : Byte) : (s.setTok v).pollArg = s.pollArg := (rfl)
@[simp] theorem State.setTok_cs (v : Byte) : (s.setTok v).cs = s.cs := (rfl)
@[simp] theorem State.setTok_clockHz (v : Byte) : (s.setTok v).clockHz = s.clockHz := (rfl)
@[simp] theorem State.setTok_attempt (v : Byte) : (s.setTok v).attempt = s.attempt := (rfl)
@[simp] theorem State.setTok_frame (v : Byte) : (s.setTok v).frame = s.frame := (rfl)
@[simp] theorem State.setTok_crc7acc (v : Byte) : (s.setTok v).crc7acc = s.crc7acc := (rfl)
@[simp] theorem State.setTok_crc16acc (v : Byte) : (s.setTok v).crc16acc = s.crc16acc := (rfl)
@[simp] theorem State.setTok_resp (v : Byte) : (s.setTok v).resp = s.resp := (rfl)
@[simp] theorem State.setTok_tok (v : Byte) : (s.setTok v).tok = v := (rfl)
@[simp] theorem State.setTok_buf (v : Byte) : (s.setTok v).buf = s.buf := (rfl)
@[simp] theorem State.setTok_requests (v : Byte) : (s.setTok v).requests = s.requests := (rfl)
@[simp] theorem State.setTok_result (v : Byte) : (s.setTok v).result = s.result := (rfl)
@[simp] theorem State.setTok_error (v : Byte) : (s.setTok v).error = s.error := (rfl)
@[simp] theorem State.setTok_answers (v : Byte) : (s.setTok v).answers = s.answers := (rfl)
@[simp] theorem State.setTok_trace (v : Byte) : (s.setTok v).trace = s.trace := (rfl)
@[simp] theorem State.setTok_xchgCount (v : Byte) : (s.setTok v).xchgCount = s.xchgCount := (rfl)
@[simp] theorem State.setTok_busConfig (v : Byte) : (s.setTok v).busConfig = s.busConfig := (rfl)
@[simp] theorem State.setTok_delayUs (v : Byte) : (s.setTok v).delayUs = s.delayUs := (rfl)
@[simp] theorem State.setTok_freeCount (v : Byte) : (s.setTok v).freeCount = s.freeCount := (rfl)

@[simp] theorem State.storeBytes_params (a : Nat) (v : List Byte) : (s.storeBytes a v).params = s.params := (rfl)
@[simp] theorem State.storeBytes_initialized (a : Nat) (v : List Byte) : (s.storeBytes a v).initialized = s.initialized := (rfl)
@[simp] theorem State.storeBytes_cardType (a : Nat) (v : List Byte) : (s.storeBytes a v).cardType = s.cardType := (rfl)
@[simp] theorem State.storeBytes_sectorCount (a : Nat) (v : List Byte) : (s.storeBytes a v).sectorCount = s.sectorCount := (rfl)
@[simp] theorem State.storeBytes_csd (a : Nat) (v : List Byte) : (s.storeBytes a v).csd = s.csd := (rfl)
@[simp] theorem State.storeBytes_cid (a : Nat) (v : List Byte) : (s.storeBytes a v).cid = s.cid := (rfl)
@[simp] theorem State.storeBytes_initState (a : Nat) (v : List Byte) : (s.storeBytes a v).initState = s.initState := (rfl)
@[simp] theorem State.storeBytes_pathV2 (a : Nat) (v : List Byte) : (s.storeBytes a v).pathV2 = s.pathV2 := (rfl)
@[simp] theorem State.storeBytes_pollCmd (a : Nat) (v : List Byte) : (s.storeBytes a v).pollCmd = s.pollCmd := (rfl)
@[simp] theorem State.storeBytes_pollArg (a : Nat) (v : List Byte) : (s.storeBytes a v).pollArg = s.pollArg := (rfl)
@[simp] theorem State.storeBytes_cs (a : Nat) (v : List Byte) : (s.storeBytes a v).cs = s.cs := (rfl)
@[simp] theorem State.storeBytes_clockHz (a : Nat) (v : List Byte) : (s.storeBytes a v).clockHz = s.clockHz := (rfl)
@[simp] theorem State.storeBytes_attempt (a : Nat) (v : List Byte) : (s.storeBytes a v).attempt = s.attempt := (rfl)
@[simp] theorem State.storeBytes_frame (a : Nat) (v : List Byte) : (s.storeBytes a v).frame = s.frame := (rfl)
@[simp] theorem State.storeBytes_crc7acc (a : Nat) (v : List Byte) : (s.storeBytes a v).crc7acc = s.crc7acc := (rfl)
@[simp] theorem State.storeBytes_crc16acc (a : Nat) (v : List Byte) : (s.storeBytes a v).crc16acc = s.crc16acc := (rfl)
@[simp] theorem State.storeBytes_resp (a : Nat) (v : List Byte) : (s.storeBytes a v).resp = s.resp := (rfl)
@[simp] theorem State.storeBytes_tok (a : Nat) (v : List Byte) : (s.storeBytes a v).tok = s.tok := (rfl)
@[simp] theorem State.storeBytes_buf (a : Nat) (v : List Byte) : (s.storeBytes a v).buf = s.buf.writeBytes a v := (rfl)
@[simp] theorem State.storeBytes_requests (a : Nat) (v : List Byte) : (s.storeBytes a v).requests = s.requests := (rfl)
@[simp] theorem State.storeBytes_result (a : Nat) (v : List Byte) : (s.storeBytes a v).result = s.result := (rfl)
@[simp] theorem State.storeBytes_error (a : Nat) (v : List Byte) : (s.storeBytes a v).error = s.error := (rfl)
@[simp] theorem State.storeBytes_answers (a : Nat) (v : List Byte) : (s.storeBytes a v).answers = s.answers := (rfl)
@[simp] theorem State.storeBytes_trace (a : Nat) (v : List Byte) : (s.storeBytes a v).trace = s.trace := (rfl)
@[simp] theorem State.storeBytes_xchgCount (a : Nat) (v : List Byte) : (s.storeBytes a v).xchgCount = s.xchgCount := (rfl)
@[simp] theorem State.storeBytes_busConfig (a : Nat) (v : List Byte) : (s.storeBytes a v).busConfig = s.busConfig := (rfl)
@[simp] theorem State.storeBytes_delayUs (a : Nat) (v : List Byte) : (s.storeBytes a v).delayUs = s.delayUs := (rfl)
@[simp] theorem State.storeBytes_freeCount (a : Nat) (v : List Byte) : (s.storeBytes a v).freeCount = s.freeCount := (rfl)

@[simp] theorem State.unspecify_params (a n : Nat) : (s.unspecify a n).params = s.params := (rfl)
@[simp] theorem State.unspecify_initialized (a n : Nat) : (s.unspecify a n).initialized = s.initialized := (rfl)
@[simp] theorem State.unspecify_cardType (a n : Nat) : (s.unspecify a n).cardType = s.cardType := (rfl)
@[simp] theorem State.unspecify_sectorCount (a n : Nat) : (s.unspecify a n).sectorCount = s.sectorCount := (rfl)
@[simp] theorem State.unspecify_csd (a n : Nat) : (s.unspecify a n).csd = s.csd := (rfl)
@[simp] theorem State.unspecify_cid (a n : Nat) : (s.unspecify a n).cid = s.cid := (rfl)
@[simp] theorem State.unspecify_initState (a n : Nat) : (s.unspecify a n).initState = s.initState := (rfl)
@[simp] theorem State.unspecify_pathV2 (a n : Nat) : (s.unspecify a n).pathV2 = s.pathV2 := (rfl)
@[simp] theorem State.unspecify_pollCmd (a n : Nat) : (s.unspecify a n).pollCmd = s.pollCmd := (rfl)
@[simp] theorem State.unspecify_pollArg (a n : Nat) : (s.unspecify a n).pollArg = s.pollArg := (rfl)
@[simp] theorem State.unspecify_cs (a n : Nat) : (s.unspecify a n).cs = s.cs := (rfl)
@[simp] theorem State.unspecify_clockHz (a n : Nat) : (s.unspecify a n).clockHz = s.clockHz := (rfl)
@[simp] theorem State.unspecify_attempt (a n : Nat) : (s.unspecify a n).attempt = s.attempt := (rfl)
@[simp] theorem State.unspecify_frame (a n : Nat) : (s.unspecify a n).frame = s.frame := (rfl)
@[simp] theorem State.unspecify_crc7acc (a n : Nat) : (s.unspecify a n).crc7acc = s.crc7acc := (rfl)
@[simp] theorem State.unspecify_crc16acc (a n : Nat) : (s.unspecify a n).crc16acc = s.crc16acc := (rfl)
@[simp] theorem State.unspecify_resp (a n : Nat) : (s.unspecify a n).resp = s.resp := (rfl)
@[simp] theorem State.unspecify_tok (a n : Nat) : (s.unspecify a n).tok = s.tok := (rfl)
@[simp] theorem State.unspecify_buf (a n : Nat) : (s.unspecify a n).buf = s.buf.writeBytes a ((List.range n).map (fun k => Config.freeByte (s.freeCount + k))) := (rfl)
@[simp] theorem State.unspecify_requests (a n : Nat) : (s.unspecify a n).requests = s.requests := (rfl)
@[simp] theorem State.unspecify_result (a n : Nat) : (s.unspecify a n).result = s.result := (rfl)
@[simp] theorem State.unspecify_error (a n : Nat) : (s.unspecify a n).error = s.error := (rfl)
@[simp] theorem State.unspecify_answers (a n : Nat) : (s.unspecify a n).answers = s.answers := (rfl)
@[simp] theorem State.unspecify_trace (a n : Nat) : (s.unspecify a n).trace = s.trace := (rfl)
@[simp] theorem State.unspecify_xchgCount (a n : Nat) : (s.unspecify a n).xchgCount = s.xchgCount := (rfl)
@[simp] theorem State.unspecify_busConfig (a n : Nat) : (s.unspecify a n).busConfig = s.busConfig := (rfl)
@[simp] theorem State.unspecify_delayUs (a n : Nat) : (s.unspecify a n).delayUs = s.delayUs := (rfl)
@[simp] theorem State.unspecify_freeCount (a n : Nat) : (s.unspecify a n).freeCount = s.freeCount + n := (rfl)

@[simp] theorem State.setInitState_params (v : InitState) : (s.setInitState v).params = s.params := (rfl)
@[simp] theorem State.setInitState_initialized (v : InitState) : (s.setInitState v).initialized = s.initialized := (rfl)
@[simp] theorem State.setInitState_cardType (v : InitState) : (s.setInitState v).cardType = s.cardType := (rfl)
@[simp] theorem State.setInitState_sectorCount (v : InitState) : (s.setInitState v).sectorCount = s.sectorCount := (rfl)
@[simp] theorem State.setInitState_csd (v : InitState) : (s.setInitState v).csd = s.csd := (rfl)
@[simp] theorem State.setInitState_cid (v : InitState) : (s.setInitState v).cid = s.cid := (rfl)
@[simp] theorem State.setInitState_initState (v : InitState) : (s.setInitState v).initState = v := (rfl)
@[simp] theorem State.setInitState_pathV2 (v : InitState) : (s.setInitState v).pathV2 = s.pathV2 := (rfl)
@[simp] theorem State.setInitState_pollCmd (v : InitState) : (s.setInitState v).pollCmd = s.pollCmd := (rfl)
@[simp] theorem State.setInitState_pollArg (v : InitState) : (s.setInitState v).pollArg = s.pollArg := (rfl)
@[simp] theorem State.setInitState_cs (v : InitState) : (s.setInitState v).cs = s.cs := (rfl)
@[simp] theorem State.setInitState_clockHz (v : InitState) : (s.setInitState v).clockHz = s.clockHz := (rfl)
@[simp] theorem State.setInitState_attempt (v : InitState) : (s.setInitState v).attempt = s.attempt := (rfl)
@[simp] theorem State.setInitState_frame (v : InitState) : (s.setInitState v).frame = s.frame := (rfl)
@[simp] theorem State.setInitState_crc7acc (v : InitState) : (s.setInitState v).crc7acc = s.crc7acc := (rfl)
@[simp] theorem State.setInitState_crc16acc (v : InitState) : (s.setInitState v).crc16acc = s.crc16acc := (rfl)
@[simp] theorem State.setInitState_resp (v : InitState) : (s.setInitState v).resp = s.resp := (rfl)
@[simp] theorem State.setInitState_tok (v : InitState) : (s.setInitState v).tok = s.tok := (rfl)
@[simp] theorem State.setInitState_buf (v : InitState) : (s.setInitState v).buf = s.buf := (rfl)
@[simp] theorem State.setInitState_requests (v : InitState) : (s.setInitState v).requests = s.requests := (rfl)
@[simp] theorem State.setInitState_result (v : InitState) : (s.setInitState v).result = s.result := (rfl)
@[simp] theorem State.setInitState_error (v : InitState) : (s.setInitState v).error = s.error := (rfl)
@[simp] theorem State.setInitState_answers (v : InitState) : (s.setInitState v).answers = s.answers := (rfl)
@[simp] theorem State.setInitState_trace (v : InitState) : (s.setInitState v).trace = s.trace := (rfl)
@[simp] theorem State.setInitState_xchgCount (v : InitState) : (s.setInitState v).xchgCount = s.xchgCount := (rfl)
@[simp] theorem State.setInitState_busConfig (v : InitState) : (s.setInitState v).busConfig = s.busConfig := (rfl)
@[simp] theorem State.setInitState_delayUs (v : InitState) : (s.setInitState v).delayUs = s.delayUs := (rfl)
@[simp] theorem State.setInitState_freeCount (v : InitState) : (s.setInitState v).freeCount = s.freeCount := (rfl)

@[simp] theorem State.setPathV2_params (v : Bool) : (s.setPathV2 v).params = s.params := (rfl)
@[simp] theorem State.setPathV2_initialized (v : Bool) : (s.setPathV2 v).initialized = s.initialized := (rfl)
@[simp] theorem State.setPathV2_cardType (v : Bool) : (s.setPathV2 v).cardType = s.cardType := (rfl)
@[simp] theorem State.setPathV2_sectorCount (v : Bool) : (s.setPathV2 v).sectorCount = s.sectorCount := (rfl)
@[simp] theorem State.setPathV2_csd (v : Bool) : (s.setPathV2 v).csd = s.csd := (rfl)
@[simp] theorem State.setPathV2_cid (v : Bool) : (s.setPathV2 v).cid = s.cid := (rfl)
@[simp] theorem State.setPathV2_initState (v : Bool) : (s.setPathV2 v).initState = s.initState := (rfl)
@[simp] theorem State.setPathV2_pathV2 (v : Bool) : (s.setPathV2 v).pathV2 = v := (rfl)
@[simp] theorem State.setPathV2_pollCmd (v : Bool) : (s.setPathV2 v).pollCmd = s.pollCmd := (rfl)
@[simp] theorem State.setPathV2_pollArg (v : Bool) : (s.setPathV2 v).pollArg = s.pollArg := (rfl)
@[simp] theorem State.setPathV2_cs (v : Bool) : (s.setPathV2 v).cs = s.cs := (rfl)
@[simp] theorem State.setPathV2_clockHz (v : Bool) : (s.setPathV2 v).clockHz = s.clockHz := (rfl)
@[simp] theorem State.setPathV2_attempt (v : Bool) : (s.setPathV2 v).attempt = s.attempt := (rfl)
@[simp] theorem State.setPathV2_frame (v : Bool) : (s.setPathV2 v).frame = s.frame := (rfl)
@[simp] theorem State.setPathV2_crc7acc (v : Bool) : (s.setPathV2 v).crc7acc = s.crc7acc := (rfl)
@[simp] theorem State.setPathV2_crc16acc (v : Bool) : (s.setPathV2 v).crc16acc = s.crc16acc := (rfl)
@[simp] theorem State.setPathV2_resp (v : Bool) : (s.setPathV2 v).resp = s.resp := (rfl)
@[simp] theorem State.setPathV2_tok (v : Bool) : (s.setPathV2 v).tok = s.tok := (rfl)
@[simp] theorem State.setPathV2_buf (v : Bool) : (s.setPathV2 v).buf = s.buf := (rfl)
@[simp] theorem State.setPathV2_requests (v : Bool) : (s.setPathV2 v).requests = s.requests := (rfl)
@[simp] theorem State.setPathV2_result (v : Bool) : (s.setPathV2 v).result = s.result := (rfl)
@[simp] theorem State.setPathV2_error (v : Bool) : (s.setPathV2 v).error = s.error := (rfl)
@[simp] theorem State.setPathV2_answers (v : Bool) : (s.setPathV2 v).answers = s.answers := (rfl)
@[simp] theorem State.setPathV2_trace (v : Bool) : (s.setPathV2 v).trace = s.trace := (rfl)
@[simp] theorem State.setPathV2_xchgCount (v : Bool) : (s.setPathV2 v).xchgCount = s.xchgCount := (rfl)
@[simp] theorem State.setPathV2_busConfig (v : Bool) : (s.setPathV2 v).busConfig = s.busConfig := (rfl)
@[simp] theorem State.setPathV2_delayUs (v : Bool) : (s.setPathV2 v).delayUs = s.delayUs := (rfl)
@[simp] theorem State.setPathV2_freeCount (v : Bool) : (s.setPathV2 v).freeCount = s.freeCount := (rfl)

@[simp] theorem State.setPoll_params (c : BitVec 8) (v : BitVec 32) : (s.setPoll c v).params = s.params := (rfl)
@[simp] theorem State.setPoll_initialized (c : BitVec 8) (v : BitVec 32) : (s.setPoll c v).initialized = s.initialized := (rfl)
@[simp] theorem State.setPoll_cardType (c : BitVec 8) (v : BitVec 32) : (s.setPoll c v).cardType = s.cardType := (rfl)
@[simp] theorem State.setPoll_sectorCount (c : BitVec 8) (v : BitVec 32) : (s.setPoll c v).sectorCount = s.sectorCount := (rfl)
@[simp] theorem State.setPoll_csd (c : BitVec 8) (v : BitVec 32) : (s.setPoll c v).csd = s.csd := (rfl)
@[simp] theorem State.setPoll_cid (c : BitVec 8) (v : BitVec 32) : (s.setPoll c v).cid = s.cid := (rfl)
@[simp] theorem State.setPoll_initState (c : BitVec 8) (v : BitVec 32) : (s.setPoll c v).initState = s.initState := (rfl)
@[simp] theorem State.setPoll_pathV2 (c : BitVec 8) (v : BitVec 32) : (s.setPoll c v).pathV2 = s.pathV2 := (rfl)
@[simp] theorem State.setPoll_pollCmd (c : BitVec 8) (v : BitVec 32) : (s.setPoll c v).pollCmd = c := (rfl)
@[simp] theorem State.setPoll_pollArg (c : BitVec 8) (v : BitVec 32) : (s.setPoll c v).pollArg = v := (rfl)
@[simp] theorem State.setPoll_cs (c : BitVec 8) (v : BitVec 32) : (s.setPoll c v).cs = s.cs := (rfl)
@[simp] theorem State.setPoll_clockHz (c : BitVec 8) (v : BitVec 32) : (s.setPoll c v).clockHz = s.clockHz := (rfl)
@[simp] theorem State.setPoll_attempt (c : BitVec 8) (v : BitVec 32) : (s.setPoll c v).attempt = s.attempt := (rfl)
@[simp] theorem State.setPoll_frame (c : BitVec 8) (v : BitVec 32) : (s.setPoll c v).frame = s.frame := (rfl)
@[simp] theorem State.setPoll_crc7acc (c : BitVec 8) (v : BitVec 32) : (s.setPoll c v).crc7acc = s.crc7acc := (rfl)
@[simp] theorem State.setPoll_crc16acc (c : BitVec 8) (v : BitVec 32) : (s.setPoll c v).crc16acc = s.crc16acc := (rfl)
@[simp] theorem State.setPoll_resp (c : BitVec 8) (v : BitVec 32) : (s.setPoll c v).resp = s.resp := (rfl)
@[simp] theorem State.setPoll_tok (c : BitVec 8) (v : BitVec 32) : (s.setPoll c v).tok = s.tok := (rfl)
@[simp] theorem State.setPoll_buf (c : BitVec 8) (v : BitVec 32) : (s.setPoll c v).buf = s.buf := (rfl)
@[simp] theorem State.setPoll_requests (c : BitVec 8) (v : BitVec 32) : (s.setPoll c v).requests = s.requests := (rfl)
@[simp] theorem State.setPoll_result (c : BitVec 8) (v : BitVec 32) : (s.setPoll c v).result = s.result := (rfl)
@[simp] theorem State.setPoll_error (c : BitVec 8) (v : BitVec 32) : (s.setPoll c v).error = s.error := (rfl)
@[simp] theorem State.setPoll_answers (c : BitVec 8) (v : BitVec 32) : (s.setPoll c v).answers = s.answers := (rfl)
@[simp] theorem State.setPoll_trace (c : BitVec 8) (v : BitVec 32) : (s.setPoll c v).trace = s.trace := (rfl)
@[simp] theorem State.setPoll_xchgCount (c : BitVec 8) (v : BitVec 32) : (s.setPoll c v).xchgCount = s.xchgCount := (rfl)
@[simp] theorem State.setPoll_busConfig (c : BitVec 8) (v : BitVec 32) : (s.setPoll c v).busConfig = s.busConfig := (rfl)
@[simp] theorem State.setPoll_delayUs (c : BitVec 8) (v : BitVec 32) : (s.setPoll c v).delayUs = s.delayUs := (rfl)
@[simp] theorem State.setPoll_freeCount (c : BitVec 8) (v : BitVec 32) : (s.setPoll c v).freeCount = s.freeCount := (rfl)

@[simp] theorem State.setCardType_params (v : BitVec 4) : (s.setCardType v).params = s.params := (rfl)
@[simp] theorem State.setCardType_initialized (v : BitVec 4) : (s.setCardType v).initialized = s.initialized := (rfl)
@[simp] theorem State.setCardType_cardType (v : BitVec 4) : (s.setCardType v).cardType = v := (rfl)
@[simp] theorem State.setCardType_sectorCount (v : BitVec 4) : (s.setCardType v).sectorCount = s.sectorCount := (rfl)
@[simp] theorem State.setCardType_csd (v : BitVec 4) : (s.setCardType v).csd = s.csd := (rfl)
@[simp] theorem State.setCardType_cid (v : BitVec 4) : (s.setCardType v).cid = s.cid := (rfl)
@[simp] theorem State.setCardType_initState (v : BitVec 4) : (s.setCardType v).initState = s.initState := (rfl)
@[simp] theorem State.setCardType_pathV2 (v : BitVec 4) : (s.setCardType v).pathV2 = s.pathV2 := (rfl)
@[simp] theorem State.setCardType_pollCmd (v : BitVec 4) : (s.setCardType v).pollCmd = s.pollCmd := (rfl)
@[simp] theorem State.setCardType_pollArg (v : BitVec 4) : (s.setCardType v).pollArg = s.pollArg := (rfl)
@[simp] theorem State.setCardType_cs (v : BitVec 4) : (s.setCardType v).cs = s.cs := (rfl)
@[simp] theorem State.setCardType_clockHz (v : BitVec 4) : (s.setCardType v).clockHz = s.clockHz := (rfl)
@[simp] theorem State.setCardType_attempt (v : BitVec 4) : (s.setCardType v).attempt = s.attempt := (rfl)
@[simp] theorem State.setCardType_frame (v : BitVec 4) : (s.setCardType v).frame = s.frame := (rfl)
@[simp] theorem State.setCardType_crc7acc (v : BitVec 4) : (s.setCardType v).crc7acc = s.crc7acc := (rfl)
@[simp] theorem State.setCardType_crc16acc (v : BitVec 4) : (s.setCardType v).crc16acc = s.crc16acc := (rfl)
@[simp] theorem State.setCardType_resp (v : BitVec 4) : (s.setCardType v).resp = s.resp := (rfl)
@[simp] theorem State.setCardType_tok (v : BitVec 4) : (s.setCardType v).tok = s.tok := (rfl)
@[simp] theorem State.setCardType_buf (v : BitVec 4) : (s.setCardType v).buf = s.buf := (rfl)
@[simp] theorem State.setCardType_requests (v : BitVec 4) : (s.setCardType v).requests = s.requests := (rfl)
@[simp] theorem State.setCardType_result (v : BitVec 4) : (s.setCardType v).result = s.result := (rfl)
@[simp] theorem State.setCardType_error (v : BitVec 4) : (s.setCardType v).error = s.error := (rfl)
@[simp] theorem State.setCardType_answers (v : BitVec 4) : (s.setCardType v).answers = s.answers := (rfl)
@[simp] theorem State.setCardType_trace (v : BitVec 4) : (s.setCardType v).trace = s.trace := (rfl)
@[simp] theorem State.setCardType_xchgCount (v : BitVec 4) : (s.setCardType v).xchgCount = s.xchgCount := (rfl)
@[simp] theorem State.setCardType_busConfig (v : BitVec 4) : (s.setCardType v).busConfig = s.busConfig := (rfl)
@[simp] theorem State.setCardType_delayUs (v : BitVec 4) : (s.setCardType v).delayUs = s.delayUs := (rfl)
@[simp] theorem State.setCardType_freeCount (v : BitVec 4) : (s.setCardType v).freeCount = s.freeCount := (rfl)

@[simp] theorem State.setCsd_params (v : BitVec 128) : (s.setCsd v).params = s.params := (rfl)
@[simp] theorem State.setCsd_initialized (v : BitVec 128) : (s.setCsd v).initialized = s.initialized := (rfl)
@[simp] theorem State.setCsd_cardType (v : BitVec 128) : (s.setCsd v).cardType = s.cardType := (rfl)
@[simp] theorem State.setCsd_sectorCount (v : BitVec 128) : (s.setCsd v).sectorCount = s.sectorCount := (rfl)
@[simp] theorem State.setCsd_csd (v : BitVec 128) : (s.setCsd v).csd = v := (rfl)
@[simp] theorem State.setCsd_cid (v : BitVec 128) : (s.setCsd v).cid = s.cid := (rfl)
@[simp] theorem State.setCsd_initState (v : BitVec 128) : (s.setCsd v).initState = s.initState := (rfl)
@[simp] theorem State.setCsd_pathV2 (v : BitVec 128) : (s.setCsd v).pathV2 = s.pathV2 := (rfl)
@[simp] theorem State.setCsd_pollCmd (v : BitVec 128) : (s.setCsd v).pollCmd = s.pollCmd := (rfl)
@[simp] theorem State.setCsd_pollArg (v : BitVec 128) : (s.setCsd v).pollArg = s.pollArg := (rfl)
@[simp] theorem State.setCsd_cs (v : BitVec 128) : (s.setCsd v).cs = s.cs := (rfl)
@[simp] theorem State.setCsd_clockHz (v : BitVec 128) : (s.setCsd v).clockHz = s.clockHz := (rfl)
@[simp] theorem State.setCsd_attempt (v : BitVec 128) : (s.setCsd v).attempt = s.attempt := (rfl)
@[simp] theorem State.setCsd_frame (v : BitVec 128) : (s.setCsd v).frame = s.frame := (rfl)
@[simp] theorem State.setCsd_crc7acc (v : BitVec 128) : (s.setCsd v).crc7acc = s.crc7acc := (rfl)
@[simp] theorem State.setCsd_crc16acc (v : BitVec 128) : (s.setCsd v).crc16acc = s.crc16acc := (rfl)
@[simp] theorem State.setCsd_resp (v : BitVec 128) : (s.setCsd v).resp = s.resp := (rfl)
@[simp] theorem State.setCsd_tok (v : BitVec 128) : (s.setCsd v).tok = s.tok := (rfl)
@[simp] theorem State.setCsd_buf (v : BitVec 128) : (s.setCsd v).buf = s.buf := (rfl)
@[simp] theorem State.setCsd_requests (v : BitVec 128) : (s.setCsd v).requests = s.requests := (rfl)
@[simp] theorem State.setCsd_result (v : BitVec 128) : (s.setCsd v).result = s.result := (rfl)
@[simp] theorem State.setCsd_error (v : BitVec 128) : (s.setCsd v).error = s.error := (rfl)
@[simp] theorem State.setCsd_answers (v : BitVec 128) : (s.setCsd v).answers = s.answers := (rfl)
@[simp] theorem State.setCsd_trace (v : BitVec 128) : (s.setCsd v).trace = s.trace := (rfl)
@[simp] theorem State.setCsd_xchgCount (v : BitVec 128) : (s.setCsd v).xchgCount = s.xchgCount := (rfl)
@[simp] theorem State.setCsd_busConfig (v : BitVec 128) : (s.setCsd v).busConfig = s.busConfig := (rfl)
@[simp] theorem State.setCsd_delayUs (v : BitVec 128) : (s.setCsd v).delayUs = s.delayUs := (rfl)
@[simp] theorem State.setCsd_freeCount (v : BitVec 128) : (s.setCsd v).freeCount = s.freeCount := (rfl)

@[simp] theorem State.setCid_params (v : BitVec 128) : (s.setCid v).params = s.params := (rfl)
@[simp] theorem State.setCid_initialized (v : BitVec 128) : (s.setCid v).initialized = s.initialized := (rfl)
@[simp] theorem State.setCid_cardType (v : BitVec 128) : (s.setCid v).cardType = s.cardType := (rfl)
@[simp] theorem State.setCid_sectorCount (v : BitVec 128) : (s.setCid v).sectorCount = s.sectorCount := (rfl)
@[simp] theorem State.setCid_csd (v : BitVec 128) : (s.setCid v).csd = s.csd := (rfl)
@[simp] theorem State.setCid_cid (v : BitVec 128) : (s.setCid v).cid = v := (rfl)
@[simp] theorem State.setCid_initState (v : BitVec 128) : (s.setCid v).initState = s.initState := (rfl)
@[simp] theorem State.setCid_pathV2 (v : BitVec 128) : (s.setCid v).pathV2 = s.pathV2 := (rfl)
@[simp] theorem State.setCid_pollCmd (v : BitVec 128) : (s.setCid v).pollCmd = s.pollCmd := (rfl)
@[simp] theorem State.setCid_pollArg (v : BitVec 128) : (s.setCid v).pollArg = s.pollArg := (rfl)
@[simp] theorem State.setCid_cs (v : BitVec 128) : (s.setCid v).cs = s.cs := (rfl)
@[simp] theorem State.setCid_clockHz (v : BitVec 128) : (s.setCid v).clockHz = s.clockHz := (rfl)
@[simp] theorem State.setCid_attempt (v : BitVec 128) : (s.setCid v).attempt = s.attempt := (rfl)
@[simp] theorem State.setCid_frame (v : BitVec 128) : (s.setCid v).frame = s.frame := (rfl)
@[simp] theorem State.setCid_crc7acc (v : BitVec 128) : (s.setCid v).crc7acc = s.crc7acc := (rfl)
@[simp] theorem State.setCid_crc16acc (v : BitVec 128) : (s.setCid v).crc16acc = s.crc16acc := (rfl)
@[simp] theorem State.setCid_resp (v : BitVec 128) : (s.setCid v).resp = s.resp := (rfl)
@[simp] theorem State.setCid_tok (v : BitVec 128) : (s.setCid v).tok = s.tok := (rfl)
@[simp] theorem State.setCid_buf (v : BitVec 128) : (s.setCid v).buf = s.buf := (rfl)
@[simp] theorem State.setCid_requests (v : BitVec 128) : (s.setCid v).requests = s.requests := (rfl)
@[simp] theorem State.setCid_result (v : BitVec 128) : (s.setCid v).result = s.result := (rfl)
@[simp] theorem State.setCid_error (v : BitVec 128) : (s.setCid v).error = s.error := (rfl)
@[simp] theorem State.setCid_answers (v : BitVec 128) : (s.setCid v).answers = s.answers := (rfl)
@[simp] theorem State.setCid_trace (v : BitVec 128) : (s.setCid v).trace = s.trace := (rfl)
@[simp] theorem State.setCid_xchgCount (v : BitVec 128) : (s.setCid v).xchgCount = s.xchgCount := (rfl)
@[simp] theorem State.setCid_busConfig (v : BitVec 128) : (s.setCid v).busConfig = s.busConfig := (rfl)
@[simp] theorem State.setCid_delayUs (v : BitVec 128) : (s.setCid v).delayUs = s.delayUs := (rfl)
@[simp] theorem State.setCid_freeCount (v : BitVec 128) : (s.setCid v).freeCount = s.freeCount := (rfl)

@[simp] theorem State.setSectorCount_params (v : BitVec 64) : (s.setSectorCount v).params = s.params := (rfl)
@[simp] theorem State.setSectorCount_initialized (v : BitVec 64) : (s.setSectorCount v).initialized = s.initialized := (rfl)
@[simp] theorem State.setSectorCount_cardType (v : BitVec 64) : (s.setSectorCount v).cardType = s.cardType := (rfl)
@[simp] theorem State.setSectorCount_sectorCount (v : BitVec 64) : (s.setSectorCount v).sectorCount = v := (rfl)
@[simp] theorem State.setSectorCount_csd (v : BitVec 64) : (s.setSectorCount v).csd = s.csd := (rfl)
@[simp] theorem State.setSectorCount_cid (v : BitVec 64) : (s.setSectorCount v).cid = s.cid := (rfl)
@[simp] theorem State.setSectorCount_initState (v : BitVec 64) : (s.setSectorCount v).initState = s.initState := (rfl)
@[simp] theorem State.setSectorCount_pathV2 (v : BitVec 64) : (s.setSectorCount v).pathV2 = s.pathV2 := (rfl)
@[simp] theorem State.setSectorCount_pollCmd (v : BitVec 64) : (s.setSectorCount v).pollCmd = s.pollCmd := (rfl)
@[simp] theorem State.setSectorCount_pollArg (v : BitVec 64) : (s.setSectorCount v).pollArg = s.pollArg := (rfl)
@[simp] theorem State.setSectorCount_cs (v : BitVec 64) : (s.setSectorCount v).cs = s.cs := (rfl)
@[simp] theorem State.setSectorCount_clockHz (v : BitVec 64) : (s.setSectorCount v).clockHz = s.clockHz := (rfl)
@[simp] theorem State.setSectorCount_attempt (v : BitVec 64) : (s.setSectorCount v).attempt = s.attempt := (rfl)
@[simp] theorem State.setSectorCount_frame (v : BitVec 64) : (s.setSectorCount v).frame = s.frame := (rfl)
@[simp] theorem State.setSectorCount_crc7acc (v : BitVec 64) : (s.setSectorCount v).crc7acc = s.crc7acc := (rfl)
@[simp] theorem State.setSectorCount_crc16acc (v : BitVec 64) : (s.setSectorCount v).crc16acc = s.crc16acc := (rfl)
@[simp] theorem State.setSectorCount_resp (v : BitVec 64) : (s.setSectorCount v).resp = s.resp := (rfl)
@[simp] theorem State.setSectorCount_tok (v : BitVec 64) : (s.setSectorCount v).tok = s.tok := (rfl)
@[simp] theorem State.setSectorCount_buf (v : BitVec 64) : (s.setSectorCount v).buf = s.buf := (rfl)
@[simp] theorem State.setSectorCount_requests (v : BitVec 64) : (s.setSectorCount v).requests = s.requests := (rfl)
@[simp] theorem State.setSectorCount_result (v : BitVec 64) : (s.setSectorCount v).result = s.result := (rfl)
@[simp] theorem State.setSectorCount_error (v : BitVec 64) : (s.setSectorCount v).error = s.error := (rfl)
@[simp] theorem State.setSectorCount_answers (v : BitVec 64) : (s.setSectorCount v).answers = s.answers := (rfl)
@[simp] theorem State.setSectorCount_trace (v : BitVec 64) : (s.setSectorCount v).trace = s.trace := (rfl)
@[simp] theorem State.setSectorCount_xchgCount (v : BitVec 64) : (s.setSectorCount v).xchgCount = s.xchgCount := (rfl)
@[simp] theorem State.setSectorCount_busConfig (v : BitVec 64) : (s.setSectorCount v).busConfig = s.busConfig := (rfl)
@[simp] theorem State.setSectorCount_delayUs (v : BitVec 64) : (s.setSectorCount v).delayUs = s.delayUs := (rfl)
@[simp] theorem State.setSectorCount_freeCount (v : BitVec 64) : (s.setSectorCount v).freeCount = s.freeCount := (rfl)

@[simp] theorem State.setInitialized_params (v : Bool) : (s.setInitialized v).params = s.params := (rfl)
@[simp] theorem State.setInitialized_initialized (v : Bool) : (s.setInitialized v).initialized = v := (rfl)
@[simp] theorem State.setInitialized_cardType (v : Bool) : (s.setInitialized v).cardType = s.cardType := (rfl)
@[simp] theorem State.setInitialized_sectorCount (v : Bool) : (s.setInitialized v).sectorCount = s.sectorCount := (rfl)
@[simp] theorem State.setInitialized_csd (v : Bool) : (s.setInitialized v).csd = s.csd := (rfl)
@[simp] theorem State.setInitialized_cid (v : Bool) : (s.setInitialized v).cid = s.cid := (rfl)
@[simp] theorem State.setInitialized_initState (v : Bool) : (s.setInitialized v).initState = s.initState := (rfl)
@[simp] theorem State.setInitialized_pathV2 (v : Bool) : (s.setInitialized v).pathV2 = s.pathV2 := (rfl)
@[simp] theorem State.setInitialized_pollCmd (v : Bool) : (s.setInitialized v).pollCmd = s.pollCmd := (rfl)
@[simp] theorem State.setInitialized_pollArg (v : Bool) : (s.setInitialized v).pollArg = s.pollArg := (rfl)
@[simp] theorem State.setInitialized_cs (v : Bool) : (s.setInitialized v).cs = s.cs := (rfl)
@[simp] theorem State.setInitialized_clockHz (v : Bool) : (s.setInitialized v).clockHz = s.clockHz := (rfl)
@[simp] theorem State.setInitialized_attempt (v : Bool) : (s.setInitialized v).attempt = s.attempt := (rfl)
@[simp] theorem State.setInitialized_frame (v : Bool) : (s.setInitialized v).frame = s.frame := (rfl)
@[simp] theorem State.setInitialized_crc7acc (v : Bool) : (s.setInitialized v).crc7acc = s.crc7acc := (rfl)
@[simp] theorem State.setInitialized_crc16acc (v : Bool) : (s.setInitialized v).crc16acc = s.crc16acc := (rfl)
@[simp] theorem State.setInitialized_resp (v : Bool) : (s.setInitialized v).resp = s.resp := (rfl)
@[simp] theorem State.setInitialized_tok (v : Bool) : (s.setInitialized v).tok = s.tok := (rfl)
@[simp] theorem State.setInitialized_buf (v : Bool) : (s.setInitialized v).buf = s.buf := (rfl)
@[simp] theorem State.setInitialized_requests (v : Bool) : (s.setInitialized v).requests = s.requests := (rfl)
@[simp] theorem State.setInitialized_result (v : Bool) : (s.setInitialized v).result = s.result := (rfl)
@[simp] theorem State.setInitialized_error (v : Bool) : (s.setInitialized v).error = s.error := (rfl)
@[simp] theorem State.setInitialized_answers (v : Bool) : (s.setInitialized v).answers = s.answers := (rfl)
@[simp] theorem State.setInitialized_trace (v : Bool) : (s.setInitialized v).trace = s.trace := (rfl)
@[simp] theorem State.setInitialized_xchgCount (v : Bool) : (s.setInitialized v).xchgCount = s.xchgCount := (rfl)
@[simp] theorem State.setInitialized_busConfig (v : Bool) : (s.setInitialized v).busConfig = s.busConfig := (rfl)
@[simp] theorem State.setInitialized_delayUs (v : Bool) : (s.setInitialized v).delayUs = s.delayUs := (rfl)
@[simp] theorem State.setInitialized_freeCount (v : Bool) : (s.setInitialized v).freeCount = s.freeCount := (rfl)

@[simp] theorem State.finish_params (v : Result) (c : Option ErrorClass) : (s.finish v c).params = s.params := (rfl)
@[simp] theorem State.finish_initialized (v : Result) (c : Option ErrorClass) : (s.finish v c).initialized = s.initialized := (rfl)
@[simp] theorem State.finish_cardType (v : Result) (c : Option ErrorClass) : (s.finish v c).cardType = s.cardType := (rfl)
@[simp] theorem State.finish_sectorCount (v : Result) (c : Option ErrorClass) : (s.finish v c).sectorCount = s.sectorCount := (rfl)
@[simp] theorem State.finish_csd (v : Result) (c : Option ErrorClass) : (s.finish v c).csd = s.csd := (rfl)
@[simp] theorem State.finish_cid (v : Result) (c : Option ErrorClass) : (s.finish v c).cid = s.cid := (rfl)
@[simp] theorem State.finish_initState (v : Result) (c : Option ErrorClass) : (s.finish v c).initState = s.initState := (rfl)
@[simp] theorem State.finish_pathV2 (v : Result) (c : Option ErrorClass) : (s.finish v c).pathV2 = s.pathV2 := (rfl)
@[simp] theorem State.finish_pollCmd (v : Result) (c : Option ErrorClass) : (s.finish v c).pollCmd = s.pollCmd := (rfl)
@[simp] theorem State.finish_pollArg (v : Result) (c : Option ErrorClass) : (s.finish v c).pollArg = s.pollArg := (rfl)
@[simp] theorem State.finish_cs (v : Result) (c : Option ErrorClass) : (s.finish v c).cs = s.cs := (rfl)
@[simp] theorem State.finish_clockHz (v : Result) (c : Option ErrorClass) : (s.finish v c).clockHz = s.clockHz := (rfl)
@[simp] theorem State.finish_attempt (v : Result) (c : Option ErrorClass) : (s.finish v c).attempt = s.attempt := (rfl)
@[simp] theorem State.finish_frame (v : Result) (c : Option ErrorClass) : (s.finish v c).frame = s.frame := (rfl)
@[simp] theorem State.finish_crc7acc (v : Result) (c : Option ErrorClass) : (s.finish v c).crc7acc = s.crc7acc := (rfl)
@[simp] theorem State.finish_crc16acc (v : Result) (c : Option ErrorClass) : (s.finish v c).crc16acc = s.crc16acc := (rfl)
@[simp] theorem State.finish_resp (v : Result) (c : Option ErrorClass) : (s.finish v c).resp = s.resp := (rfl)
@[simp] theorem State.finish_tok (v : Result) (c : Option ErrorClass) : (s.finish v c).tok = s.tok := (rfl)
@[simp] theorem State.finish_buf (v : Result) (c : Option ErrorClass) : (s.finish v c).buf = s.buf := (rfl)
@[simp] theorem State.finish_requests (v : Result) (c : Option ErrorClass) : (s.finish v c).requests = s.requests := (rfl)
@[simp] theorem State.finish_result (v : Result) (c : Option ErrorClass) : (s.finish v c).result = v := (rfl)
@[simp] theorem State.finish_error (v : Result) (c : Option ErrorClass) : (s.finish v c).error = c := (rfl)
@[simp] theorem State.finish_answers (v : Result) (c : Option ErrorClass) : (s.finish v c).answers = s.answers := (rfl)
@[simp] theorem State.finish_trace (v : Result) (c : Option ErrorClass) : (s.finish v c).trace = s.trace := (rfl)
@[simp] theorem State.finish_xchgCount (v : Result) (c : Option ErrorClass) : (s.finish v c).xchgCount = s.xchgCount := (rfl)
@[simp] theorem State.finish_busConfig (v : Result) (c : Option ErrorClass) : (s.finish v c).busConfig = s.busConfig := (rfl)
@[simp] theorem State.finish_delayUs (v : Result) (c : Option ErrorClass) : (s.finish v c).delayUs = s.delayUs := (rfl)
@[simp] theorem State.finish_freeCount (v : Result) (c : Option ErrorClass) : (s.finish v c).freeCount = s.freeCount := (rfl)

@[simp] theorem State.refuse_params : (s.refuse).params = s.params := (rfl)
@[simp] theorem State.refuse_initialized : (s.refuse).initialized = s.initialized := (rfl)
@[simp] theorem State.refuse_cardType : (s.refuse).cardType = s.cardType := (rfl)
@[simp] theorem State.refuse_sectorCount : (s.refuse).sectorCount = s.sectorCount := (rfl)
@[simp] theorem State.refuse_csd : (s.refuse).csd = s.csd := (rfl)
@[simp] theorem State.refuse_cid : (s.refuse).cid = s.cid := (rfl)
@[simp] theorem State.refuse_initState : (s.refuse).initState = s.initState := (rfl)
@[simp] theorem State.refuse_pathV2 : (s.refuse).pathV2 = s.pathV2 := (rfl)
@[simp] theorem State.refuse_pollCmd : (s.refuse).pollCmd = s.pollCmd := (rfl)
@[simp] theorem State.refuse_pollArg : (s.refuse).pollArg = s.pollArg := (rfl)
@[simp] theorem State.refuse_cs : (s.refuse).cs = s.cs := (rfl)
@[simp] theorem State.refuse_clockHz : (s.refuse).clockHz = s.clockHz := (rfl)
@[simp] theorem State.refuse_attempt : (s.refuse).attempt = s.attempt := (rfl)
@[simp] theorem State.refuse_frame : (s.refuse).frame = s.frame := (rfl)
@[simp] theorem State.refuse_crc7acc : (s.refuse).crc7acc = s.crc7acc := (rfl)
@[simp] theorem State.refuse_crc16acc : (s.refuse).crc16acc = s.crc16acc := (rfl)
@[simp] theorem State.refuse_resp : (s.refuse).resp = s.resp := (rfl)
@[simp] theorem State.refuse_tok : (s.refuse).tok = s.tok := (rfl)
@[simp] theorem State.refuse_buf : (s.refuse).buf = s.buf := (rfl)
@[simp] theorem State.refuse_requests : (s.refuse).requests = s.requests := (rfl)
@[simp] theorem State.refuse_result : (s.refuse).result = .failure := (rfl)
@[simp] theorem State.refuse_error : (s.refuse).error = some .refused := (rfl)
@[simp] theorem State.refuse_answers : (s.refuse).answers = s.answers := (rfl)
@[simp] theorem State.refuse_trace : (s.refuse).trace = s.trace := (rfl)
@[simp] theorem State.refuse_xchgCount : (s.refuse).xchgCount = s.xchgCount := (rfl)
@[simp] theorem State.refuse_busConfig : (s.refuse).busConfig = s.busConfig := (rfl)
@[simp] theorem State.refuse_delayUs : (s.refuse).delayUs = s.delayUs := (rfl)
@[simp] theorem State.refuse_freeCount : (s.refuse).freeCount = s.freeCount := (rfl)

@[simp] theorem State.drive_params (v : List Byte) : (s.drive v).params = s.params := (rfl)
@[simp] theorem State.drive_initialized (v : List Byte) : (s.drive v).initialized = s.initialized := (rfl)
@[simp] theorem State.drive_cardType (v : List Byte) : (s.drive v).cardType = s.cardType := (rfl)
@[simp] theorem State.drive_sectorCount (v : List Byte) : (s.drive v).sectorCount = s.sectorCount := (rfl)
@[simp] theorem State.drive_csd (v : List Byte) : (s.drive v).csd = s.csd := (rfl)
@[simp] theorem State.drive_cid (v : List Byte) : (s.drive v).cid = s.cid := (rfl)
@[simp] theorem State.drive_initState (v : List Byte) : (s.drive v).initState = s.initState := (rfl)
@[simp] theorem State.drive_pathV2 (v : List Byte) : (s.drive v).pathV2 = s.pathV2 := (rfl)
@[simp] theorem State.drive_pollCmd (v : List Byte) : (s.drive v).pollCmd = s.pollCmd := (rfl)
@[simp] theorem State.drive_pollArg (v : List Byte) : (s.drive v).pollArg = s.pollArg := (rfl)
@[simp] theorem State.drive_cs (v : List Byte) : (s.drive v).cs = s.cs := (rfl)
@[simp] theorem State.drive_clockHz (v : List Byte) : (s.drive v).clockHz = s.clockHz := (rfl)
@[simp] theorem State.drive_attempt (v : List Byte) : (s.drive v).attempt = s.attempt := (rfl)
@[simp] theorem State.drive_frame (v : List Byte) : (s.drive v).frame = s.frame := (rfl)
@[simp] theorem State.drive_crc7acc (v : List Byte) : (s.drive v).crc7acc = s.crc7acc := (rfl)
@[simp] theorem State.drive_crc16acc (v : List Byte) : (s.drive v).crc16acc = s.crc16acc := (rfl)
@[simp] theorem State.drive_resp (v : List Byte) : (s.drive v).resp = s.resp := (rfl)
@[simp] theorem State.drive_tok (v : List Byte) : (s.drive v).tok = s.tok := (rfl)
@[simp] theorem State.drive_buf (v : List Byte) : (s.drive v).buf = s.buf := (rfl)
@[simp] theorem State.drive_requests (v : List Byte) : (s.drive v).requests = s.requests := (rfl)
@[simp] theorem State.drive_result (v : List Byte) : (s.drive v).result = s.result := (rfl)
@[simp] theorem State.drive_error (v : List Byte) : (s.drive v).error = s.error := (rfl)
@[simp] theorem State.drive_answers (v : List Byte) : (s.drive v).answers = v ++ s.answers := (rfl)
@[simp] theorem State.drive_trace (v : List Byte) : (s.drive v).trace = s.trace := (rfl)
@[simp] theorem State.drive_xchgCount (v : List Byte) : (s.drive v).xchgCount = s.xchgCount := (rfl)
@[simp] theorem State.drive_busConfig (v : List Byte) : (s.drive v).busConfig = s.busConfig := (rfl)
@[simp] theorem State.drive_delayUs (v : List Byte) : (s.drive v).delayUs = s.delayUs := (rfl)
@[simp] theorem State.drive_freeCount (v : List Byte) : (s.drive v).freeCount = s.freeCount := (rfl)

@[simp] theorem State.onWire_params (o i : List Byte) : (s.onWire o i).params = s.params := (rfl)
@[simp] theorem State.onWire_initialized (o i : List Byte) : (s.onWire o i).initialized = s.initialized := (rfl)
@[simp] theorem State.onWire_cardType (o i : List Byte) : (s.onWire o i).cardType = s.cardType := (rfl)
@[simp] theorem State.onWire_sectorCount (o i : List Byte) : (s.onWire o i).sectorCount = s.sectorCount := (rfl)
@[simp] theorem State.onWire_csd (o i : List Byte) : (s.onWire o i).csd = s.csd := (rfl)
@[simp] theorem State.onWire_cid (o i : List Byte) : (s.onWire o i).cid = s.cid := (rfl)
@[simp] theorem State.onWire_initState (o i : List Byte) : (s.onWire o i).initState = s.initState := (rfl)
@[simp] theorem State.onWire_pathV2 (o i : List Byte) : (s.onWire o i).pathV2 = s.pathV2 := (rfl)
@[simp] theorem State.onWire_pollCmd (o i : List Byte) : (s.onWire o i).pollCmd = s.pollCmd := (rfl)
@[simp] theorem State.onWire_pollArg (o i : List Byte) : (s.onWire o i).pollArg = s.pollArg := (rfl)
@[simp] theorem State.onWire_cs (o i : List Byte) : (s.onWire o i).cs = s.cs := (rfl)
@[simp] theorem State.onWire_clockHz (o i : List Byte) : (s.onWire o i).clockHz = s.clockHz := (rfl)
@[simp] theorem State.onWire_attempt (o i : List Byte) : (s.onWire o i).attempt = s.attempt := (rfl)
@[simp] theorem State.onWire_frame (o i : List Byte) : (s.onWire o i).frame = s.frame := (rfl)
@[simp] theorem State.onWire_crc7acc (o i : List Byte) : (s.onWire o i).crc7acc = s.crc7acc := (rfl)
@[simp] theorem State.onWire_crc16acc (o i : List Byte) : (s.onWire o i).crc16acc = s.crc16acc := (rfl)
@[simp] theorem State.onWire_resp (o i : List Byte) : (s.onWire o i).resp = s.resp := (rfl)
@[simp] theorem State.onWire_tok (o i : List Byte) : (s.onWire o i).tok = s.tok := (rfl)
@[simp] theorem State.onWire_buf (o i : List Byte) : (s.onWire o i).buf = s.buf := (rfl)
@[simp] theorem State.onWire_requests (o i : List Byte) : (s.onWire o i).requests = s.requests := (rfl)
@[simp] theorem State.onWire_result (o i : List Byte) : (s.onWire o i).result = s.result := (rfl)
@[simp] theorem State.onWire_error (o i : List Byte) : (s.onWire o i).error = s.error := (rfl)
@[simp] theorem State.onWire_answers (o i : List Byte) : (s.onWire o i).answers = s.answers.drop o.length := (rfl)
@[simp] theorem State.onWire_trace (o i : List Byte) : (s.onWire o i).trace = exchanges s.cs o i ++ s.trace := (rfl)
@[simp] theorem State.onWire_xchgCount (o i : List Byte) : (s.onWire o i).xchgCount = s.xchgCount + o.length := (rfl)
@[simp] theorem State.onWire_busConfig (o i : List Byte) : (s.onWire o i).busConfig = s.busConfig := (rfl)
@[simp] theorem State.onWire_delayUs (o i : List Byte) : (s.onWire o i).delayUs = s.delayUs := (rfl)
@[simp] theorem State.onWire_freeCount (o i : List Byte) : (s.onWire o i).freeCount = s.freeCount := (rfl)

@[simp] theorem State.withFetchWord_params (n w : Nat) : (s.withFetchWord n w).params = s.params := (rfl)
@[simp] theorem State.withFetchWord_initialized (n w : Nat) : (s.withFetchWord n w).initialized = s.initialized := (rfl)
@[simp] theorem State.withFetchWord_cardType (n w : Nat) : (s.withFetchWord n w).cardType = s.cardType := (rfl)
@[simp] theorem State.withFetchWord_sectorCount (n w : Nat) : (s.withFetchWord n w).sectorCount = s.sectorCount := (rfl)
@[simp] theorem State.withFetchWord_csd (n w : Nat) : (s.withFetchWord n w).csd = s.csd := (rfl)
@[simp] theorem State.withFetchWord_cid (n w : Nat) : (s.withFetchWord n w).cid = s.cid := (rfl)
@[simp] theorem State.withFetchWord_initState (n w : Nat) : (s.withFetchWord n w).initState = s.initState := (rfl)
@[simp] theorem State.withFetchWord_pathV2 (n w : Nat) : (s.withFetchWord n w).pathV2 = s.pathV2 := (rfl)
@[simp] theorem State.withFetchWord_pollCmd (n w : Nat) : (s.withFetchWord n w).pollCmd = s.pollCmd := (rfl)
@[simp] theorem State.withFetchWord_pollArg (n w : Nat) : (s.withFetchWord n w).pollArg = s.pollArg := (rfl)
@[simp] theorem State.withFetchWord_cs (n w : Nat) : (s.withFetchWord n w).cs = s.cs := (rfl)
@[simp] theorem State.withFetchWord_clockHz (n w : Nat) : (s.withFetchWord n w).clockHz = s.clockHz := (rfl)
@[simp] theorem State.withFetchWord_attempt (n w : Nat) : (s.withFetchWord n w).attempt = s.attempt := (rfl)
@[simp] theorem State.withFetchWord_frame (n w : Nat) : (s.withFetchWord n w).frame = s.frame := (rfl)
@[simp] theorem State.withFetchWord_crc7acc (n w : Nat) : (s.withFetchWord n w).crc7acc = s.crc7acc := (rfl)
@[simp] theorem State.withFetchWord_crc16acc (n w : Nat) : (s.withFetchWord n w).crc16acc = s.crc16acc := (rfl)
@[simp] theorem State.withFetchWord_resp (n w : Nat) : (s.withFetchWord n w).resp = s.resp := (rfl)
@[simp] theorem State.withFetchWord_tok (n w : Nat) : (s.withFetchWord n w).tok = s.tok := (rfl)
@[simp] theorem State.withFetchWord_buf (n w : Nat) : (s.withFetchWord n w).buf = s.buf := (rfl)
@[simp] theorem State.withFetchWord_requests (n w : Nat) : (s.withFetchWord n w).requests = tableItem n w :: s.requests := (rfl)
@[simp] theorem State.withFetchWord_result (n w : Nat) : (s.withFetchWord n w).result = s.result := (rfl)
@[simp] theorem State.withFetchWord_error (n w : Nat) : (s.withFetchWord n w).error = s.error := (rfl)
@[simp] theorem State.withFetchWord_answers (n w : Nat) : (s.withFetchWord n w).answers = s.answers := (rfl)
@[simp] theorem State.withFetchWord_trace (n w : Nat) : (s.withFetchWord n w).trace = s.trace := (rfl)
@[simp] theorem State.withFetchWord_xchgCount (n w : Nat) : (s.withFetchWord n w).xchgCount = s.xchgCount := (rfl)
@[simp] theorem State.withFetchWord_busConfig (n w : Nat) : (s.withFetchWord n w).busConfig = s.busConfig := (rfl)
@[simp] theorem State.withFetchWord_delayUs (n w : Nat) : (s.withFetchWord n w).delayUs = s.delayUs := (rfl)
@[simp] theorem State.withFetchWord_freeCount (n w : Nat) : (s.withFetchWord n w).freeCount = s.freeCount := (rfl)

-- messages
@[simp] theorem State.replied_params (p : Bool) (i : BitVec 6) (v : BitVec 32) (q : Reply) : (s.replied p i v q).params = s.params := by rw [State.replied]; simp
@[simp] theorem State.replied_initialized (p : Bool) (i : BitVec 6) (v : BitVec 32) (q : Reply) : (s.replied p i v q).initialized = s.initialized := by rw [State.replied]; simp
@[simp] theorem State.replied_cardType (p : Bool) (i : BitVec 6) (v : BitVec 32) (q : Reply) : (s.replied p i v q).cardType = s.cardType := by rw [State.replied]; simp
@[simp] theorem State.replied_sectorCount (p : Bool) (i : BitVec 6) (v : BitVec 32) (q : Reply) : (s.replied p i v q).sectorCount = s.sectorCount := by rw [State.replied]; simp
@[simp] theorem State.replied_csd (p : Bool) (i : BitVec 6) (v : BitVec 32) (q : Reply) : (s.replied p i v q).csd = s.csd := by rw [State.replied]; simp
@[simp] theorem State.replied_cid (p : Bool) (i : BitVec 6) (v : BitVec 32) (q : Reply) : (s.replied p i v q).cid = s.cid := by rw [State.replied]; simp
@[simp] theorem State.replied_initState (p : Bool) (i : BitVec 6) (v : BitVec 32) (q : Reply) : (s.replied p i v q).initState = s.initState := by rw [State.replied]; simp
@[simp] theorem State.replied_pathV2 (p : Bool) (i : BitVec 6) (v : BitVec 32) (q : Reply) : (s.replied p i v q).pathV2 = s.pathV2 := by rw [State.replied]; simp
@[simp] theorem State.replied_pollCmd (p : Bool) (i : BitVec 6) (v : BitVec 32) (q : Reply) : (s.replied p i v q).pollCmd = s.pollCmd := by rw [State.replied]; simp
@[simp] theorem State.replied_pollArg (p : Bool) (i : BitVec 6) (v : BitVec 32) (q : Reply) : (s.replied p i v q).pollArg = s.pollArg := by rw [State.replied]; simp
@[simp] theorem State.replied_cs (p : Bool) (i : BitVec 6) (v : BitVec 32) (q : Reply) : (s.replied p i v q).cs = s.cs := by rw [State.replied]; simp
@[simp] theorem State.replied_clockHz (p : Bool) (i : BitVec 6) (v : BitVec 32) (q : Reply) : (s.replied p i v q).clockHz = s.clockHz := by rw [State.replied]; simp
@[simp] theorem State.replied_attempt (p : Bool) (i : BitVec 6) (v : BitVec 32) (q : Reply) : (s.replied p i v q).attempt = q.fill.length + 1 := by rw [State.replied]; simp
@[simp] theorem State.replied_frame (p : Bool) (i : BitVec 6) (v : BitVec 32) (q : Reply) : (s.replied p i v q).frame = buildFrame i v := by rw [State.replied]; simp
@[simp] theorem State.replied_crc7acc (p : Bool) (i : BitVec 6) (v : BitVec 32) (q : Reply) : (s.replied p i v q).crc7acc = crc7 (frameBody i v) := by rw [State.replied]; simp
@[simp] theorem State.replied_crc16acc (p : Bool) (i : BitVec 6) (v : BitVec 32) (q : Reply) : (s.replied p i v q).crc16acc = s.crc16acc := by rw [State.replied]; simp
@[simp] theorem State.replied_resp (p : Bool) (i : BitVec 6) (v : BitVec 32) (q : Reply) : (s.replied p i v q).resp = s.resp := by rw [State.replied]; simp
@[simp] theorem State.replied_tok (p : Bool) (i : BitVec 6) (v : BitVec 32) (q : Reply) : (s.replied p i v q).tok = s.tok := by rw [State.replied]; simp
@[simp] theorem State.replied_buf (p : Bool) (i : BitVec 6) (v : BitVec 32) (q : Reply) : (s.replied p i v q).buf = s.buf := by rw [State.replied]; simp
@[simp] theorem State.replied_requests (p : Bool) (i : BitVec 6) (v : BitVec 32) (q : Reply) : (s.replied p i v q).requests = s.requests := by rw [State.replied]; simp
@[simp] theorem State.replied_result (p : Bool) (i : BitVec 6) (v : BitVec 32) (q : Reply) : (s.replied p i v q).result = s.result := by rw [State.replied]; simp
@[simp] theorem State.replied_error (p : Bool) (i : BitVec 6) (v : BitVec 32) (q : Reply) : (s.replied p i v q).error = s.error := by rw [State.replied]; simp
@[simp] theorem State.replied_answers (p : Bool) (i : BitVec 6) (v : BitVec 32) (q : Reply) : (s.replied p i v q).answers = s.answers.drop (q.mosi p i v).length := by rw [State.replied]; simp
@[simp] theorem State.replied_trace (p : Bool) (i : BitVec 6) (v : BitVec 32) (q : Reply) : (s.replied p i v q).trace = exchanges s.cs (q.mosi p i v) q.bytes ++ s.trace := by rw [State.replied]; simp
@[simp] theorem State.replied_xchgCount (p : Bool) (i : BitVec 6) (v : BitVec 32) (q : Reply) : (s.replied p i v q).xchgCount = s.xchgCount + (q.mosi p i v).length := by rw [State.replied]; simp
@[simp] theorem State.replied_busConfig (p : Bool) (i : BitVec 6) (v : BitVec 32) (q : Reply) : (s.replied p i v q).busConfig = s.busConfig := by rw [State.replied]; simp
@[simp] theorem State.replied_delayUs (p : Bool) (i : BitVec 6) (v : BitVec 32) (q : Reply) : (s.replied p i v q).delayUs = s.delayUs := by rw [State.replied]; simp
@[simp] theorem State.replied_freeCount (p : Bool) (i : BitVec 6) (v : BitVec 32) (q : Reply) : (s.replied p i v q).freeCount = s.freeCount := by rw [State.replied]; simp

@[simp] theorem State.captured_params (b : List Byte) : (s.captured b).params = s.params := by rw [State.captured]; simp
@[simp] theorem State.captured_initialized (b : List Byte) : (s.captured b).initialized = s.initialized := by rw [State.captured]; simp
@[simp] theorem State.captured_cardType (b : List Byte) : (s.captured b).cardType = s.cardType := by rw [State.captured]; simp
@[simp] theorem State.captured_sectorCount (b : List Byte) : (s.captured b).sectorCount = s.sectorCount := by rw [State.captured]; simp
@[simp] theorem State.captured_csd (b : List Byte) : (s.captured b).csd = s.csd := by rw [State.captured]; simp
@[simp] theorem State.captured_cid (b : List Byte) : (s.captured b).cid = s.cid := by rw [State.captured]; simp
@[simp] theorem State.captured_initState (b : List Byte) : (s.captured b).initState = s.initState := by rw [State.captured]; simp
@[simp] theorem State.captured_pathV2 (b : List Byte) : (s.captured b).pathV2 = s.pathV2 := by rw [State.captured]; simp
@[simp] theorem State.captured_pollCmd (b : List Byte) : (s.captured b).pollCmd = s.pollCmd := by rw [State.captured]; simp
@[simp] theorem State.captured_pollArg (b : List Byte) : (s.captured b).pollArg = s.pollArg := by rw [State.captured]; simp
@[simp] theorem State.captured_cs (b : List Byte) : (s.captured b).cs = s.cs := by rw [State.captured]; simp
@[simp] theorem State.captured_clockHz (b : List Byte) : (s.captured b).clockHz = s.clockHz := by rw [State.captured]; simp
@[simp] theorem State.captured_attempt (b : List Byte) : (s.captured b).attempt = s.attempt := by rw [State.captured]; simp
@[simp] theorem State.captured_frame (b : List Byte) : (s.captured b).frame = s.frame := by rw [State.captured]; simp
@[simp] theorem State.captured_crc7acc (b : List Byte) : (s.captured b).crc7acc = s.crc7acc := by rw [State.captured]; simp
@[simp] theorem State.captured_crc16acc (b : List Byte) : (s.captured b).crc16acc = s.crc16acc := by rw [State.captured]; simp
@[simp] theorem State.captured_resp (b : List Byte) : (s.captured b).resp = b := by rw [State.captured]; simp
@[simp] theorem State.captured_tok (b : List Byte) : (s.captured b).tok = s.tok := by rw [State.captured]; simp
@[simp] theorem State.captured_buf (b : List Byte) : (s.captured b).buf = s.buf := by rw [State.captured]; simp
@[simp] theorem State.captured_requests (b : List Byte) : (s.captured b).requests = s.requests := by rw [State.captured]; simp
@[simp] theorem State.captured_result (b : List Byte) : (s.captured b).result = s.result := by rw [State.captured]; simp
@[simp] theorem State.captured_error (b : List Byte) : (s.captured b).error = s.error := by rw [State.captured]; simp
@[simp] theorem State.captured_answers (b : List Byte) : (s.captured b).answers = s.answers.drop (fillers b.length).length := by rw [State.captured]; simp
@[simp] theorem State.captured_trace (b : List Byte) : (s.captured b).trace = exchanges s.cs (fillers b.length) b ++ s.trace := by rw [State.captured]; simp
@[simp] theorem State.captured_xchgCount (b : List Byte) : (s.captured b).xchgCount = s.xchgCount + (fillers b.length).length := by rw [State.captured]; simp
@[simp] theorem State.captured_busConfig (b : List Byte) : (s.captured b).busConfig = s.busConfig := by rw [State.captured]; simp
@[simp] theorem State.captured_delayUs (b : List Byte) : (s.captured b).delayUs = s.delayUs := by rw [State.captured]; simp
@[simp] theorem State.captured_freeCount (b : List Byte) : (s.captured b).freeCount = s.freeCount := by rw [State.captured]; simp

@[simp] theorem State.blockHeard_params (d : Block) : (s.blockHeard d).params = s.params := by rw [State.blockHeard]; simp
@[simp] theorem State.blockHeard_initialized (d : Block) : (s.blockHeard d).initialized = s.initialized := by rw [State.blockHeard]; simp
@[simp] theorem State.blockHeard_cardType (d : Block) : (s.blockHeard d).cardType = s.cardType := by rw [State.blockHeard]; simp
@[simp] theorem State.blockHeard_sectorCount (d : Block) : (s.blockHeard d).sectorCount = s.sectorCount := by rw [State.blockHeard]; simp
@[simp] theorem State.blockHeard_csd (d : Block) : (s.blockHeard d).csd = s.csd := by rw [State.blockHeard]; simp
@[simp] theorem State.blockHeard_cid (d : Block) : (s.blockHeard d).cid = s.cid := by rw [State.blockHeard]; simp
@[simp] theorem State.blockHeard_initState (d : Block) : (s.blockHeard d).initState = s.initState := by rw [State.blockHeard]; simp
@[simp] theorem State.blockHeard_pathV2 (d : Block) : (s.blockHeard d).pathV2 = s.pathV2 := by rw [State.blockHeard]; simp
@[simp] theorem State.blockHeard_pollCmd (d : Block) : (s.blockHeard d).pollCmd = s.pollCmd := by rw [State.blockHeard]; simp
@[simp] theorem State.blockHeard_pollArg (d : Block) : (s.blockHeard d).pollArg = s.pollArg := by rw [State.blockHeard]; simp
@[simp] theorem State.blockHeard_cs (d : Block) : (s.blockHeard d).cs = s.cs := by rw [State.blockHeard]; simp
@[simp] theorem State.blockHeard_clockHz (d : Block) : (s.blockHeard d).clockHz = s.clockHz := by rw [State.blockHeard]; simp
@[simp] theorem State.blockHeard_attempt (d : Block) : (s.blockHeard d).attempt = d.wait + 1 := by rw [State.blockHeard]; simp
@[simp] theorem State.blockHeard_frame (d : Block) : (s.blockHeard d).frame = s.frame := by rw [State.blockHeard]; simp
@[simp] theorem State.blockHeard_crc7acc (d : Block) : (s.blockHeard d).crc7acc = s.crc7acc := by rw [State.blockHeard]; simp
@[simp] theorem State.blockHeard_crc16acc (d : Block) : (s.blockHeard d).crc16acc = crc16 s.params.crc16Seed d.payload := by rw [State.blockHeard]; simp
@[simp] theorem State.blockHeard_resp (d : Block) : (s.blockHeard d).resp = s.resp := by rw [State.blockHeard]; simp
@[simp] theorem State.blockHeard_tok (d : Block) : (s.blockHeard d).tok = tokenStartByte := by rw [State.blockHeard]; simp
@[simp] theorem State.blockHeard_buf (d : Block) : (s.blockHeard d).buf = s.buf := by rw [State.blockHeard]; simp
@[simp] theorem State.blockHeard_requests (d : Block) : (s.blockHeard d).requests = s.requests := by rw [State.blockHeard]; simp
@[simp] theorem State.blockHeard_result (d : Block) : (s.blockHeard d).result = s.result := by rw [State.blockHeard]; simp
@[simp] theorem State.blockHeard_error (d : Block) : (s.blockHeard d).error = s.error := by rw [State.blockHeard]; simp
@[simp] theorem State.blockHeard_answers (d : Block) : (s.blockHeard d).answers = s.answers.drop (fillers d.count).length := by rw [State.blockHeard]; simp
@[simp] theorem State.blockHeard_trace (d : Block) : (s.blockHeard d).trace = exchanges s.cs (fillers d.count) (d.bytes s.params.crc16Seed) ++ s.trace := by rw [State.blockHeard]; simp
@[simp] theorem State.blockHeard_xchgCount (d : Block) : (s.blockHeard d).xchgCount = s.xchgCount + (fillers d.count).length := by rw [State.blockHeard]; simp
@[simp] theorem State.blockHeard_busConfig (d : Block) : (s.blockHeard d).busConfig = s.busConfig := by rw [State.blockHeard]; simp
@[simp] theorem State.blockHeard_delayUs (d : Block) : (s.blockHeard d).delayUs = s.delayUs := by rw [State.blockHeard]; simp
@[simp] theorem State.blockHeard_freeCount (d : Block) : (s.blockHeard d).freeCount = s.freeCount := by rw [State.blockHeard]; simp

@[simp] theorem State.capturedBlock_params (d : Block) : (s.capturedBlock d).params = s.params := by rw [State.capturedBlock]; simp
@[simp] theorem State.capturedBlock_initialized (d : Block) : (s.capturedBlock d).initialized = s.initialized := by rw [State.capturedBlock]; simp
@[simp] theorem State.capturedBlock_cardType (d : Block) : (s.capturedBlock d).cardType = s.cardType := by rw [State.capturedBlock]; simp
@[simp] theorem State.capturedBlock_sectorCount (d : Block) : (s.capturedBlock d).sectorCount = s.sectorCount := by rw [State.capturedBlock]; simp
@[simp] theorem State.capturedBlock_csd (d : Block) : (s.capturedBlock d).csd = s.csd := by rw [State.capturedBlock]; simp
@[simp] theorem State.capturedBlock_cid (d : Block) : (s.capturedBlock d).cid = s.cid := by rw [State.capturedBlock]; simp
@[simp] theorem State.capturedBlock_initState (d : Block) : (s.capturedBlock d).initState = s.initState := by rw [State.capturedBlock]; simp
@[simp] theorem State.capturedBlock_pathV2 (d : Block) : (s.capturedBlock d).pathV2 = s.pathV2 := by rw [State.capturedBlock]; simp
@[simp] theorem State.capturedBlock_pollCmd (d : Block) : (s.capturedBlock d).pollCmd = s.pollCmd := by rw [State.capturedBlock]; simp
@[simp] theorem State.capturedBlock_pollArg (d : Block) : (s.capturedBlock d).pollArg = s.pollArg := by rw [State.capturedBlock]; simp
@[simp] theorem State.capturedBlock_cs (d : Block) : (s.capturedBlock d).cs = s.cs := by rw [State.capturedBlock]; simp
@[simp] theorem State.capturedBlock_clockHz (d : Block) : (s.capturedBlock d).clockHz = s.clockHz := by rw [State.capturedBlock]; simp
@[simp] theorem State.capturedBlock_attempt (d : Block) : (s.capturedBlock d).attempt = d.wait + 1 := by rw [State.capturedBlock]; simp
@[simp] theorem State.capturedBlock_frame (d : Block) : (s.capturedBlock d).frame = s.frame := by rw [State.capturedBlock]; simp
@[simp] theorem State.capturedBlock_crc7acc (d : Block) : (s.capturedBlock d).crc7acc = s.crc7acc := by rw [State.capturedBlock]; simp
@[simp] theorem State.capturedBlock_crc16acc (d : Block) : (s.capturedBlock d).crc16acc = crc16 s.params.crc16Seed d.payload := by rw [State.capturedBlock]; simp
@[simp] theorem State.capturedBlock_resp (d : Block) : (s.capturedBlock d).resp = d.payload := by rw [State.capturedBlock]; simp
@[simp] theorem State.capturedBlock_tok (d : Block) : (s.capturedBlock d).tok = tokenStartByte := by rw [State.capturedBlock]; simp
@[simp] theorem State.capturedBlock_buf (d : Block) : (s.capturedBlock d).buf = s.buf := by rw [State.capturedBlock]; simp
@[simp] theorem State.capturedBlock_requests (d : Block) : (s.capturedBlock d).requests = s.requests := by rw [State.capturedBlock]; simp
@[simp] theorem State.capturedBlock_result (d : Block) : (s.capturedBlock d).result = s.result := by rw [State.capturedBlock]; simp
@[simp] theorem State.capturedBlock_error (d : Block) : (s.capturedBlock d).error = s.error := by rw [State.capturedBlock]; simp
@[simp] theorem State.capturedBlock_answers (d : Block) : (s.capturedBlock d).answers = s.answers.drop (fillers d.count).length := by rw [State.capturedBlock]; simp
@[simp] theorem State.capturedBlock_trace (d : Block) : (s.capturedBlock d).trace = exchanges s.cs (fillers d.count) (d.bytes s.params.crc16Seed) ++ s.trace := by rw [State.capturedBlock]; simp
@[simp] theorem State.capturedBlock_xchgCount (d : Block) : (s.capturedBlock d).xchgCount = s.xchgCount + (fillers d.count).length := by rw [State.capturedBlock]; simp
@[simp] theorem State.capturedBlock_busConfig (d : Block) : (s.capturedBlock d).busConfig = s.busConfig := by rw [State.capturedBlock]; simp
@[simp] theorem State.capturedBlock_delayUs (d : Block) : (s.capturedBlock d).delayUs = s.delayUs := by rw [State.capturedBlock]; simp
@[simp] theorem State.capturedBlock_freeCount (d : Block) : (s.capturedBlock d).freeCount = s.freeCount := by rw [State.capturedBlock]; simp

@[simp] theorem State.received_params (a : Nat) (d : Block) : (s.received a d).params = s.params := by rw [State.received]; simp
@[simp] theorem State.received_initialized (a : Nat) (d : Block) : (s.received a d).initialized = s.initialized := by rw [State.received]; simp
@[simp] theorem State.received_cardType (a : Nat) (d : Block) : (s.received a d).cardType = s.cardType := by rw [State.received]; simp
@[simp] theorem State.received_sectorCount (a : Nat) (d : Block) : (s.received a d).sectorCount = s.sectorCount := by rw [State.received]; simp
@[simp] theorem State.received_csd (a : Nat) (d : Block) : (s.received a d).csd = s.csd := by rw [State.received]; simp
@[simp] theorem State.received_cid (a : Nat) (d : Block) : (s.received a d).cid = s.cid := by rw [State.received]; simp
@[simp] theorem State.received_initState (a : Nat) (d : Block) : (s.received a d).initState = s.initState := by rw [State.received]; simp
@[simp] theorem State.received_pathV2 (a : Nat) (d : Block) : (s.received a d).pathV2 = s.pathV2 := by rw [State.received]; simp
@[simp] theorem State.received_pollCmd (a : Nat) (d : Block) : (s.received a d).pollCmd = s.pollCmd := by rw [State.received]; simp
@[simp] theorem State.received_pollArg (a : Nat) (d : Block) : (s.received a d).pollArg = s.pollArg := by rw [State.received]; simp
@[simp] theorem State.received_cs (a : Nat) (d : Block) : (s.received a d).cs = s.cs := by rw [State.received]; simp
@[simp] theorem State.received_clockHz (a : Nat) (d : Block) : (s.received a d).clockHz = s.clockHz := by rw [State.received]; simp
@[simp] theorem State.received_attempt (a : Nat) (d : Block) : (s.received a d).attempt = d.wait + 1 := by rw [State.received]; simp
@[simp] theorem State.received_frame (a : Nat) (d : Block) : (s.received a d).frame = s.frame := by rw [State.received]; simp
@[simp] theorem State.received_crc7acc (a : Nat) (d : Block) : (s.received a d).crc7acc = s.crc7acc := by rw [State.received]; simp
@[simp] theorem State.received_crc16acc (a : Nat) (d : Block) : (s.received a d).crc16acc = crc16 s.params.crc16Seed d.payload := by rw [State.received]; simp
@[simp] theorem State.received_resp (a : Nat) (d : Block) : (s.received a d).resp = s.resp := by rw [State.received]; simp
@[simp] theorem State.received_tok (a : Nat) (d : Block) : (s.received a d).tok = tokenStartByte := by rw [State.received]; simp
@[simp] theorem State.received_buf (a : Nat) (d : Block) : (s.received a d).buf = s.buf.writeBytes a d.payload := by rw [State.received]; simp
@[simp] theorem State.received_requests (a : Nat) (d : Block) : (s.received a d).requests = s.requests := by rw [State.received]; simp
@[simp] theorem State.received_result (a : Nat) (d : Block) : (s.received a d).result = s.result := by rw [State.received]; simp
@[simp] theorem State.received_error (a : Nat) (d : Block) : (s.received a d).error = s.error := by rw [State.received]; simp
@[simp] theorem State.received_answers (a : Nat) (d : Block) : (s.received a d).answers = s.answers.drop (fillers d.count).length := by rw [State.received]; simp
@[simp] theorem State.received_trace (a : Nat) (d : Block) : (s.received a d).trace = exchanges s.cs (fillers d.count) (d.bytes s.params.crc16Seed) ++ s.trace := by rw [State.received]; simp
@[simp] theorem State.received_xchgCount (a : Nat) (d : Block) : (s.received a d).xchgCount = s.xchgCount + (fillers d.count).length := by rw [State.received]; simp
@[simp] theorem State.received_busConfig (a : Nat) (d : Block) : (s.received a d).busConfig = s.busConfig := by rw [State.received]; simp
@[simp] theorem State.received_delayUs (a : Nat) (d : Block) : (s.received a d).delayUs = s.delayUs + d.wait * s.params.tokenWaitDelayUs := by rw [State.received]; simp
@[simp] theorem State.received_freeCount (a : Nat) (d : Block) : (s.received a d).freeCount = s.freeCount := by rw [State.received]; simp

@[simp] theorem State.waited_params (b : List Byte) : (s.waited b).params = s.params := by rw [State.waited]; simp
@[simp] theorem State.waited_initialized (b : List Byte) : (s.waited b).initialized = s.initialized := by rw [State.waited]; simp
@[simp] theorem State.waited_cardType (b : List Byte) : (s.waited b).cardType = s.cardType := by rw [State.waited]; simp
@[simp] theorem State.waited_sectorCount (b : List Byte) : (s.waited b).sectorCount = s.sectorCount := by rw [State.waited]; simp
@[simp] theorem State.waited_csd (b : List Byte) : (s.waited b).csd = s.csd := by rw [State.waited]; simp
@[simp] theorem State.waited_cid (b : List Byte) : (s.waited b).cid = s.cid := by rw [State.waited]; simp
@[simp] theorem State.waited_initState (b : List Byte) : (s.waited b).initState = s.initState := by rw [State.waited]; simp
@[simp] theorem State.waited_pathV2 (b : List Byte) : (s.waited b).pathV2 = s.pathV2 := by rw [State.waited]; simp
@[simp] theorem State.waited_pollCmd (b : List Byte) : (s.waited b).pollCmd = s.pollCmd := by rw [State.waited]; simp
@[simp] theorem State.waited_pollArg (b : List Byte) : (s.waited b).pollArg = s.pollArg := by rw [State.waited]; simp
@[simp] theorem State.waited_cs (b : List Byte) : (s.waited b).cs = s.cs := by rw [State.waited]; simp
@[simp] theorem State.waited_clockHz (b : List Byte) : (s.waited b).clockHz = s.clockHz := by rw [State.waited]; simp
@[simp] theorem State.waited_attempt (b : List Byte) : (s.waited b).attempt = b.length + 1 := by rw [State.waited]; simp
@[simp] theorem State.waited_frame (b : List Byte) : (s.waited b).frame = s.frame := by rw [State.waited]; simp
@[simp] theorem State.waited_crc7acc (b : List Byte) : (s.waited b).crc7acc = s.crc7acc := by rw [State.waited]; simp
@[simp] theorem State.waited_crc16acc (b : List Byte) : (s.waited b).crc16acc = s.crc16acc := by rw [State.waited]; simp
@[simp] theorem State.waited_resp (b : List Byte) : (s.waited b).resp = s.resp := by rw [State.waited]; simp
@[simp] theorem State.waited_tok (b : List Byte) : (s.waited b).tok = s.tok := by rw [State.waited]; simp
@[simp] theorem State.waited_buf (b : List Byte) : (s.waited b).buf = s.buf := by rw [State.waited]; simp
@[simp] theorem State.waited_requests (b : List Byte) : (s.waited b).requests = s.requests := by rw [State.waited]; simp
@[simp] theorem State.waited_result (b : List Byte) : (s.waited b).result = s.result := by rw [State.waited]; simp
@[simp] theorem State.waited_error (b : List Byte) : (s.waited b).error = s.error := by rw [State.waited]; simp
@[simp] theorem State.waited_answers (b : List Byte) : (s.waited b).answers = s.answers.drop (fillers (b.length + 1)).length := by rw [State.waited]; simp
@[simp] theorem State.waited_trace (b : List Byte) : (s.waited b).trace = exchanges s.cs (fillers (b.length + 1)) (readyBytes b) ++ s.trace := by rw [State.waited]; simp
@[simp] theorem State.waited_xchgCount (b : List Byte) : (s.waited b).xchgCount = s.xchgCount + (fillers (b.length + 1)).length := by rw [State.waited]; simp
@[simp] theorem State.waited_busConfig (b : List Byte) : (s.waited b).busConfig = s.busConfig := by rw [State.waited]; simp
@[simp] theorem State.waited_delayUs (b : List Byte) : (s.waited b).delayUs = s.delayUs + b.length * s.params.readyWaitDelayUs := by rw [State.waited]; simp
@[simp] theorem State.waited_freeCount (b : List Byte) : (s.waited b).freeCount = s.freeCount := by rw [State.waited]; simp

@[simp] theorem State.stillBusy_params (b : List Byte) : (s.stillBusy b).params = s.params := by rw [State.stillBusy]; simp
@[simp] theorem State.stillBusy_initialized (b : List Byte) : (s.stillBusy b).initialized = s.initialized := by rw [State.stillBusy]; simp
@[simp] theorem State.stillBusy_cardType (b : List Byte) : (s.stillBusy b).cardType = s.cardType := by rw [State.stillBusy]; simp
@[simp] theorem State.stillBusy_sectorCount (b : List Byte) : (s.stillBusy b).sectorCount = s.sectorCount := by rw [State.stillBusy]; simp
@[simp] theorem State.stillBusy_csd (b : List Byte) : (s.stillBusy b).csd = s.csd := by rw [State.stillBusy]; simp
@[simp] theorem State.stillBusy_cid (b : List Byte) : (s.stillBusy b).cid = s.cid := by rw [State.stillBusy]; simp
@[simp] theorem State.stillBusy_initState (b : List Byte) : (s.stillBusy b).initState = s.initState := by rw [State.stillBusy]; simp
@[simp] theorem State.stillBusy_pathV2 (b : List Byte) : (s.stillBusy b).pathV2 = s.pathV2 := by rw [State.stillBusy]; simp
@[simp] theorem State.stillBusy_pollCmd (b : List Byte) : (s.stillBusy b).pollCmd = s.pollCmd := by rw [State.stillBusy]; simp
@[simp] theorem State.stillBusy_pollArg (b : List Byte) : (s.stillBusy b).pollArg = s.pollArg := by rw [State.stillBusy]; simp
@[simp] theorem State.stillBusy_cs (b : List Byte) : (s.stillBusy b).cs = s.cs := by rw [State.stillBusy]; simp
@[simp] theorem State.stillBusy_clockHz (b : List Byte) : (s.stillBusy b).clockHz = s.clockHz := by rw [State.stillBusy]; simp
@[simp] theorem State.stillBusy_attempt (b : List Byte) : (s.stillBusy b).attempt = if b = [] then s.attempt else b.length := by rw [State.stillBusy]; simp
@[simp] theorem State.stillBusy_frame (b : List Byte) : (s.stillBusy b).frame = s.frame := by rw [State.stillBusy]; simp
@[simp] theorem State.stillBusy_crc7acc (b : List Byte) : (s.stillBusy b).crc7acc = s.crc7acc := by rw [State.stillBusy]; simp
@[simp] theorem State.stillBusy_crc16acc (b : List Byte) : (s.stillBusy b).crc16acc = s.crc16acc := by rw [State.stillBusy]; simp
@[simp] theorem State.stillBusy_resp (b : List Byte) : (s.stillBusy b).resp = s.resp := by rw [State.stillBusy]; simp
@[simp] theorem State.stillBusy_tok (b : List Byte) : (s.stillBusy b).tok = s.tok := by rw [State.stillBusy]; simp
@[simp] theorem State.stillBusy_buf (b : List Byte) : (s.stillBusy b).buf = s.buf := by rw [State.stillBusy]; simp
@[simp] theorem State.stillBusy_requests (b : List Byte) : (s.stillBusy b).requests = s.requests := by rw [State.stillBusy]; simp
@[simp] theorem State.stillBusy_result (b : List Byte) : (s.stillBusy b).result = s.result := by rw [State.stillBusy]; simp
@[simp] theorem State.stillBusy_error (b : List Byte) : (s.stillBusy b).error = s.error := by rw [State.stillBusy]; simp
@[simp] theorem State.stillBusy_answers (b : List Byte) : (s.stillBusy b).answers = s.answers.drop (fillers b.length).length := by rw [State.stillBusy]; simp
@[simp] theorem State.stillBusy_trace (b : List Byte) : (s.stillBusy b).trace = exchanges s.cs (fillers b.length) b ++ s.trace := by rw [State.stillBusy]; simp
@[simp] theorem State.stillBusy_xchgCount (b : List Byte) : (s.stillBusy b).xchgCount = s.xchgCount + (fillers b.length).length := by rw [State.stillBusy]; simp
@[simp] theorem State.stillBusy_busConfig (b : List Byte) : (s.stillBusy b).busConfig = s.busConfig := by rw [State.stillBusy]; simp
@[simp] theorem State.stillBusy_delayUs (b : List Byte) : (s.stillBusy b).delayUs = s.delayUs + b.length * s.params.readyWaitDelayUs := by rw [State.stillBusy]; simp
@[simp] theorem State.stillBusy_freeCount (b : List Byte) : (s.stillBusy b).freeCount = s.freeCount := by rw [State.stillBusy]; simp

@[simp] theorem State.transmitted_params (k : Byte) (d b g : List Byte) (r : Byte) : (s.transmitted k d b g r).params = s.params := by rw [State.transmitted]; simp
@[simp] theorem State.transmitted_initialized (k : Byte) (d b g : List Byte) (r : Byte) : (s.transmitted k d b g r).initialized = s.initialized := by rw [State.transmitted]; simp
@[simp] theorem State.transmitted_cardType (k : Byte) (d b g : List Byte) (r : Byte) : (s.transmitted k d b g r).cardType = s.cardType := by rw [State.transmitted]; simp
@[simp] theorem State.transmitted_sectorCount (k : Byte) (d b g : List Byte) (r : Byte) : (s.transmitted k d b g r).sectorCount = s.sectorCount := by rw [State.transmitted]; simp
@[simp] theorem State.transmitted_csd (k : Byte) (d b g : List Byte) (r : Byte) : (s.transmitted k d b g r).csd = s.csd := by rw [State.transmitted]; simp
@[simp] theorem State.transmitted_cid (k : Byte) (d b g : List Byte) (r : Byte) : (s.transmitted k d b g r).cid = s.cid := by rw [State.transmitted]; simp
@[simp] theorem State.transmitted_initState (k : Byte) (d b g : List Byte) (r : Byte) : (s.transmitted k d b g r).initState = s.initState := by rw [State.transmitted]; simp
@[simp] theorem State.transmitted_pathV2 (k : Byte) (d b g : List Byte) (r : Byte) : (s.transmitted k d b g r).pathV2 = s.pathV2 := by rw [State.transmitted]; simp
@[simp] theorem State.transmitted_pollCmd (k : Byte) (d b g : List Byte) (r : Byte) : (s.transmitted k d b g r).pollCmd = s.pollCmd := by rw [State.transmitted]; simp
@[simp] theorem State.transmitted_pollArg (k : Byte) (d b g : List Byte) (r : Byte) : (s.transmitted k d b g r).pollArg = s.pollArg := by rw [State.transmitted]; simp
@[simp] theorem State.transmitted_cs (k : Byte) (d b g : List Byte) (r : Byte) : (s.transmitted k d b g r).cs = s.cs := by rw [State.transmitted]; simp
@[simp] theorem State.transmitted_clockHz (k : Byte) (d b g : List Byte) (r : Byte) : (s.transmitted k d b g r).clockHz = s.clockHz := by rw [State.transmitted]; simp
@[simp] theorem State.transmitted_attempt (k : Byte) (d b g : List Byte) (r : Byte) : (s.transmitted k d b g r).attempt = b.length + 1 := by rw [State.transmitted]; simp
@[simp] theorem State.transmitted_frame (k : Byte) (d b g : List Byte) (r : Byte) : (s.transmitted k d b g r).frame = s.frame := by rw [State.transmitted]; simp
@[simp] theorem State.transmitted_crc7acc (k : Byte) (d b g : List Byte) (r : Byte) : (s.transmitted k d b g r).crc7acc = s.crc7acc := by rw [State.transmitted]; simp
@[simp] theorem State.transmitted_crc16acc (k : Byte) (d b g : List Byte) (r : Byte) : (s.transmitted k d b g r).crc16acc = crc16 s.params.crc16Seed d := by rw [State.transmitted]; simp
@[simp] theorem State.transmitted_resp (k : Byte) (d b g : List Byte) (r : Byte) : (s.transmitted k d b g r).resp = s.resp := by rw [State.transmitted]; simp
@[simp] theorem State.transmitted_tok (k : Byte) (d b g : List Byte) (r : Byte) : (s.transmitted k d b g r).tok = s.tok := by rw [State.transmitted]; simp
@[simp] theorem State.transmitted_buf (k : Byte) (d b g : List Byte) (r : Byte) : (s.transmitted k d b g r).buf = s.buf := by rw [State.transmitted]; simp
@[simp] theorem State.transmitted_requests (k : Byte) (d b g : List Byte) (r : Byte) : (s.transmitted k d b g r).requests = s.requests := by rw [State.transmitted]; simp
@[simp] theorem State.transmitted_result (k : Byte) (d b g : List Byte) (r : Byte) : (s.transmitted k d b g r).result = s.result := by rw [State.transmitted]; simp
@[simp] theorem State.transmitted_error (k : Byte) (d b g : List Byte) (r : Byte) : (s.transmitted k d b g r).error = s.error := by rw [State.transmitted]; simp
@[simp] theorem State.transmitted_answers (k : Byte) (d b g : List Byte) (r : Byte) : (s.transmitted k d b g r).answers = (s.answers.drop (fillers (b.length + 1)).length).drop (blockMosi s.params.crc16Seed k d).length := by rw [State.transmitted]; simp
@[simp] theorem State.transmitted_trace (k : Byte) (d b g : List Byte) (r : Byte) : (s.transmitted k d b g r).trace = exchanges s.cs (blockMosi s.params.crc16Seed k d) (g ++ [r]) ++ (s.waited b).trace := by rw [State.transmitted]; simp
@[simp] theorem State.transmitted_xchgCount (k : Byte) (d b g : List Byte) (r : Byte) : (s.transmitted k d b g r).xchgCount = s.xchgCount + (fillers (b.length + 1)).length + (blockMosi s.params.crc16Seed k d).length := by rw [State.transmitted]; simp
@[simp] theorem State.transmitted_busConfig (k : Byte) (d b g : List Byte) (r : Byte) : (s.transmitted k d b g r).busConfig = s.busConfig := by rw [State.transmitted]; simp
@[simp] theorem State.transmitted_delayUs (k : Byte) (d b g : List Byte) (r : Byte) : (s.transmitted k d b g r).delayUs = s.delayUs + b.length * s.params.readyWaitDelayUs := by rw [State.transmitted]; simp
@[simp] theorem State.transmitted_freeCount (k : Byte) (d b g : List Byte) (r : Byte) : (s.transmitted k d b g r).freeCount = s.freeCount := by rw [State.transmitted]; simp

@[simp] theorem State.heard_params (b : List Byte) : (s.heard b).params = s.params := by rw [State.heard]; simp [fillers]
@[simp] theorem State.heard_initialized (b : List Byte) : (s.heard b).initialized = s.initialized := by rw [State.heard]; simp [fillers]
@[simp] theorem State.heard_cardType (b : List Byte) : (s.heard b).cardType = s.cardType := by rw [State.heard]; simp [fillers]
@[simp] theorem State.heard_sectorCount (b : List Byte) : (s.heard b).sectorCount = s.sectorCount := by rw [State.heard]; simp [fillers]
@[simp] theorem State.heard_csd (b : List Byte) : (s.heard b).csd = s.csd := by rw [State.heard]; simp [fillers]
@[simp] theorem State.heard_cid (b : List Byte) : (s.heard b).cid = s.cid := by rw [State.heard]; simp [fillers]
@[simp] theorem State.heard_initState (b : List Byte) : (s.heard b).initState = s.initState := by rw [State.heard]; simp [fillers]
@[simp] theorem State.heard_pathV2 (b : List Byte) : (s.heard b).pathV2 = s.pathV2 := by rw [State.heard]; simp [fillers]
@[simp] theorem State.heard_pollCmd (b : List Byte) : (s.heard b).pollCmd = s.pollCmd := by rw [State.heard]; simp [fillers]
@[simp] theorem State.heard_pollArg (b : List Byte) : (s.heard b).pollArg = s.pollArg := by rw [State.heard]; simp [fillers]
@[simp] theorem State.heard_cs (b : List Byte) : (s.heard b).cs = s.cs := by rw [State.heard]; simp [fillers]
@[simp] theorem State.heard_clockHz (b : List Byte) : (s.heard b).clockHz = s.clockHz := by rw [State.heard]; simp [fillers]
@[simp] theorem State.heard_attempt (b : List Byte) : (s.heard b).attempt = s.attempt := by rw [State.heard]; simp [fillers]
@[simp] theorem State.heard_frame (b : List Byte) : (s.heard b).frame = s.frame := by rw [State.heard]; simp [fillers]
@[simp] theorem State.heard_crc7acc (b : List Byte) : (s.heard b).crc7acc = s.crc7acc := by rw [State.heard]; simp [fillers]
@[simp] theorem State.heard_crc16acc (b : List Byte) : (s.heard b).crc16acc = s.crc16acc := by rw [State.heard]; simp [fillers]
@[simp] theorem State.heard_resp (b : List Byte) : (s.heard b).resp = s.resp := by rw [State.heard]; simp [fillers]
@[simp] theorem State.heard_tok (b : List Byte) : (s.heard b).tok = s.tok := by rw [State.heard]; simp [fillers]
@[simp] theorem State.heard_buf (b : List Byte) : (s.heard b).buf = s.buf := by rw [State.heard]; simp [fillers]
@[simp] theorem State.heard_requests (b : List Byte) : (s.heard b).requests = s.requests := by rw [State.heard]; simp [fillers]
@[simp] theorem State.heard_result (b : List Byte) : (s.heard b).result = s.result := by rw [State.heard]; simp [fillers]
@[simp] theorem State.heard_error (b : List Byte) : (s.heard b).error = s.error := by rw [State.heard]; simp [fillers]
@[simp] theorem State.heard_answers (b : List Byte) : (s.heard b).answers = s.answers := by rw [State.heard]; simp [fillers]
@[simp] theorem State.heard_trace (b : List Byte) : (s.heard b).trace = exchanges s.cs (fillers b.length) b ++ s.trace := by rw [State.heard]; simp [fillers]
@[simp] theorem State.heard_xchgCount (b : List Byte) : (s.heard b).xchgCount = s.xchgCount + b.length := by rw [State.heard]; simp [fillers]
@[simp] theorem State.heard_busConfig (b : List Byte) : (s.heard b).busConfig = s.busConfig := by rw [State.heard]; simp [fillers]
@[simp] theorem State.heard_delayUs (b : List Byte) : (s.heard b).delayUs = s.delayUs := by rw [State.heard]; simp [fillers]
@[simp] theorem State.heard_freeCount (b : List Byte) : (s.heard b).freeCount = s.freeCount := by rw [State.heard]; simp [fillers]

@[simp] theorem State.unanswered_params (p : Bool) (i : BitVec 6) (v : BitVec 32) (g u : List Byte) : (s.unanswered p i v g u).params = s.params := by rw [State.unanswered]; simp
@[simp] theorem State.unanswered_initialized (p : Bool) (i : BitVec 6) (v : BitVec 32) (g u : List Byte) : (s.unanswered p i v g u).initialized = s.initialized := by rw [State.unanswered]; simp
@[simp] theorem State.unanswered_cardType (p : Bool) (i : BitVec 6) (v : BitVec 32) (g u : List Byte) : (s.unanswered p i v g u).cardType = s.cardType := by rw [State.unanswered]; simp
@[simp] theorem State.unanswered_sectorCount (p : Bool) (i : BitVec 6) (v : BitVec 32) (g u : List Byte) : (s.unanswered p i v g u).sectorCount = s.sectorCount := by rw [State.unanswered]; simp
@[simp] theorem State.unanswered_csd (p : Bool) (i : BitVec 6) (v : BitVec 32) (g u : List Byte) : (s.unanswered p i v g u).csd = s.csd := by rw [State.unanswered]; simp
@[simp] theorem State.unanswered_cid (p : Bool) (i : BitVec 6) (v : BitVec 32) (g u : List Byte) : (s.unanswered p i v g u).cid = s.cid := by rw [State.unanswered]; simp
@[simp] theorem State.unanswered_initState (p : Bool) (i : BitVec 6) (v : BitVec 32) (g u : List Byte) : (s.unanswered p i v g u).initState = s.initState := by rw [State.unanswered]; simp
@[simp] theorem State.unanswered_pathV2 (p : Bool) (i : BitVec 6) (v : BitVec 32) (g u : List Byte) : (s.unanswered p i v g u).pathV2 = s.pathV2 := by rw [State.unanswered]; simp
@[simp] theorem State.unanswered_pollCmd (p : Bool) (i : BitVec 6) (v : BitVec 32) (g u : List Byte) : (s.unanswered p i v g u).pollCmd = s.pollCmd := by rw [State.unanswered]; simp
@[simp] theorem State.unanswered_pollArg (p : Bool) (i : BitVec 6) (v : BitVec 32) (g u : List Byte) : (s.unanswered p i v g u).pollArg = s.pollArg := by rw [State.unanswered]; simp
@[simp] theorem State.unanswered_cs (p : Bool) (i : BitVec 6) (v : BitVec 32) (g u : List Byte) : (s.unanswered p i v g u).cs = s.cs := by rw [State.unanswered]; simp
@[simp] theorem State.unanswered_clockHz (p : Bool) (i : BitVec 6) (v : BitVec 32) (g u : List Byte) : (s.unanswered p i v g u).clockHz = s.clockHz := by rw [State.unanswered]; simp
@[simp] theorem State.unanswered_attempt (p : Bool) (i : BitVec 6) (v : BitVec 32) (g u : List Byte) : (s.unanswered p i v g u).attempt = if u = [] then s.attempt else u.length := by rw [State.unanswered]; simp
@[simp] theorem State.unanswered_frame (p : Bool) (i : BitVec 6) (v : BitVec 32) (g u : List Byte) : (s.unanswered p i v g u).frame = buildFrame i v := by rw [State.unanswered]; simp
@[simp] theorem State.unanswered_crc7acc (p : Bool) (i : BitVec 6) (v : BitVec 32) (g u : List Byte) : (s.unanswered p i v g u).crc7acc = crc7 (frameBody i v) := by rw [State.unanswered]; simp
@[simp] theorem State.unanswered_crc16acc (p : Bool) (i : BitVec 6) (v : BitVec 32) (g u : List Byte) : (s.unanswered p i v g u).crc16acc = s.crc16acc := by rw [State.unanswered]; simp
@[simp] theorem State.unanswered_resp (p : Bool) (i : BitVec 6) (v : BitVec 32) (g u : List Byte) : (s.unanswered p i v g u).resp = s.resp := by rw [State.unanswered]; simp
@[simp] theorem State.unanswered_tok (p : Bool) (i : BitVec 6) (v : BitVec 32) (g u : List Byte) : (s.unanswered p i v g u).tok = s.tok := by rw [State.unanswered]; simp
@[simp] theorem State.unanswered_buf (p : Bool) (i : BitVec 6) (v : BitVec 32) (g u : List Byte) : (s.unanswered p i v g u).buf = s.buf := by rw [State.unanswered]; simp
@[simp] theorem State.unanswered_requests (p : Bool) (i : BitVec 6) (v : BitVec 32) (g u : List Byte) : (s.unanswered p i v g u).requests = s.requests := by rw [State.unanswered]; simp
@[simp] theorem State.unanswered_result (p : Bool) (i : BitVec 6) (v : BitVec 32) (g u : List Byte) : (s.unanswered p i v g u).result = s.result := by rw [State.unanswered]; simp
@[simp] theorem State.unanswered_error (p : Bool) (i : BitVec 6) (v : BitVec 32) (g u : List Byte) : (s.unanswered p i v g u).error = s.error := by rw [State.unanswered]; simp
@[simp] theorem State.unanswered_answers (p : Bool) (i : BitVec 6) (v : BitVec 32) (g u : List Byte) : (s.unanswered p i v g u).answers = s.answers.drop (frameBytes (buildFrame i v) ++ fillers (stuffing p i + u.length)).length := by rw [State.unanswered]; simp
@[simp] theorem State.unanswered_trace (p : Bool) (i : BitVec 6) (v : BitVec 32) (g u : List Byte) : (s.unanswered p i v g u).trace = exchanges s.cs (frameBytes (buildFrame i v) ++ fillers (stuffing p i + u.length)) (g ++ u) ++ s.trace := by rw [State.unanswered]; simp
@[simp] theorem State.unanswered_xchgCount (p : Bool) (i : BitVec 6) (v : BitVec 32) (g u : List Byte) : (s.unanswered p i v g u).xchgCount = s.xchgCount + (frameBytes (buildFrame i v) ++ fillers (stuffing p i + u.length)).length := by rw [State.unanswered]; simp
@[simp] theorem State.unanswered_busConfig (p : Bool) (i : BitVec 6) (v : BitVec 32) (g u : List Byte) : (s.unanswered p i v g u).busConfig = s.busConfig := by rw [State.unanswered]; simp
@[simp] theorem State.unanswered_delayUs (p : Bool) (i : BitVec 6) (v : BitVec 32) (g u : List Byte) : (s.unanswered p i v g u).delayUs = s.delayUs := by rw [State.unanswered]; simp
@[simp] theorem State.unanswered_freeCount (p : Bool) (i : BitVec 6) (v : BitVec 32) (g u : List Byte) : (s.unanswered p i v g u).freeCount = s.freeCount := by rw [State.unanswered]; simp

end Sys2Proof.Machine
end

