-- ==== Sys2Proof/Laws/Wire.lean ====
section
/-!
SUPPORT. The transport primitives and the bounded polls: what each exchange does to the state, once for
scripted answers (`State.onWire`) and once for any card.
-/

namespace Sys2Proof.Machine

@[simp] theorem fillers_length (n : Nat) : (fillers n).length = n := by simp [fillers]

theorem fillers_append (m n : Nat) : fillers m ++ fillers n = fillers (m + n) := by
  simp [fillers, List.replicate_append_replicate]

theorem fillers_succ (n : Nat) : fillers (n + 1) = 0xFF :: fillers n := rfl

@[simp] theorem exchanges_nil (cs : ChipSelect) : exchanges cs [] [] = [] := rfl

theorem exchanges_append (cs : ChipSelect) {o i : List Byte} (o' i' : List Byte) (h : o.length = i.length) :
    exchanges cs (o ++ o') (i ++ i') = exchanges cs o' i' ++ exchanges cs o i := by
  simp [exchanges, List.zipWith_append h]

@[simp] theorem exchanges_length (cs : ChipSelect) {o i : List Byte} (h : o.length = i.length) :
    (exchanges cs o i).length = o.length := by
  simp [exchanges, h]

theorem exchanges_sent (cs : ChipSelect) {o i : List Byte} (h : o.length = i.length) :
    ((exchanges cs o i).map Exchange.mosi).reverse = o := by
  simp only [exchanges, List.map_reverse, List.reverse_reverse, List.map_zipWith]
  induction o generalizing i with
  | nil => rfl
  | cons x o ih =>
    cases i with
    | nil => simp at h
    | cons y i => simp [ih (Nat.succ.inj h)]

/-- The bytes sent after some exchanges are those sent before, then the new ones. -/
theorem onWire_sent (s : State) {o i : List Byte} (h : o.length = i.length) :
    (s.onWire o i).sent = s.sent ++ o := by
  simp [State.sent, exchanges_sent s.cs h]

theorem onWire_nil (s : State) : s.onWire [] [] = s := by ext1 <;> simp

theorem onWire_onWire (s : State) {o i : List Byte} (o' i' : List Byte) (h : o.length = i.length) :
    (s.onWire o i).onWire o' i' = s.onWire (o ++ o') (i ++ i') := by
  ext1 <;> simp [exchanges_append s.cs o' i' h, Nat.add_assoc]

theorem onWire_cons (s : State) (x y : Byte) (o i : List Byte) :
    (s.onWire [x] [y]).onWire o i = s.onWire (x :: o) (y :: i) := onWire_onWire (o := [x]) (i := [y]) s o i (by simp)

theorem onWire_filler (s : State) (y : Byte) (n : Nat) (i : List Byte) :
    (s.onWire (fillers 1) [y]).onWire (fillers n) i = s.onWire (fillers (n + 1)) (y :: i) :=
  onWire_cons s 0xFF y (fillers n) i

theorem onWire_answers_of_append {s : State} {o i rest : List Byte} (h : o.length = i.length)
    (hs : s.answers = i ++ rest) : (s.onWire o i).answers = rest := by
  simp [hs, h]

/-! ### Register writes go past the wire -/

theorem setAttempt_onWire (s : State) (k : Nat) (o i : List Byte) :
    (s.setAttempt k).onWire o i = (s.onWire o i).setAttempt k := rfl
theorem delay_onWire (s : State) (d : Nat) (o i : List Byte) :
    (s.delay d).onWire o i = (s.onWire o i).delay d := rfl
theorem setFrame_onWire (s : State) (f : BitVec 48) (o i : List Byte) :
    (s.setFrame f).onWire o i = (s.onWire o i).setFrame f := rfl
theorem setCrc7_onWire (s : State) (c : BitVec 7) (o i : List Byte) :
    (s.setCrc7 c).onWire o i = (s.onWire o i).setCrc7 c := rfl
theorem setCrc16_onWire (s : State) (c : BitVec 16) (o i : List Byte) :
    (s.setCrc16 c).onWire o i = (s.onWire o i).setCrc16 c := rfl
theorem setResp_onWire (s : State) (b : List Byte) (o i : List Byte) :
    (s.setResp b).onWire o i = (s.onWire o i).setResp b := rfl
theorem setTok_onWire (s : State) (b : Byte) (o i : List Byte) :
    (s.setTok b).onWire o i = (s.onWire o i).setTok b := rfl
theorem storeBytes_onWire (s : State) (a : Nat) (b : List Byte) (o i : List Byte) :
    (s.storeBytes a b).onWire o i = (s.onWire o i).storeBytes a b := rfl

/-! ### Any card: the bytes heard are some bytes -/

theorem xchg_eq (o : Byte) (s : State) : xchg o s = (nextAnswer s, s.onWire [o] [nextAnswer s]) := by
  simp only [xchg, Prod.mk.injEq, true_and]
  ext1 <;> simp [exchanges]

theorem send_eq (o : Byte) (s : State) : send o s = s.onWire [o] [nextAnswer s] := by
  rw [send, xchg_eq]

theorem recv_eq (s : State) : recv s = (nextAnswer s, s.onWire (fillers 1) [nextAnswer s]) := xchg_eq _ s

theorem sendBytes_any (os : List Byte) (s : State) :
    ∃ is, is.length = os.length ∧ sendBytes os s = s.onWire os is := by
  induction os generalizing s with
  | nil => exact ⟨[], rfl, (onWire_nil s).symm⟩
  | cons o os ih =>
    obtain ⟨is, hl, h⟩ := ih (send o s)
    refine ⟨nextAnswer s :: is, by simp [hl], ?_⟩
    rw [sendBytes, h, send_eq, onWire_cons]

theorem recvBytes_any (n : Nat) (s : State) :
    ∃ is, is.length = n ∧ recvBytes n s = (is, s.onWire (fillers n) is) := by
  induction n generalizing s with
  | zero => exact ⟨[], rfl, by simp [recvBytes, fillers, onWire_nil]⟩
  | succ n ih =>
    obtain ⟨is, hl, h⟩ := ih (recv s).2
    refine ⟨nextAnswer s :: is, by simp [hl], ?_⟩
    rw [recvBytes, h, recv_eq, onWire_filler]

/-- A bounded poll of any card: some bytes that do not end it, then either one that does, or the end of
the budget. -/
theorem pollFrom_any (stop : Byte → Bool) (d fuel k : Nat) (s : State) :
    (∃ miss b, (∀ x ∈ miss, stop x = false) ∧ stop b = true ∧ miss.length < fuel ∧
      pollFrom stop d fuel k s = (some b,
        ((s.onWire (fillers (miss.length + 1)) (miss ++ [b])).setAttempt (k + miss.length)).delay
          (miss.length * d))) ∨
    (∃ miss, (∀ x ∈ miss, stop x = false) ∧ miss.length = fuel ∧
      pollFrom stop d fuel k s = (none,
        ((s.onWire (fillers fuel) miss).setAttempt (if fuel = 0 then s.attempt else k + fuel - 1)).delay
          (fuel * d))) := by
  induction fuel generalizing k s with
  | zero => exact .inr ⟨[], by simp, rfl, by simp only [pollFrom, fillers, List.replicate_zero, onWire_nil]; congr 1; ext1 <;> simp⟩
  | succ fuel ih =>
    have hr : recv (s.setAttempt k) =
        (nextAnswer (s.setAttempt k), (s.setAttempt k).onWire (fillers 1) [nextAnswer (s.setAttempt k)]) :=
      recv_eq _
    generalize nextAnswer (s.setAttempt k) = b at hr
    by_cases hb : stop b = true
    · refine .inl ⟨[], b, by simp, hb, by simp, ?_⟩
      simp only [pollFrom, hr, hb, if_true]
      congr 1
      ext1 <;> simp
    · have hb' : stop b = false := by simpa using hb
      have hrec : pollFrom stop d (fuel + 1) k s =
          pollFrom stop d fuel (k + 1) (((s.setAttempt k).onWire (fillers 1) [b]).delay d) := by
        simp [pollFrom, hr, hb']
      rcases ih (k + 1) (((s.setAttempt k).onWire (fillers 1) [b]).delay d) with
        ⟨miss, c, hm, hc, hlt, h⟩ | ⟨miss, hm, hl, h⟩
      · refine .inl ⟨b :: miss, c, by simpa [hb'] using hm, hc, by simpa using hlt, ?_⟩
        rw [hrec, h]
        congr 1
        rw [delay_onWire, onWire_filler, setAttempt_onWire]
        ext1 <;> simp <;> ring
      · refine .inr ⟨b :: miss, by simpa [hb'] using hm, by simp [hl], ?_⟩
        rw [hrec, h]
        congr 1
        rw [delay_onWire, onWire_filler, setAttempt_onWire]
        ext1 <;> simp
        ring

/-! ### A scripted card -/

theorem nextAnswer_of_cons {s : State} {b : Byte} {rest : List Byte} (h : s.answers = b :: rest) :
    nextAnswer s = b := by simp [nextAnswer, h]

theorem sendBytes_of_answers {s : State} {os is rest : List Byte} (hl : os.length = is.length)
    (h : s.answers = is ++ rest) : sendBytes os s = s.onWire os is := by
  induction os generalizing s is with
  | nil =>
    obtain rfl := List.length_eq_zero_iff.1 hl.symm
    exact (onWire_nil s).symm
  | cons o os ih =>
    cases is with
    | nil => simp at hl
    | cons i is =>
      have hn : nextAnswer s = i := nextAnswer_of_cons h
      rw [sendBytes, send_eq, hn, ih (is := is) (by simpa using hl) (by simp [h]), onWire_cons]

theorem recvBytes_of_answers {s : State} {is rest : List Byte} (h : s.answers = is ++ rest) :
    recvBytes is.length s = (is, s.onWire (fillers is.length) is) := by
  induction is generalizing s with
  | nil => simp [recvBytes, fillers, onWire_nil]
  | cons i is ih =>
    have hn : nextAnswer s = i := nextAnswer_of_cons h
    rw [List.length_cons, recvBytes, recv_eq, hn, ih (by simp [h]), onWire_filler]

theorem recv_of_answers {s : State} {i : Byte} {rest : List Byte} (h : s.answers = i :: rest) :
    recv s = (i, s.onWire (fillers 1) [i]) := by
  rw [recv_eq, nextAnswer_of_cons h]

theorem pollFrom_of_answers {stop : Byte → Bool} {d fuel k : Nat} {s : State} {miss rest : List Byte}
    {b : Byte} (hm : ∀ x ∈ miss, stop x = false) (hb : stop b = true) (hl : miss.length < fuel)
    (h : s.answers = miss ++ b :: rest) :
    pollFrom stop d fuel k s = (some b,
      ((s.onWire (fillers (miss.length + 1)) (miss ++ [b])).setAttempt (k + miss.length)).delay
        (miss.length * d)) := by
  induction miss generalizing fuel k s with
  | nil =>
    obtain ⟨fuel, rfl⟩ : ∃ f, fuel = f + 1 := ⟨fuel - 1, by simp at hl; omega⟩
    have hr := recv_of_answers (s := s.setAttempt k) h
    simp only [pollFrom, hr, hb, if_true]
    congr 1
    ext1 <;> simp
  | cons x miss ih =>
    obtain ⟨fuel, rfl⟩ : ∃ f, fuel = f + 1 := ⟨fuel - 1, by simp at hl; omega⟩
    have hx : stop x = false := hm x (by simp)
    have hr := recv_of_answers (s := s.setAttempt k) (i := x) (rest := miss ++ b :: rest) h
    have hrec : pollFrom stop d (fuel + 1) k s =
        pollFrom stop d fuel (k + 1) (((s.setAttempt k).onWire (fillers 1) [x]).delay d) := by
      simp [pollFrom, hr, hx]
    rw [hrec, ih (fun y hy => hm y (by simp [hy])) (by simpa using hl) (by simp [h])]
    congr 1
    rw [delay_onWire, onWire_filler, setAttempt_onWire]
    ext1 <;> simp <;> ring

theorem pollFrom_exhausted {stop : Byte → Bool} {d fuel k : Nat} {s : State} {miss rest : List Byte}
    (hm : ∀ x ∈ miss, stop x = false) (hl : miss.length = fuel) (h : s.answers = miss ++ rest) :
    pollFrom stop d fuel k s = (none,
      ((s.onWire (fillers fuel) miss).setAttempt (if fuel = 0 then s.attempt else k + fuel - 1)).delay
        (fuel * d)) := by
  subst hl
  induction miss generalizing k s with
  | nil =>
    simp only [List.length_nil, pollFrom, fillers, List.replicate_zero, onWire_nil]
    congr 1
    ext1 <;> simp
  | cons x miss ih =>
    have hx : stop x = false := hm x (by simp)
    have hr := recv_of_answers (s := s.setAttempt k) (i := x) (rest := miss ++ rest) h
    have hrec : pollFrom stop d (miss.length + 1) k s =
        pollFrom stop d miss.length (k + 1) (((s.setAttempt k).onWire (fillers 1) [x]).delay d) := by
      simp [pollFrom, hr, hx]
    rw [List.length_cons, hrec, ih (fun y hy => hm y (by simp [hy])) (by simp [h])]
    congr 1
    rw [delay_onWire, onWire_filler, setAttempt_onWire]
    ext1 <;> simp
    ring

end Sys2Proof.Machine
end

