-- ==== Sys2Proof/Laws/Command.lean ====
section
/-!
SUPPORT. The command sender against a card that answers (`41_command_framer.md` R155-R165): what each part
of R155 leaves behind.
-/

namespace Sys2Proof.Machine

@[simp] theorem delay_zero (s : State) : s.delay 0 = s := by ext1 <;> simp

@[simp] theorem frameBytes_length (f : BitVec 48) : (frameBytes f).length = 6 := by simp [frameBytes]

@[simp] theorem Reply.bytes_length (q : Reply) : q.bytes.length = q.ignored.length + q.fill.length + 1 := by
  simp [Reply.bytes]; omega

@[simp] theorem Reply.mosi_length (app : Bool) (index : BitVec 6) (argument : BitVec 32) (q : Reply) :
    (q.mosi app index argument).length = 6 + (stuffing app index + q.fill.length + 1) := by
  simp [Reply.mosi]

theorem Reply.Heard.lengths {w : Nat} {app : Bool} {index : BitVec 6} {q : Reply}
    (h : q.Heard w (stuffing app index)) (argument : BitVec 32) :
    (q.mosi app index argument).length = q.bytes.length := by
  simp [h.1]; omega

theorem loadFrame_eq (index : BitVec 6) (argument : BitVec 32) (s : State) :
    loadFrame index argument s =
      (s.setCrc7 (crc7 (frameBody index argument))).setFrame (buildFrame index argument) := by
  rw [loadFrame]

theorem loadFrame_answers (index : BitVec 6) (argument : BitVec 32) (s : State) :
    (loadFrame index argument s).answers = s.answers := by simp [loadFrame_eq]

theorem loadFrame_frame (index : BitVec 6) (argument : BitVec 32) (s : State) :
    (loadFrame index argument s).frame = buildFrame index argument := by simp [loadFrame_eq]

/-- The spec's bit tests, kept in the form the statements use. -/
theorem isResponse_eq (b : Byte) : isResponse b = !b.getLsbD 7 := by rw [isResponse]

/-- Lines 6-8 of R155. -/
theorem sendFrame_of_answers {app : Bool} {index : BitVec 6} {argument : BitVec 32} {s : State}
    {ignored rest : List Byte} (hl : ignored.length = 6 + stuffing app index)
    (h : s.answers = ignored ++ rest) :
    sendFrame app index argument s = (loadFrame index argument s).onWire
      (frameBytes (buildFrame index argument) ++ fillers (stuffing app index)) ignored := by
  have hf := loadFrame_frame index argument s
  unfold sendFrame
  by_cases hb : dataBearing app index = true
  · simp only [stuffing, hb, if_true] at hl ⊢
    obtain ⟨x, hx⟩ : ∃ x, ignored.drop 6 = [x] := List.length_eq_one_iff.1 (by simp [hl])
    have hi : ignored = ignored.take 6 ++ [x] := by rw [← hx, List.take_append_drop]
    rw [hf, sendBytes_of_answers (is := ignored.take 6) (rest := x :: rest) (by simp [hl])
      (by rw [loadFrame_answers, h]; conv_lhs => rw [hi]
          simp)]
    rw [recv_of_answers (i := x) (rest := rest)]
    · rw [onWire_onWire _ _ _ (by simp [hl]), ← hi]
    · rw [onWire_answers_of_append (i := ignored.take 6) (by simp [hl])]
      rw [loadFrame_answers, h]; conv_lhs => rw [hi]
      simp
  · simp only [stuffing, hb, if_false, Bool.false_eq_true] at hl ⊢
    rw [hf, sendBytes_of_answers (is := ignored) (by simp [hl]) (by rw [loadFrame_answers, h])]
    simp [fillers]

/-- Lines 6-13 of R155 with a card that answers. -/
theorem pollResponse_of_reply {app : Bool} {index : BitVec 6} {argument : BitVec 32} {s : State}
    {q : Reply} {rest : List Byte} (hq : q.Heard s.params.maxWaitBytes (stuffing app index))
    (h : s.answers = q.bytes ++ rest) :
    pollResponse (sendFrame app index argument s) =
      (some q.r1, s.replied app index argument q) := by
  obtain ⟨hi, hf, hw, hr⟩ := hq
  rw [sendFrame_of_answers hi (rest := q.fill ++ q.r1 :: rest) (by simp [h, Reply.bytes])]
  unfold pollResponse poll
  rw [pollFrom_of_answers (miss := q.fill) (b := q.r1) (rest := rest)]
  · simp only [Prod.mk.injEq, true_and, Nat.mul_zero, delay_zero]
    rw [onWire_onWire _ _ _ (by simp [hi]), List.append_assoc, fillers_append, loadFrame_eq]
    ext1 <;> simp [Reply.mosi, Reply.bytes, Nat.add_assoc, Nat.add_comm 1]
  · intro x hx; rw [isResponse_eq, hf x hx]; rfl
  · rw [isResponse_eq, hr]; rfl
  · simpa [loadFrame_eq] using hw
  · rw [onWire_answers_of_append (i := q.ignored) (rest := q.fill ++ q.r1 :: rest) (by simp [hi])]
    simp [loadFrame_answers, h, Reply.bytes]

/-- The card's answers that are left after a reply. -/
theorem replied_answers {app : Bool} {index : BitVec 6} {argument : BitVec 32} {s : State}
    {q : Reply} {rest : List Byte} (hq : q.Heard s.params.maxWaitBytes (stuffing app index))
    (h : s.answers = q.bytes ++ rest) : (s.replied app index argument q).answers = rest := by
  rw [State.replied_answers, h, hq.lengths argument, List.drop_left]

/-- A command without payload (line 14 of R155). -/
theorem transact_plain {app : Bool} {index : BitVec 6} {argument : BitVec 32} {s : State}
    {q : Reply} {rest : List Byte} (hq : q.Heard s.params.maxWaitBytes (stuffing app index))
    (h : s.answers = q.bytes ++ rest) :
    transact app index argument 0 s = (⟨q.r1, none, none⟩, s.replied app index argument q) := by
  simp [transact, pollResponse_of_reply hq h, afterResponse]

/-- A command whose payload follows R1 directly (lines 15-17 of R155). -/
theorem transact_direct {app : Bool} {index : BitVec 6} {argument : BitVec 32} {s : State}
    {q : Reply} {payload rest : List Byte} (hb : dataBearing app index = false)
    (hq : q.Heard s.params.maxWaitBytes (stuffing app index)) (hp : payload ≠ [])
    (h : s.answers = q.bytes ++ (payload ++ rest)) :
    transact app index argument payload.length s =
      (⟨q.r1, some payload, none⟩, (s.replied app index argument q).captured payload) := by
  have ha := replied_answers (argument := argument) hq h
  simp [transact, pollResponse_of_reply hq h, afterResponse, hp, hb, captureDirect,
    recvBytes_of_answers ha, State.captured, State.setResp]

theorem Block.bytes_length (seed : BitVec 16) (d : Block) : (d.bytes seed).length = d.count := by
  simp [Block.bytes, Block.count]; omega

theorem crc16_trailer (c : BitVec 16) : fromBe (beBytes 2 c.toNat) = c.toNat :=
  fromBe_beBytes_of_lt (by simpa using c.isLt)

/-- Lines 19-27 of R155 with a card that sends a block. -/
theorem captureData_of_block {r1 : Byte} {s : State} {d : Block} {rest : List Byte}
    (hw : d.wait < s.params.maxWaitBytes) (h : s.answers = d.bytes s.params.crc16Seed ++ rest) :
    captureData r1 d.payload.length s = (⟨r1, some d.payload, none⟩, s.capturedBlock d) := by
  have h1 : s.answers = fillers d.wait ++ tokenStartByte ::
      (d.payload ++ (beBytes 2 (crc16 s.params.crc16Seed d.payload).toNat ++ rest)) := by
    simp [h, Block.bytes]
  have hp : pollTokenShort s = (some tokenStartByte,
      (s.onWire (fillers (d.wait + 1)) (fillers d.wait ++ [tokenStartByte])).setAttempt (d.wait + 1)) := by
    unfold pollTokenShort poll
    rw [pollFrom_of_answers (miss := fillers d.wait) (b := tokenStartByte) _ (by decide) (by simpa using hw) h1]
    · simp [Nat.add_comm]
    · intro x hx
      simp only [fillers, List.mem_replicate] at hx
      simp [isToken, hx.2]
  simp only [captureData, hp, if_true, captureBlock]
  have hdrop : ∀ n, List.drop (d.wait + 1 + n) (fillers d.wait ++ tokenStartByte ::
      (d.payload ++ (beBytes 2 (crc16 s.params.crc16Seed d.payload).toNat ++ rest))) =
      List.drop n (d.payload ++ (beBytes 2 (crc16 s.params.crc16Seed d.payload).toNat ++ rest)) := by
    intro n
    rw [List.drop_append, fillers_length, List.drop_of_length_le (by simp; omega),
      show d.wait + 1 + n - d.wait = n + 1 by omega]
    rfl
  have h2 : (((s.onWire (fillers (d.wait + 1)) (fillers d.wait ++ [tokenStartByte])).setAttempt
      (d.wait + 1)).setTok tokenStartByte).answers =
      d.payload ++ (beBytes 2 (crc16 s.params.crc16Seed d.payload).toNat ++ rest) := by
    simpa [h1] using hdrop 0
  rw [recvBytes_of_answers h2]
  simp only
  have h3 : (((((s.onWire (fillers (d.wait + 1)) (fillers d.wait ++ [tokenStartByte])).setAttempt
      (d.wait + 1)).setTok tokenStartByte).onWire (fillers d.payload.length) d.payload).setResp
      d.payload).answers = beBytes 2 (crc16 s.params.crc16Seed d.payload).toNat ++ rest := by
    simp [h1, hdrop]
  have h4 := recvBytes_of_answers h3
  rw [beBytes_length] at h4
  rw [h4]
  simp only [State.setTok_params, State.setAttempt_params, State.onWire_params, crc16_trailer, if_true]
  simp only [Prod.mk.injEq, true_and, setAttempt_onWire, setTok_onWire, setResp_onWire]
  rw [onWire_onWire _ _ _ (by simp), onWire_onWire _ _ _ (by simp)]
  have e1 : fillers (d.wait + 1) ++ (fillers d.payload.length ++ fillers 2) = fillers d.count := by
    rw [fillers_append, fillers_append, Block.count]; congr 1
  have e2 : fillers d.wait ++ [tokenStartByte] ++ (d.payload ++
      beBytes 2 (crc16 s.params.crc16Seed d.payload).toNat) = d.bytes s.params.crc16Seed := by
    simp [Block.bytes]
  rw [e1, e2]
  ext1 <;> simp

/-- A data-bearing command with its block (lines 18-27 of R155). -/
theorem transact_block {app : Bool} {index : BitVec 6} {argument : BitVec 32} {s : State}
    {q : Reply} {d : Block} {rest : List Byte} (hb : dataBearing app index = true)
    (hq : q.Heard s.params.maxWaitBytes (stuffing app index)) (hr : q.r1 = 0) (hp : d.payload ≠ [])
    (hw : d.wait < s.params.maxWaitBytes)
    (h : s.answers = q.bytes ++ (d.bytes s.params.crc16Seed ++ rest)) :
    transact app index argument d.payload.length s =
      (⟨0, some d.payload, none⟩, (s.replied app index argument q).capturedBlock d) := by
  have ha := replied_answers (argument := argument) hq h
  simp only [transact, pollResponse_of_reply hq h, afterResponse, List.length_eq_zero_iff, hp, if_false, hb,
    Bool.not_true, hr, ne_eq, not_true_eq_false, Bool.false_eq_true]
  exact captureData_of_block (s := s.replied app index argument q) (by simpa using hw) (by simpa using ha)

/-- An ordinary command code is one transaction. -/
theorem sendCommand_plain {cmd : Byte} (h6 : cmd.getLsbD 6 = false) (h7 : cmd.getLsbD 7 = false)
    (argument : BitVec 32) (n : Nat) (s : State) :
    sendCommand cmd argument n s = transact false (cmdIndex cmd) argument n s := by
  simp [-BitVec.getLsbD_eq_getElem, sendCommand, cmdRefused, cmdApp, h6, h7]

/-- An application command whose CMD55 is accepted is its second transaction (R156). -/
theorem sendCommand_app {cmd : Byte} (h6 : cmd.getLsbD 6 = false) (h7 : cmd.getLsbD 7 = true)
    (argument : BitVec 32) (n : Nat) {s : State} {p : Reply} {rest : List Byte}
    (hp : p.Heard s.params.maxWaitBytes 0) (hr : p.r1.toNat ≤ 1) (h : s.answers = p.bytes ++ rest) :
    sendCommand cmd argument n s =
      transact true (cmdIndex cmd) argument n (s.replied false 55 0 p) := by
  have ht := transact_plain (app := false) (index := 55) (argument := 0) hp h
  simp only [sendCommand, cmdRefused, cmdApp, h6, h7, ht, noError, hr, decide_true, if_true,
    Bool.false_eq_true, if_false]

/-- An application command whose CMD55 is rejected ends there (R156). -/
theorem sendCommand_app_rejected {cmd : Byte} (h6 : cmd.getLsbD 6 = false) (h7 : cmd.getLsbD 7 = true)
    (argument : BitVec 32) (n : Nat) {s : State} {p : Reply} {rest : List Byte}
    (hp : p.Heard s.params.maxWaitBytes 0) (hr : 1 < p.r1.toNat) (h : s.answers = p.bytes ++ rest) :
    sendCommand cmd argument n s =
      (⟨p.r1, none, some .protocolRejection⟩, s.replied false 55 0 p) := by
  have : ¬ p.r1.toNat ≤ 1 := by omega
  have ht := transact_plain (app := false) (index := 55) (argument := 0) hp h
  simp only [sendCommand, cmdRefused, cmdApp, h6, h7, ht, noError, this, decide_false, if_true,
    Bool.false_eq_true, if_false, CmdOut.failClass, Option.getD_none]

/-- A code with bit 6 set (`30_encoding.md` R121). -/
theorem sendCommand_refused {cmd : Byte} (h6 : cmd.getLsbD 6 = true) (argument : BitVec 32) (n : Nat)
    (s : State) : sendCommand cmd argument n s = (⟨s.params.errSentinel, none, some .refused⟩, s) := by
  simp [-BitVec.getLsbD_eq_getElem, sendCommand, cmdRefused, h6, sentinelOut]

end Sys2Proof.Machine
end

