-- ==== Sys2Proof/Laws/Memory.lean ====
section
/-!
SUPPORT. The host block buffer: reads after writes, and every write keeps the canonical form.
-/

namespace Sys2Proof.Machine

namespace Memory

@[simp] theorem read_nil (a : Nat) : read [] a = blank := rfl

theorem read_cons (b : Nat) (v : Byte) (m : Memory) (a : Nat) :
    read ((b, v) :: m) a = if a = b then v else read m a := rfl

theorem wfFrom_cons (low a : Nat) (v : Byte) (m : Memory) :
    wfFrom low ((a, v) :: m) = true ↔ low ≤ a ∧ v ≠ blank ∧ wfFrom (a + 1) m = true := by
  simp [wfFrom, and_assoc]

theorem wfFrom_mono {low low' : Nat} {m : Memory} (h : low' ≤ low) (hm : wfFrom low m = true) :
    wfFrom low' m = true := by
  cases m with
  | nil => rfl
  | cons c m =>
    obtain ⟨a, v⟩ := c
    rw [wfFrom_cons] at hm ⊢
    exact ⟨by omega, hm.2⟩

/-- Below its least address a canonical buffer reads as blank. -/
theorem read_below {low : Nat} {m : Memory} (hm : wfFrom low m = true) {a : Nat} (h : a < low) :
    read m a = blank := by
  induction m generalizing low with
  | nil => rfl
  | cons c m ih =>
    obtain ⟨b, v⟩ := c
    rw [wfFrom_cons] at hm
    rw [read_cons, if_neg (by omega)]
    exact ih hm.2.2 (by omega)

theorem wfFrom_put {low a : Nat} {m : Memory} (v : Byte) (h : low ≤ a)
    (hm : wfFrom (a + 1) m = true) : wfFrom low (put a v m) = true := by
  unfold put
  split
  · exact wfFrom_mono (by omega) hm
  · rename_i hv
    exact (wfFrom_cons ..).2 ⟨h, hv, hm⟩

theorem wfFrom_write {low a : Nat} {m : Memory} (v : Byte) (h : low ≤ a) (hm : wfFrom low m = true) :
    wfFrom low (write m a v) = true := by
  induction m generalizing low with
  | nil => exact wfFrom_put v h rfl
  | cons c m ih =>
    obtain ⟨b, w⟩ := c
    have hm' := (wfFrom_cons ..).1 hm
    unfold write
    split
    · exact wfFrom_put v h ((wfFrom_cons ..).2 ⟨by omega, hm'.2⟩)
    · split
      · rename_i hab
        subst hab
        exact wfFrom_put v h hm'.2.2
      · exact (wfFrom_cons ..).2 ⟨hm'.1, hm'.2.1, ih (by omega) hm'.2.2⟩

/-- Writing one byte keeps the canonical form. -/
theorem write_wf {m : Memory} (hm : m.wf = true) (a : Nat) (v : Byte) : (m.write a v).wf = true :=
  wfFrom_write v (Nat.zero_le _) hm

theorem read_put {low : Nat} {m : Memory} (a : Nat) (v : Byte) (hm : wfFrom low m = true) (h : a < low) :
    read (put a v m) a = v := by
  unfold put
  split
  · rename_i hv
    rw [hv, read_below hm h]
  · simp [read_cons]

/-- In a canonical buffer a byte reads as it was written. -/
theorem read_write_same {m : Memory} (hm : m.wf = true) (a : Nat) (v : Byte) : (m.write a v).read a = v := by
  suffices h : ∀ low, wfFrom low m = true → read (write m a v) a = v from h 0 hm
  clear hm
  induction m with
  | nil => exact fun _ _ => read_put (low := a + 1) a v rfl (by omega)
  | cons c m ih =>
    obtain ⟨b, w⟩ := c
    intro low hm
    have hm' := (wfFrom_cons ..).1 hm
    unfold write
    split
    · exact read_put (low := a + 1) a v ((wfFrom_cons ..).2 ⟨by omega, hm'.2⟩) (by omega)
    · split
      · rename_i hab
        subst hab
        exact read_put (low := a + 1) a v hm'.2.2 (by omega)
      · rename_i hab
        rw [read_cons, if_neg hab]
        exact ih _ hm'.2.2

theorem read_put_other {m : Memory} {a c : Nat} (v : Byte) (h : c ≠ a) : read (put a v m) c = read m c := by
  unfold put
  split
  · rfl
  · rw [read_cons, if_neg h]

/-- A write leaves every other byte alone, whatever the buffer. -/
theorem read_write_other (m : Memory) {a c : Nat} (v : Byte) (h : c ≠ a) :
    (m.write a v).read c = m.read c := by
  induction m with
  | nil => exact read_put_other v h
  | cons x m ih =>
    obtain ⟨b, w⟩ := x
    unfold write
    split
    · exact read_put_other v h
    · split
      · rename_i hab
        subst hab
        rw [read_put_other v h, read_cons, if_neg h]
      · rw [read_cons, read_cons, ih]

@[simp] theorem readBytes_length (m : Memory) (a n : Nat) : (m.readBytes a n).length = n := by
  induction n generalizing a with
  | zero => rfl
  | succ n ih => simp [readBytes, ih]

theorem readBytes_getElem? (m : Memory) (a n k : Nat) (h : k < n) :
    (m.readBytes a n)[k]? = some (m.read (a + k)) := by
  induction n generalizing a k with
  | zero => omega
  | succ n ih =>
    cases k with
    | zero => simp [readBytes]
    | succ k =>
      simp only [readBytes, List.getElem?_cons_succ]
      rw [ih (a + 1) k (by omega)]
      congr 2
      omega

theorem readBytes_append (m : Memory) (a n k : Nat) :
    m.readBytes a (n + k) = m.readBytes a n ++ m.readBytes (a + n) k := by
  induction n generalizing a with
  | zero => simp [readBytes]
  | succ n ih =>
    rw [Nat.succ_add]
    simp only [readBytes, List.cons_append, ih]
    congr 3
    omega

theorem readBytes_congr {m m' : Memory} {a n : Nat}
    (h : ∀ c, a ≤ c → c < a + n → m.read c = m'.read c) : m.readBytes a n = m'.readBytes a n := by
  induction n generalizing a with
  | zero => rfl
  | succ n ih =>
    simp only [readBytes]
    rw [h a (by omega) (by omega), ih (fun c h1 h2 => h c (by omega) (by omega))]

/-- Writing a byte string keeps the canonical form. -/
theorem writeBytes_wf {m : Memory} (hm : m.wf = true) (a : Nat) (bytes : List Byte) :
    (m.writeBytes a bytes).wf = true := by
  induction bytes generalizing m a with
  | nil => exact hm
  | cons v vs ih => exact ih (write_wf hm a v) (a + 1)

/-- Outside the bytes written every byte reads as before, whatever the buffer. -/
theorem read_writeBytes_outside (m : Memory) (a : Nat) (bytes : List Byte) {c : Nat}
    (h : c < a ∨ a + bytes.length ≤ c) : (m.writeBytes a bytes).read c = m.read c := by
  induction bytes generalizing m a with
  | nil => rfl
  | cons v vs ih =>
    simp only [List.length_cons] at h
    simp only [writeBytes]
    rw [ih (m.write a v) (a + 1) (by omega), read_write_other m v (by omega)]

/-- In a canonical buffer the bytes written read back. -/
theorem readBytes_writeBytes {m : Memory} (hm : m.wf = true) (a : Nat) (bytes : List Byte) :
    (m.writeBytes a bytes).readBytes a bytes.length = bytes := by
  induction bytes generalizing m a with
  | nil => rfl
  | cons v vs ih =>
    simp only [List.length_cons, readBytes, writeBytes]
    rw [ih (write_wf hm a v), read_writeBytes_outside _ _ _ (by omega), read_write_same hm]

/-- Outside the bytes written a byte string reads as before. -/
theorem readBytes_writeBytes_outside (m : Memory) (a : Nat) (bytes : List Byte) {c n : Nat}
    (h : c + n ≤ a ∨ a + bytes.length ≤ c) :
    (m.writeBytes a bytes).readBytes c n = m.readBytes c n :=
  readBytes_congr (fun d _ _ => read_writeBytes_outside m a bytes (by omega))

theorem read_writeBytes_inside {m : Memory} (hm : m.wf = true) (a : Nat) (bytes : List Byte) {k : Nat}
    (h : k < bytes.length) : (m.writeBytes a bytes).read (a + k) = bytes[k] := by
  have h1 := readBytes_getElem? (m.writeBytes a bytes) a bytes.length k h
  rw [readBytes_writeBytes hm] at h1
  rw [List.getElem?_eq_getElem h] at h1
  exact (Option.some.inj h1).symm

end Memory

end Sys2Proof.Machine
end

