-- ==== Sys2Proof/Laws/Transceiver.lean ====
section
/-!
SUPPORT. The Data Block Transceiver against a card that answers (`43_data_block.md` R200-R215), and the
outcomes it has against any card.
-/

namespace Sys2Proof.Machine

@[simp] theorem readyBytes_length (busy : List Byte) : (readyBytes busy).length = busy.length + 1 := by
  simp [readyBytes]

/-- A ready wait that ends (R200). -/
theorem waitReady_of_answers {s : State} {busy rest : List Byte} (hb : ∀ b ∈ busy, b ≠ 0xFF)
    (hl : busy.length < s.params.readyWaitSteps) (h : s.answers = readyBytes busy ++ rest) :
    waitReady s = (true, s.waited busy) := by
  have hp := pollFrom_of_answers (stop := isCardReady) (d := s.params.readyWaitDelayUs) (k := 1)
    (s := s) (miss := busy) (b := 0xFF) (rest := rest)
    (fun x hx => by simpa [isCardReady] using hb x hx) (by decide) hl (by simp [h, readyBytes])
  simp only [waitReady, poll, hp, Option.isSome_some, Prod.mk.injEq, true_and]
  ext1 <;> simp [readyBytes, Nat.add_comm 1]

/-- A ready wait that runs out (R200). -/
theorem waitReady_exhausted {s : State} {busy rest : List Byte} (hb : ∀ b ∈ busy, b ≠ 0xFF)
    (hl : busy.length = s.params.readyWaitSteps) (h : s.answers = busy ++ rest) :
    waitReady s = (false, s.stillBusy busy) := by
  have hp := pollFrom_exhausted (stop := isCardReady) (d := s.params.readyWaitDelayUs) (k := 1)
    (s := s) (miss := busy) (rest := rest) (fun x hx => by simpa [isCardReady] using hb x hx) hl h
  rw [← hl] at hp
  simp only [waitReady, poll, ← hl, hp, Option.isSome_none, Prod.mk.injEq, true_and, List.length_eq_zero_iff]
  ext1 <;> simp

/-- The answers left after a ready wait that ran out. -/
theorem stillBusy_answers {s : State} {busy rest : List Byte} (h : s.answers = busy ++ rest) :
    (s.stillBusy busy).answers = rest := by simp [h]

theorem waited_answers {s : State} {busy rest : List Byte} (h : s.answers = readyBytes busy ++ rest) :
    (s.waited busy).answers = rest := by
  rw [State.waited_answers, h, fillers_length, ← readyBytes_length, List.drop_left]

theorem blockHeard_answers {s : State} {d : Block} {rest : List Byte}
    (h : s.answers = d.bytes s.params.crc16Seed ++ rest) : (s.blockHeard d).answers = rest := by
  rw [State.blockHeard_answers, h, fillers_length, ← Block.bytes_length s.params.crc16Seed, List.drop_left]

/-- A block received (R204). -/
theorem receiveBlock_of_block {s : State} {offset : Nat} {d : Block} {rest : List Byte}
    (hw : d.wait < s.params.tokenWaitSteps) (h : s.answers = d.bytes s.params.crc16Seed ++ rest) :
    receiveBlock offset d.payload.length s = (none, s.received offset d) := by
  have h1 : s.answers = fillers d.wait ++ tokenStartByte ::
      (d.payload ++ (beBytes 2 (crc16 s.params.crc16Seed d.payload).toNat ++ rest)) := by
    simp [h, Block.bytes]
  have hp := pollFrom_of_answers (stop := isToken) (d := s.params.tokenWaitDelayUs) (k := 1) (s := s)
    (fun x hx => by
      simp only [fillers, List.mem_replicate] at hx
      simp [isToken, hx.2]) (by decide) (by simpa using hw) h1
  rw [fillers_length] at hp
  simp only [receiveBlock, pollTokenLong, poll, hp, if_true, receivePayload]
  have hdrop : ∀ n, List.drop (d.wait + 1 + n) s.answers =
      List.drop n (d.payload ++ (beBytes 2 (crc16 s.params.crc16Seed d.payload).toNat ++ rest)) := by
    intro n
    rw [h1, List.drop_append, fillers_length, List.drop_of_length_le (by simp; omega),
      show d.wait + 1 + n - d.wait = n + 1 by omega]
    rfl
  rw [recvBytes_of_answers (is := d.payload)
    (rest := beBytes 2 (crc16 s.params.crc16Seed d.payload).toNat ++ rest) (by simpa using hdrop 0)]
  have h4 := recvBytes_of_answers (s := ((((s.onWire (fillers (d.wait + 1))
    (fillers d.wait ++ [tokenStartByte])).setAttempt (1 + d.wait)).delay
    (d.wait * s.params.tokenWaitDelayUs)).setTok tokenStartByte).onWire (fillers d.payload.length) d.payload)
    (is := beBytes 2 (crc16 s.params.crc16Seed d.payload).toNat) (rest := rest) (by simp [hdrop])
  rw [beBytes_length] at h4
  rw [h4]
  simp only [State.setTok_params, State.delay_params, State.setAttempt_params, State.onWire_params,
    crc16_trailer, if_true, Prod.mk.injEq, true_and, setAttempt_onWire, setTok_onWire, delay_onWire]
  rw [onWire_onWire _ _ _ (by simp), onWire_onWire _ _ _ (by simp)]
  have e1 : fillers (d.wait + 1) ++ (fillers d.payload.length ++ fillers 2) = fillers d.count := by
    rw [fillers_append, fillers_append, Block.count]; congr 1
  have e2 : fillers d.wait ++ [tokenStartByte] ++ (d.payload ++
      beBytes 2 (crc16 s.params.crc16Seed d.payload).toNat) = d.bytes s.params.crc16Seed := by
    simp [Block.bytes]
  rw [e1, e2]
  ext1 <;> simp [Nat.add_comm 1]

theorem send_of_answers {s : State} {o i : Byte} {rest : List Byte} (h : s.answers = i :: rest) :
    send o s = s.onWire [o] [i] := by
  rw [send_eq, nextAnswer_of_cons h]

/-- A token sent to a card that becomes ready (R210, R211). -/
theorem sendToken_of_answers {s : State} {token x : Byte} {busy rest : List Byte}
    (hb : ∀ b ∈ busy, b ≠ 0xFF) (hl : busy.length < s.params.readyWaitSteps)
    (h : s.answers = readyBytes busy ++ x :: rest) :
    sendToken token s = (none, (s.waited busy).onWire [token] [x]) := by
  simp only [sendToken, waitReady_of_answers hb hl h, if_true]
  rw [send_of_answers (waited_answers h)]

theorem blockMosi_length (seed : BitVec 16) (token : Byte) (payload : List Byte) :
    (blockMosi seed token payload).length = payload.length + 4 := by
  simp [blockMosi]

/-- A block sent to a card that becomes ready (R210). -/
theorem transmitFrame_of_answers {s : State} {token : Byte} {payload busy ignored rest : List Byte}
    {resp : Byte} (ht : token ≠ tokenStopTranByte) (hb : ∀ b ∈ busy, b ≠ 0xFF)
    (hl : busy.length < s.params.readyWaitSteps) (hi : ignored.length = payload.length + 3)
    (h : s.answers = readyBytes busy ++ (ignored ++ resp :: rest)) :
    transmitFrame token payload s =
      (if isAccepted resp then none else some .protocolRejection,
        s.transmitted token payload busy ignored resp) := by
  obtain ⟨x, xs, rfl⟩ : ∃ x xs, ignored = x :: xs := by
    cases ignored with
    | nil => simp at hi
    | cons x xs => exact ⟨x, xs, rfl⟩
  rw [transmitFrame, sendToken_of_answers (x := x) (rest := xs ++ resp :: rest) hb hl (by simpa using h)]
  simp only [ht, if_false, sendPayload, State.onWire_params, State.waited_params]
  have hw := waited_answers h
  rw [sendBytes_of_answers (is := xs) (rest := resp :: rest) (by simp at hi ⊢; omega)
    (by simp [hw, -State.waited_answers])]
  have h5 : ((((s.waited busy).onWire [token] [x]).setCrc16 (crc16 s.params.crc16Seed payload)).onWire
      (payload ++ beBytes 2 (crc16 s.params.crc16Seed payload).toNat) xs).answers = resp :: rest := by
    have : payload.length + 2 = xs.length := by simp at hi; omega
    simp [hw, -State.waited_answers, this]
  rw [recv_of_answers h5]
  simp only [Prod.mk.injEq, true_and, setCrc16_onWire]
  rw [onWire_cons, onWire_onWire _ _ _ (by simp at hi ⊢; omega)]
  ext1 <;> simp [blockMosi]

/-- The stop token (R210, R214). -/
theorem transmitFrame_stop {s : State} {x : Byte} {payload busy rest : List Byte}
    (hb : ∀ b ∈ busy, b ≠ 0xFF) (hl : busy.length < s.params.readyWaitSteps)
    (h : s.answers = readyBytes busy ++ x :: rest) :
    transmitFrame tokenStopTranByte payload s =
      (none, (s.waited busy).onWire [tokenStopTranByte] [x]) := by
  simp [transmitFrame, sendToken_of_answers hb hl h]

end Sys2Proof.Machine
end

