-- ==== Sys2Proof/Laws/Ran.lean ====
section
/-!
SUPPORT. What the bus activity of a unit can change, whatever the card answers: one lemma an operation,
with the bound on its exchanges (`41_command_framer.md` R167, `43_data_block.md` R216).
-/

namespace Sys2Proof.Machine

/-! ### The wire only grows -/

theorem Grows.refl (s : State) : Grows 0 s s := ⟨[], by simp⟩

theorem Grows.trans {m n : Nat} {s t u : State} (h : Grows m s t) (k : Grows n t u) (hc : t.cs = s.cs) :
    Grows (m + n) s u := by
  obtain ⟨a, ha, hla, hca, hsa, hea⟩ := h
  obtain ⟨b, hb, hlb, hcb, hsb, heb⟩ := k
  refine ⟨b ++ a, by rw [hb, ha, List.append_assoc], by simp; omega, by simp [hcb, hca]; omega, ?_, ?_⟩
  · rw [hsb, hsa, List.drop_drop]
    simp [Nat.add_comm]
  · intro e he
    rcases List.mem_append.1 he with h | h
    · rw [heb e h, hc]
    · exact hea e h

theorem Grows.mono {m n : Nat} {s t : State} (h : Grows m s t) (k : m ≤ n) : Grows n s t := by
  obtain ⟨a, ha, hl, r⟩ := h
  exact ⟨a, ha, by omega, r⟩

theorem exchanges_cs (cs : ChipSelect) (o i : List Byte) : ∀ e ∈ exchanges cs o i, e.cs = cs := by
  intro e he
  simp only [exchanges, List.mem_reverse] at he
  induction o generalizing i with
  | nil => simp at he
  | cons x o ih =>
    cases i with
    | nil => simp at he
    | cons y i =>
      rcases List.mem_cons.1 he with rfl | h
      · rfl
      · exact ih i h

theorem Grows.onWire (s : State) {o i : List Byte} (h : o.length = i.length) :
    Grows o.length s (s.onWire o i) :=
  ⟨exchanges s.cs o i, by simp, by simp [h], by simp [h], by simp [h], exchanges_cs s.cs o i⟩

/-! ### Bus activity -/

/-- Bus activity of the Framer or of a transmission, of at most `n` exchanges: it may have written the
transient storage and nothing else. -/
structure Ran (n : Nat) (s t : State) : Prop where
  host      : SameHost s t
  session   : SameSession s t
  control   : SameControl s t
  buf       : t.buf = s.buf
  freeCount : t.freeCount = s.freeCount
  grows     : Grows n s t

theorem Ran.refl (s : State) : Ran 0 s s :=
  ⟨⟨rfl, rfl⟩, ⟨rfl, rfl, rfl, rfl, rfl⟩, ⟨rfl, rfl, rfl, rfl, rfl, rfl, rfl⟩, rfl, rfl, Grows.refl s⟩

theorem SameHost.trans {s t u : State} (h : SameHost s t) (k : SameHost t u) : SameHost s u :=
  ⟨k.1.trans h.1, k.2.trans h.2⟩

theorem SameSession.trans {s t u : State} (h : SameSession s t) (k : SameSession t u) : SameSession s u :=
  ⟨k.1.trans h.1, k.2.trans h.2, k.3.trans h.3, k.4.trans h.4, k.5.trans h.5⟩

theorem SameControl.trans {s t u : State} (h : SameControl s t) (k : SameControl t u) : SameControl s u :=
  ⟨k.1.trans h.1, k.2.trans h.2, k.3.trans h.3, k.4.trans h.4, k.5.trans h.5, k.6.trans h.6, k.7.trans h.7⟩

theorem Ran.trans {m n : Nat} {s t u : State} (h : Ran m s t) (k : Ran n t u) : Ran (m + n) s u :=
  ⟨h.host.trans k.host, h.session.trans k.session, h.control.trans k.control, k.buf.trans h.buf,
    k.freeCount.trans h.freeCount, h.grows.trans k.grows h.control.cs⟩

theorem Ran.mono {m n : Nat} {s t : State} (h : Ran m s t) (k : m ≤ n) : Ran n s t :=
  ⟨h.host, h.session, h.control, h.buf, h.freeCount, h.grows.mono k⟩

theorem Ran.onWire (s : State) {o i : List Byte} (h : o.length = i.length) :
    Ran o.length s (s.onWire o i) :=
  ⟨⟨by simp, by simp⟩, ⟨by simp, by simp, by simp, by simp, by simp⟩,
    ⟨by simp, by simp, by simp, by simp, by simp, by simp, by simp⟩, by simp, by simp, Grows.onWire s h⟩

/-- A write of transient storage is no bus activity and changes nothing else. -/
theorem Ran.of_fields {s t : State} (h1 : t.params = s.params) (h2 : t.requests = s.requests)
    (h3 : SameSession s t) (h4 : SameControl s t) (h5 : t.buf = s.buf) (h6 : t.freeCount = s.freeCount)
    (h7 : t.answers = s.answers) (h8 : t.trace = s.trace) (h9 : t.xchgCount = s.xchgCount) : Ran 0 s t :=
  ⟨⟨h1, h2⟩, h3, h4, h5, h6, ⟨[], by simp [h8], by simp, by simp [h9], by simp [h7]⟩⟩

theorem Ran.setAttempt (s : State) (k : Nat) : Ran 0 s (s.setAttempt k) :=
  .of_fields (by simp) (by simp) ⟨by simp, by simp, by simp, by simp, by simp⟩
    ⟨by simp, by simp, by simp, by simp, by simp, by simp, by simp⟩ (by simp) (by simp) (by simp) (by simp) (by simp)

theorem Ran.delay (s : State) (k : Nat) : Ran 0 s (s.delay k) :=
  .of_fields (by simp) (by simp) ⟨by simp, by simp, by simp, by simp, by simp⟩
    ⟨by simp, by simp, by simp, by simp, by simp, by simp, by simp⟩ (by simp) (by simp) (by simp) (by simp) (by simp)

theorem Ran.setFrame (s : State) (f : BitVec 48) : Ran 0 s (s.setFrame f) :=
  .of_fields (by simp) (by simp) ⟨by simp, by simp, by simp, by simp, by simp⟩
    ⟨by simp, by simp, by simp, by simp, by simp, by simp, by simp⟩ (by simp) (by simp) (by simp) (by simp) (by simp)

theorem Ran.setCrc7 (s : State) (c : BitVec 7) : Ran 0 s (s.setCrc7 c) :=
  .of_fields (by simp) (by simp) ⟨by simp, by simp, by simp, by simp, by simp⟩
    ⟨by simp, by simp, by simp, by simp, by simp, by simp, by simp⟩ (by simp) (by simp) (by simp) (by simp) (by simp)

theorem Ran.setCrc16 (s : State) (c : BitVec 16) : Ran 0 s (s.setCrc16 c) :=
  .of_fields (by simp) (by simp) ⟨by simp, by simp, by simp, by simp, by simp⟩
    ⟨by simp, by simp, by simp, by simp, by simp, by simp, by simp⟩ (by simp) (by simp) (by simp) (by simp) (by simp)

theorem Ran.setResp (s : State) (b : List Byte) : Ran 0 s (s.setResp b) :=
  .of_fields (by simp) (by simp) ⟨by simp, by simp, by simp, by simp, by simp⟩
    ⟨by simp, by simp, by simp, by simp, by simp, by simp, by simp⟩ (by simp) (by simp) (by simp) (by simp) (by simp)

theorem Ran.setTok (s : State) (b : Byte) : Ran 0 s (s.setTok b) :=
  .of_fields (by simp) (by simp) ⟨by simp, by simp, by simp, by simp, by simp⟩
    ⟨by simp, by simp, by simp, by simp, by simp, by simp, by simp⟩ (by simp) (by simp) (by simp) (by simp) (by simp)

theorem Ran.finish (s : State) (v : Result) (c : Option ErrorClass) : Ran 0 s (s.finish v c) :=
  .of_fields (by simp) (by simp) ⟨by simp, by simp, by simp, by simp, by simp⟩
    ⟨by simp, by simp, by simp, by simp, by simp, by simp, by simp⟩ (by simp) (by simp) (by simp) (by simp) (by simp)

theorem Ran.refuse (s : State) : Ran 0 s s.refuse := Ran.finish s _ _

theorem sendBytes_ran (os : List Byte) (s : State) : Ran os.length s (sendBytes os s) := by
  obtain ⟨is, hl, h⟩ := sendBytes_any os s
  rw [h]; exact Ran.onWire s hl.symm

theorem recvBytes_ran (n : Nat) (s : State) : Ran n s (recvBytes n s).2 := by
  obtain ⟨is, hl, h⟩ := recvBytes_any n s
  have := Ran.onWire s (o := fillers n) (i := is) (by simp [hl])
  rw [h]; simpa using this

theorem recv_ran (s : State) : Ran 1 s (recv s).2 := by
  rw [recv_eq]; exact Ran.onWire (o := fillers 1) (i := [nextAnswer s]) s (by simp)

theorem send_ran (o : Byte) (s : State) : Ran 1 s (send o s) := by
  rw [send_eq]; exact Ran.onWire (o := [o]) (i := [nextAnswer s]) s (by simp)

theorem pollFrom_ran (stop : Byte → Bool) (d fuel k : Nat) (s : State) :
    Ran fuel s (pollFrom stop d fuel k s).2 := by
  rcases pollFrom_any stop d fuel k s with ⟨miss, b, _, _, hlt, h⟩ | ⟨miss, _, hl, h⟩
  · rw [h]
    have h1 := Ran.onWire s (o := fillers (miss.length + 1)) (i := miss ++ [b]) (by simp)
    exact ((h1.trans (Ran.setAttempt _ _)).trans (Ran.delay _ _)).mono (by simp; omega)
  · rw [h]
    have h1 := Ran.onWire s (o := fillers fuel) (i := miss) (by simp [hl])
    exact ((h1.trans (Ran.setAttempt _ _)).trans (Ran.delay _ _)).mono (by simp)

/-- A poll that ends with a byte took at least one exchange. -/
theorem poll_ran (stop : Byte → Bool) (d n : Nat) (s : State) : Ran n s (poll stop d n s).2 :=
  pollFrom_ran stop d n 1 s

/-- What a poll returns is a byte that ends it. -/
theorem poll_stop {stop : Byte → Bool} {d n : Nat} {s t : State} {b : Byte}
    (h : poll stop d n s = (some b, t)) : stop b = true := by
  rcases pollFrom_any stop d n 1 s with ⟨miss, c, _, hc, _, h'⟩ | ⟨miss, _, _, h'⟩
  · rw [poll, h'] at h
    obtain rfl : c = b := by simpa using (Prod.mk.inj h).1
    exact hc
  · rw [poll, h'] at h
    cases (Prod.mk.inj h).1

theorem loadFrame_ran (index : BitVec 6) (argument : BitVec 32) (s : State) :
    Ran 0 s (loadFrame index argument s) := by
  rw [loadFrame_eq]; exact (Ran.setCrc7 _ _).trans (Ran.setFrame _ _)

theorem sendFrame_ran (app : Bool) (index : BitVec 6) (argument : BitVec 32) (s : State) :
    Ran (6 + stuffing app index) s (sendFrame app index argument s) := by
  unfold sendFrame stuffing
  have h := (loadFrame_ran index argument s).trans (sendBytes_ran
    (frameBytes (loadFrame index argument s).frame) (loadFrame index argument s))
  rw [frameBytes_length] at h
  split
  · exact (h.trans (recv_ran _)).mono (by omega)
  · exact h.mono (by omega)

theorem captureDirect_ran (r1 : Byte) (n : Nat) (s : State) : Ran n s (captureDirect r1 n s).2 :=
  (recvBytes_ran n s).trans (Ran.setResp _ _)

theorem captureBlock_ran (r1 : Byte) (n : Nat) (s : State) : Ran (n + 2) s (captureBlock r1 n s).2 := by
  have h := (((recvBytes_ran n s).trans (Ran.setResp _ (recvBytes n s).1)).trans
    (recvBytes_ran 2 _)).trans (Ran.setCrc16 _ (crc16 s.params.crc16Seed (recvBytes n s).1))
  unfold captureBlock
  simp only
  split
  · exact h
  · exact h

theorem captureData_ran (r1 : Byte) (n : Nat) (s : State) :
    Ran (s.params.maxWaitBytes + (n + 2)) s (captureData r1 n s).2 := by
  have hp := poll_ran isToken 0 s.params.maxWaitBytes s
  unfold captureData
  rw [pollTokenShort]
  split
  · rename_i s1 h
    rw [h] at hp
    exact hp.mono (by omega)
  · rename_i t s1 h
    rw [h] at hp
    split
    · exact ((hp.trans (Ran.setTok _ _)).trans (captureBlock_ran _ _ _)).mono (by omega)
    · exact (hp.trans (Ran.setTok _ _)).mono (by omega)

theorem afterResponse_ran (bearing : Bool) (r1 : Byte) (n : Nat) (s : State) :
    Ran (tailBound bearing s.params.maxWaitBytes n) s (afterResponse bearing r1 n s).2 := by
  unfold afterResponse tailBound
  by_cases h0 : n = 0
  · simp only [h0, if_true]; exact Ran.refl s
  · simp only [h0, if_false]
    cases bearing
    · exact captureDirect_ran r1 n s
    · simp only [Bool.not_true, Bool.false_eq_true, if_false, if_true]
      split
      · exact (Ran.refl s).mono (by omega)
      · exact captureData_ran r1 n s

theorem transact_ran (app : Bool) (index : BitVec 6) (argument : BitVec 32) (n : Nat) (s : State) :
    Ran (transactBound app index s.params.maxWaitBytes n) s (transact app index argument n s).2 := by
  have hs := sendFrame_ran app index argument s
  have hw : (sendFrame app index argument s).params = s.params := hs.host.params
  have hp := hs.trans (poll_ran isResponse 0 (sendFrame app index argument s).params.maxWaitBytes _)
  unfold transact pollResponse transactBound
  split
  · rename_i s1 h
    rw [h, hw] at hp
    exact hp.mono (by omega)
  · rename_i r1 s1 h
    rw [h, hw] at hp
    have hw1 : s1.params = s.params := hp.host.params
    have hq := hp.trans (afterResponse_ran (dataBearing app index) r1 n s1)
    rw [hw1] at hq
    exact hq

theorem sendCommand_ran (cmd : Byte) (argument : BitVec 32) (n : Nat) (s : State) :
    Ran (commandBound cmd s.params.maxWaitBytes n) s (sendCommand cmd argument n s).2 := by
  unfold sendCommand commandBound
  by_cases hr : cmdRefused cmd = true
  · simp only [hr, if_true]; exact Ran.refl s
  · simp only [hr, Bool.false_eq_true, if_false]
    by_cases ha : cmdApp cmd = true
    · simp only [ha, if_true]
      have h55 := transact_ran false 55 0 0 s
      split
      · have h2 := h55.trans (transact_ran true (cmdIndex cmd) argument n (transact false 55 0 0 s).2)
        rw [h55.host.params] at h2
        exact h2
      · exact h55.mono (by omega)
    · simp only [ha, Bool.false_eq_true, if_false]
      exact transact_ran false (cmdIndex cmd) argument n s

theorem retryFrom_ran (cmd : Byte) (argument : BitVec 32) (required : Byte) (d fuel k : Nat)
    (last : CmdOut) (s : State) :
    Ran (fuel * commandBound cmd s.params.maxWaitBytes 0) s
      (retryFrom cmd argument required d fuel k last s).2 := by
  induction fuel generalizing k last s with
  | zero => simpa [retryFrom] using Ran.refl s
  | succ fuel ih =>
    have h1 := (Ran.setAttempt s k).trans (sendCommand_ran cmd argument 0 (s.setAttempt k))
    rw [State.setAttempt_params, Nat.zero_add] at h1
    unfold retryFrom
    simp only
    split
    · exact h1.mono (by rw [Nat.succ_mul]; omega)
    · have h2 := (h1.trans (Ran.delay _ d)).trans (ih (k + 1)
        ⟨(sendCommand cmd argument 0 (s.setAttempt k)).1.r1, none,
          some (sendCommand cmd argument 0 (s.setAttempt k)).1.failClass⟩ _)
      rw [State.delay_params, h1.host.params] at h2
      exact h2.mono (by rw [Nat.succ_mul]; omega)

theorem sendCommandRetry_ran (cmd : Byte) (argument : BitVec 32) (required : Byte) (n d : Nat) (s : State) :
    Ran (n * commandBound cmd s.params.maxWaitBytes 0) s
      (sendCommandRetry cmd argument required n d s).2 := by
  unfold sendCommandRetry
  split
  · exact (Ran.refl s).mono (by omega)
  · exact retryFrom_ran ..

/-- The end of a command adds no bus activity. -/
theorem finishCommand_ran (r : CmdOut × State) : Ran 0 r.2 (finishCommand r) := by
  unfold finishCommand
  split
  · exact Ran.refuse _
  · exact Ran.finish _ _ _

theorem finishRetry_ran (r : CmdOut × State) : Ran 0 r.2 (finishRetry r) := by
  unfold finishRetry
  split
  · exact Ran.refuse _
  · exact Ran.finish _ _ _

theorem waitReady_ran (s : State) : Ran s.params.readyWaitSteps s (waitReady s).2 :=
  poll_ran isCardReady s.params.readyWaitDelayUs s.params.readyWaitSteps s

theorem sendToken_ran (token : Byte) (s : State) :
    Ran (s.params.readyWaitSteps + 1) s (sendToken token s).2 := by
  have h := waitReady_ran s
  unfold sendToken
  simp only
  split
  · exact h.trans (send_ran token _)
  · exact h.mono (by omega)

theorem sendPayload_ran (payload : List Byte) (s : State) :
    Ran (payload.length + 3) s (sendPayload payload s).2 := by
  have h := ((Ran.setCrc16 s (crc16 s.params.crc16Seed payload)).trans (sendBytes_ran
    (payload ++ beBytes 2 (crc16 s.params.crc16Seed payload).toNat) _)).trans (recv_ran _)
  exact h.mono (by simp)

theorem transmitFrame_ran (token : Byte) (payload : List Byte) (s : State) :
    Ran (s.params.readyWaitSteps + 1 + payload.length + 2 + 1) s (transmitFrame token payload s).2 := by
  have h := sendToken_ran token s
  unfold transmitFrame
  split
  · rename_i e s1 he
    rw [he] at h
    exact h.mono (by omega)
  · rename_i s1 he
    rw [he] at h
    split
    · exact h.mono (by omega)
    · exact (h.trans (sendPayload_ran payload s1)).mono (by omega)

theorem transmitBlock_ran (offset : Nat) (token : Byte) (s : State) :
    Ran (s.params.readyWaitSteps + 1 + 512 + 2 + 1) s (transmitBlock offset token s).2 := by
  have h := transmitFrame_ran token (s.buf.readBytes offset sectorSize) s
  rw [Memory.readBytes_length] at h
  exact h

/-! ### Reception into the block buffer -/

/-- Bus activity that may also have written the `len` bytes of the block buffer at `a`. -/
structure Moved (n a len : Nat) (s t : State) : Prop where
  host    : SameHost s t
  session : SameSession s t
  control : SameControl s t
  outside : SameBufferOutside a len s t
  wf      : s.buf.wf = true → t.buf.wf = true
  grows   : Grows n s t

theorem Ran.moved {n : Nat} {s t : State} (h : Ran n s t) (a len : Nat) : Moved n a len s t :=
  ⟨h.host, h.session, h.control, fun _ _ => by rw [h.buf], fun w => by rw [h.buf]; exact w, h.grows⟩

theorem Moved.trans {m n a len : Nat} {s t u : State} (h : Moved m a len s t) (k : Moved n a len t u) :
    Moved (m + n) a len s u :=
  ⟨h.host.trans k.host, h.session.trans k.session, h.control.trans k.control,
    fun c hc => (k.outside c hc).trans (h.outside c hc), fun w => k.wf (h.wf w), h.grows.trans k.grows h.control.cs⟩

theorem Moved.mono {m n a len : Nat} {s t : State} (h : Moved m a len s t) (k : m ≤ n) :
    Moved n a len s t :=
  ⟨h.host, h.session, h.control, h.outside, h.wf, h.grows.mono k⟩

/-- A region inside a larger one. -/
theorem Moved.widen {n a len a' len' : Nat} {s t : State} (h : Moved n a len s t) (h1 : a' ≤ a)
    (h2 : a + len ≤ a' + len') : Moved n a' len' s t :=
  ⟨h.host, h.session, h.control, fun c hc => h.outside c (by omega), h.wf, h.grows⟩

theorem storeBytes_moved (a : Nat) (bytes : List Byte) (s : State) :
    Moved 0 a bytes.length s (s.storeBytes a bytes) :=
  ⟨⟨by simp, by simp⟩, ⟨by simp, by simp, by simp, by simp, by simp⟩,
    ⟨by simp, by simp, by simp, by simp, by simp, by simp, by simp⟩,
    fun c hc => by rw [State.storeBytes_buf]; exact Memory.read_writeBytes_outside _ _ _ hc,
    fun w => by rw [State.storeBytes_buf]; exact Memory.writeBytes_wf w _ _, ⟨[], by simp⟩⟩

theorem unspecify_moved (a n : Nat) (s : State) : Moved 0 a n s (s.unspecify a n) :=
  ⟨⟨by simp, by simp⟩, ⟨by simp, by simp, by simp, by simp, by simp⟩,
    ⟨by simp, by simp, by simp, by simp, by simp, by simp, by simp⟩,
    fun c hc => by
      rw [State.unspecify_buf]; exact Memory.read_writeBytes_outside _ _ _ (by simpa using hc),
    fun w => by rw [State.unspecify_buf]; exact Memory.writeBytes_wf w _ _, ⟨[], by simp⟩⟩

theorem recvBytes_length (n : Nat) (s : State) : (recvBytes n s).1.length = n := by
  obtain ⟨is, hl, h⟩ := recvBytes_any n s
  rw [h]; exact hl

theorem receivePayload_moved (a n : Nat) (s : State) :
    Moved (n + 2) a n s (receivePayload a n s).2 := by
  have h := (((recvBytes_ran n s).trans (recvBytes_ran 2 _)).trans
    (Ran.setCrc16 _ (crc16 s.params.crc16Seed (recvBytes n s).1))).moved a n
  have hs := storeBytes_moved a (recvBytes n s).1
    ((recvBytes 2 (recvBytes n s).2).2.setCrc16 (crc16 s.params.crc16Seed (recvBytes n s).1))
  rw [recvBytes_length] at hs
  unfold receivePayload
  simp only
  split
  · exact h.trans hs
  · exact h.trans (unspecify_moved a n _)

/-- R204 with any card: at most the token poll, the payload and its CRC16, and nothing but the bytes of
the block buffer named by the operands is written. -/
theorem receiveBlock_moved (a n : Nat) (s : State) :
    Moved (s.params.tokenWaitSteps + (n + 2)) a n s (receiveBlock a n s).2 := by
  have hp := (poll_ran isToken s.params.tokenWaitDelayUs s.params.tokenWaitSteps s).moved a n
  unfold receiveBlock
  rw [pollTokenLong]
  split
  · rename_i s1 h
    rw [h] at hp
    exact (hp.trans (unspecify_moved a n _)).mono (by omega)
  · rename_i t s1 h
    rw [h] at hp
    have ht := hp.trans ((Ran.setTok s1 t).moved a n)
    split
    · exact (ht.trans (receivePayload_moved a n _)).mono (by omega)
    · exact (ht.trans (unspecify_moved a n _)).mono (by omega)

end Sys2Proof.Machine
end

