-- ==== Sys2Proof/Laws/Commands.lean ====
section
/-!
SUPPORT. The command instructions as one operation, and the outcomes of a command transaction that are no
success (`41_command_framer.md` R155-R165).
-/

namespace Sys2Proof.Machine

/-- Every command row and SEND_COMMAND is one SEND_COMMAND (R95, R155). -/
theorem exec_of_commandOf {i : Instr} {cmd : Byte} {argument : BitVec 32} {n : Nat}
    (h : commandOf i = some (cmd, argument, n)) (s : State) :
    exec i s = .next (finishCommand (sendCommand cmd argument n s)) := by
  cases i <;> simp only [commandOf, reduceCtorEq, Option.some.injEq, Prod.mk.injEq] at h <;>
    (obtain ⟨rfl, rfl, rfl⟩ := h; rfl)

@[simp] theorem Reply.lead_false (p : Reply) : p.lead false = [] := rfl
@[simp] theorem Reply.lead_true (p : Reply) : p.lead true = p.bytes := rfl
@[simp] theorem State.led_false (p : Reply) (s : State) : s.led false p = s := rfl
@[simp] theorem State.led_true (p : Reply) (s : State) : s.led true p = s.replied false 55 0 p := rfl

@[simp] theorem State.led_params (app : Bool) (p : Reply) (s : State) : (s.led app p).params = s.params := by
  cases app <;> simp

/-- The answers left after CMD55, where there is one. -/
theorem led_answers {app : Bool} {p : Reply} {rest : List Byte} {s : State}
    (hp : p.Leads app s.params.maxWaitBytes) (h : s.answers = p.lead app ++ rest) :
    (s.led app p).answers = rest := by
  cases app
  · simpa using h
  · exact replied_answers (app := false) (index := 55) (argument := 0) (hp rfl).1 h

/-- An accepted command code is one transaction, after CMD55 for an application command (R156). -/
theorem sendCommand_led {cmd : Byte} (h6 : cmd.getLsbD 6 = false) (argument : BitVec 32) (n : Nat)
    {p : Reply} {rest : List Byte} {s : State} (hp : p.Leads (cmdApp cmd) s.params.maxWaitBytes)
    (h : s.answers = p.lead (cmdApp cmd) ++ rest) :
    sendCommand cmd argument n s =
      transact (cmdApp cmd) (cmdIndex cmd) argument n (s.led (cmdApp cmd) p) := by
  cases h7 : cmdApp cmd
  · exact sendCommand_plain h6 h7 argument n s
  · rw [h7] at hp h
    exact sendCommand_app h6 h7 argument n (hp rfl).1 (hp rfl).2 h

/-- The end of a command that is not refused. -/
theorem finishCommand_eq {o : CmdOut} (h : o.cls ≠ some .refused) (s : State) :
    finishCommand (o, s) = s.finish (.response o.r1 o.payload) o.cls := by
  simp [finishCommand, h]

/-- A command that no byte of the response poll answers (line 13 of R155). -/
theorem transact_unanswered {app : Bool} {index : BitVec 6} {argument : BitVec 32} {n : Nat} {s : State}
    {ignored silent rest : List Byte} (hi : ignored.length = 6 + stuffing app index)
    (hl : silent.length = s.params.maxWaitBytes) (hs : ∀ b ∈ silent, b.getLsbD 7 = true)
    (h : s.answers = ignored ++ (silent ++ rest)) :
    transact app index argument n s =
      (⟨s.params.errSentinel, none, some .transportTimeout⟩,
        s.unanswered app index argument ignored silent) := by
  have hf := sendFrame_of_answers (argument := argument) hi h
  have hp := pollFrom_exhausted (stop := isResponse) (d := 0) (k := 1)
    (s := sendFrame app index argument s) (miss := silent) (rest := rest)
    (fuel := (sendFrame app index argument s).params.maxWaitBytes)
    (fun x hx => by rw [isResponse_eq, hs x hx]; rfl)
    (by rw [hl, hf]; simp [loadFrame_eq])
    (by rw [hf, onWire_answers_of_append (i := ignored) (by simp [hi]) (by rw [loadFrame_answers, h])])
  simp only [transact, pollResponse, poll, hp, sentinelOut, Nat.mul_zero, delay_zero]
  have hw : (sendFrame app index argument s).params.maxWaitBytes = s.params.maxWaitBytes := by
    rw [hf]; simp [loadFrame_eq]
  rw [hw, hf, onWire_onWire _ _ _ (by simp [hi]), List.append_assoc, loadFrame_eq]
  have hz : silent = [] ↔ s.params.maxWaitBytes = 0 := by rw [← hl, List.length_eq_zero_iff]
  simp only [Prod.mk.injEq, CmdOut.mk.injEq, and_true]
  refine ⟨by simp, ?_⟩
  ext1 <;> simp [fillers_append, hl, hz]

/-- No token within the in-command budget (line 23 of R155). -/
theorem captureData_noToken {r1 : Byte} {n : Nat} {s : State} {rest : List Byte}
    (h : s.answers = fillers s.params.maxWaitBytes ++ rest) :
    captureData r1 n s = (⟨s.params.errSentinel, none, some .transportTimeout⟩,
      (s.onWire (fillers s.params.maxWaitBytes) (fillers s.params.maxWaitBytes)).setAttempt
        (if s.params.maxWaitBytes = 0 then s.attempt else s.params.maxWaitBytes)) := by
  have hp := pollFrom_exhausted (stop := isToken) (d := 0) (k := 1) (s := s)
    (miss := fillers s.params.maxWaitBytes) (rest := rest)
    (fun x hx => by
      simp only [fillers, List.mem_replicate] at hx
      simp [isToken, hx.2]) (fillers_length _) h
  simp [captureData, pollTokenShort, poll, hp, sentinelOut]

theorem pollTokenShort_of_answers {s : State} {k : Nat} {token : Byte} {rest : List Byte}
    (hk : k < s.params.maxWaitBytes) (ht : token ≠ 0xFF) (h : s.answers = fillers k ++ token :: rest) :
    pollTokenShort s = (some token,
      (s.onWire (fillers (k + 1)) (fillers k ++ [token])).setAttempt (k + 1)) := by
  have hp := pollFrom_of_answers (stop := isToken) (d := 0) (k := 1) (s := s) (fuel := s.params.maxWaitBytes)
    (miss := fillers k) (b := token) (rest := rest)
    (fun x hx => by
      simp only [fillers, List.mem_replicate] at hx
      simp [isToken, hx.2]) (by simpa [isToken] using ht) (by simpa using hk) h
  simp only [pollTokenShort, poll, hp, fillers_length, Nat.mul_zero, delay_zero]
  rw [Nat.add_comm 1]

/-- A wrong token ends the transaction at once (line 23 of R155, R160). -/
theorem captureData_wrongToken {r1 : Byte} {n : Nat} {s : State} {k : Nat} {token : Byte} {rest : List Byte}
    (hk : k < s.params.maxWaitBytes) (ht : token ≠ 0xFF) (ht' : token ≠ tokenStartByte)
    (h : s.answers = fillers k ++ token :: rest) :
    captureData r1 n s = (⟨s.params.errSentinel, none, some .transportTimeout⟩,
      ((s.onWire (fillers (k + 1)) (fillers k ++ [token])).setAttempt (k + 1)).setTok token) := by
  simp [captureData, pollTokenShort_of_answers hk ht h, ht', sentinelOut]

theorem drop_after {n : Nat} {a b : List Byte} (h : n = a.length) : (a ++ b).drop n = b := by
  rw [h, List.drop_left]

/-- A payload whose CRC16 does not match (line 26 of R155). -/
theorem captureData_badCrc {r1 : Byte} {s : State} {k : Nat} {payload : List Byte} {hi lo : Byte}
    {rest : List Byte} (hk : k < s.params.maxWaitBytes)
    (hc : (crc16 s.params.crc16Seed payload).toNat ≠ fromBe [hi, lo])
    (h : s.answers = fillers k ++ tokenStartByte :: (payload ++ (hi :: lo :: rest))) :
    ∃ t, captureData r1 payload.length s = (⟨s.params.errSentinel, none, some .checksumMismatch⟩, t) ∧
      t.answers = rest ∧ t.resp = payload ∧ t.tok = tokenStartByte := by
  have hp := pollTokenShort_of_answers hk (by decide) h
  have h' : s.answers = (fillers k ++ [tokenStartByte]) ++ (payload ++ ([hi, lo] ++ rest)) := by simp [h]
  simp only [captureData, hp, if_true, captureBlock]
  rw [recvBytes_of_answers (is := payload) (rest := [hi, lo] ++ rest)
    (by simp only [State.setTok_answers, State.setAttempt_answers, State.onWire_answers]
        rw [h', drop_after (by simp)])]
  simp only
  have h4 := recvBytes_of_answers (s := (((((s.onWire (fillers (k + 1)) (fillers k ++ [tokenStartByte])).setAttempt
    (k + 1)).setTok tokenStartByte).onWire (fillers payload.length) payload).setResp payload))
    (is := [hi, lo]) (rest := rest)
    (by simp only [State.setResp_answers, State.setTok_answers, State.setAttempt_answers,
          State.onWire_answers]
        rw [h', drop_after (by simp), drop_after (by simp)])
  simp only [List.length_cons, List.length_nil, Nat.zero_add, Nat.reduceAdd] at h4
  rw [h4]
  simp only [State.setTok_params, State.setAttempt_params, State.onWire_params, hc, if_false, sentinelOut,
    State.setCrc16_params, State.setResp_params]
  refine ⟨_, rfl, ?_, by simp, by simp⟩
  simp only [State.setCrc16_answers, State.setResp_answers, State.setTok_answers, State.setAttempt_answers,
    State.onWire_answers]
  rw [h', drop_after (by simp), drop_after (by simp), drop_after (by simp)]

/-- A data-bearing command that answered 0 goes on to its data path; another answer ends it (line 18 of
R155). -/
theorem transact_data {app : Bool} {index : BitVec 6} {argument : BitVec 32} {n : Nat} {s : State}
    {q : Reply} {rest : List Byte} (hb : dataBearing app index = true) (hn : n ≠ 0)
    (hq : q.Heard s.params.maxWaitBytes (stuffing app index)) (h : s.answers = q.bytes ++ rest) :
    transact app index argument n s =
      if q.r1 ≠ 0 then (⟨q.r1, none, some .protocolRejection⟩, s.replied app index argument q)
      else captureData q.r1 n (s.replied app index argument q) := by
  simp [transact, pollResponse_of_reply hq h, afterResponse, hn, hb]

/-- The answers left after a command that was not answered. -/
theorem unanswered_answers {app : Bool} {index : BitVec 6} {argument : BitVec 32}
    {ignored silent rest : List Byte} {s : State} (h : ignored.length = 6 + stuffing app index)
    (hs : s.answers = ignored ++ (silent ++ rest)) :
    (s.unanswered app index argument ignored silent).answers = rest := by
  simp only [State.unanswered, State.setAttempt_answers, State.setCrc7_answers, State.setFrame_answers]
  exact onWire_answers_of_append (i := ignored ++ silent) (by simp [h]; omega) (by simp [hs])

/-- An application command whose CMD55 is not answered ends there (R156). -/
theorem sendCommand_app_unanswered {cmd : Byte} (h6 : cmd.getLsbD 6 = false) (h7 : cmd.getLsbD 7 = true)
    (argument : BitVec 32) (n : Nat) {ignored silent rest : List Byte} {s : State}
    (hs : Silent s.params.maxWaitBytes 0 ignored silent) (he : 1 < s.params.errSentinel.toNat)
    (h : s.answers = ignored ++ (silent ++ rest)) :
    sendCommand cmd argument n s = (⟨s.params.errSentinel, none, some .transportTimeout⟩,
      s.unanswered false 55 0 ignored silent) := by
  have ht := transact_unanswered (app := false) (index := 55) (argument := 0) (n := 0) hs.duringFrame
    hs.wholePoll hs.noReply h
  have hn : ¬ s.params.errSentinel.toNat ≤ 1 := by omega
  simp only [sendCommand, cmdRefused, cmdApp, h6, h7, ht, noError, hn, decide_false, if_true,
    Bool.false_eq_true, if_false, CmdOut.failClass, Option.getD_some]

/-! ### A command without payload, however it goes -/

@[simp] theorem State.attempted_params (app : Bool) (index : BitVec 6) (argument : BitVec 32) (a : Attempt)
    (s : State) : (s.attempted app index argument a).params = s.params := by
  cases a <;> simp [State.attempted]

@[simp] theorem State.attempted_buf (app : Bool) (index : BitVec 6) (argument : BitVec 32) (a : Attempt)
    (s : State) : (s.attempted app index argument a).buf = s.buf := by
  cases a <;> cases app <;> simp [State.attempted]

/-- The answers left after it. -/
theorem attempted_answers {app : Bool} {index : BitVec 6} {argument : BitVec 32} {a : Attempt}
    {rest : List Byte} {s : State} (ha : a.Runs s.params app index) (h : s.answers = a.bytes app ++ rest) :
    (s.attempted app index argument a).answers = rest := by
  cases a with
  | answered lead reply =>
    exact replied_answers (by simpa using ha.2) (led_answers ha.1 (by simpa [Attempt.bytes] using h))
  | unanswered lead ignored silent =>
    exact unanswered_answers ha.2.duringFrame (led_answers ha.1 (by simpa [Attempt.bytes] using h))
  | leadRejected lead => exact replied_answers (app := false) (index := 55) ha.2.1 h
  | leadUnanswered ignored silent =>
    exact unanswered_answers (app := false) (index := 55) ha.2.1.duringFrame (by simpa [Attempt.bytes] using h)

/-- Its result and its class (R155 lines 1-14, R163). -/
theorem sendCommand_attempted {cmd : Byte} (h6 : cmd.getLsbD 6 = false) (argument : BitVec 32) {a : Attempt}
    {rest : List Byte} {s : State} (ha : a.Runs s.params (cmdApp cmd) (cmdIndex cmd))
    (h : s.answers = a.bytes (cmdApp cmd) ++ rest) :
    ∃ cls, sendCommand cmd argument 0 s = (⟨a.r1 s.params.errSentinel, none, cls⟩,
        s.attempted (cmdApp cmd) (cmdIndex cmd) argument a) ∧
      cls.getD .protocolRejection = a.failClass := by
  cases a with
  | answered lead reply =>
    have h' : s.answers = lead.lead (cmdApp cmd) ++ (reply.bytes ++ rest) := by simpa [Attempt.bytes] using h
    refine ⟨none, ?_, rfl⟩
    rw [sendCommand_led h6 argument 0 ha.1 h', transact_plain (by simpa using ha.2) (led_answers ha.1 h')]
    rfl
  | unanswered lead ignored silent =>
    have h' : s.answers = lead.lead (cmdApp cmd) ++ (ignored ++ (silent ++ rest)) := by
      simpa [Attempt.bytes] using h
    refine ⟨some .transportTimeout, ?_, rfl⟩
    rw [sendCommand_led h6 argument 0 ha.1 h', transact_unanswered ha.2.duringFrame
      (by simpa using ha.2.wholePoll) ha.2.noReply (led_answers ha.1 h'), State.led_params]
    rfl
  | leadRejected lead =>
    exact ⟨_, sendCommand_app_rejected h6 ha.1 argument 0 ha.2.1 ha.2.2 h, rfl⟩
  | leadUnanswered ignored silent =>
    exact ⟨_, sendCommand_app_unanswered h6 ha.1 argument 0 ha.2.1 ha.2.2
      (by simpa [Attempt.bytes] using h), rfl⟩

/-- What a caller that requires 0 makes of a command without payload, however it goes (R163, log 15). -/
theorem sendCommand_required {cmd : Byte} (h6 : cmd.getLsbD 6 = false) (argument : BitVec 32) {a : Attempt}
    {rest : List Byte} {s : State} (ha : a.Runs s.params (cmdApp cmd) (cmdIndex cmd))
    (h : s.answers = a.bytes (cmdApp cmd) ++ rest) :
    (sendCommand cmd argument 0 s).2 = s.attempted (cmdApp cmd) (cmdIndex cmd) argument a ∧
      requireReady (sendCommand cmd argument 0 s).1 =
        if a.r1 s.params.errSentinel = 0 then none else some a.failClass := by
  obtain ⟨cls, he, hc⟩ := sendCommand_attempted h6 argument ha h
  rw [he]
  refine ⟨rfl, ?_⟩
  simp only [requireReady, isReady, beq_iff_eq, CmdOut.failClass, hc]

/-! ### The retry loop -/

/-- The loop goes past attempts that miss (R165). -/
theorem retryFrom_attempts {cmd : Byte} (h6 : cmd.getLsbD 6 = false) {argument : BitVec 32} {required : Byte}
    {d : Nat} (misses : List Attempt) {fuel k : Nat} {last : CmdOut} {s : State} {rest : List Byte}
    (hm : ∀ a ∈ misses, a.Runs s.params (cmdApp cmd) (cmdIndex cmd) ∧ a.r1 s.params.errSentinel ≠ required)
    (hs : s.answers = misses.flatMap (Attempt.bytes (cmdApp cmd)) ++ rest) :
    retryFrom cmd argument required d (misses.length + fuel) k last s =
      retryFrom cmd argument required d fuel (k + misses.length)
        ((misses.getLast?.map (fun a =>
          (⟨a.r1 s.params.errSentinel, none, some a.failClass⟩ : CmdOut))).getD last)
        (s.attempts (cmdApp cmd) (cmdIndex cmd) argument d k misses) ∧
    (s.attempts (cmdApp cmd) (cmdIndex cmd) argument d k misses).answers = rest ∧
    (s.attempts (cmdApp cmd) (cmdIndex cmd) argument d k misses).params = s.params := by
  induction misses generalizing k last s with
  | nil => simp [State.attempts, hs]
  | cons a as ih =>
    have ha := (hm a (by simp)).1
    have h' : (s.setAttempt k).answers =
        a.bytes (cmdApp cmd) ++ (as.flatMap (Attempt.bytes (cmdApp cmd)) ++ rest) := by simp [hs]
    obtain ⟨cls, ht, hc⟩ := sendCommand_attempted h6 argument (s := s.setAttempt k) (by simpa using ha) h'
    have hleft := attempted_answers (argument := argument) (s := s.setAttempt k) (by simpa using ha) h'
    obtain ⟨h1, h2, h3⟩ := ih (k := k + 1)
      (last := ⟨a.r1 s.params.errSentinel, none, some a.failClass⟩)
      (s := ((s.setAttempt k).attempted (cmdApp cmd) (cmdIndex cmd) argument a).delay d)
      (fun x hx => by simpa using hm x (by simp [hx])) (by rw [State.delay_answers, hleft])
    rw [State.attempts]
    refine ⟨?_, h2, by rw [h3]; simp⟩
    rw [show (a :: as).length + fuel = (as.length + fuel) + 1 by simp; omega, retryFrom]
    simp only [State.setAttempt_params] at ht
    simp only [ht, (hm a (by simp)).2, if_false, CmdOut.failClass, hc]
    rw [h1, show k + 1 + as.length = k + (a :: as).length by simp; omega]
    cases as with
    | nil => simp
    | cons x xs => simp [List.getLast?_cons]

/-- The attempt whose result is the required byte ends the loop (R165). -/
theorem retryFrom_hit {cmd : Byte} (h6 : cmd.getLsbD 6 = false) {argument : BitVec 32} {required : Byte}
    {d fuel k : Nat} {last : CmdOut} {a : Attempt} {s : State} {rest : List Byte}
    (ha : a.Runs s.params (cmdApp cmd) (cmdIndex cmd)) (hr : a.r1 s.params.errSentinel = required)
    (hs : s.answers = a.bytes (cmdApp cmd) ++ rest) :
    retryFrom cmd argument required d (fuel + 1) k last s =
      (⟨required, none, none⟩, (s.setAttempt k).attempted (cmdApp cmd) (cmdIndex cmd) argument a) := by
  obtain ⟨cls, ht, -⟩ := sendCommand_attempted h6 argument (s := s.setAttempt k) (by simpa using ha)
    (by simpa using hs)
  simp only [State.setAttempt_params, hr] at ht
  rw [retryFrom]
  simp [ht]

/-- A loop whose last attempt is the first with the required result (R165). -/
theorem sendCommandRetry_hit {cmd : Byte} (h6 : cmd.getLsbD 6 = false) (argument : BitVec 32)
    {required : Byte} {n d : Nat} (misses : List Attempt) {a : Attempt} {rest : List Byte} {s : State}
    (hn : misses.length < n)
    (hm : ∀ a ∈ misses, a.Runs s.params (cmdApp cmd) (cmdIndex cmd) ∧ a.r1 s.params.errSentinel ≠ required)
    (ha : a.Runs s.params (cmdApp cmd) (cmdIndex cmd)) (hr : a.r1 s.params.errSentinel = required)
    (h : s.answers = misses.flatMap (Attempt.bytes (cmdApp cmd)) ++ (a.bytes (cmdApp cmd) ++ rest)) :
    sendCommandRetry cmd argument required n d s = (⟨required, none, none⟩,
      ((s.attempts (cmdApp cmd) (cmdIndex cmd) argument d 1 misses).setAttempt
        (misses.length + 1)).attempted (cmdApp cmd) (cmdIndex cmd) argument a) := by
  obtain ⟨m, rfl⟩ : ∃ m, n = misses.length + (m + 1) := ⟨n - misses.length - 1, by omega⟩
  obtain ⟨e1, a1, p1⟩ := retryFrom_attempts h6 (argument := argument) (required := required) (d := d) misses
    (fuel := m + 1) (k := 1) (last := ⟨s.params.errSentinel, none, some .transportTimeout⟩) hm h
  rw [sendCommandRetry, if_neg (fun h => by rw [cmdRefused, h6] at h; cases h.1), e1,
    retryFrom_hit h6 (by rw [p1]; exact ha) (by rw [p1]; exact hr) a1, Nat.add_comm 1]

/-- A loop whose attempts all miss (R165). -/
theorem sendCommandRetry_exhausted {cmd : Byte} (h6 : cmd.getLsbD 6 = false) (argument : BitVec 32)
    {required : Byte} {d : Nat} (misses : List Attempt) {a : Attempt} {rest : List Byte} {s : State}
    (hl : misses.getLast? = some a)
    (hm : ∀ a ∈ misses, a.Runs s.params (cmdApp cmd) (cmdIndex cmd) ∧ a.r1 s.params.errSentinel ≠ required)
    (h : s.answers = misses.flatMap (Attempt.bytes (cmdApp cmd)) ++ rest) :
    sendCommandRetry cmd argument required misses.length d s =
      (⟨a.r1 s.params.errSentinel, none, some a.failClass⟩,
        s.attempts (cmdApp cmd) (cmdIndex cmd) argument d 1 misses) := by
  obtain ⟨e1, -, -⟩ := retryFrom_attempts h6 (argument := argument) (required := required) (d := d) misses
    (fuel := 0) (k := 1) (last := ⟨s.params.errSentinel, none, some .transportTimeout⟩) hm h
  rw [Nat.add_zero] at e1
  rw [sendCommandRetry, if_neg (fun h => by rw [cmdRefused, h6] at h; cases h.1), e1, retryFrom, hl]
  rfl

end Sys2Proof.Machine
end

