-- ==== Sys2Proof/Laws/Scratch.lean ====
section
/-!
SUPPORT. Which of the transient registers each operation leaves alone, whatever the card answers
(`10_state.md` R36, R39, R40).
-/

namespace Sys2Proof.Machine

/-- Exchanges and polls write no transient but the loop index. -/
structure SameScratch (s t : State) : Prop where
  frame    : t.frame = s.frame
  crc7acc  : t.crc7acc = s.crc7acc
  crc16acc : t.crc16acc = s.crc16acc
  resp     : t.resp = s.resp
  tok      : t.tok = s.tok

/-- A command without a data block writes no data transient. -/
structure SameData (s t : State) : Prop where
  crc16acc : t.crc16acc = s.crc16acc
  tok      : t.tok = s.tok

/-- The transceiver writes no command transient. -/
structure SameFraming (s t : State) : Prop where
  frame   : t.frame = s.frame
  crc7acc : t.crc7acc = s.crc7acc
  resp    : t.resp = s.resp

theorem SameScratch.trans {s t u : State} (h : SameScratch s t) (k : SameScratch t u) : SameScratch s u :=
  ⟨k.1.trans h.1, k.2.trans h.2, k.3.trans h.3, k.4.trans h.4, k.5.trans h.5⟩

theorem SameData.trans {s t u : State} (h : SameData s t) (k : SameData t u) : SameData s u :=
  ⟨k.1.trans h.1, k.2.trans h.2⟩

theorem SameFraming.trans {s t u : State} (h : SameFraming s t) (k : SameFraming t u) : SameFraming s u :=
  ⟨k.1.trans h.1, k.2.trans h.2, k.3.trans h.3⟩

theorem SameScratch.data {s t : State} (h : SameScratch s t) : SameData s t := ⟨h.crc16acc, h.tok⟩

theorem SameScratch.framing {s t : State} (h : SameScratch s t) : SameFraming s t :=
  ⟨h.frame, h.crc7acc, h.resp⟩

theorem SameData.refl (s : State) : SameData s s := ⟨rfl, rfl⟩

theorem sendBytes_scratch (os : List Byte) (s : State) : SameScratch s (sendBytes os s) := by
  obtain ⟨is, _, h⟩ := sendBytes_any os s
  rw [h]; exact ⟨by simp, by simp, by simp, by simp, by simp⟩

theorem recvBytes_scratch (n : Nat) (s : State) : SameScratch s (recvBytes n s).2 := by
  obtain ⟨is, _, h⟩ := recvBytes_any n s
  rw [h]; exact ⟨by simp, by simp, by simp, by simp, by simp⟩

theorem recv_scratch (s : State) : SameScratch s (recv s).2 := by
  rw [recv_eq]; exact ⟨by simp, by simp, by simp, by simp, by simp⟩

theorem send_scratch (o : Byte) (s : State) : SameScratch s (send o s) := by
  rw [send_eq]; exact ⟨by simp, by simp, by simp, by simp, by simp⟩

theorem poll_scratch (stop : Byte → Bool) (d n : Nat) (s : State) : SameScratch s (poll stop d n s).2 := by
  rw [poll]
  rcases pollFrom_any stop d n 1 s with ⟨miss, b, _, _, _, h⟩ | ⟨miss, _, _, h⟩ <;> rw [h] <;>
    exact ⟨by simp, by simp, by simp, by simp, by simp⟩

/-! ### Commands -/

theorem sendFrame_data (app : Bool) (index : BitVec 6) (argument : BitVec 32) (s : State) :
    SameData s (sendFrame app index argument s) ∧ (sendFrame app index argument s).resp = s.resp ∧
      (sendFrame app index argument s).frame = buildFrame index argument := by
  have h1 : SameData s (loadFrame index argument s) := by
    rw [loadFrame_eq]; exact ⟨by simp, by simp⟩
  have hr : (loadFrame index argument s).resp = s.resp := by rw [loadFrame_eq]; simp
  have h2 := sendBytes_scratch (frameBytes (loadFrame index argument s).frame) (loadFrame index argument s)
  unfold sendFrame
  simp only
  split
  · have h3 := recv_scratch (sendBytes (frameBytes (loadFrame index argument s).frame)
      (loadFrame index argument s))
    exact ⟨h1.trans (h2.data.trans h3.data), by rw [h3.resp, h2.resp, hr],
      by rw [h3.frame, h2.frame, loadFrame_frame]⟩
  · exact ⟨h1.trans h2.data, by rw [h2.resp, hr], by rw [h2.frame, loadFrame_frame]⟩

/-- After the response poll. -/
theorem pollResponse_data (app : Bool) (index : BitVec 6) (argument : BitVec 32) (s : State) :
    SameData s (pollResponse (sendFrame app index argument s)).2 ∧
      (pollResponse (sendFrame app index argument s)).2.resp = s.resp ∧
      (pollResponse (sendFrame app index argument s)).2.frame = buildFrame index argument := by
  have h1 := sendFrame_data app index argument s
  have h2 := poll_scratch isResponse 0 (sendFrame app index argument s).params.maxWaitBytes
    (sendFrame app index argument s)
  exact ⟨h1.1.trans h2.data, h2.resp.trans h1.2.1, h2.frame.trans h1.2.2⟩

theorem captureDirect_scratch (r1 : Byte) (n : Nat) (s : State) :
    SameData s (captureDirect r1 n s).2 ∧ (captureDirect r1 n s).2.frame = s.frame := by
  have h := recvBytes_scratch n s
  exact ⟨⟨by simp [captureDirect, h.crc16acc], by simp [captureDirect, h.tok]⟩,
    by simp [captureDirect, h.frame]⟩

theorem captureData_frame (r1 : Byte) (n : Nat) (s : State) : (captureData r1 n s).2.frame = s.frame := by
  have hp := poll_scratch isToken 0 s.params.maxWaitBytes s
  unfold captureData
  rw [pollTokenShort]
  split
  · rename_i s1 h
    rw [h] at hp
    replace hp : SameScratch s s1 := hp
    exact hp.frame
  · rename_i t s1 h
    rw [h] at hp
    replace hp : SameScratch s s1 := hp
    split
    · unfold captureBlock
      simp only
      have h1 := recvBytes_scratch n (s1.setTok t)
      have h2 := recvBytes_scratch 2 ((recvBytes n (s1.setTok t)).2.setResp (recvBytes n (s1.setTok t)).1)
      split <;> simp [sentinelOut, h2.frame, h1.frame, hp.frame]
    · simp [sentinelOut, hp.frame]

theorem afterResponse_frame (bearing : Bool) (r1 : Byte) (n : Nat) (s : State) :
    (afterResponse bearing r1 n s).2.frame = s.frame := by
  unfold afterResponse
  split
  · rfl
  · split
    · exact (captureDirect_scratch r1 n s).2
    · split
      · rfl
      · exact captureData_frame r1 n s

/-- The frame register after a transaction holds the frame it sent. -/
theorem transact_frame (app : Bool) (index : BitVec 6) (argument : BitVec 32) (n : Nat) (s : State) :
    (transact app index argument n s).2.frame = buildFrame index argument := by
  have hp := (pollResponse_data app index argument s).2.2
  unfold transact
  split
  · rename_i s1 h
    rw [h] at hp
    exact hp
  · rename_i r1 s1 h
    rw [h] at hp
    rw [afterResponse_frame]
    exact hp

theorem transact_data_kept (app : Bool) (index : BitVec 6) (argument : BitVec 32) (n : Nat) (s : State) :
    (n = 0 → (transact app index argument n s).2.resp = s.resp) ∧
      (n = 0 ∨ dataBearing app index = false → SameData s (transact app index argument n s).2) := by
  have hp := pollResponse_data app index argument s
  unfold transact
  split
  · rename_i s1 h
    rw [h] at hp
    exact ⟨fun _ => hp.2.1, fun _ => hp.1⟩
  · rename_i r1 s1 h
    rw [h] at hp
    refine ⟨fun hn => ?_, fun hn => ?_⟩
    · simp only [afterResponse, hn, if_true]; exact hp.2.1
    · unfold afterResponse
      split
      · exact hp.1
      · rename_i hn0
        rw [hn.resolve_left hn0]
        exact hp.1.trans (captureDirect_scratch r1 n s1).1

/-- The frame register after an ordinary command. -/
theorem sendCommand_frame {cmd : Byte} (h6 : cmd.getLsbD 6 = false) (h7 : cmd.getLsbD 7 = false)
    (argument : BitVec 32) (n : Nat) (s : State) :
    (sendCommand cmd argument n s).2.frame = buildFrame (cmdIndex cmd) argument := by
  rw [sendCommand_plain h6 h7, transact_frame]

theorem sendCommand_data_kept (cmd : Byte) (argument : BitVec 32) (n : Nat) (s : State) :
    (n = 0 → (sendCommand cmd argument n s).2.resp = s.resp) ∧
      (n = 0 ∨ dataBearing (cmdApp cmd) (cmdIndex cmd) = false → SameData s (sendCommand cmd argument n s).2) := by
  unfold sendCommand
  split
  · exact ⟨fun _ => rfl, fun _ => .refl s⟩
  · split
    · rename_i ha
      have h55 := transact_data_kept false 55 0 0 s
      simp only
      split
      · have h2 := transact_data_kept true (cmdIndex cmd) argument n (transact false 55 0 0 s).2
        rw [ha]
        exact ⟨fun hn => (h2.1 hn).trans (h55.1 rfl), fun hn => (h55.2 (.inl rfl)).trans (h2.2 hn)⟩
      · exact ⟨fun _ => h55.1 rfl, fun _ => h55.2 (.inl rfl)⟩
    · rename_i ha
      have hf : cmdApp cmd = false := by simpa using ha
      rw [hf]
      exact transact_data_kept false (cmdIndex cmd) argument n s

theorem retryFrom_data_kept (cmd : Byte) (argument : BitVec 32) (required : Byte) (d fuel k : Nat)
    (last : CmdOut) (s : State) :
    (retryFrom cmd argument required d fuel k last s).2.resp = s.resp ∧
      SameData s (retryFrom cmd argument required d fuel k last s).2 := by
  induction fuel generalizing k last s with
  | zero => exact ⟨rfl, .refl s⟩
  | succ fuel ih =>
    have h1 := sendCommand_data_kept cmd argument 0 (s.setAttempt k)
    have hr := h1.1 rfl
    have hd := h1.2 (.inl rfl)
    rw [State.setAttempt_resp] at hr
    have hd' : SameData s (sendCommand cmd argument 0 (s.setAttempt k)).2 :=
      ⟨by rw [hd.crc16acc]; simp, by rw [hd.tok]; simp⟩
    unfold retryFrom
    simp only
    split
    · exact ⟨hr, hd'⟩
    · have h2 := ih (k + 1) ⟨(sendCommand cmd argument 0 (s.setAttempt k)).1.r1, none,
        some (sendCommand cmd argument 0 (s.setAttempt k)).1.failClass⟩
        ((sendCommand cmd argument 0 (s.setAttempt k)).2.delay d)
      refine ⟨by rw [h2.1]; simpa using hr, ⟨by rw [h2.2.crc16acc]; simpa using hd'.crc16acc,
        by rw [h2.2.tok]; simpa using hd'.tok⟩⟩

theorem sendCommandRetry_data_kept (cmd : Byte) (argument : BitVec 32) (required : Byte) (n d : Nat)
    (s : State) :
    (sendCommandRetry cmd argument required n d s).2.resp = s.resp ∧
      SameData s (sendCommandRetry cmd argument required n d s).2 := by
  unfold sendCommandRetry
  split
  · exact ⟨rfl, .refl s⟩
  · exact retryFrom_data_kept ..

theorem finishCommand_data_kept (r : CmdOut × State) :
    (finishCommand r).resp = r.2.resp ∧ SameData r.2 (finishCommand r) := by
  unfold finishCommand
  split <;> exact ⟨by simp [State.refuse], by simp [State.refuse], by simp [State.refuse]⟩

theorem finishRetry_data_kept (r : CmdOut × State) :
    (finishRetry r).resp = r.2.resp ∧ SameData r.2 (finishRetry r) := by
  unfold finishRetry
  split <;> exact ⟨by simp [State.refuse], by simp [State.refuse], by simp [State.refuse]⟩

/-! ### The transceiver -/

theorem waitReady_scratch (s : State) : SameScratch s (waitReady s).2 :=
  poll_scratch isCardReady s.params.readyWaitDelayUs s.params.readyWaitSteps s

theorem receivePayload_framing (offset n : Nat) (s : State) :
    SameFraming s (receivePayload offset n s).2 := by
  have h1 := recvBytes_scratch n s
  have h2 := recvBytes_scratch 2 (recvBytes n s).2
  unfold receivePayload
  simp only
  split <;> exact ⟨by simp [h2.frame, h1.frame], by simp [h2.crc7acc, h1.crc7acc], by simp [h2.resp, h1.resp]⟩

theorem receiveBlock_framing (offset n : Nat) (s : State) : SameFraming s (receiveBlock offset n s).2 := by
  have hp := poll_scratch isToken s.params.tokenWaitDelayUs s.params.tokenWaitSteps s
  unfold receiveBlock
  rw [pollTokenLong]
  split
  · rename_i s1 h
    rw [h] at hp
    replace hp : SameScratch s s1 := hp
    exact ⟨by simp [hp.frame], by simp [hp.crc7acc], by simp [hp.resp]⟩
  · rename_i t s1 h
    rw [h] at hp
    replace hp : SameScratch s s1 := hp
    split
    · have h2 := receivePayload_framing offset n (s1.setTok t)
      exact ⟨by rw [h2.frame]; simp [hp.frame], by rw [h2.crc7acc]; simp [hp.crc7acc],
        by rw [h2.resp]; simp [hp.resp]⟩
    · exact ⟨by simp [hp.frame], by simp [hp.crc7acc], by simp [hp.resp]⟩

theorem sendToken_scratch (token : Byte) (s : State) : SameScratch s (sendToken token s).2 := by
  unfold sendToken
  simp only
  split
  · exact (waitReady_scratch s).trans (send_scratch token _)
  · exact waitReady_scratch s

theorem sendPayload_framing (payload : List Byte) (s : State) :
    SameFraming s (sendPayload payload s).2 ∧ (sendPayload payload s).2.tok = s.tok := by
  have h1 := sendBytes_scratch (payload ++ beBytes 2 (crc16 s.params.crc16Seed payload).toNat)
    (s.setCrc16 (crc16 s.params.crc16Seed payload))
  have h2 := h1.trans (recv_scratch _)
  exact ⟨⟨by rw [sendPayload, h2.frame]; simp, by rw [sendPayload, h2.crc7acc]; simp,
    by rw [sendPayload, h2.resp]; simp⟩, by rw [sendPayload, h2.tok]; simp⟩

theorem transmitFrame_framing (token : Byte) (payload : List Byte) (s : State) :
    SameFraming s (transmitFrame token payload s).2 ∧ (transmitFrame token payload s).2.tok = s.tok := by
  have h := sendToken_scratch token s
  unfold transmitFrame
  split
  · rename_i e s1 he
    rw [he] at h
    exact ⟨h.framing, h.tok⟩
  · rename_i s1 he
    rw [he] at h
    split
    · exact ⟨h.framing, h.tok⟩
    · have h2 := sendPayload_framing payload s1
      exact ⟨h.framing.trans h2.1, h2.2.trans h.tok⟩

theorem transmitBlock_framing (offset : Nat) (token : Byte) (s : State) :
    SameFraming s (transmitBlock offset token s).2 ∧ (transmitBlock offset token s).2.tok = s.tok :=
  transmitFrame_framing token _ s

end Sys2Proof.Machine
end

