-- ==== Sys2Proof/Laws/Classes.lean ====
section
/-!
SUPPORT. Which error classes each operation can end with (`60_exceptions.md` R364).
-/

namespace Sys2Proof.Machine

/-- Classes (a), (b) and (c): the ones the bus can cause. -/
def BusClass (c : ErrorClass) : Prop :=
  c = .transportTimeout ∨ c = .protocolRejection ∨ c = .checksumMismatch

theorem BusClass.timeout : BusClass .transportTimeout := .inl rfl
theorem BusClass.rejection : BusClass .protocolRejection := .inr (.inl rfl)
theorem BusClass.checksum : BusClass .checksumMismatch := .inr (.inr rfl)

theorem BusClass.ne_refused {c : ErrorClass} (h : BusClass c) : c ≠ .refused := by
  rcases h with rfl | rfl | rfl <;> decide

theorem captureData_cls {r1 : Byte} {n : Nat} {s : State} {c : ErrorClass}
    (h : (captureData r1 n s).1.cls = some c) : BusClass c := by
  unfold captureData at h
  split at h
  · cases h; exact .timeout
  · split at h
    · unfold captureBlock at h
      simp only at h
      split at h
      · cases h
      · cases h; exact .checksum
    · cases h; exact .timeout

theorem transact_cls {app : Bool} {index : BitVec 6} {argument : BitVec 32} {n : Nat} {s : State}
    {c : ErrorClass} (h : (transact app index argument n s).1.cls = some c) : BusClass c := by
  unfold transact at h
  split at h
  · cases h; exact .timeout
  · unfold afterResponse at h
    split at h
    · cases h
    · split at h
      · cases h
      · split at h
        · cases h; exact .rejection
        · exact captureData_cls h

theorem CmdOut.failClass_of {o : CmdOut} (h : ∀ c, o.cls = some c → BusClass c) : BusClass o.failClass := by
  unfold CmdOut.failClass
  cases ho : o.cls with
  | none => exact .rejection
  | some c => exact h c ho

/-- A command whose code is accepted ends without a class or with (a), (b) or (c). -/
theorem sendCommand_cls {cmd : Byte} (h6 : cmd.getLsbD 6 = false) {argument : BitVec 32} {n : Nat} {s : State}
    {c : ErrorClass} (h : (sendCommand cmd argument n s).1.cls = some c) : BusClass c := by
  unfold sendCommand at h
  rw [cmdRefused, h6] at h
  simp only [Bool.false_eq_true, if_false] at h
  split at h
  · split at h
    · exact transact_cls h
    · simp only [Option.some.injEq] at h
      rw [← h]
      exact CmdOut.failClass_of fun _ => transact_cls
  · exact transact_cls h

theorem sendCommand_failClass {cmd : Byte} (h6 : cmd.getLsbD 6 = false) (argument : BitVec 32) (n : Nat)
    (s : State) : BusClass (sendCommand cmd argument n s).1.failClass :=
  CmdOut.failClass_of fun _ => sendCommand_cls h6

theorem retryFrom_cls {cmd : Byte} (h6 : cmd.getLsbD 6 = false) {argument : BitVec 32} {required : Byte}
    {d fuel k : Nat} {last : CmdOut} {s : State} {c : ErrorClass}
    (hl : ∀ c, last.cls = some c → BusClass c)
    (h : (retryFrom cmd argument required d fuel k last s).1.cls = some c) : BusClass c := by
  induction fuel generalizing k last s with
  | zero => exact hl c h
  | succ fuel ih =>
    unfold retryFrom at h
    simp only at h
    split at h
    · cases h
    · refine ih ?_ h
      intro c' hc'
      simp only [Option.some.injEq] at hc'
      rw [← hc']
      exact sendCommand_failClass h6 argument 0 _

theorem sendCommandRetry_cls {cmd : Byte} (h6 : cmd.getLsbD 6 = false) {argument : BitVec 32}
    {required : Byte} {n d : Nat} {s : State} {c : ErrorClass}
    (h : (sendCommandRetry cmd argument required n d s).1.cls = some c) : BusClass c := by
  unfold sendCommandRetry at h
  rw [cmdRefused, h6] at h
  simp only [Bool.false_eq_true, false_and, if_false] at h
  exact retryFrom_cls h6 (fun c hc => by simp only [Option.some.injEq] at hc; rw [← hc]; exact .timeout) h

theorem receiveBlock_cls {offset n : Nat} {s : State} {c : ErrorClass}
    (h : (receiveBlock offset n s).1 = some c) : BusClass c := by
  unfold receiveBlock at h
  split at h
  · cases h; exact .timeout
  · split at h
    · unfold receivePayload at h
      simp only at h
      split at h
      · cases h
      · cases h; exact .checksum
    · cases h; exact .timeout

theorem sendToken_cls {token : Byte} {s : State} {c : ErrorClass} (h : (sendToken token s).1 = some c) :
    BusClass c := by
  unfold sendToken at h
  simp only at h
  split at h
  · cases h
  · cases h; exact .timeout

theorem transmitFrame_cls {token : Byte} {payload : List Byte} {s : State} {c : ErrorClass}
    (h : (transmitFrame token payload s).1 = some c) : BusClass c := by
  unfold transmitFrame at h
  split at h
  · rename_i e s1 he
    exact sendToken_cls (by rw [he]; exact h)
  · split at h
    · cases h
    · unfold sendPayload at h
      simp only at h
      split at h
      · cases h
      · cases h; exact .rejection

theorem transmitBlock_cls {offset : Nat} {token : Byte} {s : State} {c : ErrorClass}
    (h : (transmitBlock offset token s).1 = some c) : BusClass c := transmitFrame_cls h

end Sys2Proof.Machine
end

