-- ==== Sys2Proof/Laws/Veil.lean ====
section
/-!
SUPPORT. Nothing below the gate reads the initialized flag or the report of the last operation: every
operation commutes with a change of the three registers (`60_exceptions.md` R361, R365, R368).
-/

namespace Sys2Proof.Machine

/-- The state with another initialized flag and another report. -/
def State.veil (b : Bool) (result : Result) (error : Option ErrorClass) (s : State) : State :=
  { s with initialized := b, result := result, error := error }

variable (b : Bool) (v : Result) (e : Option ErrorClass) (s : State)

@[simp] theorem State.veil_params : (s.veil b v e).params = s.params := rfl
@[simp] theorem State.veil_initialized : (s.veil b v e).initialized = b := rfl
@[simp] theorem State.veil_cardType : (s.veil b v e).cardType = s.cardType := rfl
@[simp] theorem State.veil_sectorCount : (s.veil b v e).sectorCount = s.sectorCount := rfl
@[simp] theorem State.veil_csd : (s.veil b v e).csd = s.csd := rfl
@[simp] theorem State.veil_cid : (s.veil b v e).cid = s.cid := rfl
@[simp] theorem State.veil_initState : (s.veil b v e).initState = s.initState := rfl
@[simp] theorem State.veil_pathV2 : (s.veil b v e).pathV2 = s.pathV2 := rfl
@[simp] theorem State.veil_pollCmd : (s.veil b v e).pollCmd = s.pollCmd := rfl
@[simp] theorem State.veil_pollArg : (s.veil b v e).pollArg = s.pollArg := rfl
@[simp] theorem State.veil_frame : (s.veil b v e).frame = s.frame := rfl
@[simp] theorem State.veil_resp : (s.veil b v e).resp = s.resp := rfl
@[simp] theorem State.veil_buf : (s.veil b v e).buf = s.buf := rfl
@[simp] theorem veil_nextAnswer : nextAnswer (s.veil b v e) = nextAnswer s := rfl

theorem veil_setCs (l : ChipSelect) : (s.veil b v e).setCs l = (s.setCs l).veil b v e := rfl
theorem veil_setAttempt (k : Nat) : (s.veil b v e).setAttempt k = (s.setAttempt k).veil b v e := rfl
theorem veil_delay (k : Nat) : (s.veil b v e).delay k = (s.delay k).veil b v e := rfl
theorem veil_setFrame (f : BitVec 48) : (s.veil b v e).setFrame f = (s.setFrame f).veil b v e := rfl
theorem veil_setCrc7 (c : BitVec 7) : (s.veil b v e).setCrc7 c = (s.setCrc7 c).veil b v e := rfl
theorem veil_setCrc16 (c : BitVec 16) : (s.veil b v e).setCrc16 c = (s.setCrc16 c).veil b v e := rfl
theorem veil_setResp (d : List Byte) : (s.veil b v e).setResp d = (s.setResp d).veil b v e := rfl
theorem veil_setTok (d : Byte) : (s.veil b v e).setTok d = (s.setTok d).veil b v e := rfl
theorem veil_storeBytes (a : Nat) (d : List Byte) :
    (s.veil b v e).storeBytes a d = (s.storeBytes a d).veil b v e := rfl
theorem veil_unspecify (a n : Nat) : (s.veil b v e).unspecify a n = (s.unspecify a n).veil b v e := rfl
theorem veil_setInitState (n : InitState) :
    (s.veil b v e).setInitState n = (s.setInitState n).veil b v e := rfl
theorem veil_setPathV2 (p : Bool) : (s.veil b v e).setPathV2 p = (s.setPathV2 p).veil b v e := rfl
theorem veil_setPoll (c : BitVec 8) (a : BitVec 32) :
    (s.veil b v e).setPoll c a = (s.setPoll c a).veil b v e := rfl
theorem veil_setCardType (c : BitVec 4) : (s.veil b v e).setCardType c = (s.setCardType c).veil b v e := rfl
theorem veil_setCsd (c : BitVec 128) : (s.veil b v e).setCsd c = (s.setCsd c).veil b v e := rfl
theorem veil_setCid (c : BitVec 128) : (s.veil b v e).setCid c = (s.setCid c).veil b v e := rfl
theorem veil_drive (d : List Byte) : (s.veil b v e).drive d = (s.drive d).veil b v e := rfl
/-- The report of the operation replaces the one before. -/
theorem veil_finish (w : Result) (c : Option ErrorClass) :
    (s.veil b v e).finish w c = (s.finish w c).veil b w c := rfl
theorem veil_xchg (o : Byte) : xchg o (s.veil b v e) = ((xchg o s).1, (xchg o s).2.veil b v e) := rfl
theorem veil_send (o : Byte) : send o (s.veil b v e) = (send o s).veil b v e := rfl
theorem veil_recv : recv (s.veil b v e) = ((recv s).1, (recv s).2.veil b v e) := rfl

theorem veil_sendBytes (os : List Byte) : sendBytes os (s.veil b v e) = (sendBytes os s).veil b v e := by
  induction os generalizing s with
  | nil => rfl
  | cons o os ih => rw [sendBytes, sendBytes, veil_send, ih]

theorem veil_recvBytes (n : Nat) :
    recvBytes n (s.veil b v e) = ((recvBytes n s).1, (recvBytes n s).2.veil b v e) := by
  induction n generalizing s with
  | zero => rfl
  | succ n ih => simp only [recvBytes, veil_recv, ih]

theorem veil_pollFrom (stop : Byte → Bool) (d fuel k : Nat) :
    pollFrom stop d fuel k (s.veil b v e) =
      ((pollFrom stop d fuel k s).1, (pollFrom stop d fuel k s).2.veil b v e) := by
  induction fuel generalizing k s with
  | zero => rfl
  | succ fuel ih =>
    simp only [pollFrom, veil_setAttempt, veil_recv, veil_delay, ih]
    split <;> rfl

theorem veil_poll (stop : Byte → Bool) (d n : Nat) :
    poll stop d n (s.veil b v e) = ((poll stop d n s).1, (poll stop d n s).2.veil b v e) :=
  veil_pollFrom ..

theorem veil_waitReady :
    waitReady (s.veil b v e) = ((waitReady s).1, (waitReady s).2.veil b v e) := by
  simp only [waitReady, State.veil_params, veil_poll]

/-! ### The Framer -/

theorem veil_loadFrame (x : BitVec 6) (a : BitVec 32) :
    loadFrame x a (s.veil b v e) = (loadFrame x a s).veil b v e := by
  simp only [loadFrame, veil_setCrc7, veil_setFrame]

theorem veil_sendFrame (app : Bool) (x : BitVec 6) (a : BitVec 32) :
    sendFrame app x a (s.veil b v e) = (sendFrame app x a s).veil b v e := by
  simp only [sendFrame, veil_loadFrame, State.veil_frame, veil_sendBytes, veil_recv]
  split <;> rfl

theorem veil_captureDirect (r : Byte) (n : Nat) :
    captureDirect r n (s.veil b v e) = ((captureDirect r n s).1, (captureDirect r n s).2.veil b v e) := by
  simp only [captureDirect, veil_recvBytes, veil_setResp]

theorem veil_captureBlock (r : Byte) (n : Nat) :
    captureBlock r n (s.veil b v e) = ((captureBlock r n s).1, (captureBlock r n s).2.veil b v e) := by
  simp only [captureBlock, veil_recvBytes, veil_setResp, veil_setCrc16, sentinelOut, State.veil_params]
  split <;> rfl

theorem veil_captureData (r : Byte) (n : Nat) :
    captureData r n (s.veil b v e) = ((captureData r n s).1, (captureData r n s).2.veil b v e) := by
  simp only [captureData, pollTokenShort, State.veil_params, veil_poll]
  rcases poll isToken 0 s.params.maxWaitBytes s with ⟨_ | t, s1⟩
  · rfl
  · simp only [veil_setTok, veil_captureBlock, sentinelOut, State.veil_params]
    split <;> rfl

theorem veil_afterResponse (d : Bool) (r : Byte) (n : Nat) :
    afterResponse d r n (s.veil b v e) = ((afterResponse d r n s).1, (afterResponse d r n s).2.veil b v e) := by
  simp only [afterResponse, veil_captureDirect, veil_captureData]
  repeat' split
  all_goals rfl

theorem veil_transact (app : Bool) (x : BitVec 6) (a : BitVec 32) (n : Nat) :
    transact app x a n (s.veil b v e) = ((transact app x a n s).1, (transact app x a n s).2.veil b v e) := by
  simp only [transact, veil_sendFrame, pollResponse, State.veil_params, veil_poll]
  rcases poll isResponse 0 (sendFrame app x a s).params.maxWaitBytes (sendFrame app x a s) with ⟨_ | t, s1⟩
  · rfl
  · simp only [veil_afterResponse]

theorem veil_sendCommand (c : Byte) (a : BitVec 32) (n : Nat) :
    sendCommand c a n (s.veil b v e) = ((sendCommand c a n s).1, (sendCommand c a n s).2.veil b v e) := by
  simp only [sendCommand, veil_transact, sentinelOut, State.veil_params]
  repeat' split
  all_goals rfl

theorem veil_retryFrom (c : Byte) (a : BitVec 32) (q : Byte) (d fuel k : Nat) (last : CmdOut) :
    retryFrom c a q d fuel k last (s.veil b v e) =
      ((retryFrom c a q d fuel k last s).1, (retryFrom c a q d fuel k last s).2.veil b v e) := by
  induction fuel generalizing k last s with
  | zero => rfl
  | succ fuel ih =>
    simp only [retryFrom, veil_setAttempt, veil_sendCommand, veil_delay, ih]
    split <;> rfl

theorem veil_sendCommandRetry (c : Byte) (a : BitVec 32) (q : Byte) (n d : Nat) :
    sendCommandRetry c a q n d (s.veil b v e) =
      ((sendCommandRetry c a q n d s).1, (sendCommandRetry c a q n d s).2.veil b v e) := by
  simp only [sendCommandRetry, veil_retryFrom, sentinelOut, State.veil_params]
  split <;> rfl

/-! ### The transceiver -/

theorem veil_receivePayload (o n : Nat) :
    receivePayload o n (s.veil b v e) = ((receivePayload o n s).1, (receivePayload o n s).2.veil b v e) := by
  simp only [receivePayload, veil_recvBytes, State.veil_params, veil_setCrc16, veil_storeBytes, veil_unspecify]
  split <;> rfl

theorem veil_receiveBlock (o n : Nat) :
    receiveBlock o n (s.veil b v e) = ((receiveBlock o n s).1, (receiveBlock o n s).2.veil b v e) := by
  simp only [receiveBlock, pollTokenLong, State.veil_params, veil_poll]
  rcases poll isToken s.params.tokenWaitDelayUs s.params.tokenWaitSteps s with ⟨_ | t, s1⟩
  · rfl
  · simp only [veil_setTok, veil_receivePayload, veil_unspecify]
    split <;> rfl

theorem veil_sendToken (t : Byte) :
    sendToken t (s.veil b v e) = ((sendToken t s).1, (sendToken t s).2.veil b v e) := by
  simp only [sendToken, veil_waitReady, veil_send]
  split <;> rfl

theorem veil_sendPayload (p : List Byte) :
    sendPayload p (s.veil b v e) = ((sendPayload p s).1, (sendPayload p s).2.veil b v e) := by
  simp only [sendPayload, State.veil_params, veil_setCrc16, veil_sendBytes, veil_recv]

theorem veil_transmitFrame (t : Byte) (p : List Byte) :
    transmitFrame t p (s.veil b v e) = ((transmitFrame t p s).1, (transmitFrame t p s).2.veil b v e) := by
  simp only [transmitFrame, veil_sendToken]
  rcases sendToken t s with ⟨_ | c, s1⟩
  · simp only [veil_sendPayload]
    split <;> rfl
  · rfl

theorem veil_transmitBlock (o : Nat) (t : Byte) :
    transmitBlock o t (s.veil b v e) = ((transmitBlock o t s).1, (transmitBlock o t s).2.veil b v e) := by
  simp only [transmitBlock, State.veil_buf, veil_transmitFrame]

/-! ### The initialization -/

theorem veil_legacyProbe : legacyProbe (s.veil b v e) = (legacyProbe s).veil b v e := by
  simp only [legacyProbe, veil_sendCommand, veil_setPoll]

theorem veil_initStep : initStep (s.veil b v e) = ((initStep s).1, (initStep s).2.veil b v e) := by
  simp only [initStep, State.veil_initState]
  cases s.initState
  · simp only [initReset, State.veil_params, veil_sendBytes, veil_setCs, goto, veil_setInitState]
  · simp only [initIdleNegotiation, State.veil_params, veil_sendCommandRetry, goto, fail, veil_setInitState]
    split <;> rfl
  · simp only [initVersionBranch, veil_sendCommand, goto, veil_setInitState, veil_setPathV2]
    split <;> rfl
  · simp only [initVoltageCheck, State.veil_resp, goto, veil_setInitState, veil_setPathV2, veil_setPoll]
    by_cases h : (r7Fields 1 s.resp).echoOk = true
    · simp only [h, if_true]
    · simp only [h, Bool.false_eq_true, if_false]
  · simp only [initReadyPoll, State.veil_pathV2, veil_legacyProbe]
    rcases s.pathV2 with _ | _
    · simp only [Bool.false_eq_true, if_false, State.veil_pollCmd, State.veil_pollArg, State.veil_params,
        veil_sendCommandRetry, State.veil_pathV2, goto, fail, veil_setInitState]
      split <;> rfl
    · simp only [if_true, State.veil_pollCmd, State.veil_pollArg, State.veil_params,
        veil_sendCommandRetry, State.veil_pathV2, goto, fail, veil_setInitState]
      split <;> rfl
  · simp only [initOcrRead, veil_sendCommand, State.veil_resp, goto, fail, veil_setInitState, veil_setCardType]
    split <;> rfl
  · simp only [initBlockLengthSet, veil_sendCommand, State.veil_pollCmd, goto, fail, veil_setInitState,
      veil_setCardType]
    split <;> rfl
  · simp only [initGeometryRead, readCid, veil_sendCommand, State.veil_resp, veil_setCsd, State.veil_params,
      State.veil_csd, goto, fail, veil_setInitState, veil_setCid]
    repeat' split
    all_goals rfl
  · rfl
  · rfl

theorem veil_runInit (n : Nat) : runInit n (s.veil b v e) = ((runInit n s).1, (runInit n s).2.veil b v e) := by
  induction n generalizing s with
  | zero => rfl
  | succ n ih =>
    simp only [runInit, veil_initStep]
    rcases initStep s with ⟨_ | c, s1⟩
    · exact ih s1
    · rfl

/-- BEGIN clears the flag first (`44_init_fsm.md` R233). -/
theorem beginEntry_veil : beginEntry (s.veil b v e) = (beginEntry s).veil false v e := rfl

/-! ### The block layer -/

theorem veil_readBlocks (n k : Nat) :
    readBlocks n k (s.veil b v e) = ((readBlocks n k s).1, (readBlocks n k s).2.veil b v e) := by
  induction n generalizing k s with
  | zero => rfl
  | succ n ih =>
    simp only [readBlocks, veil_receiveBlock]
    rcases receiveBlock (sectorSize * k) sectorSize s with ⟨_ | c, s1⟩
    · exact ih s1 (k + 1)
    · rfl

theorem veil_readSingle (a : BitVec 32) :
    readSingle a (s.veil b v e) = ((readSingle a s).1, (readSingle a s).2.veil b v e) := by
  simp only [readSingle, veil_sendCommand, veil_receiveBlock, veil_unspecify]
  split <;> rfl

theorem veil_readMultiple (a : BitVec 32) (n : Nat) :
    readMultiple a n (s.veil b v e) = ((readMultiple a n s).1, (readMultiple a n s).2.veil b v e) := by
  simp only [readMultiple, veil_sendCommand, veil_readBlocks, veil_unspecify]
  split <;> rfl

theorem veil_writeBlocks (n k : Nat) :
    writeBlocks n k (s.veil b v e) = ((writeBlocks n k s).1, (writeBlocks n k s).2.veil b v e) := by
  induction n generalizing k s with
  | zero => rfl
  | succ n ih =>
    simp only [writeBlocks, veil_transmitBlock]
    rcases transmitBlock (sectorSize * k) tokenStartMultiWriteByte s with ⟨_ | c, s1⟩
    · exact ih s1 (k + 1)
    · rfl

theorem veil_writeSingle (a : BitVec 32) :
    writeSingle a (s.veil b v e) = ((writeSingle a s).1, (writeSingle a s).2.veil b v e) := by
  simp only [writeSingle, veil_sendCommand, veil_transmitBlock]
  split <;> rfl

theorem veil_preErase (n : Nat) : preErase n (s.veil b v e) = (preErase n s).veil b v e := by
  simp only [preErase, State.veil_cardType, veil_sendCommand]
  split <;> rfl

theorem veil_writeMultiple (a : BitVec 32) (n : Nat) :
    writeMultiple a n (s.veil b v e) = ((writeMultiple a n s).1, (writeMultiple a n s).2.veil b v e) := by
  simp only [writeMultiple, veil_preErase, veil_sendCommand, veil_writeBlocks, veil_transmitBlock]
  split <;> rfl

theorem veil_eraseRange (x y : BitVec 32) :
    eraseRange x y (s.veil b v e) = ((eraseRange x y s).1, (eraseRange x y s).2.veil b v e) := by
  simp only [eraseRange, veil_sendCommand]
  repeat' split
  all_goals rfl

theorem veil_syncBody : syncBody (s.veil b v e) = ((syncBody s).1, (syncBody s).2.veil b v e) := by
  simp only [syncBody, veil_waitReady]

/-- A body on the bus ends with its own report. -/
theorem veil_onBus {body : State → Option ErrorClass × State}
    (h : ∀ s : State, body (s.veil b v e) = ((body s).1, (body s).2.veil b v e)) :
    onBus body (s.veil b v e) =
      (onBus body s).veil b (.bool (body (s.setCs .asserted)).1.isNone) (body (s.setCs .asserted)).1 := by
  simp only [onBus, veil_setCs, h, veil_finish]

end Sys2Proof.Machine
end

