-- ==== Sys2Proof/Laws/Exec.lean ====
section
/-!
SUPPORT. What each instruction does, as one equation over the shared operations, so that no proof unfolds
`exec`; and what all instructions but BEGIN, END and the gated ones leave alone. For the command
instructions see `exec_of_commandOf`.
-/

namespace Sys2Proof.Machine

variable (s : State)

/-- The parameters of a step are those its state carries (`00_scope.md` R7, log 5). -/
theorem step_eq_stepWith : step s = stepWith s.params s := rfl

theorem exec_sendCommandRetry (c : Byte) (a : BitVec 32) (q : Byte) (n d : Nat) :
    exec (.sendCommandRetry c a q n d) s = .next (finishRetry (sendCommandRetry c a q n d s)) := rfl
theorem exec_r1 (f : BitVec 7) : exec (.r1 f) s = .next (match pollResponse (s.drive [responseByte f]) with
    | (none, s1) => s1.finish .failure (some .transportTimeout)
    | (some r1, s1) => s1.finish (.r1Fields (r1Fields r1)) none) := rfl
theorem exec_r2 (f : BitVec 7) (t : Byte) : exec (.r2 f t) s = .next (readResponse 1
    (fun r1 p => .r2Fields (r2Fields r1 (p.getD 0 0))) (s.drive [responseByte f, t])) := rfl
theorem exec_r3 (f : BitVec 7) (v : BitVec 32) : exec (.r3 f v) s = .next (readResponse 4
    (fun r1 p => .r3Fields (r3Fields r1 p)) (s.drive (responseByte f :: beBytes 4 v.toNat))) := rfl
theorem exec_r7 (f : BitVec 7) (v : BitVec 32) : exec (.r7 f v) s = .next (readResponse 4
    (fun r1 p => .r7Fields (r7Fields r1 p)) (s.drive (responseByte f :: beBytes 4 v.toNat))) := rfl
theorem exec_tokenStart_fromCard :
    exec (.tokenStart .fromCard) s = .next (receiveToken (s.drive [tokenStartByte])) := rfl
theorem exec_tokenStart_toCard :
    exec (.tokenStart .toCard) s = .next (finishBool (sendToken tokenStartByte s)) := rfl
theorem exec_tokenStartMultiWrite :
    exec .tokenStartMultiWrite s = .next (finishBool (sendToken tokenStartMultiWriteByte s)) := rfl
theorem exec_tokenStopTran :
    exec .tokenStopTran s = .next (finishBool (transmitFrame tokenStopTranByte [] s)) := rfl
theorem exec_dataResponseAccepted (i : BitVec 3) : exec (.dataResponseAccepted i) s = .next (finishBool
    (if isAccepted (recv (s.drive [acceptedByte i])).1 then none else some .protocolRejection,
      (recv (s.drive [acceptedByte i])).2)) := rfl
theorem exec_dataBlock_fromCard (t : Byte) (p : List Byte) : exec (.dataBlock .fromCard t p) s = .next
    (finishBool (receiveBlock 0 p.length
      (s.drive (t :: (p ++ beBytes 2 (crc16 s.params.crc16Seed p).toNat))))) := rfl
theorem exec_dataBlock_toCard (t : Byte) (p : List Byte) :
    exec (.dataBlock .toCard t p) s = .next (finishBool (transmitFrame t p s)) := rfl
theorem exec_beginOp (f : Nat) : exec (.beginOp f) s = .next
    (match runInit longestPath (beginEntry s) with
      | (none, s1) => beginDone f s1
      | (some cls, s1) => beginFailed cls s1) := rfl
theorem exec_endOp : exec .endOp s = .next (((s.setInitialized false).setCs .released).finish .done none) := rfl
theorem exec_readSectors (a : BitVec 64) (n : Nat) :
    exec (.readSectors a n) s = .next (gated s (readOperation a n s)) := rfl
theorem exec_writeSectors (a : BitVec 64) (n : Nat) :
    exec (.writeSectors a n) s = .next (gated s (writeOperation a n s)) := rfl
theorem exec_eraseSectors (a : BitVec 64) (n : Nat) :
    exec (.eraseSectors a n) s = .next (gated s (eraseOperation a n s)) := rfl
theorem exec_sync : exec .sync s = .next (gated s (onBus syncBody s)) := rfl
theorem exec_crc7 (d : List Byte) :
    exec (.crc7 d) s = .next ((s.setCrc7 (crc7 d)).finish (.crc7 (crc7 d)) none) := rfl
theorem exec_crc16 (c : BitVec 16) (d : List Byte) :
    exec (.crc16 c d) s = .next ((s.setCrc16 (crc16 c d)).finish (.crc16 (crc16 c d)) none) := rfl
theorem exec_buildFrame (x : BitVec 6) (a : BitVec 32) :
    exec (.buildFrame x a) s = .next ((loadFrame x a s).finish (.frame (buildFrame x a)) none) := rfl
theorem exec_parseFrame (f : BitVec 48) : exec (.parseFrame f) s = .next
    ((parseAccumulator f s).finish (.parsed (parseFrame f)) (parseClass (parseFrame f))) := rfl
theorem exec_waitReady : exec .waitReady s = .next
    (finishBool (if (waitReady s).1 then none else some .transportTimeout, (waitReady s).2)) := rfl
theorem exec_receiveBlock (o n : Nat) :
    exec (.receiveBlock o n) s = .next (finishBool (receiveBlock o n s)) := rfl
theorem exec_transmitBlock (o : Nat) (t : Byte) :
    exec (.transmitBlock o t) s = .next (finishBool (transmitBlock o t s)) := rfl
theorem exec_field (v : BitVec 128) (a w : Nat) : exec (.field v a w) s = .next
    (match fieldOf v a w with
      | some v => s.finish (.field w v) none
      | none => s.refuse) := rfl
theorem exec_reserved (x : BitVec 5) : exec (.reserved x) s = .next s.refuse := rfl

/-- The instructions that are neither of the bring-up nor gated. -/
def isUnit : Instr → Bool
  | .beginOp _ => false
  | .endOp => false
  | i => !isGated i

theorem isUnit_of {i : Instr} (h : isGated i = false) (h1 : ∀ f, i ≠ .beginOp f) (h2 : i ≠ .endOp) :
    isUnit i = true := by
  cases i <;> first | rfl | exact absurd rfl h2 | exact absurd rfl (h1 _) | cases h

theorem drive_nil : s.drive [] = s := rfl

theorem parseAccumulator_ran (f : BitVec 48) : Ran 0 s (parseAccumulator f s) := by
  unfold parseAccumulator
  split
  · exact Ran.setCrc7 s _
  · exact Ran.refl s

theorem finishBool_ran (r : Option ErrorClass × State) : Ran 0 r.2 (finishBool r) := Ran.finish _ _ _

theorem readResponse_ran (n : Nat) (make : Byte → List Byte → Result) :
    Ran (s.params.maxWaitBytes + n) s (readResponse n make s) := by
  have hp := poll_ran isResponse 0 s.params.maxWaitBytes s
  unfold readResponse
  rw [pollResponse]
  split
  · rename_i s1 h
    rw [h] at hp
    exact (hp.trans (Ran.finish _ _ _)).mono (by omega)
  · rename_i r s1 h
    rw [h] at hp
    exact ((hp.trans (captureDirect_ran r n s1)).trans (Ran.finish _ _ _)).mono (by omega)

theorem receiveToken_ran : Ran s.params.tokenWaitSteps s (receiveToken s) := by
  have hp := poll_ran isToken s.params.tokenWaitDelayUs s.params.tokenWaitSteps s
  unfold receiveToken
  rw [pollTokenLong]
  split
  · rename_i s1 h
    rw [h] at hp
    exact hp.trans (Ran.finish _ _ _)
  · rename_i t s1 h
    rw [h] at hp
    exact (hp.trans (Ran.setTok _ _)).trans (Ran.finish _ _ _)

/-- Whatever the card answers, an instruction other than BEGIN, END and the gated ones ends, and changes
nothing but transient storage, the wire, the report and one region of the block buffer. -/
theorem exec_unit_moved {i : Instr} (h : isUnit i = true) : ∃ t bytes n a len,
    exec i s = .next t ∧ Moved n a len (s.drive bytes) t ∧
      ((∀ o n, i ≠ .receiveBlock o n) → (∀ t p, i ≠ .dataBlock .fromCard t p) → t.buf = s.buf) := by
  have plain : ∀ {n : Nat} {t : State} (bytes : List Byte), exec i s = .next t → Ran n (s.drive bytes) t →
      ∃ t bytes n a len, exec i s = .next t ∧ Moved n a len (s.drive bytes) t ∧
        ((∀ o n, i ≠ .receiveBlock o n) → (∀ t p, i ≠ .dataBlock .fromCard t p) → t.buf = s.buf) :=
    fun {n t} bytes he hr => ⟨t, bytes, n, 0, 0, he, hr.moved 0 0, fun _ _ => hr.buf⟩
  cases hc : commandOf i with
  | some x =>
    obtain ⟨c, a, n⟩ := x
    exact plain [] (exec_of_commandOf hc s) ((sendCommand_ran c a n s).trans (finishCommand_ran _))
  | none =>
    cases i with
    | sendCommandRetry c a q n d =>
      exact plain [] rfl ((sendCommandRetry_ran c a q n d s).trans (finishRetry_ran _))
    | r1 f =>
      refine plain [responseByte f] rfl (n := s.params.maxWaitBytes) ?_
      have hp := poll_ran isResponse 0 s.params.maxWaitBytes (s.drive [responseByte f])
      rw [pollResponse]
      split
      · rename_i s1 h
        rw [State.drive_params] at h
        rw [h] at hp
        exact hp.trans (Ran.finish _ _ _)
      · rename_i r s1 h
        rw [State.drive_params] at h
        rw [h] at hp
        exact hp.trans (Ran.finish _ _ _)
    | r2 f t => exact plain _ rfl (readResponse_ran _ _ _)
    | r3 f v => exact plain _ rfl (readResponse_ran _ _ _)
    | r7 f v => exact plain _ rfl (readResponse_ran _ _ _)
    | tokenStart d =>
      cases d with
      | fromCard => exact plain _ rfl (receiveToken_ran _)
      | toCard => exact plain [] rfl ((sendToken_ran _ s).trans (finishBool_ran _))
    | tokenStartMultiWrite => exact plain [] rfl ((sendToken_ran _ s).trans (finishBool_ran _))
    | tokenStopTran => exact plain [] rfl ((transmitFrame_ran _ _ s).trans (finishBool_ran _))
    | dataResponseAccepted i => exact plain _ rfl ((recv_ran _).trans (Ran.finish _ _ _))
    | dataBlock d t p =>
      cases d with
      | fromCard =>
        refine ⟨_, _, _, 0, p.length, rfl, (receiveBlock_moved 0 p.length _).trans
          ((finishBool_ran _).moved 0 p.length), fun _ h2 => absurd rfl (h2 _ _)⟩
      | toCard => exact plain [] rfl ((transmitFrame_ran _ _ s).trans (finishBool_ran _))
    | beginOp => cases h
    | endOp => cases h
    | readSectors => cases h
    | writeSectors => cases h
    | eraseSectors => cases h
    | sync => cases h
    | getSectorSize => exact plain [] rfl (Ran.finish _ _ _)
    | getSectorCount => exact plain [] rfl (Ran.finish _ _ _)
    | getCid => exact plain [] rfl (Ran.finish _ _ _)
    | getCsd => exact plain [] rfl (Ran.finish _ _ _)
    | crc7 d => exact plain [] rfl ((Ran.setCrc7 s _).trans (Ran.finish _ _ _))
    | crc16 c d => exact plain [] rfl ((Ran.setCrc16 s _).trans (Ran.finish _ _ _))
    | buildFrame x a => exact plain [] rfl ((loadFrame_ran x a s).trans (Ran.finish _ _ _))
    | parseFrame f => exact plain [] rfl ((parseAccumulator_ran s f).trans (Ran.finish _ _ _))
    | r1Extract => exact plain [] rfl (Ran.finish _ _ _)
    | r2Extract => exact plain [] rfl (Ran.finish _ _ _)
    | r3Extract => exact plain [] rfl (Ran.finish _ _ _)
    | r7Extract => exact plain [] rfl (Ran.finish _ _ _)
    | waitReady => exact plain [] rfl ((waitReady_ran s).trans (Ran.finish _ _ _))
    | receiveBlock o n =>
      exact ⟨_, [], _, o, n, rfl, (receiveBlock_moved o n s).trans ((finishBool_ran _).moved o n),
        fun h1 => absurd rfl (h1 _ _)⟩
    | transmitBlock o t => exact plain [] rfl ((transmitBlock_ran o t s).trans (finishBool_ran _))
    | field v a w =>
      refine plain [] rfl (n := 0) ?_
      split
      · exact Ran.finish _ _ _
      · exact Ran.refuse _
    | csdDecode => exact plain [] rfl (Ran.finish _ _ _)
    | cidDecode => exact plain [] rfl (Ran.finish _ _ _)
    | reserved => exact plain [] rfl (Ran.refuse _)
    | _ => cases hc

/-! ### The report and the flag -/

theorem veil_finishCommand (b : Bool) (v : Result) (e : Option ErrorClass) (o : CmdOut) :
    finishCommand (o, s.veil b v e) = { finishCommand (o, s) with initialized := b } := by
  unfold finishCommand
  split <;> rfl

theorem veil_finishRetry (b : Bool) (v : Result) (e : Option ErrorClass) (o : CmdOut) :
    finishRetry (o, s.veil b v e) = { finishRetry (o, s) with initialized := b } := by
  unfold finishRetry
  split <;> rfl

theorem veil_finishBool (b : Bool) (v : Result) (e : Option ErrorClass) (c : Option ErrorClass) :
    finishBool (c, s.veil b v e) = { finishBool (c, s) with initialized := b } := rfl

theorem veil_finish_eq (b : Bool) (v : Result) (e : Option ErrorClass) (w : Result) (c : Option ErrorClass) :
    (s.veil b v e).finish w c = { s.finish w c with initialized := b } := rfl

theorem veil_readResponse (b : Bool) (v : Result) (e : Option ErrorClass) (n : Nat)
    (make : Byte → List Byte → Result) :
    readResponse n make (s.veil b v e) = { readResponse n make s with initialized := b } := by
  simp only [readResponse, pollResponse, State.veil_params, veil_poll]
  rcases poll isResponse 0 s.params.maxWaitBytes s with ⟨_ | t, s1⟩
  · rfl
  · simp only [veil_captureDirect, State.veil_resp, veil_finish_eq]

theorem veil_receiveToken (b : Bool) (v : Result) (e : Option ErrorClass) :
    receiveToken (s.veil b v e) = { receiveToken s with initialized := b } := by
  simp only [receiveToken, pollTokenLong, State.veil_params, veil_poll]
  rcases poll isToken s.params.tokenWaitDelayUs s.params.tokenWaitSteps s with ⟨_ | t, s1⟩ <;> rfl

/-- A unit instruction reads neither the flag nor the report, and keeps the flag. -/
theorem exec_unit_veil {i : Instr} (h : isUnit i = true) (b : Bool) (v : Result) (e : Option ErrorClass) :
    ∃ t, exec i s = .next t ∧ exec i (s.veil b v e) = .next { t with initialized := b } := by
  cases hc : commandOf i with
  | some x =>
    obtain ⟨c, a, n⟩ := x
    refine ⟨_, exec_of_commandOf hc s, ?_⟩
    rw [exec_of_commandOf hc, veil_sendCommand, veil_finishCommand]
  | none =>
    cases i with
    | sendCommandRetry c a q n d =>
      refine ⟨_, exec_sendCommandRetry .., ?_⟩
      rw [exec_sendCommandRetry, veil_sendCommandRetry, veil_finishRetry]
    | r1 f =>
      refine ⟨_, exec_r1 .., ?_⟩
      rw [exec_r1, veil_drive]
      simp only [pollResponse, State.veil_params, veil_poll]
      rcases poll isResponse 0 (s.drive [responseByte f]).params.maxWaitBytes
        (s.drive [responseByte f]) with ⟨_ | t, s1⟩ <;> rfl
    | r2 f t => exact ⟨_, exec_r2 .., by rw [exec_r2, veil_drive, veil_readResponse]⟩
    | r3 f w => exact ⟨_, exec_r3 .., by rw [exec_r3, veil_drive, veil_readResponse]⟩
    | r7 f w => exact ⟨_, exec_r7 .., by rw [exec_r7, veil_drive, veil_readResponse]⟩
    | tokenStart d =>
      cases d with
      | fromCard =>
        exact ⟨_, exec_tokenStart_fromCard _, by rw [exec_tokenStart_fromCard, veil_drive, veil_receiveToken]⟩
      | toCard =>
        exact ⟨_, exec_tokenStart_toCard _, by rw [exec_tokenStart_toCard, veil_sendToken, veil_finishBool]⟩
    | tokenStartMultiWrite =>
      exact ⟨_, exec_tokenStartMultiWrite _, by
        rw [exec_tokenStartMultiWrite, veil_sendToken, veil_finishBool]⟩
    | tokenStopTran =>
      exact ⟨_, exec_tokenStopTran _, by rw [exec_tokenStopTran, veil_transmitFrame, veil_finishBool]⟩
    | dataResponseAccepted i =>
      exact ⟨_, exec_dataResponseAccepted .., by
        rw [exec_dataResponseAccepted, veil_drive, veil_recv, veil_finishBool]⟩
    | dataBlock d t p =>
      cases d with
      | fromCard =>
        exact ⟨_, exec_dataBlock_fromCard .., by
          rw [exec_dataBlock_fromCard, veil_drive, veil_receiveBlock, veil_finishBool]; rfl⟩
      | toCard =>
        exact ⟨_, exec_dataBlock_toCard .., by rw [exec_dataBlock_toCard, veil_transmitFrame, veil_finishBool]⟩
    | beginOp => cases h
    | endOp => cases h
    | readSectors => cases h
    | writeSectors => cases h
    | eraseSectors => cases h
    | sync => cases h
    | getSectorSize => exact ⟨_, rfl, rfl⟩
    | getSectorCount => exact ⟨_, rfl, rfl⟩
    | getCid => exact ⟨_, rfl, rfl⟩
    | getCsd => exact ⟨_, rfl, rfl⟩
    | crc7 d => exact ⟨_, rfl, rfl⟩
    | crc16 c d => exact ⟨_, rfl, rfl⟩
    | buildFrame x a =>
      exact ⟨_, exec_buildFrame .., by rw [exec_buildFrame, veil_loadFrame, veil_finish_eq]⟩
    | parseFrame f =>
      refine ⟨_, exec_parseFrame .., ?_⟩
      rw [exec_parseFrame, parseAccumulator, parseAccumulator]
      split <;> rfl
    | r1Extract => exact ⟨_, rfl, rfl⟩
    | r2Extract => exact ⟨_, rfl, rfl⟩
    | r3Extract => exact ⟨_, rfl, rfl⟩
    | r7Extract => exact ⟨_, rfl, rfl⟩
    | waitReady =>
      exact ⟨_, exec_waitReady _, by rw [exec_waitReady, veil_waitReady, veil_finishBool]⟩
    | receiveBlock o n =>
      exact ⟨_, exec_receiveBlock .., by rw [exec_receiveBlock, veil_receiveBlock, veil_finishBool]⟩
    | transmitBlock o t =>
      exact ⟨_, exec_transmitBlock .., by rw [exec_transmitBlock, veil_transmitBlock, veil_finishBool]⟩
    | field x a w =>
      refine ⟨_, exec_field .., ?_⟩
      rw [exec_field]
      split <;> rfl
    | csdDecode => exact ⟨_, rfl, rfl⟩
    | cidDecode => exact ⟨_, rfl, rfl⟩
    | reserved => exact ⟨_, rfl, rfl⟩
    | _ => cases hc

end Sys2Proof.Machine
end

