-- ==== Sys2Proof/Laws/Block.lean ====
section
/-!
SUPPORT. The block layer against any card: what its bodies on the bus can change, and with which classes
they end (`46_block_ops.md` R321-R343).
-/

namespace Sys2Proof.Machine

/-! ### Any card -/

theorem readBlocks_moved (n k : Nat) (s : State) :
    Moved (n * (s.params.tokenWaitSteps + (sectorSize + 2))) (sectorSize * k) (sectorSize * n) s
      (readBlocks n k s).2 := by
  induction n generalizing k s with
  | zero => exact ((Ran.refl s).moved _ _).mono (Nat.zero_le _)
  | succ n ih =>
    have h1 := receiveBlock_moved (sectorSize * k) sectorSize s
    unfold readBlocks
    split
    · rename_i s1 h
      rw [h] at h1
      have h2 := ih (k + 1) s1
      rw [h1.host.params] at h2
      refine ((h1.widen (Nat.le_refl _) ?_).trans (h2.widen ?_ ?_)).mono ?_
      · rw [Nat.mul_succ]; omega
      · rw [Nat.mul_succ]; omega
      · rw [Nat.mul_succ, Nat.mul_succ]; omega
      · rw [Nat.succ_mul]; omega
    · rename_i e s1 h
      rw [h] at h1
      refine ((h1.widen (Nat.le_refl _) ?_).trans
        ((unspecify_moved (sectorSize * (k + 1)) (sectorSize * n) s1).widen ?_ ?_)).mono ?_
      · rw [Nat.mul_succ]; omega
      · rw [Nat.mul_succ]; omega
      · rw [Nat.mul_succ, Nat.mul_succ]; omega
      · rw [Nat.succ_mul]; omega

theorem readBlocks_cls {n k : Nat} {s : State} {c : ErrorClass} (h : (readBlocks n k s).1 = some c) :
    BusClass c := by
  induction n generalizing k s with
  | zero => cases h
  | succ n ih =>
    unfold readBlocks at h
    split at h
    · exact ih h
    · rename_i e s1 he
      exact receiveBlock_cls (by rw [he]; exact h)

theorem requireReady_cls {cmd : Byte} (h6 : cmd.getLsbD 6 = false) {argument : BitVec 32} {n : Nat}
    {s : State} {c : ErrorClass} (h : requireReady (sendCommand cmd argument n s).1 = some c) :
    BusClass c := by
  unfold requireReady at h
  split at h
  · cases h
  · cases h; exact sendCommand_failClass h6 argument n s

theorem readSingle_moved (arg : BitVec 32) (s : State) : ∃ n,
    Moved n 0 sectorSize s (readSingle arg s).2 := by
  have h1 := (sendCommand_ran 0x11 arg 0 s).moved 0 sectorSize
  unfold readSingle
  simp only
  split
  · exact ⟨_, h1.trans (receiveBlock_moved 0 sectorSize _)⟩
  · exact ⟨_, h1.trans (unspecify_moved 0 sectorSize _)⟩

theorem readSingle_cls {arg : BitVec 32} {s : State} {c : ErrorClass} (h : (readSingle arg s).1 = some c) :
    BusClass c := by
  unfold readSingle at h
  simp only at h
  split at h
  · exact receiveBlock_cls h
  · rename_i e he
    cases h
    exact requireReady_cls (by decide) he

theorem readMultiple_moved (arg : BitVec 32) (count : Nat) (s : State) : ∃ n,
    Moved n 0 (sectorSize * count) s (readMultiple arg count s).2 := by
  have h1 := (sendCommand_ran 0x12 arg 0 s).moved 0 (sectorSize * count)
  unfold readMultiple
  simp only
  split
  · exact ⟨_, (h1.trans (readBlocks_moved count 0 _)).trans ((sendCommand_ran 0x0C 0 0 _).moved 0 _)⟩
  · exact ⟨_, h1.trans (unspecify_moved 0 _ _)⟩

theorem readMultiple_cls {arg : BitVec 32} {count : Nat} {s : State} {c : ErrorClass}
    (h : (readMultiple arg count s).1 = some c) : BusClass c := by
  unfold readMultiple at h
  simp only at h
  split at h
  · exact readBlocks_cls h
  · rename_i e he
    cases h
    exact requireReady_cls (by decide) he

theorem writeBlocks_ran (n k : Nat) (s : State) : ∃ m, Ran m s (writeBlocks n k s).2 := by
  induction n generalizing k s with
  | zero => exact ⟨0, Ran.refl s⟩
  | succ n ih =>
    have h1 := transmitBlock_ran (sectorSize * k) tokenStartMultiWriteByte s
    unfold writeBlocks
    split
    · rename_i s1 h
      rw [h] at h1
      obtain ⟨m, h2⟩ := ih (k + 1) s1
      exact ⟨_, h1.trans h2⟩
    · rename_i e s1 h
      rw [h] at h1
      exact ⟨_, h1⟩

theorem writeBlocks_cls {n k : Nat} {s : State} {c : ErrorClass} (h : (writeBlocks n k s).1 = some c) :
    BusClass c := by
  induction n generalizing k s with
  | zero => cases h
  | succ n ih =>
    unfold writeBlocks at h
    split at h
    · exact ih h
    · rename_i e s1 he
      exact transmitBlock_cls (by rw [he]; exact h)

theorem writeSingle_ran (arg : BitVec 32) (s : State) : ∃ n, Ran n s (writeSingle arg s).2 := by
  have h1 := sendCommand_ran 0x18 arg 0 s
  unfold writeSingle
  simp only
  split
  · exact ⟨_, h1.trans (transmitBlock_ran 0 tokenStartByte _)⟩
  · exact ⟨_, h1⟩

theorem writeSingle_cls {arg : BitVec 32} {s : State} {c : ErrorClass}
    (h : (writeSingle arg s).1 = some c) : BusClass c := by
  unfold writeSingle at h
  simp only at h
  split at h
  · exact transmitBlock_cls h
  · rename_i e he
    cases h
    exact requireReady_cls (by decide) he

theorem preErase_ran (count : Nat) (s : State) : ∃ n, Ran n s (preErase count s) := by
  unfold preErase
  split
  · exact ⟨_, sendCommand_ran 0x97 _ 0 s⟩
  · exact ⟨0, Ran.refl s⟩

theorem writeMultiple_ran (arg : BitVec 32) (count : Nat) (s : State) : ∃ n,
    Ran n s (writeMultiple arg count s).2 := by
  obtain ⟨k, h0⟩ := preErase_ran count s
  have h1 := h0.trans (sendCommand_ran 0x19 arg 0 _)
  unfold writeMultiple
  simp only
  split
  · obtain ⟨m, h2⟩ := writeBlocks_ran count 0 (sendCommand 0x19 arg 0 (preErase count s)).2
    exact ⟨_, (h1.trans h2).trans (transmitBlock_ran 0 tokenStopTranByte _)⟩
  · exact ⟨_, h1⟩

theorem writeMultiple_cls {arg : BitVec 32} {count : Nat} {s : State} {c : ErrorClass}
    (h : (writeMultiple arg count s).1 = some c) : BusClass c := by
  unfold writeMultiple at h
  simp only at h
  split at h
  · simp only at h
    cases hb : (writeBlocks count 0 (sendCommand 0x19 arg 0 (preErase count s)).2).1 with
    | some e =>
      rw [hb] at h
      cases h
      exact writeBlocks_cls hb
    | none =>
      rw [hb, Option.none_or] at h
      exact transmitBlock_cls h
  · rename_i e he
    cases h
    exact requireReady_cls (by decide) he

theorem eraseRange_ran (first last : BitVec 32) (s : State) : ∃ n, Ran n s (eraseRange first last s).2 := by
  have h1 := sendCommand_ran 0x20 first 0 s
  have h2 := h1.trans (sendCommand_ran 0x21 last 0 _)
  have h3 := h2.trans (sendCommand_ran 0x26 0 0 _)
  unfold eraseRange
  simp only
  split
  · exact ⟨_, h1⟩
  · split
    · exact ⟨_, h2⟩
    · exact ⟨_, h3⟩

theorem eraseRange_cls {first last : BitVec 32} {s : State} {c : ErrorClass}
    (h : (eraseRange first last s).1 = some c) : BusClass c := by
  unfold eraseRange at h
  simp only at h
  split at h
  · rename_i e he
    cases h
    exact requireReady_cls (by decide) he
  · split at h
    · rename_i e he
      cases h
      exact requireReady_cls (by decide) he
    · exact requireReady_cls (by decide) h

theorem syncBody_ran (s : State) : ∃ n, Ran n s (syncBody s).2 := ⟨_, waitReady_ran s⟩

theorem syncBody_cls {s : State} {c : ErrorClass} (h : (syncBody s).1 = some c) : BusClass c := by
  unfold syncBody at h
  simp only at h
  split at h
  · cases h
  · cases h; exact .timeout

/-! ### The bodies of the gated operations -/

/-- What a gated operation does on the bus once its tests are passed. -/
inductive Body : Instr → (State → Option ErrorClass × State) → Prop where
  | readSingle (a : BitVec 64) (arg : BitVec 32) : Body (.readSectors a 1) (readSingle arg)
  | readMultiple (a : BitVec 64) (n : Nat) (arg : BitVec 32) : Body (.readSectors a n) (readMultiple arg n)
  | writeSingle (a : BitVec 64) (arg : BitVec 32) : Body (.writeSectors a 1) (writeSingle arg)
  | writeMultiple (a : BitVec 64) (n : Nat) (arg : BitVec 32) : Body (.writeSectors a n) (writeMultiple arg n)
  | erase (a : BitVec 64) (n : Nat) (first last : BitVec 32) : Body (.eraseSectors a n) (eraseRange first last)
  | sync : Body .sync syncBody

/-- The bytes of the block buffer an operation may write. -/
def region : Instr → Nat
  | .readSectors _ n => sectorSize * n
  | _ => 0

theorem Body.moved {i : Instr} {f : State → Option ErrorClass × State} (h : Body i f) (s : State) :
    ∃ n, Moved n 0 (region i) s (f s).2 := by
  cases h with
  | readSingle a arg => exact readSingle_moved arg s
  | readMultiple a n arg => exact readMultiple_moved arg n s
  | writeSingle a arg => exact (writeSingle_ran arg s).imp fun _ h => h.moved 0 _
  | writeMultiple a n arg => exact (writeMultiple_ran arg n s).imp fun _ h => h.moved 0 _
  | erase a n first last => exact (eraseRange_ran first last s).imp fun _ h => h.moved 0 _
  | sync => exact (syncBody_ran s).imp fun _ h => h.moved 0 _

/-- Only a reading body writes the block buffer. -/
theorem Body.buf {i : Instr} {f : State → Option ErrorClass × State} (h : Body i f)
    (hi : ∀ a n, i ≠ .readSectors a n) (s : State) : (f s).2.buf = s.buf := by
  cases h with
  | readSingle a arg => exact absurd rfl (hi _ _)
  | readMultiple a n arg => exact absurd rfl (hi _ _)
  | writeSingle a arg => exact (writeSingle_ran arg s).elim fun _ h => h.buf
  | writeMultiple a n arg => exact (writeMultiple_ran arg n s).elim fun _ h => h.buf
  | erase a n first last => exact (eraseRange_ran first last s).elim fun _ h => h.buf
  | sync => exact (syncBody_ran s).elim fun _ h => h.buf

theorem Body.cls {i : Instr} {f : State → Option ErrorClass × State} (h : Body i f) {s : State}
    {c : ErrorClass} (hc : (f s).1 = some c) : BusClass c := by
  cases h with
  | readSingle => exact readSingle_cls hc
  | readMultiple => exact readMultiple_cls hc
  | writeSingle => exact writeSingle_cls hc
  | writeMultiple => exact writeMultiple_cls hc
  | erase => exact eraseRange_cls hc
  | sync => exact syncBody_cls hc

theorem Body.veil {i : Instr} {f : State → Option ErrorClass × State} (h : Body i f) (b : Bool)
    (v : Result) (e : Option ErrorClass) (s : State) :
    f (s.veil b v e) = ((f s).1, (f s).2.veil b v e) := by
  cases h with
  | readSingle => exact veil_readSingle ..
  | readMultiple => exact veil_readMultiple ..
  | writeSingle => exact veil_writeSingle ..
  | writeMultiple => exact veil_writeMultiple ..
  | erase => exact veil_eraseRange ..
  | sync => exact veil_syncBody ..

/-- How a gated operation comes out, apart from its body: turned away at the gate, refused or empty, or run
on the bus; which of them depends on the operands, the flag and the card type alone. -/
theorem exec_gated {i : Instr} (h : isGated i = true) (init : Bool) (cardType : BitVec 4) :
    (∃ v c, (c = none ∨ c = some .refused ∨ c = some .notInitialized) ∧
      (c = some .notInitialized ↔ init = false) ∧
      ∀ s : State, s.initialized = init → s.cardType = cardType → exec i s = .next (s.finish v c)) ∨
    (init = true ∧ ∃ f, Body i f ∧
      ∀ s : State, s.initialized = init → s.cardType = cardType → exec i s = .next (onBus f s)) := by
  cases init with
  | false =>
    refine .inl ⟨.bool false, some .notInitialized, .inr (.inr rfl), by simp, fun s hs _ => ?_⟩
    have hg : ∀ u : State, gated s u = s.finish (.bool false) (some .notInitialized) :=
      fun u => by rw [gated, hs]; rfl
    cases i with
    | readSectors a n => rw [exec_readSectors, hg]
    | writeSectors a n => rw [exec_writeSectors, hg]
    | eraseSectors a n => rw [exec_eraseSectors, hg]
    | sync => rw [exec_sync, hg]
    | _ => cases h
  | true =>
    have hg : ∀ (s u : State), s.initialized = true → gated s u = u := fun s u hs => by simp [gated, hs]
    cases i with
    | sync => exact .inr ⟨rfl, _, .sync, fun s hs _ => by rw [exec_sync, hg _ _ hs]⟩
    | readSectors a n =>
      by_cases h0 : n = 0
      · exact .inl ⟨.bool false, none, .inl rfl, by simp, fun s hs _ => by
          rw [exec_readSectors, hg _ _ hs, readOperation, if_pos h0]⟩
      · cases hc : cmdAddr (isBlock cardType) a.toNat with
        | none =>
          exact .inl ⟨.failure, some .refused, .inr (.inl rfl), by simp, fun s hs ht => by
            rw [exec_readSectors, hg _ _ hs, readOperation, if_neg h0, ht, hc]; rfl⟩
        | some arg =>
          by_cases h1 : n = 1
          · subst h1
            exact .inr ⟨rfl, _, .readSingle a arg, fun s hs ht => by
              rw [exec_readSectors, hg _ _ hs, readOperation, if_neg h0, ht, hc]; rfl⟩
          · refine .inr ⟨rfl, _, .readMultiple a n arg, fun s hs ht => ?_⟩
            rw [exec_readSectors, hg _ _ hs, readOperation, if_neg h0, ht, hc]
            simp only [h1, if_false]
    | writeSectors a n =>
      by_cases h0 : n = 0
      · exact .inl ⟨.bool false, none, .inl rfl, by simp, fun s hs _ => by
          rw [exec_writeSectors, hg _ _ hs, writeOperation, if_pos h0]⟩
      · cases hc : cmdAddr (isBlock cardType) a.toNat with
        | none =>
          exact .inl ⟨.failure, some .refused, .inr (.inl rfl), by simp, fun s hs ht => by
            rw [exec_writeSectors, hg _ _ hs, writeOperation, if_neg h0, ht, hc]; rfl⟩
        | some arg =>
          by_cases h1 : n = 1
          · subst h1
            exact .inr ⟨rfl, _, .writeSingle a arg, fun s hs ht => by
              rw [exec_writeSectors, hg _ _ hs, writeOperation, if_neg h0, ht, hc]; rfl⟩
          · refine .inr ⟨rfl, _, .writeMultiple a n arg, fun s hs ht => ?_⟩
            rw [exec_writeSectors, hg _ _ hs, writeOperation, if_neg h0, ht, hc]
            simp only [h1, if_false]
    | eraseSectors a n =>
      by_cases h0 : n = 0
      · exact .inl ⟨.bool false, none, .inl rfl, by simp, fun s hs _ => by
          rw [exec_eraseSectors, hg _ _ hs, eraseOperation, if_pos h0]⟩
      · cases hc : cmdAddr (isBlock cardType) a.toNat with
        | none =>
          exact .inl ⟨.failure, some .refused, .inr (.inl rfl), by simp, fun s hs ht => by
            rw [exec_eraseSectors, hg _ _ hs, eraseOperation, if_neg h0, ht, hc]; rfl⟩
        | some first =>
          cases hd : cmdAddr (isBlock cardType) (a.toNat + n - 1) with
          | none =>
            exact .inl ⟨.failure, some .refused, .inr (.inl rfl), by simp, fun s hs ht => by
              rw [exec_eraseSectors, hg _ _ hs, eraseOperation, if_neg h0, ht, hc, hd]; rfl⟩
          | some last =>
            exact .inr ⟨rfl, _, .erase a n first last, fun s hs ht => by
              rw [exec_eraseSectors, hg _ _ hs, eraseOperation, if_neg h0, ht, hc, hd]⟩
    | _ => cases h

/-! ### Each gated operation by its operands -/

theorem gated_of {s : State} (h : s.initialized = true) (u : State) : gated s u = u := by simp [gated, h]

theorem cmdAddr_eq_none {block : Bool} {a : Nat} :
    cmdAddr block a = none ↔ 2 ^ 32 ≤ (if block = true then a else a * 512) := by
  unfold cmdAddr
  rw [Nat.shiftLeft_eq]
  cases block <;> simp [sectorShift]

theorem exec_readSectors_one {s : State} {a : BitVec 64} {arg : BitVec 32} (hi : s.initialized = true)
    (hc : cmdAddr (isBlock s.cardType) a.toNat = some arg) :
    exec (.readSectors a 1) s = .next (onBus (readSingle arg) s) := by
  rw [exec_readSectors, gated_of hi, readOperation, hc]; rfl

theorem exec_readSectors_many {s : State} {a : BitVec 64} {arg : BitVec 32} {n : Nat}
    (hi : s.initialized = true) (hn : 1 < n) (hc : cmdAddr (isBlock s.cardType) a.toNat = some arg) :
    exec (.readSectors a n) s = .next (onBus (readMultiple arg n) s) := by
  rw [exec_readSectors, gated_of hi, readOperation, if_neg (by omega), hc]
  simp only [show n ≠ 1 by omega, if_false]

theorem exec_writeSectors_one {s : State} {a : BitVec 64} {arg : BitVec 32} (hi : s.initialized = true)
    (hc : cmdAddr (isBlock s.cardType) a.toNat = some arg) :
    exec (.writeSectors a 1) s = .next (onBus (writeSingle arg) s) := by
  rw [exec_writeSectors, gated_of hi, writeOperation, hc]; rfl

theorem exec_writeSectors_many {s : State} {a : BitVec 64} {arg : BitVec 32} {n : Nat}
    (hi : s.initialized = true) (hn : 1 < n) (hc : cmdAddr (isBlock s.cardType) a.toNat = some arg) :
    exec (.writeSectors a n) s = .next (onBus (writeMultiple arg n) s) := by
  rw [exec_writeSectors, gated_of hi, writeOperation, if_neg (by omega), hc]
  simp only [show n ≠ 1 by omega, if_false]

theorem exec_eraseSectors_range {s : State} {a : BitVec 64} {first last : BitVec 32} {n : Nat}
    (hi : s.initialized = true) (hn : n ≠ 0) (hc : cmdAddr (isBlock s.cardType) a.toNat = some first)
    (hd : cmdAddr (isBlock s.cardType) (a.toNat + n - 1) = some last) :
    exec (.eraseSectors a n) s = .next (onBus (eraseRange first last) s) := by
  rw [exec_eraseSectors, gated_of hi, eraseOperation, if_neg hn, hc, hd]

theorem exec_sync_of {s : State} (hi : s.initialized = true) :
    exec .sync s = .next (onBus syncBody s) := by
  rw [exec_sync, gated_of hi]

/-- An address that does not fit is refused (`20_memory.md` R64). -/
theorem exec_readSectors_refused {s : State} {a : BitVec 64} {n : Nat} (hi : s.initialized = true)
    (hn : n ≠ 0) (hc : cmdAddr (isBlock s.cardType) a.toNat = none) :
    exec (.readSectors a n) s = .next s.refuse := by
  rw [exec_readSectors, gated_of hi, readOperation, if_neg hn, hc]

theorem exec_writeSectors_refused {s : State} {a : BitVec 64} {n : Nat} (hi : s.initialized = true)
    (hn : n ≠ 0) (hc : cmdAddr (isBlock s.cardType) a.toNat = none) :
    exec (.writeSectors a n) s = .next s.refuse := by
  rw [exec_writeSectors, gated_of hi, writeOperation, if_neg hn, hc]

theorem exec_eraseSectors_refused {s : State} {a : BitVec 64} {n : Nat} (hi : s.initialized = true)
    (hn : n ≠ 0) (hc : cmdAddr (isBlock s.cardType) a.toNat = none ∨
      cmdAddr (isBlock s.cardType) (a.toNat + n - 1) = none) :
    exec (.eraseSectors a n) s = .next s.refuse := by
  rw [exec_eraseSectors, gated_of hi, eraseOperation, if_neg hn]
  rcases hc with h | h <;> rw [h]
  cases cmdAddr (isBlock s.cardType) a.toNat <;> rfl

/-- A body on the bus never ends in class `refused`. -/
theorem Body.error_ne {i : Instr} {f : State → Option ErrorClass × State} (h : Body i f) (s : State) :
    (onBus f s).error ≠ some .refused := by
  intro he
  exact (h.cls (s := s.setCs .asserted) (c := .refused) he).ne_refused rfl

/-! ### Transient storage -/

theorem Body.resp {i : Instr} {f : State → Option ErrorClass × State} (h : Body i f) (s : State) :
    (f s).2.resp = s.resp := by
  have hc : ∀ (c : Byte) (a : BitVec 32) (s : State), (sendCommand c a 0 s).2.resp = s.resp :=
    fun c a s => (sendCommand_data_kept c a 0 s).1 rfl
  have hr : ∀ (n k : Nat) (s : State), (readBlocks n k s).2.resp = s.resp := by
    intro n
    induction n with
    | zero => intros; rfl
    | succ n ih =>
      intro k s
      have h1 := (receiveBlock_framing (sectorSize * k) sectorSize s).resp
      unfold readBlocks
      split
      · rename_i s1 e; rw [e] at h1; rw [ih]; exact h1
      · rename_i s1 e; rw [e] at h1; exact h1
  have ht : ∀ (o : Nat) (t : Byte) (s : State), (transmitBlock o t s).2.resp = s.resp :=
    fun o t s => (transmitBlock_framing o t s).1.resp
  have hw : ∀ (n k : Nat) (s : State), (writeBlocks n k s).2.resp = s.resp := by
    intro n
    induction n with
    | zero => intros; rfl
    | succ n ih =>
      intro k s
      have h1 := ht (sectorSize * k) tokenStartMultiWriteByte s
      unfold writeBlocks
      split
      · rename_i s1 e; rw [e] at h1; rw [ih]; exact h1
      · rename_i e1 s1 e; rw [e] at h1; exact h1
  cases h with
  | readSingle a arg =>
    unfold Machine.readSingle; simp only; split
    · rw [(receiveBlock_framing ..).resp, hc]
    · rw [State.unspecify_resp, hc]
  | readMultiple a n arg =>
    unfold Machine.readMultiple; simp only; split
    · rw [hc, hr, hc]
    · rw [State.unspecify_resp, hc]
  | writeSingle a arg =>
    unfold Machine.writeSingle; simp only; split
    · rw [ht, hc]
    · exact hc ..
  | writeMultiple a n arg =>
    have hp : (preErase n s).resp = s.resp := by unfold preErase; split; exact hc ..; rfl
    unfold Machine.writeMultiple; simp only; split
    · rw [ht, hw, hc, hp]
    · rw [hc, hp]
  | erase a n first last =>
    unfold eraseRange; simp only; split
    · exact hc ..
    · split
      · rw [hc, hc]
      · rw [hc, hc, hc]
  | sync => exact (waitReady_scratch s).resp

/-- A body that receives no block keeps the token register, one that moves none the CRC16 accumulator. -/
theorem Body.kept {i : Instr} {f : State → Option ErrorClass × State} (h : Body i f)
    (hi : ∀ a n, i ≠ .readSectors a n) (s : State) :
    (f s).2.tok = s.tok ∧ (f s).2.freeCount = s.freeCount ∧
      ((∀ a n, i ≠ .writeSectors a n) → (f s).2.crc16acc = s.crc16acc) := by
  have hc : ∀ (c : Byte) (a : BitVec 32) (s : State), SameData s (sendCommand c a 0 s).2 :=
    fun c a s => (sendCommand_data_kept c a 0 s).2 (.inl rfl)
  have ht : ∀ (o : Nat) (t : Byte) (s : State), (transmitBlock o t s).2.tok = s.tok :=
    fun o t s => (transmitBlock_framing o t s).2
  have hw : ∀ (n k : Nat) (s : State), (writeBlocks n k s).2.tok = s.tok := by
    intro n
    induction n with
    | zero => intros; rfl
    | succ n ih =>
      intro k s
      have h1 := ht (sectorSize * k) tokenStartMultiWriteByte s
      unfold writeBlocks
      split
      · rename_i s1 e; rw [e] at h1; rw [ih]; exact h1
      · rename_i e1 s1 e; rw [e] at h1; exact h1
  cases h with
  | readSingle a arg => exact absurd rfl (hi _ _)
  | readMultiple a n arg => exact absurd rfl (hi _ _)
  | writeSingle a arg =>
    refine ⟨?_, (writeSingle_ran arg s).elim fun _ h => h.freeCount, fun h => absurd rfl (h _ _)⟩
    unfold Machine.writeSingle; simp only; split
    · rw [ht, (hc ..).tok]
    · exact (hc ..).tok
  | writeMultiple a n arg =>
    refine ⟨?_, (writeMultiple_ran arg n s).elim fun _ h => h.freeCount, fun h => absurd rfl (h _ _)⟩
    have hp : (preErase n s).tok = s.tok := by unfold preErase; split; exact (hc ..).tok; rfl
    unfold Machine.writeMultiple; simp only; split
    · rw [ht, hw, (hc ..).tok, hp]
    · rw [(hc ..).tok, hp]
  | erase a n first last =>
    have h1 := hc 0x20 first s
    have h2 := h1.trans (hc 0x21 last _)
    have h3 := h2.trans (hc 0x26 0 _)
    refine ⟨?_, (eraseRange_ran first last s).elim fun _ h => h.freeCount, fun _ => ?_⟩
    · unfold eraseRange; simp only; split
      · exact h1.tok
      · split
        · exact h2.tok
        · exact h3.tok
    · unfold eraseRange; simp only; split
      · exact h1.crc16acc
      · split
        · exact h2.crc16acc
        · exact h3.crc16acc
  | sync => exact ⟨(waitReady_scratch s).tok, (waitReady_ran s).freeCount, fun _ => (waitReady_scratch s).crc16acc⟩

end Sys2Proof.Machine
end

