-- ==== Sys2Proof/Laws/Failures.lean ====
section
/-!
SUPPORT. The transceiver against a card that fails (`43_data_block.md` R200, R205, R207, R211).
-/

namespace Sys2Proof.Machine

theorem fillers_noToken {n : Nat} : ∀ x ∈ fillers n, isToken x = false := by
  intro x hx
  simp only [fillers, List.mem_replicate] at hx
  simp [isToken, hx.2]

/-- No token within the budget. -/
theorem receiveBlock_noToken {s : State} {offset n : Nat} {rest : List Byte}
    (h : s.answers = fillers s.params.tokenWaitSteps ++ rest) :
    ∃ t, receiveBlock offset n s = (some .transportTimeout, t) ∧ t.answers = rest ∧
      t.sent = s.sent ++ fillers s.params.tokenWaitSteps := by
  have hp := pollFrom_exhausted (stop := isToken) (d := s.params.tokenWaitDelayUs) (k := 1) (s := s)
    (miss := fillers s.params.tokenWaitSteps) (rest := rest) fillers_noToken (fillers_length _) h
  simp only [receiveBlock, pollTokenLong, poll, hp]
  refine ⟨_, rfl, ?_, ?_⟩
  · simp [h]
  · have := onWire_sent s (o := fillers s.params.tokenWaitSteps) (i := fillers s.params.tokenWaitSteps) rfl
    simpa only [State.sent, State.unspecify_trace, State.delay_trace, State.setAttempt_trace] using this

theorem pollTokenLong_of_answers {s : State} {k : Nat} {token : Byte} {rest : List Byte}
    (hk : k < s.params.tokenWaitSteps) (ht : token ≠ 0xFF) (h : s.answers = fillers k ++ token :: rest) :
    pollTokenLong s = (some token, ((s.onWire (fillers (k + 1)) (fillers k ++ [token])).setAttempt
      (k + 1)).delay (k * s.params.tokenWaitDelayUs)) := by
  have hp := pollFrom_of_answers (stop := isToken) (d := s.params.tokenWaitDelayUs) (k := 1) (s := s)
    (fuel := s.params.tokenWaitSteps) (miss := fillers k) (b := token) (rest := rest) fillers_noToken
    (by simpa [isToken] using ht) (by simpa using hk) h
  simp only [pollTokenLong, poll, hp, fillers_length]
  rw [Nat.add_comm 1]

/-- A wrong token: neither payload nor CRC16 is clocked. -/
theorem receiveBlock_wrongToken {s : State} {offset n k : Nat} {token : Byte} {rest : List Byte}
    (hk : k < s.params.tokenWaitSteps) (ht : token ≠ 0xFF) (ht' : token ≠ tokenStartByte)
    (h : s.answers = fillers k ++ token :: rest) :
    ∃ t, receiveBlock offset n s = (some .transportTimeout, t) ∧ t.answers = rest ∧ t.tok = token ∧
      t.sent = s.sent ++ fillers (k + 1) := by
  simp only [receiveBlock, pollTokenLong_of_answers hk ht h, ht', if_false]
  refine ⟨_, rfl, ?_, by simp, ?_⟩
  · simp only [State.unspecify_answers, State.setTok_answers, State.delay_answers, State.setAttempt_answers,
      State.onWire_answers]
    rw [h, List.append_cons, drop_after (by simp)]
  · have := onWire_sent s (o := fillers (k + 1)) (i := fillers k ++ [token]) (by simp)
    simpa only [State.sent, State.unspecify_trace, State.setTok_trace, State.delay_trace,
      State.setAttempt_trace] using this

/-- A payload whose CRC16 does not match. -/
theorem receiveBlock_badCrc {s : State} {offset k : Nat} {payload : List Byte} {hi lo : Byte}
    {rest : List Byte} (hk : k < s.params.tokenWaitSteps)
    (hc : (crc16 s.params.crc16Seed payload).toNat ≠ fromBe [hi, lo])
    (h : s.answers = fillers k ++ tokenStartByte :: (payload ++ (hi :: lo :: rest))) :
    ∃ t, receiveBlock offset payload.length s = (some .checksumMismatch, t) ∧ t.answers = rest ∧
      t.tok = tokenStartByte ∧ t.sent = s.sent ++ fillers (k + 1 + payload.length + 2) := by
  have h' : s.answers = (fillers k ++ [tokenStartByte]) ++ (payload ++ ([hi, lo] ++ rest)) := by simp [h]
  simp only [receiveBlock, pollTokenLong_of_answers hk (by decide) h, if_true, receivePayload]
  rw [recvBytes_of_answers (is := payload) (rest := [hi, lo] ++ rest)
    (by simp only [State.setTok_answers, State.delay_answers, State.setAttempt_answers, State.onWire_answers]
        rw [h', drop_after (by simp)])]
  simp only
  have h4 := recvBytes_of_answers (s := ((((s.onWire (fillers (k + 1)) (fillers k ++ [tokenStartByte])).setAttempt
    (k + 1)).delay (k * s.params.tokenWaitDelayUs)).setTok tokenStartByte).onWire (fillers payload.length) payload)
    (is := [hi, lo]) (rest := rest)
    (by simp only [State.setTok_answers, State.delay_answers, State.setAttempt_answers,
          State.onWire_answers]
        rw [h', drop_after (by simp), drop_after (by simp)])
  simp only [List.length_cons, List.length_nil, Nat.zero_add, Nat.reduceAdd] at h4
  rw [h4]
  simp only [State.setTok_params, State.delay_params, State.setAttempt_params, State.onWire_params, hc, if_false]
  refine ⟨_, rfl, ?_, by simp, ?_⟩
  · simp only [State.unspecify_answers, State.setCrc16_answers, State.setTok_answers, State.delay_answers,
      State.setAttempt_answers, State.onWire_answers]
    rw [h', drop_after (by simp), drop_after (by simp), drop_after (by simp)]
  · simp only [State.sent, State.unspecify_trace, State.setCrc16_trace, State.setTok_trace, State.delay_trace,
      State.setAttempt_trace, State.onWire_trace, List.map_append, List.reverse_append]
    rw [exchanges_sent _ (by simp), exchanges_sent _ (by simp), exchanges_sent _ (by simp), List.append_assoc,
      fillers_append, List.append_assoc, fillers_append, Nat.add_assoc (k + 1)]

/-- However a reception fails, it has taken exactly what the card sent (R205, R207). -/
theorem receiveBlock_broken {s : State} {offset n : Nat} {broken rest : List Byte} {cls : ErrorClass}
    (hb : BrokenBlock s.params n broken cls) (h : s.answers = broken ++ rest) :
    ∃ t, receiveBlock offset n s = (some cls, t) ∧ t.answers = rest ∧
      t.sent = s.sent ++ fillers broken.length := by
  cases hb with
  | noToken =>
    obtain ⟨t, ht, ha, hs⟩ := receiveBlock_noToken (offset := offset) (n := n) h
    exact ⟨t, ht, ha, by rw [hs, fillers_length]⟩
  | wrongToken k token hk h1 h2 =>
    obtain ⟨t, ht, ha, -, hs⟩ := receiveBlock_wrongToken (offset := offset) (n := n) (rest := rest) hk h1 h2
      (by simp [h])
    exact ⟨t, ht, ha, by rw [hs]; simp⟩
  | wrongChecksum k payload hi lo hk hl hc =>
    subst hl
    obtain ⟨t, ht, ha, -, hs⟩ := receiveBlock_badCrc (offset := offset) (rest := rest) hk hc
      (by simp [h, tokenStartByte])
    refine ⟨t, ht, ha, ?_⟩
    rw [hs]
    congr 2
    simp
    omega

/-- A card that stays busy is sent nothing (R211). -/
theorem transmitFrame_busy {s : State} {token : Byte} {payload busy rest : List Byte}
    (hb : ∀ b ∈ busy, b ≠ 0xFF) (hl : busy.length = s.params.readyWaitSteps) (h : s.answers = busy ++ rest) :
    ∃ t, transmitFrame token payload s = (some .transportTimeout, t) ∧ t.answers = rest ∧
      t.sent = s.sent ++ fillers busy.length := by
  simp only [transmitFrame, sendToken, waitReady_exhausted hb hl h, Bool.false_eq_true, if_false]
  refine ⟨_, rfl, ?_, ?_⟩
  · simp [h]
  · have := onWire_sent s (o := fillers busy.length) (i := busy) (by simp)
    simpa only [State.sent, State.stillBusy_trace, State.onWire_trace] using this

end Sys2Proof.Machine
end

