-- ==== Sys2Proof/Laws/Init.lean ====
section
/-!
SUPPORT. BEGIN against any card: the state machine of `44_init_fsm.md` R231 ends within its path, with a
bound on its exchanges, and in which classes.
-/

namespace Sys2Proof.Machine

/-- Activity of the state machine after `Reset`: registers of the bring-up and transient storage may have
been written, and nothing else. -/
structure Stepped (n : Nat) (s t : State) : Prop where
  host        : SameHost s t
  buf         : t.buf = s.buf
  freeCount   : t.freeCount = s.freeCount
  initialized : t.initialized = s.initialized
  sectorCount : t.sectorCount = s.sectorCount
  cs          : t.cs = s.cs
  clockHz     : t.clockHz = s.clockHz
  busConfig   : t.busConfig = s.busConfig
  grows       : Grows n s t

theorem Ran.stepped {n : Nat} {s t : State} (h : Ran n s t) : Stepped n s t :=
  ⟨h.host, h.buf, h.freeCount, h.session.initialized, h.session.sectorCount, h.control.cs,
    h.control.clockHz, h.control.busConfig, h.grows⟩

theorem Stepped.trans {m n : Nat} {s t u : State} (h : Stepped m s t) (k : Stepped n t u) :
    Stepped (m + n) s u :=
  ⟨h.host.trans k.host, k.buf.trans h.buf, k.freeCount.trans h.freeCount, k.initialized.trans h.initialized,
    k.sectorCount.trans h.sectorCount, k.cs.trans h.cs, k.clockHz.trans h.clockHz,
    k.busConfig.trans h.busConfig, h.grows.trans k.grows h.cs⟩

theorem Stepped.mono {m n : Nat} {s t : State} (h : Stepped m s t) (k : m ≤ n) : Stepped n s t :=
  ⟨h.host, h.buf, h.freeCount, h.initialized, h.sectorCount, h.cs, h.clockHz, h.busConfig, h.grows.mono k⟩

theorem Stepped.refl (s : State) : Stepped 0 s s := (Ran.refl s).stepped

/-- Writes of the registers of the bring-up. -/
theorem Stepped.setInitState {n : Nat} {s t : State} (h : Stepped n s t) (x : InitState) :
    Stepped n s (t.setInitState x) :=
  ⟨⟨h.1.1, h.1.2⟩, h.2, h.3, h.4, h.5, h.6, h.7, h.8, h.9⟩
theorem Stepped.setPathV2 {n : Nat} {s t : State} (h : Stepped n s t) (x : Bool) :
    Stepped n s (t.setPathV2 x) :=
  ⟨⟨h.1.1, h.1.2⟩, h.2, h.3, h.4, h.5, h.6, h.7, h.8, h.9⟩
theorem Stepped.setPoll {n : Nat} {s t : State} (h : Stepped n s t) (x : BitVec 8) (a : BitVec 32) :
    Stepped n s (t.setPoll x a) :=
  ⟨⟨h.1.1, h.1.2⟩, h.2, h.3, h.4, h.5, h.6, h.7, h.8, h.9⟩
theorem Stepped.setCardType {n : Nat} {s t : State} (h : Stepped n s t) (x : BitVec 4) :
    Stepped n s (t.setCardType x) :=
  ⟨⟨h.1.1, h.1.2⟩, h.2, h.3, h.4, h.5, h.6, h.7, h.8, h.9⟩
theorem Stepped.setCsd {n : Nat} {s t : State} (h : Stepped n s t) (x : BitVec 128) :
    Stepped n s (t.setCsd x) :=
  ⟨⟨h.1.1, h.1.2⟩, h.2, h.3, h.4, h.5, h.6, h.7, h.8, h.9⟩
theorem Stepped.setCid {n : Nat} {s t : State} (h : Stepped n s t) (x : BitVec 128) :
    Stepped n s (t.setCid x) :=
  ⟨⟨h.1.1, h.1.2⟩, h.2, h.3, h.4, h.5, h.6, h.7, h.8, h.9⟩

/-! ### The path -/

/-- A card type that a completed bring-up has (R250, R255). -/
def usableCardType (v : BitVec 4) : Prop := v = 0b0001 ∨ v = 0b0010 ∨ v = 0b0100 ∨ v = 0b1100

/-- What the registers say in each state of the machine. -/
structure OnPath (s : State) : Prop where
  poll     : s.pollCmd = 0x00 ∨ s.pollCmd = 0xA9 ∨ s.pollCmd = 0x01
  v2       : s.pathV2 = true → s.pollCmd = 0xA9 ∧ s.pollArg = 0x40000000
  arg      : s.pollArg = 0 ∨ s.pollArg = 0x40000000

/-- On the V2 path the ready poll is the one R244 sets. -/
def AtPoll (s : State) : Prop := s.initState = .readyPoll → s.pathV2 = true → s.pollCmd = 0xA9

/-- What is known of card type and capacity in the last two states. -/
structure Found (s : State) : Prop where
  geometry : s.initState = .geometryRead → usableCardType s.cardType
  done     : s.initState = .done → usableCardType s.cardType ∧
    sizeAccepted s.params (csdDecode s.csd).size = true

/-- The number of transitions left. -/
def rank : InitState → Nat
  | .reset => 7
  | .idleNegotiation => 6
  | .versionBranch => 5
  | .voltageCheck => 4
  | .readyPoll => 3
  | .ocrRead => 2
  | .blockLengthSet => 2
  | .geometryRead => 1
  | .done => 0
  | .failed => 0

/-- The exchanges of state GeometryRead. -/
def geometryCost (w : Nat) : Nat := 2 * (6 + 1 + w + w + 16 + 2)

/-- The exchanges of the bring-up left, from each state (`70_reset_and_hazards.md` R431). -/
def budget (s : State) : Nat :=
  let w := s.params.maxWaitBytes
  let polls := s.params.readyPollAttempts * (2 * (6 + w))
  let rest := 2 * (6 + w) + polls + (6 + w) + geometryCost w
  match s.initState with
  | .reset => s.params.dummyBytes + (s.params.cmd0Attempts * (6 + w) + ((6 + w + 4) + rest))
  | .idleNegotiation => s.params.cmd0Attempts * (6 + w) + ((6 + w + 4) + rest)
  | .versionBranch => (6 + w + 4) + rest
  | .voltageCheck => rest
  | .readyPoll =>
    if s.pathV2 then polls + (6 + w + 4) + geometryCost w else rest
  | .ocrRead => 6 + w + 4 + geometryCost w
  | .blockLengthSet => 6 + w + geometryCost w
  | .geometryRead => geometryCost w
  | .done => 0
  | .failed => 0

/-- The classes with which the machine fails in `t` (`60_exceptions.md` R362): class (d) with a CSD whose
capacity is not usable. -/
def InitClass (t : State) (c : ErrorClass) : Prop :=
  BusClass c ∨ c = .invalidGeometry ∧ sizeAccepted t.params (csdDecode t.csd).size = false

/-- One transition after `Reset`. -/
structure Advances (s : State) (r : InitStep) : Prop where
  stepped : ∃ n, Stepped n s r.2 ∧ n + budget r.2 ≤ budget s
  onPath  : OnPath s → OnPath r.2
  atPoll  : AtPoll r.2
  found   : Found s → Found r.2
  next    : r.1 = none → rank r.2.initState < rank s.initState ∧ r.2.initState ≠ .failed
  failed  : ∀ c, r.1 = some c → r.2.initState = .failed ∧ InitClass r.2 c

theorem legacyProbe_stepped (s : State) :
    Stepped (2 * (6 + s.params.maxWaitBytes)) s (legacyProbe s) ∧ (legacyProbe s).initState = s.initState ∧
      (legacyProbe s).pathV2 = s.pathV2 ∧ (legacyProbe s).pollArg = 0 ∧
      ((legacyProbe s).pollCmd = 0xA9 ∨ (legacyProbe s).pollCmd = 0x01) ∧
      (legacyProbe s).cardType = s.cardType ∧ (legacyProbe s).csd = s.csd := by
  have h := sendCommand_ran 0xA9 0 0 s
  rw [commandBound_A9] at h
  refine ⟨h.stepped.setPoll _ _, h.control.initState, h.control.pathV2, rfl, ?_, h.session.cardType,
    h.session.csd⟩
  show (if _ then _ else _) = _ ∨ (if _ then _ else _) = _
  split <;> simp

/-- Transient activity leaves what the registers of the bring-up say. -/
theorem Ran.onPath {n : Nat} {s t : State} (h : Ran n s t) (k : OnPath s) : OnPath t :=
  ⟨by rw [h.control.pollCmd]; exact k.poll, by rw [h.control.pathV2, h.control.pollCmd, h.control.pollArg]; exact k.v2,
    by rw [h.control.pollArg]; exact k.arg⟩

theorem OnPath.setInitState {s : State} (h : OnPath s) (x : InitState) : OnPath (s.setInitState x) :=
  ⟨h.poll, h.v2, h.arg⟩
theorem OnPath.setCardType {s : State} (h : OnPath s) (x : BitVec 4) : OnPath (s.setCardType x) :=
  ⟨h.poll, h.v2, h.arg⟩
theorem OnPath.setCsd {s : State} (h : OnPath s) (x : BitVec 128) : OnPath (s.setCsd x) :=
  ⟨h.poll, h.v2, h.arg⟩
theorem OnPath.setCid {s : State} (h : OnPath s) (x : BitVec 128) : OnPath (s.setCid x) :=
  ⟨h.poll, h.v2, h.arg⟩
theorem OnPath.setPathV2_false {s : State} (h : OnPath s) : OnPath (s.setPathV2 false) :=
  ⟨h.poll, fun hv => (by cases hv), h.arg⟩

/-- A state that is neither of the last two knows nothing of the card. -/
theorem Found.of_ne {s : State} (h1 : s.initState ≠ .geometryRead) (h2 : s.initState ≠ .done) : Found s :=
  ⟨fun h => absurd h h1, fun h => absurd h h2⟩

/-- The transition to `Failed` after activity of `n` exchanges. -/
theorem advances_fail {n : Nat} {s t : State} {c : ErrorClass} (h : Stepped n s t) (hn : n ≤ budget s)
    (hp : OnPath s → OnPath t) (hc : InitClass t c) : Advances s (fail c t) where
  stepped := ⟨n, h.setInitState _, hn⟩
  onPath := fun k => (hp k).setInitState _
  atPoll := fun h => by cases h
  found := fun _ => .of_ne (by simp [fail]) (by simp [fail])
  next := fun k => by cases k
  failed := fun c' hc' => by cases hc'; exact ⟨rfl, hc⟩

theorem advances_idleNegotiation {s : State} (hs : s.initState = .idleNegotiation) :
    Advances s (initIdleNegotiation s) := by
  have h := sendCommandRetry_ran 0x00 0 1 s.params.cmd0Attempts s.params.cmd0RetryDelayUs s
  rw [commandBound_00] at h
  have hc : ∀ {t n d}, InitClass t (sendCommandRetry 0x00 0 1 n d s).1.failClass :=
    .inl (CmdOut.failClass_of fun _ => sendCommandRetry_cls (by decide))
  unfold initIdleNegotiation
  simp only
  split
  · refine ⟨⟨_, h.stepped.setInitState _, ?_⟩, fun k => (h.onPath k).setInitState _, nofun,
      fun _ => .of_ne (by simp [goto]) (by simp [goto]), fun _ => by simp [goto, hs, rank], fun c hc => by cases hc⟩
    simp only [budget, goto, State.setInitState_initState, State.setInitState_params, h.host.params, hs]
    omega
  · exact advances_fail h.stepped (by simp only [budget, hs]; omega) h.onPath hc

theorem advances_versionBranch {s : State} (hs : s.initState = .versionBranch) :
    Advances s (initVersionBranch s) := by
  have h := sendCommand_ran 0x08 0x000001AA 4 s
  rw [commandBound_08] at h
  unfold initVersionBranch
  simp only
  split
  · refine ⟨⟨_, h.stepped.setInitState _, ?_⟩, fun k => (h.onPath k).setInitState _, nofun,
      fun _ => .of_ne (by simp [goto]) (by simp [goto]), fun _ => by simp [goto, hs, rank], fun c hc => by cases hc⟩
    simp only [budget, goto, State.setInitState_initState, State.setInitState_params, h.host.params, hs]
    omega
  · refine ⟨⟨_, (h.stepped.setPathV2 false).setInitState _, ?_⟩,
      fun k => (h.onPath k).setPathV2_false.setInitState _, fun _ hv => (by cases hv),
      fun _ => .of_ne (by simp [goto]) (by simp [goto]), fun _ => by simp [goto, hs, rank], fun c hc => by cases hc⟩
    simp only [budget, goto, State.setInitState_initState, State.setInitState_params, State.setPathV2_params,
      State.setInitState_pathV2, State.setPathV2_pathV2, Bool.false_eq_true, if_false, h.host.params, hs]
    omega

theorem advances_voltageCheck {s : State} (hs : s.initState = .voltageCheck) :
    Advances s (initVoltageCheck s) := by
  unfold initVoltageCheck
  split
  · refine ⟨⟨0, (((Stepped.refl s).setPathV2 true).setPoll _ _).setInitState _, ?_⟩,
      fun _ => ⟨.inr (.inl rfl), fun _ => ⟨rfl, rfl⟩, .inr rfl⟩, fun _ _ => rfl,
      fun _ => .of_ne (by simp [goto]) (by simp [goto]), fun _ => by simp [goto, hs, rank], fun c hc => by cases hc⟩
    simp only [budget, goto, State.setInitState_initState, State.setInitState_params, State.setPathV2_params,
      State.setPoll_params, State.setPoll_pathV2,
      State.setInitState_pathV2, State.setPathV2_pathV2, if_true, hs]
    omega
  · refine ⟨⟨0, ((Stepped.refl s).setPathV2 false).setInitState _, ?_⟩,
      fun k => k.setPathV2_false.setInitState _, fun _ hv => (by cases hv),
      fun _ => .of_ne (by simp [goto]) (by simp [goto]), fun _ => by simp [goto, hs, rank], fun c hc => by cases hc⟩
    simp only [budget, goto, State.setInitState_initState, State.setInitState_params, State.setPathV2_params,
      State.setInitState_pathV2, State.setPathV2_pathV2, Bool.false_eq_true, if_false, hs]
    omega

theorem advances_readyPoll {s : State} (hs : s.initState = .readyPoll) (hp : AtPoll s) :
    Advances s (initReadyPoll s) := by
  unfold initReadyPoll
  cases hv : s.pathV2 with
  | true =>
    have h := sendCommandRetry_ran s.pollCmd s.pollArg 0 s.params.readyPollAttempts
      s.params.readyPollDelayUs s
    have hc : ∀ {t}, InitClass t (sendCommandRetry s.pollCmd s.pollArg 0 s.params.readyPollAttempts
        s.params.readyPollDelayUs s).1.failClass := by
      rw [hp hs hv]
      exact .inl (CmdOut.failClass_of fun _ => sendCommandRetry_cls (by decide))
    rw [hp hs hv, commandBound_A9, ← hp hs hv] at h
    simp only [if_true]
    generalize sendCommandRetry s.pollCmd s.pollArg 0 s.params.readyPollAttempts
      s.params.readyPollDelayUs s = r at h hc ⊢
    have hv1 : r.2.pathV2 = true := by rw [h.control.pathV2, hv]
    split
    · refine ⟨⟨_, h.stepped.setInitState _, ?_⟩, fun k => (h.onPath k).setInitState _, ?_, fun _ => ?_,
        fun _ => ?_, fun c hc => by cases hc⟩
      · simp only [budget, goto, State.setInitState_initState, State.setInitState_params, h.host.params, hs, hv, if_true]
        omega
      · intro h; simp [goto] at h
      · exact .of_ne (by simp [goto]) (by simp [goto])
      · simp [goto, hs, rank]
    · refine advances_fail h.stepped ?_ h.onPath hc
      simp only [budget, hs, hv, if_true]
      omega
  | false =>
    obtain ⟨h0, hi0, hv0, ha0, hc0, _, _⟩ := legacyProbe_stepped s
    simp only [Bool.false_eq_true, if_false]
    generalize legacyProbe s = s1 at h0 hi0 hv0 ha0 hc0 ⊢
    have h := sendCommandRetry_ran s1.pollCmd s1.pollArg 0 s1.params.readyPollAttempts
      s1.params.readyPollDelayUs s1
    have hc : ∀ {t}, InitClass t (sendCommandRetry s1.pollCmd s1.pollArg 0 s1.params.readyPollAttempts
        s1.params.readyPollDelayUs s1).1.failClass := by
      rcases hc0 with h | h <;> rw [h] <;>
        exact .inl (CmdOut.failClass_of fun _ => sendCommandRetry_cls (by decide))
    replace h := h.mono (n := s1.params.readyPollAttempts * (2 * (6 + s1.params.maxWaitBytes))) (by
      refine Nat.mul_le_mul_left _ ?_
      rcases hc0 with h | h <;> rw [h]
      · rw [commandBound_A9]
      · rw [commandBound_01]; omega)
    have hp1 : OnPath s1 := ⟨.inr hc0, by rw [hv0, hv]; exact nofun, .inl ha0⟩
    generalize sendCommandRetry s1.pollCmd s1.pollArg 0 s1.params.readyPollAttempts
      s1.params.readyPollDelayUs s1 = r at h hc ⊢
    rw [h0.host.params] at h
    have hv1 : r.2.pathV2 = false := by rw [h.control.pathV2, hv0, hv]
    split
    · refine ⟨⟨_, (h0.trans h.stepped).setInitState _, ?_⟩, fun _ => (h.onPath hp1).setInitState _, ?_, fun _ => ?_,
        fun _ => ?_, fun c hc => by cases hc⟩
      · simp only [budget, goto, State.setInitState_initState, State.setInitState_params, h.host.params, hs,
          hv1, hv, h0.host.params, Bool.false_eq_true, if_false]
        omega
      · intro h; simp [goto, hv1] at h
      · exact .of_ne (by simp [goto, hv1]) (by simp [goto, hv1])
      · simp [goto, hs, rank, hv1]
    · refine advances_fail (h0.trans h.stepped) ?_ (fun _ => h.onPath hp1) hc
      simp only [budget, hs, hv, Bool.false_eq_true, if_false]
      omega

theorem v2CardType_usable (ccs : Bool) : usableCardType (v2CardType ccs) := by
  cases ccs
  · exact .inr (.inr (.inl rfl))
  · exact .inr (.inr (.inr rfl))

theorem legacyCardType_usable (c : BitVec 8) : usableCardType (legacyCardType c) := by
  unfold legacyCardType
  split
  · exact .inr (.inl rfl)
  · exact .inl rfl

theorem advances_ocrRead {s : State} (hs : s.initState = .ocrRead) : Advances s (initOcrRead s) := by
  have h := sendCommand_ran 0x3A 0 4 s
  rw [commandBound_3A] at h
  unfold initOcrRead
  simp only
  split
  · refine ⟨⟨_, (h.stepped.setCardType _).setInitState _, ?_⟩,
      fun k => ((h.onPath k).setCardType _).setInitState _, nofun,
      fun _ => ⟨fun _ => v2CardType_usable _, fun h => by cases h⟩, fun _ => by simp [goto, hs, rank], fun c hc => by cases hc⟩
    simp only [budget, goto, State.setInitState_initState, State.setInitState_params, State.setCardType_params,
      h.host.params, hs]
    omega
  · exact advances_fail h.stepped (by simp only [budget, hs]; omega) h.onPath
      (.inl (sendCommand_failClass (by decide) _ _ _))

theorem advances_blockLengthSet {s : State} (hs : s.initState = .blockLengthSet) :
    Advances s (initBlockLengthSet s) := by
  have h := sendCommand_ran 0x10 512 0 s
  rw [commandBound_10] at h
  unfold initBlockLengthSet
  simp only
  split
  · refine ⟨⟨_, (h.stepped.setCardType _).setInitState _, ?_⟩,
      fun k => ((h.onPath k).setCardType _).setInitState _, nofun,
      fun _ => ⟨fun _ => legacyCardType_usable _, fun h => by cases h⟩, fun _ => by simp [goto, hs, rank], fun c hc => by cases hc⟩
    simp only [budget, goto, State.setInitState_initState, State.setInitState_params, State.setCardType_params,
      h.host.params, hs]
    omega
  · exact advances_fail h.stepped (by simp only [budget, hs]; omega) h.onPath
      (.inl (sendCommand_failClass (by decide) _ _ _))

theorem advances_geometryRead {s : State} (hs : s.initState = .geometryRead) :
    Advances s (initGeometryRead s) := by
  have h := sendCommand_ran 0x09 0 16 s
  rw [commandBound_09] at h
  unfold initGeometryRead
  simp only
  split
  · split
    · rename_i hz
      have hcs := h.stepped.setCsd (BitVec.ofNat 128 (fromBe (sendCommand 0x09 0 16 s).2.resp))
      have hpo : OnPath s → OnPath ((sendCommand 0x09 0 16 s).2.setCsd
        (BitVec.ofNat 128 (fromBe (sendCommand 0x09 0 16 s).2.resp))) := fun k => (h.onPath k).setCsd _
      have hty : ((sendCommand 0x09 0 16 s).2.setCsd
        (BitVec.ofNat 128 (fromBe (sendCommand 0x09 0 16 s).2.resp))).cardType = s.cardType :=
        h.session.cardType
      generalize (sendCommand 0x09 0 16 s).2.setCsd
        (BitVec.ofNat 128 (fromBe (sendCommand 0x09 0 16 s).2.resp)) = s1 at hz hcs hpo hty ⊢
      have h2 := sendCommand_ran 0x0A 0 16 s1
      rw [commandBound_0A, hcs.host.params] at h2
      have h3 := hcs.trans h2.stepped
      unfold readCid
      simp only
      split
      · refine ⟨⟨_, (h3.setCid _).setInitState _, ?_⟩,
          fun k => ((h2.onPath (hpo k)).setCid _).setInitState _, nofun,
          fun k => ⟨fun h => (by cases h), fun _ => ⟨?_, ?_⟩⟩, fun _ => by simp [goto, hs, rank],
          fun c hc => by cases hc⟩
        · simp only [budget, goto, State.setInitState_initState, hs, geometryCost]
          omega
        · show usableCardType (sendCommand 0x0A 0 16 s1).2.cardType
          rw [h2.session.cardType, hty]
          exact k.geometry hs
        · show sizeAccepted (sendCommand 0x0A 0 16 s1).2.params (csdDecode (sendCommand 0x0A 0 16 s1).2.csd).size = true
          rw [h2.host.params, h2.session.csd]
          exact hz
      · exact advances_fail h3 (by simp only [budget, hs, geometryCost]; omega)
          (fun k => h2.onPath (hpo k)) (.inl (sendCommand_failClass (by decide) _ _ _))
    · rename_i hz
      rw [Bool.not_eq_true] at hz
      exact advances_fail (h.stepped.setCsd _) (by simp only [budget, hs, geometryCost]; omega)
          (fun k => (h.onPath k).setCsd _) (.inr ⟨rfl, hz⟩)
  · exact advances_fail h.stepped (by simp only [budget, hs, geometryCost]; omega) h.onPath
      (.inl (sendCommand_failClass (by decide) _ _ _))

/-- Every transition after `Reset` advances. -/
theorem initStep_advances {s : State} (hp : AtPoll s) (h0 : rank s.initState ≠ 0) (h7 : s.initState ≠ .reset) :
    Advances s (initStep s) := by
  unfold initStep
  split
  · rename_i h; exact absurd h h7
  · rename_i h; exact advances_idleNegotiation h
  · rename_i h; exact advances_versionBranch h
  · rename_i h; exact advances_voltageCheck h
  · rename_i h; exact advances_readyPoll h hp
  · rename_i h; exact advances_ocrRead h
  · rename_i h; exact advances_blockLengthSet h
  · rename_i h; exact advances_geometryRead h
  · rename_i h; rw [h] at h0; exact absurd rfl h0
  · rename_i h; rw [h] at h0; exact absurd rfl h0

theorem rank_eq_seven {x : InitState} (h : rank x < 7) : x ≠ .reset := by
  rintro rfl; exact absurd h (by decide)

/-- The machine, entered in any state after `Reset` other than `Failed`, runs to `Done` or fails. -/
theorem runInit_spec (fuel : Nat) {s : State} (hp : AtPoll s) (hf : Found s) (hr : rank s.initState ≤ fuel)
    (h7 : s.initState ≠ .reset) (hx : s.initState ≠ .failed) :
    Stepped (budget s) s (runInit fuel s).2 ∧ (OnPath s → OnPath (runInit fuel s).2) ∧
    ((runInit fuel s).1 = none → (runInit fuel s).2.initState = .done ∧ Found (runInit fuel s).2) ∧
    (∀ c, (runInit fuel s).1 = some c → (runInit fuel s).2.initState = .failed ∧
      InitClass (runInit fuel s).2 c) := by
  induction fuel generalizing s with
  | zero =>
    have hd : s.initState = .done := by
      revert hr hx
      cases s.initState <;> simp [rank]
    exact ⟨(Stepped.refl s).mono (Nat.zero_le _), id, fun _ => ⟨hd, hf⟩, fun c hc => by cases hc⟩
  | succ fuel ih =>
    by_cases h0 : rank s.initState = 0
    · have hd : s.initState = .done := by
        revert h0 hx
        cases s.initState <;> simp [rank]
      have hstep : initStep s = (none, s) := by unfold initStep; rw [hd]
      simp only [runInit, hstep]
      exact ih hp hf (by omega) h7 hx
    · have ha := initStep_advances hp h0 h7
      simp only [runInit]
      generalize initStep s = r at ha ⊢
      obtain ⟨_ | c, s1⟩ := r
      · obtain ⟨n, h1, hn⟩ := ha.stepped
        obtain ⟨hlt, hx1⟩ := ha.next rfl
        replace hlt : rank s1.initState < rank s.initState := hlt
        have h := ih (s := s1) ha.atPoll (ha.found hf) (by omega)
          (rank_eq_seven (by revert hlt; cases s.initState <;> simp [rank] <;> omega)) hx1
        exact ⟨(h1.trans h.1).mono hn, fun k => h.2.1 (ha.onPath k), h.2.2⟩
      · obtain ⟨n, h1, hn⟩ := ha.stepped
        exact ⟨h1.mono (Nat.le_trans (Nat.le_add_right _ _) hn), ha.onPath, fun hc => (by cases hc),
          fun c' hc' => ha.failed c' hc'⟩

/-! ### BEGIN -/

/-- The state after the action of `Reset` (R233, R240). -/
def beginStart (s : State) : State := (initReset (beginEntry s)).2

theorem runInit_beginEntry (s : State) : runInit longestPath (beginEntry s) = runInit 6 (beginStart s) := rfl

theorem beginStart_eq (s : State) : ∃ is, is.length = s.params.dummyBytes ∧
    beginStart s = (((beginEntry s).onWire (fillers s.params.dummyBytes) is).setCs .asserted).setInitState
      .idleNegotiation := by
  obtain ⟨is, hl, h⟩ := sendBytes_any (List.replicate s.params.dummyBytes 0xFF) (beginEntry s)
  refine ⟨is, by simpa using hl, ?_⟩
  show ((sendBytes (List.replicate s.params.dummyBytes 0xFF) (beginEntry s)).setCs .asserted).setInitState
    .idleNegotiation = _
  rw [h]
  rfl

/-- How BEGIN ends, whatever the card answers. -/
theorem exec_beginOp_cases (frequency : Nat) (s : State) : ∃ u,
    u = (runInit longestPath (beginEntry s)).2 ∧ Stepped (budget (beginStart s)) (beginStart s) u ∧ (OnPath s → OnPath u) ∧
    ((u.initState = .done ∧ Found u ∧ exec (.beginOp frequency) s = .next (beginDone frequency u)) ∨
      ∃ c, u.initState = .failed ∧ InitClass u c ∧ exec (.beginOp frequency) s = .next (beginFailed c u)) := by
  obtain ⟨is, hl, hs⟩ := beginStart_eq s
  have hx : (beginStart s).initState = .idleNegotiation := by rw [hs]; rfl
  have hp : OnPath s → OnPath (beginStart s) := fun k => by
    rw [hs]; exact ⟨k.poll, k.v2, k.arg⟩
  have h := runInit_spec 6 (s := beginStart s) (fun h => by rw [hx] at h; cases h)
    (.of_ne (by rw [hx]; exact nofun) (by rw [hx]; exact nofun)) (by rw [hx]; decide)
    (by rw [hx]; exact nofun) (by rw [hx]; exact nofun)
  refine ⟨(runInit 6 (beginStart s)).2, rfl, h.1, fun k => h.2.1 (hp k), ?_⟩
  rw [exec_beginOp, runInit_beginEntry]
  generalize runInit 6 (beginStart s) = r at h ⊢
  obtain ⟨_ | c, u⟩ := r
  · exact .inl ⟨(h.2.2.1 rfl).1, (h.2.2.1 rfl).2, rfl⟩
  · exact .inr ⟨c, (h.2.2.2 c rfl).1, (h.2.2.2 c rfl).2, rfl⟩

/-- The wire of a BEGIN: the dummy bytes with chip select released, then everything else. -/
theorem beginStart_wire {n : Nat} {s u : State} (h : Stepped n (beginStart s) u) :
    ∃ asserted dummy, u.trace = asserted ++ (dummy ++ s.trace) ∧ dummy.length = s.params.dummyBytes ∧
      (∀ e ∈ dummy, e.cs = .released ∧ e.mosi = 0xFF) ∧ (∀ e ∈ asserted, e.cs = .asserted) ∧
      asserted.length ≤ n ∧ u.xchgCount = s.xchgCount + (asserted ++ dummy).length ∧
      u.answers = s.answers.drop (asserted ++ dummy).length := by
  obtain ⟨is, hl, hs⟩ := beginStart_eq s
  obtain ⟨new, h1, h2, h3, h4, h5⟩ := h.grows
  rw [hs] at h1 h3 h4 h5
  refine ⟨new, exchanges .released (fillers s.params.dummyBytes) is, h1, by simp [hl], fun e he => ?_, h5, h2,
    ?_, ?_⟩
  · refine ⟨exchanges_cs _ _ _ e he, ?_⟩
    have hm : e.mosi ∈ fillers s.params.dummyBytes := by
      rw [← exchanges_sent .released (o := fillers s.params.dummyBytes) (i := is) (by simp [hl])]
      exact List.mem_reverse.2 (List.mem_map_of_mem he)
    simp only [fillers, List.mem_replicate] at hm
    exact hm.2
  · rw [h3]
    simp only [State.setInitState_xchgCount, State.setCs_xchgCount, State.onWire_xchgCount, fillers_length,
      List.length_append]
    rw [exchanges_length _ (by simp [hl]), fillers_length]
    show s.xchgCount + _ + _ = _
    omega
  · rw [h4]
    simp only [State.setInitState_answers, State.setCs_answers, State.onWire_answers, fillers_length,
      List.length_append, List.drop_drop]
    rw [exchanges_length _ (by simp [hl]), fillers_length, Nat.add_comm]
    rfl

end Sys2Proof.Machine
end

