-- ==== Sys2Proof/Laws/Scripted.lean ====
section
/-!
SUPPORT. The block layer and BEGIN against a card that answers (`70_reset_and_hazards.md` R411-R416): one
lemma a message exchange, to be chained along the queue of answers.
-/

namespace Sys2Proof.Machine

/-! ### The bytes sent -/

@[simp] theorem State.finish_sent (s : State) (v : Result) (c : Option ErrorClass) :
    (s.finish v c).sent = s.sent := rfl
@[simp] theorem State.setCs_sent (s : State) (l : ChipSelect) : (s.setCs l).sent = s.sent := rfl
@[simp] theorem State.unspecify_sent (s : State) (a n : Nat) : (s.unspecify a n).sent = s.sent := rfl
@[simp] theorem State.setInitState_sent (s : State) (x : InitState) : (s.setInitState x).sent = s.sent := rfl
@[simp] theorem State.setPathV2_sent (s : State) (x : Bool) : (s.setPathV2 x).sent = s.sent := rfl
@[simp] theorem State.setPoll_sent (s : State) (x : BitVec 8) (a : BitVec 32) :
    (s.setPoll x a).sent = s.sent := rfl
@[simp] theorem State.setCardType_sent (s : State) (x : BitVec 4) : (s.setCardType x).sent = s.sent := rfl
@[simp] theorem State.setCsd_sent (s : State) (x : BitVec 128) : (s.setCsd x).sent = s.sent := rfl
@[simp] theorem State.setCid_sent (s : State) (x : BitVec 128) : (s.setCid x).sent = s.sent := rfl
@[simp] theorem State.setTok_sent (s : State) (b : Byte) : (s.setTok b).sent = s.sent := rfl
@[simp] theorem State.delay_sent (s : State) (d : Nat) : (s.delay d).sent = s.sent := rfl

/-! ### Commands -/

/-- An ordinary command without payload. -/
theorem sendCommand_replied {cmd : Byte} (h6 : cmd.getLsbD 6 = false) (h7 : cmd.getLsbD 7 = false)
    (argument : BitVec 32) {q : Reply} {rest : List Byte} {s : State}
    (hq : q.Heard s.params.maxWaitBytes (stuffing false (cmdIndex cmd))) (h : s.answers = q.bytes ++ rest) :
    sendCommand cmd argument 0 s = (⟨q.r1, none, none⟩, s.replied false (cmdIndex cmd) argument q) := by
  rw [sendCommand_plain h6 h7, transact_plain hq h]

theorem requireReady_of {r1 : Byte} {p : Option (List Byte)} {c : Option ErrorClass} (h : r1 = 0) :
    requireReady ⟨r1, p, c⟩ = none := by
  simp [requireReady, isReady, h]

theorem requireReady_of_ne {r1 : Byte} {p : Option (List Byte)} (h : r1 ≠ 0) :
    requireReady ⟨r1, p, none⟩ = some .protocolRejection := by
  have : isReady r1 = false := by simpa [isReady] using h
  simp [requireReady, this, CmdOut.failClass]

theorem replied_sent {app : Bool} {index : BitVec 6} {argument : BitVec 32} {s : State} {q : Reply} {w : Nat}
    (hq : q.Heard w (stuffing app index)) :
    (s.replied app index argument q).sent = s.sent ++ q.mosi app index argument := by
  have := onWire_sent s (hq.lengths argument)
  simpa only [State.sent, State.replied_trace, State.onWire_trace] using this

/-! ### Blocks -/

theorem received_answers {s : State} {o : Nat} {d : Block} {rest : List Byte}
    (h : s.answers = d.bytes s.params.crc16Seed ++ rest) : (s.received o d).answers = rest := by
  rw [State.received, State.delay_answers, State.storeBytes_answers, blockHeard_answers h]

theorem received_sent (s : State) (o : Nat) (d : Block) :
    (s.received o d).sent = s.sent ++ fillers d.count := by
  have := onWire_sent s (o := fillers d.count) (i := d.bytes s.params.crc16Seed)
    (by rw [fillers_length, Block.bytes_length])
  simpa only [State.sent, State.received, State.delay_trace, State.storeBytes_trace, State.blockHeard,
    State.setCrc16_trace, State.setTok_trace, State.setAttempt_trace] using this

theorem received_buf (s : State) (o : Nat) (d : Block) :
    (s.received o d).buf = s.buf.writeBytes o d.payload := by
  simp [State.received]

theorem received_params (s : State) (o : Nat) (d : Block) : (s.received o d).params = s.params := by
  simp [State.received]

/-- The loop of R325 goes past good blocks and puts each at its sector. -/
theorem readBlocks_scripted (blocks : List Block) {k : Nat} {rest : List Byte} {s : State}
    (hd : ∀ d ∈ blocks, d.Sector s.params.tokenWaitSteps)
    (h : s.answers = blocks.flatMap (Block.bytes s.params.crc16Seed) ++ rest) (hw : s.buf.wf = true) :
    ∃ t, (∀ n, readBlocks (blocks.length + n) k s = readBlocks n (k + blocks.length) t) ∧
      t.answers = rest ∧ t.params = s.params ∧ t.buf.wf = true ∧
      t.sent = s.sent ++ fillers (blocks.map Block.count).sum ∧
      ∀ j d, blocks[j]? = some d → t.sector (k + j) = d.payload := by
  induction blocks generalizing k s with
  | nil =>
    refine ⟨s, by simp, by simpa using h, rfl, hw, by simp [fillers], by simp⟩
  | cons d ds ih =>
    have hd0 := hd d (by simp)
    have h1 : s.answers = d.bytes s.params.crc16Seed ++ (ds.flatMap (Block.bytes s.params.crc16Seed) ++ rest) := by
      simp [h]
    have hr := receiveBlock_of_block (offset := sectorSize * k) hd0.1 h1
    have hl : d.payload.length = sectorSize := hd0.2
    rw [hl] at hr
    obtain ⟨t, ht, ha, hp, hwf, hs, hsec⟩ := ih (k := k + 1) (s := s.received (sectorSize * k) d)
      (fun x hx => by rw [received_params]; exact hd x (by simp [hx]))
      (by rw [received_params, received_answers h1])
      (by rw [received_buf]; exact Memory.writeBytes_wf hw _ _)
    refine ⟨t, fun n => ?_, ha, by rw [hp, received_params], hwf, ?_, ?_⟩
    · rw [show (d :: ds).length + n = (ds.length + n) + 1 by simp; omega, readBlocks, hr]
      simp only
      rw [ht n, show k + 1 + ds.length = k + (d :: ds).length by simp; omega]
    · rw [hs, received_sent, List.append_assoc, fillers_append, List.map_cons, List.sum_cons]
    · intro j x hx
      cases j with
      | zero =>
        obtain rfl : d = x := by simpa using hx
        have hm := readBlocks_moved (ds.length + 0) (k + 1) (s.received (sectorSize * k) d)
        rw [ht 0] at hm
        have ho : SameBufferOutside (sectorSize * (k + 1)) (sectorSize * (ds.length + 0))
          (s.received (sectorSize * k) d) t := hm.outside
        have hc : t.buf.readBytes (sectorSize * k) sectorSize =
            (s.received (sectorSize * k) d).buf.readBytes (sectorSize * k) sectorSize :=
          Memory.readBytes_congr fun c _ hc => ho c (.inl (by rw [Nat.mul_succ]; omega))
        rw [State.sector, Nat.add_zero, hc, received_buf]
        have hb := Memory.readBytes_writeBytes hw (sectorSize * k) d.payload
        rwa [hl] at hb
      | succ j =>
        have := hsec j x (by simpa using hx)
        rw [← this]
        congr 1
        omega

theorem transmitted_answers {s : State} {token : Byte} {payload : List Byte} {d : Taken} {rest : List Byte}
    (hl : d.ignored.length = payload.length + 3) (h : s.answers = d.bytes ++ rest) :
    (s.transmitted token payload d.busy d.ignored d.resp).answers = rest := by
  have h' : s.answers = readyBytes d.busy ++ ((d.ignored ++ [d.resp]) ++ rest) := by simp [h, Taken.bytes]
  rw [State.transmitted, State.setCrc16_answers]
  exact onWire_answers_of_append (by simp [blockMosi_length, hl]) (waited_answers h')

theorem waited_sent (s : State) (busy : List Byte) :
    (s.waited busy).sent = s.sent ++ fillers (busy.length + 1) := by
  have := onWire_sent s (o := fillers (busy.length + 1)) (i := readyBytes busy) (by simp)
  simpa only [State.sent, State.waited, State.delay_trace, State.setAttempt_trace] using this

theorem transmitted_sent {s : State} {token : Byte} {payload : List Byte} {d : Taken}
    (hl : d.ignored.length = payload.length + 3) :
    (s.transmitted token payload d.busy d.ignored d.resp).sent =
      s.sent ++ d.mosi s.params.crc16Seed token payload := by
  have := onWire_sent (s.waited d.busy) (o := blockMosi s.params.crc16Seed token payload)
    (i := d.ignored ++ [d.resp]) (by simp [blockMosi_length, hl])
  rw [waited_sent, List.append_assoc] at this
  simpa only [State.sent, State.transmitted, State.setCrc16_trace, Taken.mosi] using this

theorem transmitted_buf (s : State) (token : Byte) (payload busy ignored : List Byte) (resp : Byte) :
    (s.transmitted token payload busy ignored resp).buf = s.buf := by simp [State.transmitted]

theorem transmitted_params (s : State) (token : Byte) (payload busy ignored : List Byte) (resp : Byte) :
    (s.transmitted token payload busy ignored resp).params = s.params := by simp [State.transmitted]

/-- A sector sent to a card that takes it (R332, R333). -/
theorem transmitBlock_taken {s : State} {k : Nat} {token : Byte} {d : Taken} {rest : List Byte}
    (ht : token ≠ tokenStopTranByte) (hd : d.Heard s.params.readyWaitSteps)
    (hr : slice d.resp 0 5 = (0b00101 : BitVec 5)) (h : s.answers = d.bytes ++ rest) :
    transmitBlock (sectorSize * k) token s =
      (none, s.transmitted token (s.sector k) d.busy d.ignored d.resp) := by
  rw [transmitBlock, transmitFrame_of_answers (ignored := d.ignored) (resp := d.resp) (rest := rest) ht hd.1 hd.2.1
    (by simp [hd.2.2, sectorSize]) (by simpa [Taken.bytes] using h)]
  simp [isAccepted, hr, State.sector]

/-- The loop of R333 sends each sector of the buffer and keeps the buffer. -/
theorem writeBlocks_scripted (blocks : List Taken) {k : Nat} {rest : List Byte} {s : State}
    (hd : ∀ d ∈ blocks, d.Heard s.params.readyWaitSteps ∧ slice d.resp 0 5 = (0b00101 : BitVec 5))
    (h : s.answers = blocks.flatMap Taken.bytes ++ rest) :
    ∃ t, (∀ n, writeBlocks (blocks.length + n) k s = writeBlocks n (k + blocks.length) t) ∧
      t.answers = rest ∧ t.params = s.params ∧ t.buf = s.buf ∧
      t.sent = s.sent ++ (blocks.mapIdx (fun j d =>
        d.mosi s.params.crc16Seed tokenStartMultiWriteByte (s.sector (k + j)))).flatten := by
  induction blocks generalizing k s with
  | nil => exact ⟨s, by simp, by simpa using h, rfl, rfl, by simp⟩
  | cons d ds ih =>
    have hd0 := hd d (by simp)
    have h1 : s.answers = d.bytes ++ (ds.flatMap Taken.bytes ++ rest) := by simp [h]
    have hi : d.ignored.length = (s.sector k).length + 3 := by
      simp [State.sector, sectorSize, hd0.1.2.2]
    have hr := transmitBlock_taken (k := k) (token := tokenStartMultiWriteByte) (by decide) hd0.1 hd0.2 h1
    obtain ⟨t, ht, ha, hp, hb, hs⟩ := ih (k := k + 1)
      (s := s.transmitted tokenStartMultiWriteByte (s.sector k) d.busy d.ignored d.resp)
      (fun x hx => by rw [transmitted_params]; exact hd x (by simp [hx])) (transmitted_answers hi h1)
    refine ⟨t, fun n => ?_, ha, by rw [hp, transmitted_params], by rw [hb, transmitted_buf], ?_⟩
    · rw [show (d :: ds).length + n = (ds.length + n) + 1 by simp; omega, writeBlocks, hr]
      simp only
      rw [ht n, show k + 1 + ds.length = k + (d :: ds).length by simp; omega]
    · rw [hs, transmitted_sent hi, List.mapIdx_cons, List.flatten_cons, List.append_assoc]
      simp only [transmitted_params, Nat.add_zero, State.sector, transmitted_buf, Nat.add_assoc, Nat.add_comm 1]

/-- A sector sent to a card that does not take it (R211, R213). -/
theorem transmitBlock_untaken {s : State} {k : Nat} {token : Byte} {last : Untaken} {rest : List Byte}
    (ht : token ≠ tokenStopTranByte) (hl : last.Heard s.params.readyWaitSteps)
    (h : s.answers = last.bytes ++ rest) :
    ∃ t, transmitBlock (sectorSize * k) token s = (some last.failClass, t) ∧
      t.sent = s.sent ++ last.mosi s.params.crc16Seed token (s.sector k) := by
  cases last with
  | rejected d =>
    have hr : isAccepted d.resp = false := by simpa [isAccepted] using hl.2
    rw [transmitBlock, transmitFrame_of_answers (ignored := d.ignored) (resp := d.resp) (rest := rest) ht hl.1.1
      hl.1.2.1 (by simp [hl.1.2.2, sectorSize]) (by simpa [Untaken.bytes, Taken.bytes] using h), hr]
    exact ⟨_, rfl, transmitted_sent (by simp [hl.1.2.2, sectorSize])⟩
  | busy bytes =>
    obtain ⟨t, he, -, hs⟩ := transmitFrame_busy (token := token) (payload := s.buf.readBytes (sectorSize * k)
      sectorSize) hl.1 hl.2 h
    exact ⟨t, he, hs⟩

/-! ### The erase sequence -/

/-- CMD32, CMD33, CMD38 up to the first that is not answered 0 (R338, log 15). -/
theorem eraseRange_attempted {first last : BitVec 32} {a0 a1 a2 : Attempt} {rest : List Byte} {s : State}
    (h0 : a0.Runs s.params false 32) :
    (a0.r1 s.params.errSentinel ≠ 0 → s.answers = a0.bytes false ++ rest →
      eraseRange first last s = (some a0.failClass, s.attempted false 32 first a0)) ∧
    (a0.r1 s.params.errSentinel = 0 → a1.Runs s.params false 33 → a1.r1 s.params.errSentinel ≠ 0 →
      s.answers = a0.bytes false ++ (a1.bytes false ++ rest) →
      eraseRange first last s =
        (some a1.failClass, (s.attempted false 32 first a0).attempted false 33 last a1)) ∧
    (a0.r1 s.params.errSentinel = 0 → a1.Runs s.params false 33 → a1.r1 s.params.errSentinel = 0 →
      a2.Runs s.params false 38 →
      s.answers = a0.bytes false ++ (a1.bytes false ++ (a2.bytes false ++ rest)) →
      eraseRange first last s = (if a2.r1 s.params.errSentinel = 0 then none else some a2.failClass,
        ((s.attempted false 32 first a0).attempted false 33 last a1).attempted false 38 0 a2)) := by
  have e0 : ∀ {r}, s.answers = a0.bytes false ++ r →
      (sendCommand 0x20 first 0 s).2 = s.attempted false 32 first a0 ∧ requireReady (sendCommand 0x20 first 0 s).1 =
        if a0.r1 s.params.errSentinel = 0 then none else some a0.failClass :=
    sendCommand_required (cmd := 0x20) (by decide) first h0
  have e1 : ∀ {r}, a1.Runs s.params false 33 → (s.attempted false 32 first a0).answers = a1.bytes false ++ r →
      (sendCommand 0x21 last 0 (s.attempted false 32 first a0)).2 =
          (s.attempted false 32 first a0).attempted false 33 last a1 ∧
        requireReady (sendCommand 0x21 last 0 (s.attempted false 32 first a0)).1 =
          if a1.r1 s.params.errSentinel = 0 then none else some a1.failClass := fun h k => by
    have := sendCommand_required (cmd := 0x21) (by decide) last (a := a1) (s := s.attempted false 32 first a0)
      (by rw [State.attempted_params]; exact h) k
    rwa [State.attempted_params] at this
  refine ⟨fun hz h => ?_, fun hz h1 hz1 h => ?_, fun hz h1 hz1 h2 h => ?_⟩
  · obtain ⟨t0, c0⟩ := e0 h
    simp only [eraseRange, c0, t0, if_neg hz]
  · obtain ⟨t0, c0⟩ := e0 h
    obtain ⟨t1, c1⟩ := e1 h1 (attempted_answers h0 h)
    simp only [eraseRange, c0, t0, if_pos hz, c1, t1, if_neg hz1]
  · obtain ⟨t0, c0⟩ := e0 h
    obtain ⟨t1, c1⟩ := e1 h1 (attempted_answers h0 h)
    obtain ⟨t2, c2⟩ := sendCommand_required (cmd := 0x26) (by decide) 0 (a := a2)
      (s := (s.attempted false 32 first a0).attempted false 33 last a1)
      (by rw [State.attempted_params, State.attempted_params]; exact h2)
      (attempted_answers (by rw [State.attempted_params]; exact h1) (attempted_answers h0 h))
    rw [State.attempted_params, State.attempted_params] at c2
    simp only [eraseRange, c0, t0, if_pos hz, c1, t1, if_pos hz1, c2, t2]
    rfl

/-! ### The bytes sent, whatever the card answers -/

/-- A bounded poll sends nothing but 0xFF (R380, R53). -/
theorem poll_sent (stop : Byte → Bool) (d n : Nat) (s : State) :
    ∃ k, k ≤ n ∧ (poll stop d n s).2.sent = s.sent ++ fillers k := by
  rcases pollFrom_any stop d n 1 s with ⟨miss, b, _, _, hlt, h⟩ | ⟨miss, _, hl, h⟩
  · refine ⟨miss.length + 1, hlt, ?_⟩
    rw [poll, h]
    exact onWire_sent s (by simp)
  · refine ⟨n, Nat.le_refl _, ?_⟩
    rw [poll, h]
    exact onWire_sent s (by simp [hl])

/-- The stop token and its ready wait (R210, R334). -/
theorem transmitStop_sent (offset : Nat) (s : State) : ∃ n, n ≤ s.params.readyWaitSteps ∧
    ((transmitBlock offset tokenStopTranByte s).2.sent = s.sent ++ fillers n ∨
      (transmitBlock offset tokenStopTranByte s).2.sent = s.sent ++ (fillers n ++ [0xFD])) := by
  obtain ⟨n, hn, h⟩ := poll_sent isCardReady s.params.readyWaitDelayUs s.params.readyWaitSteps s
  refine ⟨n, hn, ?_⟩
  change (waitReady s).2.sent = _ at h
  simp only [transmitBlock, transmitFrame, sendToken]
  cases (waitReady s).1
  · exact .inl h
  · refine .inr ?_
    simp only [if_true, send_eq]
    rw [onWire_sent _ (by simp), h, List.append_assoc]
    rfl

/-- The frame of a command and its stuffing byte (R157, R159). -/
theorem sendFrame_sent (app : Bool) (index : BitVec 6) (argument : BitVec 32) (s : State) :
    (sendFrame app index argument s).sent =
      s.sent ++ (frameBytes (buildFrame index argument) ++ fillers (stuffing app index)) := by
  have hframe := loadFrame_frame index argument s
  have hload : (loadFrame index argument s).sent = s.sent := by simp [State.sent, loadFrame_eq]
  obtain ⟨is, hl, h⟩ := sendBytes_any (frameBytes (loadFrame index argument s).frame)
    (loadFrame index argument s)
  have hs := onWire_sent (loadFrame index argument s) hl.symm
  rw [hload, hframe] at hs
  rw [hframe] at h
  simp only [sendFrame, stuffing, hframe, h]
  split
  · rw [recv_eq, onWire_sent _ (by simp), hs, List.append_assoc]
  · simpa [fillers] using hs

/-- An ordinary command without payload: its frame, the stuffing byte and at most the whole response poll
(R157-R159). -/
theorem sendCommand_sent {cmd : Byte} (h6 : cmd.getLsbD 6 = false) (h7 : cmd.getLsbD 7 = false)
    (argument : BitVec 32) (s : State) : ∃ k, k ≤ s.params.maxWaitBytes ∧
    (sendCommand cmd argument 0 s).2.sent = s.sent ++ (frameBytes (buildFrame (cmdIndex cmd) argument) ++
      fillers (stuffing false (cmdIndex cmd) + k)) := by
  have hp : (sendFrame false (cmdIndex cmd) argument s).params = s.params :=
    (sendFrame_ran false (cmdIndex cmd) argument s).host.params
  obtain ⟨k, hk, h⟩ := poll_sent isResponse 0 s.params.maxWaitBytes (sendFrame false (cmdIndex cmd) argument s)
  rw [sendFrame_sent, List.append_assoc, List.append_assoc, fillers_append] at h
  refine ⟨k, hk, ?_⟩
  rw [sendCommand_plain h6 h7, transact, pollResponse, hp]
  split <;> rename_i he <;> rw [he] at h <;> exact h

theorem recvBytes_sent (n : Nat) (s : State) : (recvBytes n s).2.sent = s.sent ++ fillers n := by
  obtain ⟨is, hl, h⟩ := recvBytes_any n s
  rw [h]
  exact onWire_sent s (by simp [hl])

/-- A reception only receives (R204, R53). -/
theorem receiveBlock_sent (offset n : Nat) (s : State) :
    ∃ k, (receiveBlock offset n s).2.sent = s.sent ++ fillers k := by
  obtain ⟨k, -, h⟩ := poll_sent isToken s.params.tokenWaitDelayUs s.params.tokenWaitSteps s
  change (pollTokenLong s).2.sent = _ at h
  simp only [receiveBlock]
  split <;> rename_i he <;> rw [he] at h
  · exact ⟨k, h⟩
  · split
    · rename_i token s1 _
      have h2 : (recvBytes 2 (recvBytes n (s1.setTok token)).2).2.sent = s.sent ++ fillers (k + n + 2) := by
        rw [recvBytes_sent, recvBytes_sent, State.setTok_sent, h, List.append_assoc, fillers_append,
          List.append_assoc, fillers_append, Nat.add_assoc]
      refine ⟨k + n + 2, ?_⟩
      simp only [receivePayload]
      split <;> exact h2
    · exact ⟨k, h⟩

/-- The blocks of a read (R325). -/
theorem readBlocks_sent (n k : Nat) (s : State) :
    ∃ j, (readBlocks n k s).2.sent = s.sent ++ fillers j := by
  induction n generalizing k s with
  | zero => exact ⟨0, by simp [readBlocks, fillers]⟩
  | succ n ih =>
    obtain ⟨j, h⟩ := receiveBlock_sent (sectorSize * k) sectorSize s
    simp only [readBlocks]
    split <;> rename_i he <;> rw [he] at h
    · obtain ⟨i, hi⟩ := ih (k + 1) _
      exact ⟨j + i, by rw [hi, h, List.append_assoc, fillers_append]⟩
    · exact ⟨j, h⟩

/-- The end of a body on the bus. -/
theorem onBus_eq {f : State → Option ErrorClass × State} {s t : State} {c : Option ErrorClass}
    (h : f (s.setCs .asserted) = (c, t)) : onBus f s = (t.setCs .released).finish (.bool c.isNone) c := by
  simp only [onBus, h]

end Sys2Proof.Machine
end

