-- ==== Sys2Proof/Laws/BringUp.lean ====
section
/-!
SUPPORT. BEGIN against a card that answers, state by state (`44_init_fsm.md` R240-R263): each lemma says where
the state goes and which bytes it sent and took.
-/

namespace Sys2Proof.Machine

/-- One message exchange of the bring-up: the bytes sent, the answers left, and the registers it kept. -/
structure Said (mosi rest : List Byte) (s t : State) : Prop where
  sent      : t.sent = s.sent ++ mosi
  answers   : t.answers = rest
  params    : t.params = s.params
  buf       : t.buf = s.buf
  initState : t.initState = s.initState
  pathV2    : t.pathV2 = s.pathV2
  pollCmd   : t.pollCmd = s.pollCmd
  pollArg   : t.pollArg = s.pollArg
  cardType  : t.cardType = s.cardType
  csd       : t.csd = s.csd
  cid       : t.cid = s.cid

theorem Ran.said {n : Nat} {s t : State} {mosi rest : List Byte} (h : Ran n s t)
    (hs : t.sent = s.sent ++ mosi) (ha : t.answers = rest) : Said mosi rest s t :=
  ⟨hs, ha, h.host.params, h.buf, h.control.initState, h.control.pathV2, h.control.pollCmd, h.control.pollArg,
    h.session.cardType, h.session.csd, h.session.cid⟩

theorem sendCommand_said {cmd : Byte} (h6 : cmd.getLsbD 6 = false) (h7 : cmd.getLsbD 7 = false)
    (argument : BitVec 32) {q : Reply} {rest : List Byte} {s : State}
    (hq : q.Heard s.params.maxWaitBytes (stuffing false (cmdIndex cmd))) (h : s.answers = q.bytes ++ rest) :
    ∃ t, sendCommand cmd argument 0 s = (⟨q.r1, none, none⟩, t) ∧
      Said (q.mosi false (cmdIndex cmd) argument) rest s t := by
  have he := sendCommand_replied h6 h7 argument hq h
  have hr := sendCommand_ran cmd argument 0 s
  rw [he] at hr
  exact ⟨_, he, hr.said (replied_sent hq) (replied_answers hq h)⟩

/-- A command whose payload follows R1 directly. -/
theorem sendCommand_direct_said {cmd : Byte} (h6 : cmd.getLsbD 6 = false) (h7 : cmd.getLsbD 7 = false)
    (hb : dataBearing false (cmdIndex cmd) = false) (argument : BitVec 32) {q : Reply}
    {payload rest : List Byte} {s : State} (hp : payload ≠ [])
    (hq : q.Heard s.params.maxWaitBytes (stuffing false (cmdIndex cmd)))
    (h : s.answers = q.bytes ++ (payload ++ rest)) :
    ∃ t, sendCommand cmd argument payload.length s = (⟨q.r1, some payload, none⟩, t) ∧ t.resp = payload ∧
      Said (q.mosi false (cmdIndex cmd) argument ++ fillers payload.length) rest s t := by
  have he : sendCommand cmd argument payload.length s = (⟨q.r1, some payload, none⟩,
      (s.replied false (cmdIndex cmd) argument q).captured payload) := by
    rw [sendCommand_plain h6 h7, transact_direct hb hq hp h]
  have hr := sendCommand_ran cmd argument payload.length s
  rw [he] at hr
  refine ⟨_, he, State.captured_resp .., hr.said ?_ ?_⟩
  · have := onWire_sent (s.replied false (cmdIndex cmd) argument q) (o := fillers payload.length)
      (i := payload) (by simp)
    rw [replied_sent hq, List.append_assoc] at this
    simpa only [State.sent, State.captured, State.setResp_trace] using this
  · rw [State.captured, State.setResp_answers]
    exact onWire_answers_of_append (by simp) (replied_answers hq h)

/-- A data-bearing command and its block. -/
theorem sendCommand_block_said {cmd : Byte} (h6 : cmd.getLsbD 6 = false) (h7 : cmd.getLsbD 7 = false)
    (hb : dataBearing false (cmdIndex cmd) = true) (argument : BitVec 32) {q : Reply} {d : Block}
    {rest : List Byte} {s : State} (hp : d.payload ≠ []) (hr1 : q.r1 = 0)
    (hq : q.Heard s.params.maxWaitBytes (stuffing false (cmdIndex cmd)))
    (hw : d.wait < s.params.maxWaitBytes)
    (h : s.answers = q.bytes ++ (d.bytes s.params.crc16Seed ++ rest)) :
    ∃ t, sendCommand cmd argument d.payload.length s = (⟨0, some d.payload, none⟩, t) ∧
      t.resp = d.payload ∧ Said (q.mosi false (cmdIndex cmd) argument ++ fillers d.count) rest s t := by
  have he : sendCommand cmd argument d.payload.length s = (⟨0, some d.payload, none⟩,
      (s.replied false (cmdIndex cmd) argument q).capturedBlock d) := by
    rw [sendCommand_plain h6 h7, transact_block hb hq hr1 hp hw h]
  have hr := sendCommand_ran cmd argument d.payload.length s
  rw [he] at hr
  refine ⟨_, he, by rw [State.capturedBlock, State.setResp_resp], hr.said ?_ ?_⟩
  · have := onWire_sent (s.replied false (cmdIndex cmd) argument q) (o := fillers d.count)
      (i := d.bytes s.params.crc16Seed) (by rw [fillers_length, Block.bytes_length])
    rw [replied_sent hq, List.append_assoc] at this
    simpa only [State.sent, State.capturedBlock, State.blockHeard, State.setResp_trace, State.setCrc16_trace,
      State.setTok_trace, State.setAttempt_trace, State.replied_params] using this
  · rw [State.capturedBlock, State.setResp_answers]
    exact blockHeard_answers (by rw [State.replied_params]; exact replied_answers hq h)

theorem unanswered_sent {app : Bool} {index : BitVec 6} {argument : BitVec 32} {ignored silent : List Byte}
    {s : State} (h : ignored.length = 6 + stuffing app index) :
    (s.unanswered app index argument ignored silent).sent =
      s.sent ++ (frameBytes (buildFrame index argument) ++ fillers (stuffing app index + silent.length)) := by
  have := onWire_sent s (o := frameBytes (buildFrame index argument) ++
    fillers (stuffing app index + silent.length)) (i := ignored ++ silent) (by simp [h]; omega)
  simpa only [State.sent, State.unanswered, State.setAttempt_trace, State.setCrc7_trace, State.setFrame_trace]
    using this

theorem led_sent {app : Bool} {p : Reply} {s : State} {w : Nat} (hp : p.Leads app w) :
    (s.led app p).sent = s.sent ++ p.leadMosi app := by
  cases app
  · simp [Reply.leadMosi]
  · exact replied_sent (app := false) (index := 55) (hp rfl).1

/-- What a command without payload sends, however it goes. -/
theorem attempted_sent {app : Bool} {index : BitVec 6} {argument : BitVec 32} {a : Attempt} {p : Params}
    {s : State} (ha : a.Runs p app index) :
    (s.attempted app index argument a).sent = s.sent ++ a.mosi app index argument := by
  cases a with
  | answered lead reply =>
    rw [State.attempted, replied_sent ha.2, led_sent ha.1, List.append_assoc, Attempt.mosi]
  | unanswered lead ignored silent =>
    rw [State.attempted, unanswered_sent ha.2.duringFrame, led_sent ha.1, List.append_assoc, Attempt.mosi]
  | leadRejected lead => exact replied_sent (app := false) (index := 55) ha.2.1
  | leadUnanswered ignored silent =>
    rw [State.attempted, unanswered_sent (app := false) (index := 55) ha.2.1.duringFrame, Attempt.mosi]
    simp [stuffing, dataBearing]

theorem State.setAttempt_sent (s : State) (k : Nat) : (s.setAttempt k).sent = s.sent := rfl

theorem attempts_sent {app : Bool} {index : BitVec 6} {argument : BitVec 32} {d : Nat} {p : Params}
    (as : List Attempt) {k : Nat} {s : State} (ha : ∀ a ∈ as, a.Runs p app index) :
    (s.attempts app index argument d k as).sent = s.sent ++ as.flatMap (Attempt.mosi app index argument) := by
  induction as generalizing k s with
  | nil => simp [State.attempts]
  | cons a as ih =>
    rw [State.attempts, ih (fun x hx => ha x (by simp [hx])), State.delay_sent, attempted_sent (ha a (by simp)),
      State.setAttempt_sent, List.append_assoc, List.flatMap_cons]

/-- A command without payload, however it goes. -/
theorem sendCommand_attempted_said {cmd : Byte} (h6 : cmd.getLsbD 6 = false) (argument : BitVec 32)
    {a : Attempt} {rest : List Byte} {s : State} (ha : a.Runs s.params (cmdApp cmd) (cmdIndex cmd))
    (h : s.answers = a.bytes (cmdApp cmd) ++ rest) :
    ∃ t cls, sendCommand cmd argument 0 s = (⟨a.r1 s.params.errSentinel, none, cls⟩, t) ∧
      Said (a.mosi (cmdApp cmd) (cmdIndex cmd) argument) rest s t := by
  obtain ⟨cls, he, -⟩ := sendCommand_attempted h6 argument ha h
  have hr := sendCommand_ran cmd argument 0 s
  rw [he] at hr
  exact ⟨_, _, he, hr.said (attempted_sent ha) (attempted_answers ha h)⟩

/-- A data-bearing command that is not answered 0, or not answered (lines 13 and 18 of R155). -/
theorem sendCommand_block_refused {cmd : Byte} (h6 : cmd.getLsbD 6 = false) (h7 : cmd.getLsbD 7 = false)
    (hb : dataBearing false (cmdIndex cmd) = true) (argument : BitVec 32) {n : Nat} (hn : n ≠ 0) {a : Attempt}
    {rest : List Byte} {s : State} (ha : a.Runs s.params false (cmdIndex cmd))
    (h0 : a.r1 s.params.errSentinel ≠ 0) (h : s.answers = a.bytes false ++ rest) :
    ∃ t, sendCommand cmd argument n s = (⟨a.r1 s.params.errSentinel, none, some a.failClass⟩, t) ∧
      Said (a.mosi false (cmdIndex cmd) argument) rest s t := by
  have hr := sendCommand_ran cmd argument n s
  suffices he : sendCommand cmd argument n s = (⟨a.r1 s.params.errSentinel, none, some a.failClass⟩,
      s.attempted false (cmdIndex cmd) argument a) by
    rw [he] at hr
    exact ⟨_, he, hr.said (attempted_sent ha) (attempted_answers ha h)⟩
  rw [sendCommand_plain h6 h7]
  cases a with
  | answered lead q =>
    rw [transact_data hb hn (by simpa using ha.2) (by simpa [Attempt.bytes] using h)]
    exact if_pos h0
  | unanswered lead ignored silent =>
    exact transact_unanswered ha.2.duringFrame ha.2.wholePoll ha.2.noReply (by simpa [Attempt.bytes] using h)
  | leadRejected lead => cases ha.1
  | leadUnanswered ignored silent => cases ha.1

/-- A retry loop whose last attempt has the required result (R165). -/
theorem retry_said {cmd : Byte} (h6 : cmd.getLsbD 6 = false) (argument : BitVec 32) {required : Byte}
    {n d : Nat} (misses : List Attempt) {a : Attempt} {rest : List Byte} {s : State} (hn : misses.length < n)
    (hm : ∀ a ∈ misses, a.Runs s.params (cmdApp cmd) (cmdIndex cmd) ∧ a.r1 s.params.errSentinel ≠ required)
    (ha : a.Runs s.params (cmdApp cmd) (cmdIndex cmd) ∧ a.r1 s.params.errSentinel = required)
    (h : s.answers = misses.flatMap (Attempt.bytes (cmdApp cmd)) ++ (a.bytes (cmdApp cmd) ++ rest)) :
    ∃ t, sendCommandRetry cmd argument required n d s = (⟨required, none, none⟩, t) ∧
      Said (misses.flatMap (Attempt.mosi (cmdApp cmd) (cmdIndex cmd) argument) ++
        a.mosi (cmdApp cmd) (cmdIndex cmd) argument) rest s t := by
  have he := sendCommandRetry_hit h6 argument (d := d) misses hn hm ha.1 ha.2 h
  obtain ⟨-, a1, p1⟩ := retryFrom_attempts h6 (argument := argument) (d := d) misses (fuel := 0) (k := 1)
    (last := ⟨0, none, none⟩) hm h
  have hran := sendCommandRetry_ran cmd argument required n d s
  rw [he] at hran
  refine ⟨_, he, hran.said ?_ ?_⟩
  · rw [attempted_sent ha.1, State.setAttempt_sent, attempts_sent misses (fun x hx => (hm x hx).1),
      List.append_assoc]
  · exact attempted_answers (by rw [State.setAttempt_params, p1]; exact ha.1) (by rw [State.setAttempt_answers, a1])

/-! ### The states -/

/-- States Reset and IdleNegotiation (R240, R241). -/
theorem runInit_opening {o : Opening} {rest : List Byte} {s : State} (ho : o.Healthy s.params)
    (h : s.answers = o.dummy ++ (o.misses.flatMap (Attempt.bytes false) ++ (o.idle.bytes false ++ rest))) :
    ∃ t, runInit longestPath (beginEntry s) = runInit 5 t ∧ t.initState = .versionBranch ∧
      t.params = s.params ∧ t.buf = s.buf ∧ t.csd = s.csd ∧ t.cid = s.cid ∧ t.answers = rest ∧
      t.sent = s.sent ++ (fillers o.dummy.length ++ (o.misses.flatMap (Attempt.mosi false 0 0) ++
        o.idle.mosi false 0 0)) := by
  obtain ⟨is, hl, hs⟩ := beginStart_eq s
  have hb : beginStart s = (((beginEntry s).onWire (fillers s.params.dummyBytes) o.dummy).setCs
      .asserted).setInitState .idleNegotiation := by
    have := sendBytes_of_answers (s := beginEntry s) (os := fillers s.params.dummyBytes) (is := o.dummy)
      (rest := o.misses.flatMap (Attempt.bytes false) ++ (o.idle.bytes false ++ rest)) (by simp [ho.dummy]) h
    show ((sendBytes (fillers s.params.dummyBytes) (beginEntry s)).setCs .asserted).setInitState
      .idleNegotiation = _
    rw [this]
  have hx : (beginStart s).initState = .idleNegotiation := by rw [hb]; rfl
  have hp : (beginStart s).params = s.params := by rw [hb]; rfl
  have hbuf : (beginStart s).buf = s.buf := by rw [hb]; rfl
  have hcsd : (beginStart s).csd = s.csd := by rw [hb]; rfl
  have hcid : (beginStart s).cid = s.cid := by rw [hb]; rfl
  have ha : (beginStart s).answers = o.misses.flatMap (Attempt.bytes false) ++ (o.idle.bytes false ++ rest) := by
    rw [hb]
    exact onWire_answers_of_append (s := beginEntry s) (by simp [ho.dummy]) h
  have hse : (beginStart s).sent = s.sent ++ fillers o.dummy.length := by
    rw [hb, State.setInitState_sent, State.setCs_sent, onWire_sent _ (by simp [ho.dummy]), ho.dummy]
    rfl
  obtain ⟨t, he, hsaid⟩ := retry_said (cmd := 0x00) (by decide) 0 (required := 1)
    (n := s.params.cmd0Attempts) (d := s.params.cmd0RetryDelayUs) o.misses (a := o.idle) (rest := rest)
    (s := beginStart s) ho.budget (by rw [hp]; exact ho.misses) (by rw [hp]; exact ho.idle) ha
  rw [runInit_beginEntry]
  generalize beginStart s = u at hx hp hbuf hcsd hcid ha hse he hsaid ⊢
  refine ⟨t.setInitState .versionBranch, ?_, rfl, hsaid.params.trans hp, hsaid.buf.trans hbuf,
    hsaid.csd.trans hcsd, hsaid.cid.trans hcid, hsaid.answers, ?_⟩
  · have : initStep u = (none, t.setInitState .versionBranch) := by
      simp only [initStep, hx, initIdleNegotiation, hp, he]
      rfl
    rw [runInit, this]
  · rw [State.setInitState_sent, hsaid.sent, hse, List.append_assoc]
    rfl

/-- State VersionBranch where CMD8 is answered (R243). -/
theorem initStep_versionBranch {q : Reply} {payload rest : List Byte} {s : State}
    (hx : s.initState = .versionBranch) (hq : q.Heard s.params.maxWaitBytes 0) (hp : payload.length = 4)
    (h : s.answers = q.bytes ++ (payload ++ rest)) :
    ∃ t, Said (q.mosi false 8 0x000001AA ++ fillers 4) rest s t ∧ t.resp = payload ∧
      initStep s = if q.r1 = 1 then (none, t.setInitState .voltageCheck)
        else (none, (t.setPathV2 false).setInitState .readyPoll) := by
  obtain ⟨t, he, hr, hs⟩ := sendCommand_direct_said (cmd := 0x08) (by decide) (by decide) (by decide)
    0x000001AA (s := s) (payload := payload) (by rintro rfl; cases hp) hq h
  rw [hp] at he hs
  refine ⟨t, hs, hr, ?_⟩
  simp only [initStep, hx, initVersionBranch, he, isIdle, beq_iff_eq, goto]

/-- State VersionBranch where CMD8 is not answered (R243). -/
theorem initStep_versionBranch_silent {ignored silent rest : List Byte} {s : State}
    (hx : s.initState = .versionBranch) (hq : Silent s.params.maxWaitBytes 0 ignored silent)
    (he : s.params.errSentinel ≠ 1) (h : s.answers = ignored ++ (silent ++ rest)) :
    ∃ t, Said (frameBytes (buildFrame 8 0x000001AA) ++ fillers silent.length) rest s t ∧
      initStep s = (none, (t.setPathV2 false).setInitState .readyPoll) := by
  have ht := transact_unanswered (app := false) (index := 8) (argument := 0x000001AA) (n := 4)
    hq.duringFrame hq.wholePoll hq.noReply h
  have hc : sendCommand 0x08 0x000001AA 4 s = (⟨s.params.errSentinel, none, some .transportTimeout⟩,
      s.unanswered false 8 0x000001AA ignored silent) := by
    rw [sendCommand_plain (by decide) (by decide)]
    exact ht
  have hr := sendCommand_ran 0x08 0x000001AA 4 s
  rw [hc] at hr
  refine ⟨_, hr.said ?_ (unanswered_answers (app := false) (index := 8) hq.duringFrame h), ?_⟩
  · rw [unanswered_sent (app := false) (index := 8) hq.duringFrame]
    simp [stuffing, dataBearing]
  · simp only [initStep, hx, initVersionBranch, hc, isIdle, beq_iff_eq, he, goto, if_false]

theorem initStep_voltageCheck {s : State} (hx : s.initState = .voltageCheck) :
    initStep s = if (r7Fields 0x01 s.resp).echoOk = true then
      (none, ((s.setPathV2 true).setPoll 0xA9 0x40000000).setInitState .readyPoll)
      else (none, (s.setPathV2 false).setInitState .readyPoll) := by
  simp only [initStep, hx, initVoltageCheck, goto]

/-- The echo test of R244 on the four bytes received. -/
theorem echoOk_iff {payload : List Byte} (h : payload.length = 4) :
    (r7Fields 0x01 payload).echoOk = true ↔ payload.drop 2 = [0x01, 0xAA] := by
  match payload, h with
  | [a, b, c, d], _ =>
    have hs : (slice (BitVec.ofNat 32 (fromBe [a, b, c, d])) 0 16 : BitVec 16).toNat =
        c.toNat * 256 + d.toNat := by
      rw [slice_eq_of_toNat]
      have := a.isLt; have := b.isLt; have := c.isLt; have := d.isLt
      simp only [BitVec.toNat_ofNat, fromBe, List.length_cons, List.length_nil]
      omega
    simp only [r7Fields, beq_iff_eq, ← BitVec.toNat_inj, hs, List.drop_succ_cons, List.drop_zero,
      List.cons.injEq, and_true]
    have h1 := c.isLt
    have h2 := d.isLt
    constructor
    · intro h
      have h' : c.toNat * 256 + d.toNat = 426 := h
      constructor
      · show c.toNat = 1
        omega
      · show d.toNat = 170
        omega
    · rintro ⟨h3, h4⟩
      have h3' : c.toNat = 1 := h3
      have h4' : d.toNat = 170 := h4
      show c.toNat * 256 + d.toNat = 426
      omega

theorem runInit_step {n : Nat} {s t : State} (h : initStep s = (none, t)) :
    runInit (n + 1) s = runInit n t := by rw [runInit, h]

/-- Everything up to the ready poll on a card whose answer to CMD8 selects the V2 path (R243, R244). -/
theorem runInit_opening_v2 {o : Opening} {rest : List Byte} {s : State} (ho : o.Healthy s.params) (hv : o.V2)
    (h : s.answers = o.bytes ++ rest) :
    ∃ u, runInit longestPath (beginEntry s) = runInit 3 u ∧ u.params = s.params ∧ u.answers = rest ∧
      u.buf = s.buf ∧ u.sent = s.sent ++ o.mosi ∧ u.initState = .readyPoll ∧ u.pathV2 = true ∧
      u.pollCmd = 0xA9 ∧ u.pollArg = 0x40000000 ∧ u.csd = s.csd ∧ u.cid = s.cid := by
  obtain ⟨t0, r0, x0, p0, b0, c0, i0, a0, s0⟩ := runInit_opening (o := o) (s := s)
    (rest := o.ifCond.bytes false ++ (o.ifValue ++ rest)) ho (by simp [h, Opening.bytes])
  obtain ⟨⟨lead, q, hq, h1⟩, hecho⟩ := hv
  have hif := ho.ifCond
  have hl := ho.ifValue
  rw [hq] at hif hl
  obtain ⟨t1, d1, r1, e1⟩ := initStep_versionBranch (s := t0) (q := q) (payload := o.ifValue) (rest := rest) x0
    (by rw [p0]; exact hif.2) hl (by rw [a0, hq]; simp [Attempt.bytes])
  rw [if_pos h1] at e1
  have e2 := initStep_voltageCheck (s := t1.setInitState .voltageCheck) rfl
  rw [if_pos (by rw [State.setInitState_resp, r1]; exact (echoOk_iff hl).2 hecho)] at e2
  refine ⟨_, r0.trans ((runInit_step e1).trans (runInit_step e2)), d1.params.trans p0, d1.answers, d1.buf.trans b0, ?_,
    rfl, rfl, rfl, rfl, d1.csd.trans c0, d1.cid.trans i0⟩
  rw [State.setInitState_sent, State.setPoll_sent, State.setPathV2_sent, State.setInitState_sent, d1.sent, s0,
    Opening.mosi, hq, hl]
  simp [Attempt.mosi, Reply.leadMosi, Attempt.responds]

/-- The same on every other card. -/
theorem runInit_opening_legacy {o : Opening} {rest : List Byte} {s : State} (ho : o.Healthy s.params)
    (hv : ¬ o.V2) (h : s.answers = o.bytes ++ rest) :
    ∃ u j, runInit longestPath (beginEntry s) = runInit (j + 3) u ∧ u.params = s.params ∧ u.answers = rest ∧
      u.buf = s.buf ∧ u.sent = s.sent ++ o.mosi ∧ u.initState = .readyPoll ∧ u.pathV2 = false ∧ u.csd = s.csd ∧
      u.cid = s.cid := by
  obtain ⟨t0, r0, x0, p0, b0, c0, i0, a0, s0⟩ := runInit_opening (o := o) (s := s)
    (rest := o.ifCond.bytes false ++ (o.ifValue ++ rest)) ho (by simp [h, Opening.bytes])
  have hif := ho.ifCond
  have hl := ho.ifValue
  have hse := ho.silence
  rw [Opening.mosi]
  cases hq : o.ifCond with
  | answered lead q =>
    rw [hq] at hif hl
    obtain ⟨t1, d1, r1, e1⟩ := initStep_versionBranch (s := t0) (q := q) (payload := o.ifValue) (rest := rest)
      x0 (by rw [p0]; exact hif.2) hl (by rw [a0, hq]; simp [Attempt.bytes])
    have hsent : t1.sent = s.sent ++ (fillers o.dummy.length ++ (o.misses.flatMap (Attempt.mosi false 0 0) ++
        (o.idle.mosi false 0 0 ++ (Attempt.mosi false 8 0x000001AA (.answered lead q) ++
          fillers o.ifValue.length)))) := by
      rw [d1.sent, s0, hl]
      simp [Attempt.mosi, Reply.leadMosi, Attempt.responds]
    by_cases h1 : q.r1 = 1
    · rw [if_pos h1] at e1
      have e2 := initStep_voltageCheck (s := t1.setInitState .voltageCheck) rfl
      rw [if_neg (by
        rw [State.setInitState_resp, r1]
        exact fun h => hv ⟨⟨lead, q, hq, h1⟩, (echoOk_iff hl).1 h⟩)] at e2
      exact ⟨_, 0, r0.trans ((runInit_step e1).trans (runInit_step e2)), d1.params.trans p0, d1.answers, d1.buf.trans b0,
        hsent, rfl, rfl, d1.csd.trans c0, d1.cid.trans i0⟩
    · rw [if_neg h1] at e1
      exact ⟨_, 1, r0.trans (runInit_step e1), d1.params.trans p0, d1.answers, d1.buf.trans b0, hsent, rfl, rfl,
        d1.csd.trans c0, d1.cid.trans i0⟩
  | unanswered lead ignored silent =>
    rw [hq] at hif hl hse
    have hnil : o.ifValue = [] := List.eq_nil_of_length_eq_zero hl
    obtain ⟨t1, d1, e1⟩ := initStep_versionBranch_silent (s := t0) (ignored := ignored) (silent := silent)
      (rest := rest) x0 (by rw [p0]; exact hif.2) (by rw [p0]; exact hse rfl)
      (by rw [a0, hq, hnil]; simp [Attempt.bytes])
    refine ⟨_, 1, r0.trans (runInit_step e1), d1.params.trans p0, d1.answers, d1.buf.trans b0, ?_, rfl, rfl,
      d1.csd.trans c0, d1.cid.trans i0⟩
    rw [State.setInitState_sent, State.setPathV2_sent, d1.sent, s0, hnil]
    simp [Attempt.mosi, Reply.leadMosi, fillers, stuffing, dataBearing]
  | leadRejected lead => rw [hq] at hif; cases hif.1
  | leadUnanswered ignored silent => rw [hq] at hif; cases hif.1

/-- The bring-up has reached GeometryRead: what it sent, the answers left, and the registers it wrote. -/
structure AtGeometry (mosi rest : List Byte) (s t : State) : Prop where
  initState : t.initState = .geometryRead
  sent      : t.sent = s.sent ++ mosi
  answers   : t.answers = rest
  params    : t.params = s.params
  buf       : t.buf = s.buf
  csd       : t.csd = s.csd
  cid       : t.cid = s.cid

/-- An SD v2 card up to GeometryRead (R244, R248, R250). -/
theorem runInit_v2 {o : Opening} {m : V2Middle} {rest : List Byte} {s : State} (ho : o.Healthy s.params)
    (hv : o.V2) (hm : m.Healthy s.params) (h : s.answers = o.bytes ++ (m.bytes ++ rest)) :
    ∃ w, runInit longestPath (beginEntry s) = runInit 1 w ∧ AtGeometry (o.mosi ++ m.mosi) rest s w ∧
      w.pathV2 = true ∧ w.pollCmd = 0xA9 ∧ w.pollArg = 0x40000000 ∧
      w.cardType = if (BitVec.ofNat 32 (fromBe m.ocr)).getLsbD 30 then 0b1100 else 0b0100 := by
  obtain ⟨u, r0, pu, au, bu, su, xu, vu, cu, gu, du, iu⟩ := runInit_opening_v2 ho hv h
  rw [V2Middle.bytes, List.append_assoc, List.append_assoc, List.append_assoc] at au
  obtain ⟨t3, e3, d3⟩ := retry_said (cmd := 0xA9) (by decide) 0x40000000 (required := 0)
    (n := s.params.readyPollAttempts) (d := s.params.readyPollDelayUs) m.polls (a := m.ready) (s := u) hm.budget
    (by rw [pu]; exact hm.polls) (by rw [pu]; exact hm.ready) au
  have e3' : initStep u = (none, t3.setInitState .ocrRead) := by
    simp only [initStep, xu, initReadyPoll, vu, if_true, cu, gu, pu]
    rw [e3]
    simp [isReady, d3.pathV2, vu, goto]
  have p3 : (t3.setInitState .ocrRead).params = s.params := d3.params.trans pu
  obtain ⟨t4, e4, r4, d4⟩ := sendCommand_direct_said (cmd := 0x3A) (by decide) (by decide) (by decide) 0
    (s := t3.setInitState .ocrRead) (q := m.ocrReply) (payload := m.ocr) (rest := rest)
    (by intro h; have := hm.ocr; rw [h] at this; cases this) (by rw [p3]; exact hm.ocrReply.1) d3.answers
  rw [hm.ocr] at e4
  have e4' : initStep (t3.setInitState .ocrRead) = (none, (t4.setCardType
      (if (BitVec.ofNat 32 (fromBe m.ocr)).getLsbD 30 then 0b1100 else 0b0100)).setInitState .geometryRead) := by
    simp only [initStep, State.setInitState_initState, initOcrRead]
    rw [e4]
    simp only [hm.ocrReply.2, isReady, r4, v2CardType, goto]
    rfl
  refine ⟨_, r0.trans ((runInit_step e3').trans (runInit_step e4')),
    ⟨rfl, ?_, d4.answers, d4.params.trans p3, d4.buf.trans (d3.buf.trans bu), d4.csd.trans (d3.csd.trans du),
      d4.cid.trans (d3.cid.trans iu)⟩,
    d4.pathV2.trans (d3.pathV2.trans vu), d4.pollCmd.trans (d3.pollCmd.trans cu),
    d4.pollArg.trans (d3.pollArg.trans gu), rfl⟩
  rw [State.setInitState_sent, State.setCardType_sent, d4.sent, State.setInitState_sent, d3.sent, su,
    V2Middle.mosi]
  simp only [List.append_assoc]
  rfl

/-- The ready poll of a legacy card and its CMD16, once the poll command is chosen (R252, R258). -/
theorem runInit_legacyPoll {m : LegacyMiddle} {b : Bool} {cmd : Byte} {n : Nat} {rest : List Byte} {p : Params}
    {u q : State} (h6 : cmd.getLsbD 6 = false) (hb : m.isSd1 p.errSentinel = b)
    (hcmd : cmd = if b then 0xA9 else 0x01) (happ : cmdApp cmd = b)
    (hidx : cmdIndex cmd = m.pollIndex p.errSentinel) (hm : m.Healthy p) (hx : u.initState = .readyPoll)
    (hv : u.pathV2 = false) (hp : u.params = p) (hprobe : legacyProbe u = q.setPoll cmd 0)
    (hq : Said (m.probe.mosi true 41 0) (m.polls.flatMap (Attempt.bytes b) ++ (m.ready.bytes b ++
      (m.blockLength.bytes ++ rest))) u q) :
    ∃ w, runInit (n + 2) u = runInit n w ∧ AtGeometry (m.mosi p.errSentinel) rest u w ∧ w.pathV2 = false ∧
      w.pollCmd = cmd ∧ w.pollArg = 0 ∧ w.cardType = m.cardType p.errSentinel := by
  have pq : (q.setPoll cmd 0).params = p := hq.params.trans hp
  have hpo := hm.polls
  have hre := hm.ready
  have ha := hq.answers
  rw [hb, ← happ, ← hidx] at hpo hre
  rw [← happ] at ha
  obtain ⟨t3, e3, d3⟩ := retry_said (cmd := cmd) h6 0 (required := 0) (n := p.readyPollAttempts)
    (d := p.readyPollDelayUs) m.polls (a := m.ready) (s := q.setPoll cmd 0) hm.budget (by rw [pq]; exact hpo)
    (by rw [pq]; exact hre) ha
  have v3 : t3.pathV2 = false := d3.pathV2.trans (hq.pathV2.trans hv)
  have e3' : initStep u = (none, t3.setInitState .blockLengthSet) := by
    simp only [initStep, hx, initReadyPoll, hv, Bool.false_eq_true, if_false, hprobe, State.setPoll_pollCmd,
      State.setPoll_pollArg, pq]
    rw [e3]
    simp [isReady, v3, goto]
  have p3 : (t3.setInitState .blockLengthSet).params = p := d3.params.trans pq
  obtain ⟨t4, e4, d4⟩ := sendCommand_said (cmd := 0x10) (by decide) (by decide) 512
    (s := t3.setInitState .blockLengthSet) (q := m.blockLength) (by rw [p3]; exact hm.blockLength.1) d3.answers
  have c4 : t4.pollCmd = cmd := d4.pollCmd.trans (d3.pollCmd.trans rfl)
  have e4' : initStep (t3.setInitState .blockLengthSet) =
      (none, (t4.setCardType (m.cardType p.errSentinel)).setInitState .geometryRead) := by
    simp only [initStep, State.setInitState_initState, initBlockLengthSet]
    rw [e4]
    simp only [hm.blockLength.2, isReady, c4, legacyCardType, goto, LegacyMiddle.cardType, hb, hcmd]
    cases b <;> rfl
  refine ⟨_, (runInit_step e3').trans (runInit_step e4'),
    ⟨rfl, ?_, d4.answers, d4.params.trans (p3.trans hp.symm), d4.buf.trans (d3.buf.trans hq.buf),
      d4.csd.trans (d3.csd.trans hq.csd), d4.cid.trans (d3.cid.trans hq.cid)⟩,
    d4.pathV2.trans v3, c4, d4.pollArg.trans d3.pollArg, rfl⟩
  rw [State.setInitState_sent, State.setCardType_sent, d4.sent, State.setInitState_sent, d3.sent,
    State.setPoll_sent, hq.sent, LegacyMiddle.mosi, hb, happ, hidx]
  simp only [List.append_assoc]
  rfl

/-- A legacy card up to GeometryRead (R252, R255, R258). -/
theorem runInit_legacy {o : Opening} {m : LegacyMiddle} {rest : List Byte} {s : State}
    (ho : o.Healthy s.params) (hv : ¬ o.V2) (hm : m.Healthy s.params)
    (h : s.answers = o.bytes ++ (m.bytes s.params.errSentinel ++ rest)) :
    ∃ w n, runInit longestPath (beginEntry s) = runInit (n + 1) w ∧
      AtGeometry (o.mosi ++ m.mosi s.params.errSentinel) rest s w ∧ w.pathV2 = false ∧
      w.pollCmd = (if m.isSd1 s.params.errSentinel then 0xA9 else 0x01) ∧ w.pollArg = 0 ∧
      w.cardType = m.cardType s.params.errSentinel := by
  obtain ⟨u, j, eu, pu, au, bu, su, xu, vu, du, iu⟩ := runInit_opening_legacy ho hv h
  rw [LegacyMiddle.bytes, List.append_assoc, List.append_assoc, List.append_assoc] at au
  obtain ⟨q1, cls, eq1, dq1⟩ := sendCommand_attempted_said (cmd := 0xA9) (by decide) 0 (s := u) (a := m.probe)
    (by rw [pu]; exact hm.probe) au
  rw [pu] at eq1
  suffices hw : ∃ w, runInit (j + 3) u = runInit (j + 1) w ∧
      AtGeometry (m.mosi s.params.errSentinel) rest u w ∧ w.pathV2 = false ∧
      w.pollCmd = (if m.isSd1 s.params.errSentinel then 0xA9 else 0x01) ∧ w.pollArg = 0 ∧
      w.cardType = m.cardType s.params.errSentinel by
    obtain ⟨w, ew, hw, k⟩ := hw
    exact ⟨w, j, eu.trans ew, ⟨hw.initState, by rw [hw.sent, su, List.append_assoc], hw.answers,
      hw.params.trans pu, hw.buf.trans bu, hw.csd.trans du, hw.cid.trans iu⟩, k⟩
  cases hb : m.isSd1 s.params.errSentinel with
  | true =>
    have hn : (m.probe.r1 s.params.errSentinel).toNat ≤ 1 := by simpa [LegacyMiddle.isSd1] using hb
    rw [hb] at dq1
    exact runInit_legacyPoll (b := true) (cmd := 0xA9) (n := j + 1) (by decide) hb rfl rfl
      (by simp [LegacyMiddle.pollIndex, hb]; decide) hm xu vu pu
      (by simp only [legacyProbe, eq1, noError, hn, decide_true, if_true]) dq1
  | false =>
    have hn : ¬ (m.probe.r1 s.params.errSentinel).toNat ≤ 1 := by simpa [LegacyMiddle.isSd1] using hb
    rw [hb] at dq1
    exact runInit_legacyPoll (b := false) (cmd := 0x01) (n := j + 1) (by decide) hb rfl rfl
      (by simp [LegacyMiddle.pollIndex, hb]; decide) hm xu vu pu
      (by simp only [legacyProbe, eq1, noError, hn, decide_false, Bool.false_eq_true, if_false]) dq1

/-- State GeometryRead on a healthy card (R260, R262, R263). -/
theorem initStep_geometryRead {c : Closing} {rest : List Byte} {s : State} (hx : s.initState = .geometryRead)
    (hc : c.Healthy s.params) (h : s.answers = c.bytes s.params.crc16Seed ++ rest) :
    ∃ t, initStep s = (none, t) ∧ t.initState = .done ∧ t.params = s.params ∧ t.buf = s.buf ∧
      t.answers = rest ∧ t.sent = s.sent ++ c.mosi ∧ t.csd = c.csdValue ∧ t.cid = c.cidValue ∧
      t.cardType = s.cardType ∧ t.pathV2 = s.pathV2 ∧ t.pollCmd = s.pollCmd ∧ t.pollArg = s.pollArg := by
  obtain ⟨t1, e1, r1, s1⟩ := sendCommand_block_said (cmd := 0x09) (by decide) (by decide) (by decide) 0
    (s := s) (q := c.csdReply) (d := c.csd) (rest := c.cidReply.bytes ++ (c.cid.bytes s.params.crc16Seed ++ rest))
    (by intro h; have := hc.csd.2; rw [h] at this; cases this) hc.csdReply.2 hc.csdReply.1 hc.csd.1
    (by simp [h, Closing.bytes])
  rw [hc.csd.2] at e1
  have hcsd : BitVec.ofNat 128 (fromBe t1.resp) = c.csdValue := by rw [r1]; rfl
  have hz : sizeAccepted s.params (csdDecode c.csdValue).size = true := by
    have := hc.size
    simp only [sizeAccepted, Bool.and_eq_true, bne_iff_ne, decide_eq_true_eq]
    omega
  have hp1 : (t1.setCsd c.csdValue).params = s.params := s1.params
  have ha1 : (t1.setCsd c.csdValue).answers = c.cidReply.bytes ++ (c.cid.bytes s.params.crc16Seed ++ rest) :=
    s1.answers
  obtain ⟨t2, e2, r2, s2⟩ := sendCommand_block_said (cmd := 0x0A) (by decide) (by decide) (by decide) 0
    (s := t1.setCsd c.csdValue) (q := c.cidReply) (d := c.cid) (rest := rest)
    (by intro h; have := hc.cid.2; rw [h] at this; cases this) hc.cidReply.2 (by rw [hp1]; exact hc.cidReply.1)
    (by rw [hp1]; exact hc.cid.1) (by rw [hp1]; exact ha1)
  rw [hc.cid.2] at e2
  have hcid : BitVec.ofNat 128 (fromBe t2.resp) = c.cidValue := by rw [r2]; rfl
  have hstep : initStep s = (none, (t2.setCid c.cidValue).setInitState .done) := by
    simp only [initStep, hx, initGeometryRead, e1, hcsd, isReady, beq_self_eq_true, if_true, hp1,
      State.setCsd_csd, hz, readCid, e2, hcid, goto]
  refine ⟨_, hstep, rfl, s2.params.trans hp1, s2.buf.trans s1.buf, s2.answers, ?_, s2.csd, rfl,
    s2.cardType.trans s1.cardType, s2.pathV2.trans s1.pathV2, s2.pollCmd.trans s1.pollCmd,
    s2.pollArg.trans s1.pollArg⟩
  rw [State.setInitState_sent, State.setCid_sent, s2.sent, State.setCsd_sent, s1.sent, Closing.mosi]
  simp only [List.append_assoc]
  rfl

/-- The CSD of a card that sends one (R260). -/
theorem sendCommand_csd_said {q : Reply} {d : Block} {rest : List Byte} {s : State}
    (hq : q.Heard s.params.maxWaitBytes 1 ∧ q.r1 = 0)
    (hd : d.wait < s.params.maxWaitBytes ∧ d.payload.length = 16)
    (h : s.answers = q.bytes ++ (d.bytes s.params.crc16Seed ++ rest)) :
    ∃ t, sendCommand 0x09 0 16 s = (⟨0, some d.payload, none⟩, t) ∧ t.resp = d.payload ∧
      Said (q.mosi false 9 0 ++ fillers d.count) rest s t := by
  have := sendCommand_block_said (cmd := 0x09) (by decide) (by decide) (by decide) 0 (s := s) (q := q) (d := d)
    (by intro h; have := hd.2; rw [h] at this; cases this) hq.2 hq.1 hd.1 h
  rwa [hd.2] at this

/-- State GeometryRead on a card whose registers make the bring-up fail (R260, R262, R263, R266). -/
theorem initStep_geometryRead_broken {c : BrokenClosing} {rest : List Byte} {s : State}
    (hx : s.initState = .geometryRead) (hc : c.Breaks s.params)
    (h : s.answers = c.bytes s.params.crc16Seed ++ rest) :
    ∃ t, initStep s = (some c.failClass, t) ∧ t.initState = .failed ∧ t.params = s.params ∧ t.buf = s.buf ∧
      t.answers = rest ∧ t.sent = s.sent ++ c.mosi ∧ t.csd = c.csdValue s.csd ∧ t.cid = s.cid ∧
      t.pathV2 = s.pathV2 ∧ t.pollCmd = s.pollCmd ∧ t.pollArg = s.pollArg := by
  cases c with
  | csdRefused a =>
    obtain ⟨t, he, d⟩ := sendCommand_block_refused (cmd := 0x09) (by decide) (by decide) (by decide) 0
      (n := 16) (by decide) hc.1 hc.2 h
    refine ⟨t.setInitState .failed, ?_, rfl, d.params, d.buf, d.answers, d.sent, d.csd, d.cid, d.pathV2,
      d.pollCmd, d.pollArg⟩
    simp only [initStep, hx, initGeometryRead, he, isReady, beq_iff_eq, hc.2, if_false, fail]
    rfl
  | capacity q d =>
    obtain ⟨hq, hd, hz⟩ := hc
    obtain ⟨t, he, hr, e⟩ := sendCommand_csd_said hq hd (by simpa [BrokenClosing.bytes] using h)
    have hp : t.params = s.params := e.params
    refine ⟨(t.setCsd (BitVec.ofNat 128 (fromBe d.payload))).setInitState .failed, ?_, rfl, e.params, e.buf,
      e.answers, e.sent, rfl, e.cid, e.pathV2, e.pollCmd, e.pollArg⟩
    simp only [initStep, hx, initGeometryRead, he, hr, isReady, beq_self_eq_true, if_true, State.setCsd_params,
      State.setCsd_csd, hp, hz, Bool.false_eq_true, if_false, fail]
    rfl
  | cidRefused q d a =>
    obtain ⟨hq, hd, hz, ha, h0⟩ := hc
    obtain ⟨t, he, hr, e⟩ := sendCommand_csd_said (rest := a.bytes false ++ rest) hq hd
      (by simpa [BrokenClosing.bytes] using h)
    have hp : (t.setCsd (BitVec.ofNat 128 (fromBe d.payload))).params = s.params := e.params
    obtain ⟨u, hu, f⟩ := sendCommand_block_refused (cmd := 0x0A) (by decide) (by decide) (by decide) 0
      (n := 16) (by decide) (s := t.setCsd (BitVec.ofNat 128 (fromBe d.payload))) (a := a)
      (by rw [hp]; exact ha) (by rw [hp]; exact h0) e.answers
    rw [hp] at hu
    refine ⟨u.setInitState .failed, ?_, rfl, f.params.trans hp, f.buf.trans e.buf, f.answers, ?_, f.csd,
      f.cid.trans e.cid, f.pathV2.trans e.pathV2, f.pollCmd.trans e.pollCmd, f.pollArg.trans e.pollArg⟩
    · simp only [initStep, hx, initGeometryRead, he, hr, isReady, beq_self_eq_true, if_true, hp,
        State.setCsd_csd, hz, readCid, hu, beq_iff_eq, h0, if_false, fail]
      rfl
    · rw [State.setInitState_sent, f.sent, State.setCsd_sent, e.sent, BrokenClosing.mosi]
      simp only [List.append_assoc]
      rfl

/-! ### An empty socket -/

theorem fillers_bit7 {n : Nat} : ∀ b ∈ fillers n, b.getLsbD 7 = true := by
  intro b hb
  simp only [fillers, List.mem_replicate] at hb
  rw [hb.2]
  rfl

/-- Every attempt of CMD0 runs out of its response poll (R241). -/
theorem retryFrom_silent (fuel : Nat) {k : Nat} {rest : List Byte} {s : State}
    (h1 : s.params.errSentinel ≠ 1)
    (h : s.answers = fillers (fuel * (6 + s.params.maxWaitBytes)) ++ rest) :
    ∃ t, retryFrom 0x00 0 1 s.params.cmd0RetryDelayUs fuel k
        ⟨s.params.errSentinel, none, some .transportTimeout⟩ s =
        (⟨s.params.errSentinel, none, some .transportTimeout⟩, t) ∧
      t.answers = rest ∧ t.sent = s.sent ++ (List.replicate fuel (frameBytes (buildFrame 0 0) ++
        fillers s.params.maxWaitBytes)).flatten := by
  induction fuel generalizing k s with
  | zero => exact ⟨s, rfl, by simpa [fillers] using h, by simp⟩
  | succ fuel ih =>
    have h' : (s.setAttempt k).answers = fillers 6 ++ (fillers s.params.maxWaitBytes ++
        (fillers (fuel * (6 + s.params.maxWaitBytes)) ++ rest)) := by
      rw [State.setAttempt_answers, h, ← List.append_assoc, ← List.append_assoc, fillers_append,
        fillers_append, Nat.succ_mul, Nat.add_comm]
    have e := transact_unanswered (app := false) (index := 0) (argument := 0) (n := 0)
      (s := s.setAttempt k) (ignored := fillers 6) (silent := fillers s.params.maxWaitBytes) rfl (by simp)
      fillers_bit7 h'
    have a1 := unanswered_answers (app := false) (index := 0) (argument := 0) (s := s.setAttempt k)
      (ignored := fillers 6) (silent := fillers s.params.maxWaitBytes) rfl h'
    have s1 := unanswered_sent (app := false) (index := 0) (argument := 0) (s := s.setAttempt k)
      (ignored := fillers 6) (silent := fillers s.params.maxWaitBytes) rfl
    have p1 : ((s.setAttempt k).unanswered false 0 0 (fillers 6) (fillers s.params.maxWaitBytes)).params =
        s.params := by simp
    have e2 : sendCommand 0x00 0 0 (s.setAttempt k) =
        (⟨s.params.errSentinel, none, some .transportTimeout⟩,
          (s.setAttempt k).unanswered false 0 0 (fillers 6) (fillers s.params.maxWaitBytes)) := by
      rw [sendCommand_plain (by decide) (by decide)]
      exact e
    generalize (s.setAttempt k).unanswered false 0 0 (fillers 6) (fillers s.params.maxWaitBytes) = u
      at a1 s1 p1 e2
    have pd : (u.delay s.params.cmd0RetryDelayUs).params = s.params := p1
    obtain ⟨t, ht, ta, ts⟩ := ih (k := k + 1) (s := u.delay s.params.cmd0RetryDelayUs)
      (by rw [pd]; exact h1) (by rw [pd]; exact a1)
    rw [pd] at ht ts
    refine ⟨t, ?_, ta, ?_⟩
    · rw [retryFrom]
      simp only [e2, h1, if_false, CmdOut.failClass, Option.getD_some]
      exact ht
    · rw [ts, State.delay_sent, s1]
      simp [List.replicate_succ, stuffing, dataBearing]
      rfl

end Sys2Proof.Machine
end

