-- ==== Sys2Proof/Laws/Checksum.lean ====
section
/-!
SUPPORT. The Checksum Engine (`40_checksum.md`): the update of each CRC is linear, the golden tables are the
bit-serial results of one-byte strings, and a round loses nothing.
-/

namespace Sys2Proof.Machine

/-- A feedback constant is added for each operand whose top bit asks for it. -/
theorem feedback_xor {w : Nat} (x y p : BitVec w) (a b : Bool) :
    (x ^^^ y) ^^^ (if a ^^ b then p else 0) =
      (x ^^^ (if a then p else 0)) ^^^ (y ^^^ (if b then p else 0)) := by
  apply BitVec.eq_of_getLsbD_eq
  intro i _
  cases a <;> cases b <;> simp only [BitVec.getLsbD_xor, Bool.xor_false,
    Bool.xor_true, Bool.not_false, Bool.false_eq_true, if_true, if_false, Bool.xor_self] <;>
    cases x.getLsbD i <;> cases y.getLsbD i <;> cases p.getLsbD i <;> simp

/-! ### CRC7 -/

theorem crc7Bit_eq (c : BitVec 7) (x : Bool) :
    crc7Bit c x = (c <<< 1) ^^^ (if c.getLsbD 6 ^^ x then 0x09 else 0) := by
  rw [crc7Bit]
  split <;> simp

theorem crc7Bit_xor (c d : BitVec 7) (x y : Bool) :
    crc7Bit (c ^^^ d) (x ^^ y) = crc7Bit c x ^^^ crc7Bit d y := by
  rw [crc7Bit_eq, crc7Bit_eq, crc7Bit_eq, ← feedback_xor, BitVec.shiftLeft_xor_distrib]
  congr 2
  rw [BitVec.getLsbD_xor]
  cases c.getLsbD 6 <;> cases d.getLsbD 6 <;> cases x <;> cases y <;> rfl

theorem crc7Byte_xor (c d : BitVec 7) (a b : Byte) :
    crc7Byte (c ^^^ d) (a ^^^ b) = crc7Byte c a ^^^ crc7Byte d b := by
  simp only [crc7Byte, List.foldl_cons, List.foldl_nil, BitVec.getLsbD_xor, crc7Bit_xor]

theorem crc7From_append (c : BitVec 7) (a b : List Byte) :
    crc7From c (a ++ b) = crc7From (crc7From c a) b := by
  simp [crc7From]

theorem crc7_append (a b : List Byte) : crc7 (a ++ b) = crc7From (crc7 a) b := crc7From_append 0 a b

theorem crc7From_xor (c d : BitVec 7) {a b : List Byte} (h : a.length = b.length) :
    crc7From (c ^^^ d) (List.zipWith (· ^^^ ·) a b) = crc7From c a ^^^ crc7From d b := by
  induction a generalizing c d b with
  | nil =>
    obtain rfl := List.length_eq_zero_iff.1 h.symm
    rfl
  | cons x a ih =>
    cases b with
    | nil => simp at h
    | cons y b =>
      have := ih (crc7Byte c x) (crc7Byte d y) (Nat.succ.inj h)
      simpa [crc7From, crc7Byte_xor] using this

/-- An accumulator is the CRC7 of its own bits sent as one byte. -/
theorem crc7Byte_accumulator : ∀ c : BitVec 7, crc7Byte c 0 = crc7Byte 0 (c.zeroExtend 8 <<< 1) := by
  decide +kernel

/-- Every entry of `T7` is the CRC7 of its index (R133). -/
theorem t7_entry : ∀ b : Byte, t7.getD b.toNat 0 = crc7Byte 0 b := by decide +kernel

/-- The table step is the bit-serial step (R142). -/
theorem crc7TableByte_eq (c : BitVec 7) (b : Byte) : crc7TableByte c b = crc7Byte c b := by
  have h1 := crc7Byte_xor c 0 0 b
  have h2 := crc7Byte_xor 0 0 (c.zeroExtend 8 <<< 1) b
  simp only [BitVec.xor_zero, BitVec.zero_xor, show (0 : BitVec 7) = 0#7 from rfl,
    show (0 : Byte) = 0#8 from rfl] at h1 h2
  rw [crc7TableByte, t7_entry]
  exact h2.trans (by rw [h1]; exact congrArg (· ^^^ crc7Byte 0 b) (crc7Byte_accumulator c).symm)

/-- The residues of R135 (c), for one accumulator value. -/
theorem crc7Byte_residue : ∀ c : BitVec 7, crc7Byte c (c.zeroExtend 8 <<< 1) = 0 ∧
    crc7Byte c ((c.zeroExtend 8 <<< 1) ||| 1) = 0x09 := by
  decide +kernel

/-! ### CRC16 -/

/-- One round of the inner loop of R136. -/
theorem crc16Rounds_succ (n : Nat) (c : BitVec 16) :
    crc16Rounds (n + 1) c = crc16Rounds n ((c <<< 1) ^^^ (if c.getLsbD 15 then 0x1021 else 0)) := by
  rw [crc16Rounds]
  split <;> simp

theorem crc16Rounds_xor (n : Nat) (c d : BitVec 16) :
    crc16Rounds n (c ^^^ d) = crc16Rounds n c ^^^ crc16Rounds n d := by
  induction n generalizing c d with
  | zero => rfl
  | succ n ih =>
    rw [crc16Rounds_succ, crc16Rounds_succ, crc16Rounds_succ, ← ih]
    rw [← feedback_xor, BitVec.shiftLeft_xor_distrib, BitVec.getLsbD_xor]

theorem crc16Rounds_add (m n : Nat) (c : BitVec 16) :
    crc16Rounds (m + n) c = crc16Rounds n (crc16Rounds m c) := by
  induction m generalizing c with
  | zero => simp [crc16Rounds]
  | succ m ih => rw [Nat.succ_add, crc16Rounds_succ, ih, crc16Rounds_succ]

theorem crc16Rounds_zero (n : Nat) : crc16Rounds n 0 = 0 := by
  have h := crc16Rounds_xor n 0 0
  rwa [BitVec.xor_self, BitVec.xor_self] at h

/-- No round loses a bit: only 0 goes to 0. -/
theorem crc16Rounds_eq_zero {n : Nat} {c : BitVec 16} (h : crc16Rounds n c = 0) : c = 0 := by
  induction n generalizing c with
  | zero => exact h
  | succ n ih =>
    rw [crc16Rounds_succ] at h
    have h1 := ih h
    have hb : ∀ i, ((c <<< 1) ^^^ (if c.getLsbD 15 then 0x1021 else 0 : BitVec 16)).getLsbD i = false := by
      intro i; rw [h1]; simp
    have h15 : c.getLsbD 15 = false := by
      have := hb 0
      cases hc : c.getLsbD 15
      · rfl
      · rw [hc] at this; simp at this
    rw [h15] at hb
    apply BitVec.eq_of_getLsbD_eq
    intro i hi
    rcases Nat.lt_or_ge i 15 with h' | h'
    · have := hb (i + 1)
      simp only [BitVec.getLsbD_xor, BitVec.getLsbD_shiftLeft] at this
      simpa [-BitVec.getLsbD_eq_getElem, show i + 1 < 16 by omega] using this
    · rw [show i = 15 by omega, h15]; simp

/-- Eight rounds of a low byte shift it up. -/
theorem crc16Rounds_low : ∀ b : Byte, crc16Rounds 8 (b.zeroExtend 16) = b.zeroExtend 16 <<< 8 := by
  decide +kernel

/-- Every entry of `T16` is the CRC16 of its index with seed 0 (R138). -/
theorem t16_entry : ∀ b : Byte, t16.getD b.toNat 0 = crc16Rounds 8 (b.zeroExtend 16 <<< 8) := by
  decide +kernel

/-- A 16-bit value by its two bytes. -/
theorem split16 (c : BitVec 16) :
    c = ((slice c 0 8 : Byte).zeroExtend 16) ^^^ ((slice c 8 8 : Byte).zeroExtend 16 <<< 8) := by
  apply BitVec.eq_of_getLsbD_eq
  intro i hi
  simp only [BitVec.getLsbD_xor, BitVec.truncate_eq_setWidth, BitVec.getLsbD_setWidth,
    BitVec.getLsbD_shiftLeft, slice_getLsbD]
  by_cases h : i < 8
  · simp [h, hi]
  · have h8 : 8 + (i - 8) = i := by omega
    simp [h, hi, h8, show i - 8 < 16 by omega, show i - 8 < 8 by omega]

theorem crc16Byte_xor (c d : BitVec 16) (a b : Byte) :
    crc16Byte (c ^^^ d) (a ^^^ b) = crc16Byte c a ^^^ crc16Byte d b := by
  rw [crc16Byte, crc16Byte, crc16Byte, ← crc16Rounds_xor]
  congr 1
  apply BitVec.eq_of_getLsbD_eq
  intro i hi
  by_cases h : i < 8
  · simp [h, hi]
  · simp only [BitVec.getLsbD_xor, BitVec.getLsbD_shiftLeft, BitVec.truncate_eq_setWidth,
      BitVec.getLsbD_setWidth]
    cases c.getLsbD i <;> cases d.getLsbD i <;> cases a.getLsbD (i - 8) <;> cases b.getLsbD (i - 8) <;>
      simp [h, hi, show i - 8 < 16 by omega]

/-- The table step is the bit-serial step (R142). -/
theorem crc16TableByte_eq (c : BitVec 16) (b : Byte) : crc16TableByte c b = crc16Byte c b := by
  have h1 : c ^^^ (b.zeroExtend 16 <<< 8) =
      (slice c 0 8 : Byte).zeroExtend 16 ^^^ ((slice c 8 8 ^^^ b : Byte).zeroExtend 16 <<< 8) := by
    conv_lhs => rw [split16 c]
    apply BitVec.eq_of_getLsbD_eq
    intro i hi
    by_cases h : i < 8
    · simp [h, hi]
    · simp [h, hi, show i - 8 < 8 by omega]
  have h2 : (c <<< 8) = (slice c 0 8 : Byte).zeroExtend 16 <<< 8 := by
    apply BitVec.eq_of_getLsbD_eq
    intro i hi
    simp only [BitVec.getLsbD_shiftLeft, BitVec.truncate_eq_setWidth, BitVec.getLsbD_setWidth, slice_getLsbD]
    by_cases h : i < 8
    · simp [h]
    · simp [-BitVec.getLsbD_eq_getElem, h, hi, show i - 8 < 16 by omega, show i - 8 < 8 by omega]
  rw [crc16Byte, h1, crc16Rounds_xor, crc16Rounds_low, crc16TableByte, t16_entry, h2]

/-- Two more bytes: the accumulator is compared with them (R140 (b)). -/
theorem crc16_two (c : BitVec 16) (hi lo : Byte) :
    crc16 c [hi, lo] = crc16Rounds 16 (c ^^^ (hi.zeroExtend 16 <<< 8) ^^^ lo.zeroExtend 16) := by
  simp only [crc16, List.foldl_cons, List.foldl_nil, crc16Byte]
  rw [← crc16Rounds_low lo, ← crc16Rounds_xor, ← crc16Rounds_add]

theorem crc16_append (seed : BitVec 16) (a b : List Byte) :
    crc16 seed (a ++ b) = crc16 (crc16 seed a) b := by
  simp [crc16]

theorem crc16_xor (c d : BitVec 16) {a b : List Byte} (h : a.length = b.length) :
    crc16 (c ^^^ d) (List.zipWith (· ^^^ ·) a b) = crc16 c a ^^^ crc16 d b := by
  induction a generalizing c d b with
  | nil =>
    obtain rfl := List.length_eq_zero_iff.1 h.symm
    rfl
  | cons x a ih =>
    cases b with
    | nil => simp at h
    | cons y b =>
      have := ih (crc16Byte c x) (crc16Byte d y) (Nat.succ.inj h)
      simpa [crc16, crc16Byte_xor] using this

theorem beBytes_two (c : BitVec 16) : beBytes 2 c.toNat = [slice c 8 8, slice c 0 8] := by
  simp only [beBytes]
  refine List.cons_eq_cons.2 ⟨?_, List.cons_eq_cons.2 ⟨?_, rfl⟩⟩ <;>
  · apply BitVec.eq_of_toNat_eq
    rw [slice_eq_of_toNat, BitVec.toNat_ofNat]
    norm_num

/-- Two bytes take the accumulator to 0 exactly when they are its bytes (R140 (b)). -/
theorem crc16_two_eq_zero (c : BitVec 16) (hi lo : Byte) :
    crc16 c [hi, lo] = 0 ↔ c.toNat = fromBe [hi, lo] := by
  have hv : (BitVec.ofNat 16 (fromBe [hi, lo])) = lo.zeroExtend 16 ^^^ (hi.zeroExtend 16 <<< 8) := by
    have h1 := split16 (BitVec.ofNat 16 (fromBe [hi, lo]))
    have hl := lo.isLt
    have hh := hi.isLt
    have e0 : slice (BitVec.ofNat 16 (fromBe [hi, lo])) 0 8 = lo := by
      apply BitVec.eq_of_toNat_eq; rw [slice_eq_of_toNat, BitVec.toNat_ofNat]; simp [fromBe]; omega
    have e8 : slice (BitVec.ofNat 16 (fromBe [hi, lo])) 8 8 = hi := by
      apply BitVec.eq_of_toNat_eq; rw [slice_eq_of_toNat, BitVec.toNat_ofNat]; simp [fromBe]; omega
    rw [e0, e8] at h1
    exact h1
  have hlt : fromBe [hi, lo] < 2 ^ 16 := by simpa using fromBe_lt [hi, lo]
  have hc : c.toNat = fromBe [hi, lo] ↔ c = BitVec.ofNat 16 (fromBe [hi, lo]) := by
    constructor
    · intro h; rw [← h]; simp
    · intro h; rw [h, BitVec.toNat_ofNat, Nat.mod_eq_of_lt hlt]
  rw [crc16_two, hc, hv, BitVec.xor_assoc]
  constructor
  · intro h
    have h0 := crc16Rounds_eq_zero h
    have := congrArg (· ^^^ (hi.zeroExtend 16 <<< 8 ^^^ lo.zeroExtend 16)) h0
    simp only [BitVec.xor_assoc, BitVec.xor_self, BitVec.xor_zero] at this
    rw [this]
    simp [BitVec.xor_comm]
  · intro h
    have hz : c ^^^ (hi.zeroExtend 16 <<< 8 ^^^ lo.zeroExtend 16) = 0 := by
      rw [h, BitVec.xor_comm (lo.zeroExtend 16), BitVec.xor_self]; rfl
    rw [hz, crc16Rounds_zero]

end Sys2Proof.Machine
end

