-- ==== Sys2Proof/Laws/Frame.lean ====
section
/-!
SUPPORT. The command frame (`41_command_framer.md` R150-R153): its value, its bytes, and the builder and
the parser as inverses.
-/

namespace Sys2Proof.Machine

theorem startByte_toNat (index : BitVec 6) : (startByte index).toNat = 64 + index.toNat := by
  revert index; decide

theorem crcByte_toNat (c : BitVec 7) : (crcByte c).toNat = 2 * c.toNat + 1 := by
  revert c; decide

theorem buildFrame_toNat (index : BitVec 6) (argument : BitVec 32) :
    (buildFrame index argument).toNat =
      (64 + index.toNat) * 2 ^ 40 + argument.toNat * 2 ^ 8 +
        (2 * (crc7 (frameBody index argument)).toNat + 1) := by
  have h1 : fromBe (beBytes 4 argument.toNat) = argument.toNat := fromBe_beBytes_of_lt (by simpa using argument.isLt)
  have hb := fromBe_lt (frameBody index argument ++ [crcByte (crc7 (frameBody index argument))])
  have hl : (frameBody index argument ++ [crcByte (crc7 (frameBody index argument))]).length = 6 := by
    simp [frameBody]
  rw [hl] at hb
  rw [buildFrame, BitVec.toNat_ofNat, Nat.mod_eq_of_lt (by simpa using hb), fromBe_append]
  generalize crc7 (frameBody index argument) = c
  simp [frameBody, fromBe, h1, startByte_toNat, crcByte_toNat]
  omega

theorem frameBytes_buildFrame (index : BitVec 6) (argument : BitVec 32) :
    frameBytes (buildFrame index argument) =
      frameBody index argument ++ [crcByte (crc7 (frameBody index argument))] := by
  have hl : (frameBody index argument ++ [crcByte (crc7 (frameBody index argument))]).length = 6 := by
    simp [frameBody]
  have hb := fromBe_lt (frameBody index argument ++ [crcByte (crc7 (frameBody index argument))])
  rw [hl] at hb
  rw [frameBytes, buildFrame, BitVec.toNat_ofNat, Nat.mod_eq_of_lt (by simpa using hb)]
  have := beBytes_fromBe (frameBody index argument ++ [crcByte (crc7 (frameBody index argument))])
  rwa [hl] at this

theorem parseFrame_buildFrame (index : BitVec 6) (argument : BitVec 32) :
    parseFrame (buildFrame index argument) = .ok index argument := by
  have hn := buildFrame_toNat index argument
  have hf : (frameBytes (buildFrame index argument)).take 5 = frameBody index argument := by
    rw [frameBytes_buildFrame, List.take_left' (by simp [frameBody])]
  have hi := index.isLt
  have ha := argument.isLt
  have hc := (crc7 (frameBody index argument)).isLt
  unfold parseFrame
  rw [hf]
  generalize buildFrame index argument = f at *
  generalize crc7 (frameBody index argument) = c at *
  have e47 : f.getLsbD 47 = false := by
    simp only [BitVec.getLsbD, Nat.testBit_eq_decide_div_mod_eq, hn]; simp; omega
  have e46 : f.getLsbD 46 = true := by
    simp only [BitVec.getLsbD, Nat.testBit_eq_decide_div_mod_eq, hn]; simp; omega
  have e0 : f.getLsbD 0 = true := by
    simp only [BitVec.getLsbD, Nat.testBit_eq_decide_div_mod_eq, hn]; simp; omega
  have s1 : slice f 1 7 = c := by
    apply BitVec.eq_of_toNat_eq; rw [slice, BitVec.extractLsb'_toNat, Nat.shiftRight_eq_div_pow, hn]; omega
  have s2 : slice f 40 6 = index := by
    apply BitVec.eq_of_toNat_eq; rw [slice, BitVec.extractLsb'_toNat, Nat.shiftRight_eq_div_pow, hn]; omega
  have s3 : slice f 8 32 = argument := by
    apply BitVec.eq_of_toNat_eq; rw [slice, BitVec.extractLsb'_toNat, Nat.shiftRight_eq_div_pow, hn]; omega
  rw [e47, e46, e0, s1, s2, s3]
  simp

theorem buildFrame_of_parseFrame {f : BitVec 48} {index : BitVec 6} {argument : BitVec 32}
    (h : parseFrame f = .ok index argument) : buildFrame index argument = f := by
  unfold parseFrame at h
  split at h
  · cases h
  split at h
  · cases h
  split at h
  · cases h
  split at h
  · cases h
  rename_i h47 h46 h0 hc
  simp only [ParseOutcome.ok.injEq] at h
  obtain ⟨rfl, rfl⟩ := h
  simp only [Bool.not_eq_true, Bool.not_eq_eq_eq_not, Bool.not_true, ne_eq, not_not] at h47 h46 h0 hc
  have hf := f.isLt
  simp only [BitVec.getLsbD, Nat.testBit_eq_decide_div_mod_eq, decide_eq_false_iff_not] at h47 h46 h0
  have hb : (frameBytes f).take 5 = frameBody (slice f 40 6) (slice f 8 32) := by
    simp only [frameBytes, frameBody, beBytes, List.take]
    refine List.cons_eq_cons.2 ⟨?_, ?_⟩
    · apply BitVec.eq_of_toNat_eq
      rw [startByte_toNat, slice, BitVec.extractLsb'_toNat, Nat.shiftRight_eq_div_pow, BitVec.toNat_ofNat]
      omega
    · simp only [slice, BitVec.extractLsb'_toNat, Nat.shiftRight_eq_div_pow]
      refine List.cons_eq_cons.2 ⟨?_, List.cons_eq_cons.2 ⟨?_, List.cons_eq_cons.2 ⟨?_, List.cons_eq_cons.2 ⟨?_, rfl⟩⟩⟩⟩ <;>
      · apply BitVec.eq_of_toNat_eq
        simp only [BitVec.toNat_ofNat]
        omega
  apply BitVec.eq_of_toNat_eq
  rw [buildFrame_toNat, ← hb, hc]
  simp only [slice, BitVec.extractLsb'_toNat, Nat.shiftRight_eq_div_pow]
  omega

/-- The bytes of a 48-bit value in wire order (R81). -/
theorem frameBytes_eq (f : BitVec 48) : frameBytes f =
    [slice f 40 8, slice f 32 8, slice f 24 8, slice f 16 8, slice f 8 8, slice f 0 8] := by
  simp only [frameBytes, beBytes]
  refine List.cons_eq_cons.2 ⟨?_, List.cons_eq_cons.2 ⟨?_, List.cons_eq_cons.2 ⟨?_,
    List.cons_eq_cons.2 ⟨?_, List.cons_eq_cons.2 ⟨?_, List.cons_eq_cons.2 ⟨?_, rfl⟩⟩⟩⟩⟩⟩ <;>
  · apply BitVec.eq_of_toNat_eq
    rw [slice_eq_of_toNat, BitVec.toNat_ofNat]
    norm_num

end Sys2Proof.Machine
end

