-- ==== Sys2Proof/Laws/Decode.lean ====
section
/-!
SUPPORT. Decoding of what the encoder writes: the operand fields of a request, command frames, response
bytes.
-/

namespace Sys2Proof
open Sys2Proof.Machine

/-- The values fit their widths. -/
def fits : List Nat → List Nat → Prop
  | w :: ws, v :: vs => v < 256 ^ w ∧ fits ws vs
  | [], [] => True
  | _, _ => False

theorem splitOperands_joinOperands {ws vs : List Nat} (h : fits ws vs) :
    splitOperands ws (joinOperands ws vs) = some vs := by
  induction ws generalizing vs with
  | nil =>
    cases vs with
    | nil => rfl
    | cons v vs => exact h.elim
  | cons w ws ih =>
    cases vs with
    | nil => exact h.elim
    | cons v vs =>
      have hl : ¬ (beBytes w v ++ joinOperands ws vs).length < w := by simp
      rw [joinOperands, splitOperands, if_neg hl, List.take_left' (by simp), List.drop_left' (by simp),
        ih h.2, fromBe_beBytes_of_lt h.1]
      rfl

theorem withOperands_joinOperands {ws vs : List Nat} (h : fits ws vs)
    (build : List Nat → Except DecodeError Instr) :
    withOperands ws (joinOperands ws vs) build = build vs := by
  rw [withOperands, splitOperands_joinOperands h]

theorem decodeFrame_frameBytes (index : BitVec 6) (argument : BitVec 32) :
    decodeFrame (frameBytes (buildFrame index argument)) = .ok (index, argument) := by
  have hv : BitVec.ofNat 48 (fromBe (frameBytes (buildFrame index argument))) = buildFrame index argument := by
    rw [frameBytes, fromBe_beBytes_of_lt (by simpa using (buildFrame index argument).isLt),
      BitVec.ofNat_toNat, BitVec.setWidth_eq]
  rw [decodeFrame, if_neg (by simp [frameBytes]), hv, parseFrame_buildFrame]

theorem decodeCommand_frame (index : BitVec 6) (argument : BitVec 32) :
    decodeCommand (frameBytes (buildFrame index argument)) = plainCommand index argument := by
  rw [decodeCommand, if_pos (by simp [frameBytes]), decodeFrame_frameBytes]

theorem decode_commandItem (seed : BitVec 16) (index : BitVec 6) (argument : BitVec 32) :
    decode seed (commandItem index argument) = plainCommand index argument := by
  rw [decode, commandItem]
  exact decodeCommand_frame index argument

theorem decodeCommand_frames (index : BitVec 6) (argument : BitVec 32) :
    decodeCommand (frameBytes (buildFrame 55 0) ++ frameBytes (buildFrame index argument)) =
      appCommand index argument := by
  rw [decodeCommand, if_neg (by simp [frameBytes]), List.take_left' (by simp [frameBytes]),
    List.drop_left' (by simp [frameBytes]), decodeFrame_frameBytes, decodeFrame_frameBytes]
  simp

theorem decode_appCommandItem (seed : BitVec 16) (index : BitVec 6) (argument : BitVec 32) :
    decode seed (appCommandItem index argument) = appCommand index argument := by
  rw [decode, appCommandItem]
  exact decodeCommand_frames index argument

theorem isResponse_responseByte (flags : BitVec 7) : isResponse (responseByte flags) = true := by
  revert flags; decide

theorem slice_responseByte (flags : BitVec 7) : slice (responseByte flags) 0 7 = flags := by
  revert flags; decide

theorem isAccepted_acceptedByte (ignored : BitVec 3) : isAccepted (acceptedByte ignored) = true := by
  revert ignored; decide

theorem slice_acceptedByte (ignored : BitVec 3) : slice (acceptedByte ignored) 5 3 = ignored := by
  revert ignored; decide

theorem fromBe_beBytes_toNat {w : Nat} (n : Nat) (v : BitVec w) (h : 2 ^ w ≤ 256 ^ n) :
    fromBe (beBytes n v.toNat) = v.toNat := fromBe_beBytes_of_lt (Nat.lt_of_lt_of_le v.isLt h)

theorem decodeOp_opItem {seed : BitVec 16} {select : Nat} (h : select < 256) (bs : List Byte) :
    decode seed (opItem select bs) = decodeSelect select bs := by
  simp only [decode, opItem, decodeOp, BitVec.toNat_ofNat]
  rw [Nat.mod_eq_of_lt (by simpa using h)]

theorem lt_of_fits64 {n : Nat} (h : fits64 n = true) : n < 256 ^ 8 := by
  simp only [fits64, decide_eq_true_eq] at h; omega
end Sys2Proof
end

