-- ==== Sys2Proof/Laws/Decoded.lean ====
section
/-!
SUPPORT. What the decoder accepts: each part of it, read backwards.
-/

namespace Sys2Proof
open Sys2Proof.Machine

/-- Operand bytes that split are the join of values that fit. -/
theorem splitOperands_eq_some {ws : List Nat} {bs : List Byte} {vs : List Nat} (h : splitOperands ws bs = some vs) :
    fits ws vs ∧ joinOperands ws vs = bs := by
  induction ws generalizing bs vs with
  | nil =>
    cases bs with
    | nil => simp [splitOperands] at h; subst h; exact ⟨trivial, rfl⟩
    | cons b bs => simp [splitOperands] at h
  | cons w ws ih =>
    rw [splitOperands] at h
    split at h
    · cases h
    · rename_i hl
      simp only [Option.map_eq_some_iff] at h
      obtain ⟨us, hu, rfl⟩ := h
      obtain ⟨h1, h2⟩ := ih hu
      have hw : (bs.take w).length = w := by simp; omega
      have := fromBe_lt (bs.take w)
      have h3 := beBytes_fromBe (bs.take w)
      rw [hw] at this h3
      refine ⟨⟨this, h1⟩, ?_⟩
      rw [joinOperands, h3, h2, List.take_append_drop]

/-- Operands that build an instruction are the join of values that fit. -/
theorem withOperands_ok {ws bs build i} (h : withOperands ws bs build = .ok i) :
    ∃ vs, fits ws vs ∧ joinOperands ws vs = bs ∧ build vs = .ok i := by
  rw [withOperands] at h
  split at h
  · rename_i vs hv
    exact ⟨vs, (splitOperands_eq_some hv).1, (splitOperands_eq_some hv).2, h⟩
  · cases h

/-- A frame that is accepted is the one BUILD_FRAME makes of what was read. -/
theorem decodeFrame_ok {bytes : List Byte} {r} (h : decodeFrame bytes = .ok r) :
    frameBytes (buildFrame r.1 r.2) = bytes := by
  rw [decodeFrame] at h
  split at h
  · cases h
  · rename_i hl
    simp only [ne_eq, not_not] at hl
    split at h <;> cases h
    rename_i index argument hp
    simp only [buildFrame_of_parseFrame hp]
    have h2 := fromBe_lt bytes
    rw [hl] at h2
    rw [frameBytes, BitVec.toNat_ofNat, Nat.mod_eq_of_lt (by simpa using h2)]
    have := beBytes_fromBe bytes
    rwa [hl] at this

/-- A command index by its number. -/
theorem index_of_toNat {index : BitVec 6} {n : Nat} (h : index.toNat = n) : index = BitVec.ofNat 6 n := by
  rw [← h]; simp

/-- An ordinary command that decodes is encoded by its frame. -/
theorem plainCommand_ok {seed : BitVec 16} {index argument i} (h : plainCommand index argument = .ok i) :
    i.wellFormed = true ∧ encode seed i = commandItem index argument := by
  unfold plainCommand at h
  split at h <;> (try cases h) <;> rename_i hi <;> rw [index_of_toNat hi] <;> exact ⟨rfl, rfl⟩

/-- An application command that decodes is encoded by its two frames. -/
theorem appCommand_ok {seed : BitVec 16} {index argument i} (h : appCommand index argument = .ok i) :
    i.wellFormed = true ∧ encode seed i = appCommandItem index argument := by
  unfold appCommand at h
  split at h <;> (try cases h) <;> rename_i hi <;> rw [index_of_toNat hi] <;> exact ⟨rfl, rfl⟩

/-- A response byte is its seven flags. -/
theorem responseByte_slice : ∀ b : Byte, isResponse b = true → responseByte (slice b 0 7) = b := by decide
/-- An accepting data response is its three ignored bits. -/
theorem acceptedByte_slice : ∀ b : Byte, isAccepted b = true → acceptedByte (slice b 5 3) = b := by decide


/-- A select without operands takes no operand bytes. -/
theorem withoutOperands_ok {bs : List Byte} {i j : Instr} (h : withoutOperands bs i = .ok j) : bs = [] ∧ i = j := by
  unfold withoutOperands at h
  split at h
  · cases h; rename_i hb; exact ⟨by simpa using hb, rfl⟩
  · cases h

/-- A request that decodes is encoded by its select and its operand bytes. -/
theorem decodeSelect_ok {seed : BitVec 16} {n : Nat} {bs : List Byte} {i} (hn : n < 256) (h : decodeSelect n bs = .ok i) :
    i.wellFormed = true ∧ encode seed i = opItem n bs := by
  unfold decodeSelect at h
  split at h
  all_goals first
    | (obtain ⟨vs, hf, hj, hb⟩ := withOperands_ok h
       rcases vs with _ | ⟨a, _ | ⟨b, _ | ⟨c, _ | ⟨d, _ | ⟨e, _ | ⟨g, vs⟩⟩⟩⟩⟩⟩ <;>
         simp only [fits, reduceCtorEq] at hf hb
       all_goals (try split at hb)
       all_goals cases hb
       all_goals
         subst hj
         constructor
         · simp [Instr.wellFormed, fits64]; try omega
         · simp [encode, joinOperands] <;> (try rw [Nat.mod_eq_of_lt (by omega)]) <;> (try rw [Nat.mod_eq_of_lt (by omega)]) <;> (try rw [Nat.mod_eq_of_lt (by omega)]))
    | (obtain ⟨rfl, rfl⟩ := withoutOperands_ok h; exact ⟨rfl, rfl⟩)
    | skip
  · cases h; exact ⟨rfl, rfl⟩
  · split at h
    · cases h
    · cases h
      rename_i hl
      refine ⟨rfl, ?_⟩
      have h2 : (bs.take 2).length = 2 := by simp; omega
      have hlt := fromBe_lt (bs.take 2)
      have hb := beBytes_fromBe (bs.take 2)
      rw [h2] at hlt hb
      simp only [encode, BitVec.toNat_ofNat]
      rw [Nat.mod_eq_of_lt (by omega), hb, List.take_append_drop]
  · split at h
    · split at h <;> cases h
      rename_i hl; exact ⟨by simp [Instr.wellFormed, hl], rfl⟩
    · cases h
  · split at h
    · split at h <;> cases h
      rename_i hl; exact ⟨by simp [Instr.wellFormed, hl], rfl⟩
    · cases h
  · split at h
    · rename_i hr
      obtain ⟨rfl, rfl⟩ := withoutOperands_ok h
      constructor
      · simp [Instr.wellFormed]; omega
      · simp [encode]; rw [Nat.mod_eq_of_lt (by omega)]
    · cases h

/-- No word of the opcode table is a data block frame, so its decoding does not depend on `CRC16_SEED`. -/
theorem decode_tableItem_seed (seed seed' : BitVec 16) (nbits w : Nat) :
    decode seed (tableItem nbits w) = decode seed' (tableItem nbits w) := by
  unfold tableItem
  simp only [opItem]
  split_ifs <;> rfl

end Sys2Proof
end

