-- ==== Sys2Proof/Laws/Delay.lean ====
section
/-!
SUPPORT. The delays of each operation, whatever the card answers (`70_reset_and_hazards.md` R431): only the ready
wait, the token wait and the two retry loops of BEGIN delay.
-/

namespace Sys2Proof.Machine

theorem Delays.of_eq {s t : State} (h : t.delayUs = s.delayUs) : Delays 0 s t := ⟨h.ge, h.le⟩

theorem Delays.refl (s : State) : Delays 0 s s := .of_eq rfl

theorem Delays.eq {s t : State} (h : Delays 0 s t) : t.delayUs = s.delayUs := Nat.le_antisymm h.2 h.1

theorem Delays.trans {m n : Nat} {s t u : State} (h : Delays m s t) (k : Delays n t u) : Delays (m + n) s u :=
  ⟨h.1.trans k.1, by have := h.2; have := k.2; omega⟩

theorem Delays.mono {m n : Nat} {s t : State} (h : Delays m s t) (k : m ≤ n) : Delays n s t :=
  ⟨h.1, by have := h.2; omega⟩

/-- A register write after it takes no time. -/
theorem Delays.then_eq {n : Nat} {s t u : State} (h : Delays n s t) (k : u.delayUs = t.delayUs) : Delays n s u :=
  h.trans (.of_eq k)

/-! ### Transport and polls -/

theorem sendBytes_delays (os : List Byte) (s : State) : Delays 0 s (sendBytes os s) := by
  obtain ⟨is, _, h⟩ := sendBytes_any os s
  exact .of_eq (by simp [h])

theorem recvBytes_delays (n : Nat) (s : State) : Delays 0 s (recvBytes n s).2 := by
  obtain ⟨is, _, h⟩ := recvBytes_any n s
  exact .of_eq (by simp [h])

theorem recv_delays (s : State) : Delays 0 s (recv s).2 := .of_eq (by simp [recv_eq])

theorem send_delays (o : Byte) (s : State) : Delays 0 s (send o s) := .of_eq (by simp [send_eq])

/-- A poll delays once a miss. -/
theorem poll_delays (stop : Byte → Bool) (d n : Nat) (s : State) : Delays (n * d) s (poll stop d n s).2 := by
  rw [poll]
  rcases pollFrom_any stop d n 1 s with ⟨miss, b, _, _, hlt, h⟩ | ⟨miss, _, _, h⟩ <;> rw [h]
  · have := Nat.mul_le_mul_right d hlt.le
    exact ⟨by simp, by simpa using this⟩
  · exact ⟨by simp, by simp⟩

/-! ### Commands -/

theorem sendFrame_delays (app : Bool) (index : BitVec 6) (argument : BitVec 32) (s : State) :
    Delays 0 s (sendFrame app index argument s) := by
  have h := (Delays.of_eq (t := loadFrame index argument s) (s := s) (by simp [loadFrame_eq])).trans
    (sendBytes_delays (frameBytes (loadFrame index argument s).frame) _)
  unfold sendFrame
  simp only
  split
  · exact h.trans (recv_delays _)
  · exact h

theorem captureDirect_delays (r1 : Byte) (n : Nat) (s : State) : Delays 0 s (captureDirect r1 n s).2 :=
  (recvBytes_delays n s).then_eq (by simp [captureDirect])

theorem captureBlock_delays (r1 : Byte) (n : Nat) (s : State) : Delays 0 s (captureBlock r1 n s).2 := by
  have h := ((recvBytes_delays n s).then_eq (u := (recvBytes n s).2.setResp (recvBytes n s).1) (by simp)).trans
    (recvBytes_delays 2 _)
  unfold captureBlock
  simp only
  split <;> exact h

theorem captureData_delays (r1 : Byte) (n : Nat) (s : State) : Delays 0 s (captureData r1 n s).2 := by
  have hp := poll_delays isToken 0 s.params.maxWaitBytes s
  rw [Nat.mul_zero] at hp
  unfold captureData
  rw [pollTokenShort]
  generalize poll isToken 0 s.params.maxWaitBytes s = r at hp
  obtain ⟨_ | token, t⟩ := r
  · exact hp
  · simp only
    split
    · exact (hp.then_eq (u := t.setTok token) (by simp)).trans (captureBlock_delays _ _ _)
    · exact hp

theorem afterResponse_delays (bearing : Bool) (r1 : Byte) (n : Nat) (s : State) :
    Delays 0 s (afterResponse bearing r1 n s).2 := by
  unfold afterResponse
  split
  · exact .refl s
  · split
    · exact captureDirect_delays r1 n s
    · split
      · exact .refl s
      · exact captureData_delays r1 n s

theorem transact_delays (app : Bool) (index : BitVec 6) (argument : BitVec 32) (n : Nat) (s : State) :
    Delays 0 s (transact app index argument n s).2 := by
  have hp := (sendFrame_delays app index argument s).trans
    (poll_delays isResponse 0 (sendFrame app index argument s).params.maxWaitBytes _)
  rw [Nat.mul_zero] at hp
  unfold transact pollResponse
  generalize poll isResponse 0 (sendFrame app index argument s).params.maxWaitBytes _ = r at hp
  obtain ⟨_ | r1, t⟩ := r
  · exact hp
  · exact hp.trans (afterResponse_delays ..)

/-- A command does not delay. -/
theorem sendCommand_delays (cmd : Byte) (argument : BitVec 32) (n : Nat) (s : State) :
    Delays 0 s (sendCommand cmd argument n s).2 := by
  unfold sendCommand
  split
  · exact .refl s
  · split
    · simp only
      split
      · exact (transact_delays ..).trans (transact_delays ..)
      · exact transact_delays ..
    · exact transact_delays ..

theorem retryFrom_delays (cmd : Byte) (argument : BitVec 32) (required : Byte) (d fuel k : Nat) (last : CmdOut)
    (s : State) : Delays (fuel * d) s (retryFrom cmd argument required d fuel k last s).2 := by
  induction fuel generalizing k last s with
  | zero => exact (Delays.refl s).mono (Nat.zero_le _)
  | succ fuel ih =>
    have h := sendCommand_delays cmd argument 0 (s.setAttempt k)
    unfold retryFrom
    simp only
    split
    · exact Delays.mono ((Delays.of_eq rfl).trans h) (Nat.zero_le _)
    · have h1 : Delays d s ((sendCommand cmd argument 0 (s.setAttempt k)).2.delay d) :=
        ⟨by simp [h.eq], by simp [h.eq]⟩
      exact (h1.trans (ih ..)).mono (by rw [Nat.succ_mul]; omega)

/-- A retry loop delays once an attempt that missed. -/
theorem sendCommandRetry_delays (cmd : Byte) (argument : BitVec 32) (required : Byte) (n d : Nat) (s : State) :
    Delays (n * d) s (sendCommandRetry cmd argument required n d s).2 := by
  unfold sendCommandRetry
  split
  · exact (Delays.refl s).mono (Nat.zero_le _)
  · exact retryFrom_delays ..

/-! ### The transceiver -/

theorem waitReady_delays (s : State) : Delays (readyWaitDelay s.params) s (waitReady s).2 := poll_delays ..

theorem receivePayload_delays (offset n : Nat) (s : State) : Delays 0 s (receivePayload offset n s).2 := by
  have h := (recvBytes_delays n s).trans (recvBytes_delays 2 _)
  unfold receivePayload
  simp only
  split <;> exact h

theorem receiveBlock_delays (offset n : Nat) (s : State) :
    Delays (tokenWaitDelay s.params) s (receiveBlock offset n s).2 := by
  have hp : Delays (tokenWaitDelay s.params) s (pollTokenLong s).2 := poll_delays ..
  unfold receiveBlock
  generalize pollTokenLong s = r at hp ⊢
  obtain ⟨_ | token, t⟩ := r
  · exact hp
  · simp only
    split
    · exact (hp.then_eq (u := t.setTok token) (by simp)).trans (receivePayload_delays ..)
    · exact hp

theorem sendPayload_delays (payload : List Byte) (s : State) : Delays 0 s (sendPayload payload s).2 :=
  (Delays.of_eq (by simp)).trans ((sendBytes_delays _ (s.setCrc16 _)).trans (recv_delays _))

theorem sendToken_delays (token : Byte) (s : State) : Delays (readyWaitDelay s.params) s (sendToken token s).2 := by
  have h := waitReady_delays s
  unfold sendToken
  simp only
  split
  · exact h.trans (send_delays token _)
  · exact h

theorem transmitBlock_delays (offset : Nat) (token : Byte) (s : State) :
    Delays (readyWaitDelay s.params) s (transmitBlock offset token s).2 := by
  have h := sendToken_delays token s
  unfold transmitBlock transmitFrame
  generalize sendToken token s = r at h ⊢
  obtain ⟨_ | c, t⟩ := r
  · simp only
    split
    · exact h
    · exact h.trans (sendPayload_delays ..)
  · exact h

/-! ### The initialization -/

theorem legacyProbe_delays (s : State) : Delays 0 s (legacyProbe s) := sendCommand_delays 0xA9 0 0 s

theorem readCid_delays (s : State) : Delays 0 s (readCid s).2 := by
  have h := sendCommand_delays 0x0A 0 16 s
  simp only [readCid]
  split <;> exact h

/-- One transition. -/
theorem initStep_delays (s : State) : Delays (stateDelay s.params s.initState) s (initStep s).2 := by
  cases hs : s.initState <;> simp only [initStep, hs, stateDelay]
  · exact sendBytes_delays _ s
  · have h := sendCommandRetry_delays 0x00 0 1 s.params.cmd0Attempts s.params.cmd0RetryDelayUs s
    simp only [initIdleNegotiation]
    split <;> exact h
  · have h := sendCommand_delays 0x08 0x000001AA 4 s
    simp only [initVersionBranch]
    split <;> exact h
  · simp only [initVoltageCheck]
    split <;> exact .of_eq rfl
  · simp only [initReadyPoll]
    have h1 : Delays 0 s (if s.pathV2 then s else legacyProbe s) := by
      split
      · exact .refl s
      · exact legacyProbe_delays s
    have hp : (if s.pathV2 then s else legacyProbe s).params = s.params := by
      split
      · rfl
      · exact (legacyProbe_stepped s).1.host.params
    generalize (if s.pathV2 then s else legacyProbe s) = s1 at h1 hp ⊢
    have h := h1.trans (sendCommandRetry_delays s1.pollCmd s1.pollArg 0 s1.params.readyPollAttempts
      s1.params.readyPollDelayUs s1)
    rw [hp, Nat.zero_add] at h
    rw [hp]
    split <;> exact h
  · have h := sendCommand_delays 0x3A 0 4 s
    simp only [initOcrRead]
    split <;> exact h
  · have h := sendCommand_delays 0x10 512 0 s
    simp only [initBlockLengthSet]
    split <;> exact h
  · have h := sendCommand_delays 0x09 0 16 s
    simp only [initGeometryRead]
    split
    · split
      · exact (h.then_eq (by simp)).trans (readCid_delays _)
      · exact h
    · exact h
  · exact .refl s
  · exact .refl s

end Sys2Proof.Machine
end

