-- ==== Sys2Proof/Laws/Geometry.lean ====
section
/-!
SUPPORT. Bit fields of a register (`45_geometry.md` R281) and of four bytes (`42_response_parser.md` R187,
R190).
-/

namespace Sys2Proof.Machine

/-- FIELD inside the register is the slice. -/
theorem fieldOf_slice {v : BitVec 128} {start width : Nat} (hw : width ≠ 0) (h : start + width ≤ 128) :
    fieldOf v start width = some (slice v start width).toNat := by
  rw [fieldOf, if_neg (by omega), slice_eq_of_toNat]

/-- Four bytes as a number and as a bit string. -/
theorem ofNat_fromBe_four (p0 p1 p2 p3 : Byte) :
    BitVec.ofNat 32 (fromBe [p0, p1, p2, p3]) = p0 ++ p1 ++ p2 ++ p3 := by
  apply BitVec.eq_of_toNat_eq
  have := p0.isLt
  have := p1.isLt
  have := p2.isLt
  have := p3.isLt
  rw [BitVec.toNat_append, BitVec.toNat_append, BitVec.toNat_append,
    ← Nat.shiftLeft_add_eq_or_of_lt p3.isLt, ← Nat.shiftLeft_add_eq_or_of_lt p2.isLt,
    ← Nat.shiftLeft_add_eq_or_of_lt p1.isLt]
  simp only [fromBe, BitVec.toNat_ofNat, List.length_cons, List.length_nil, Nat.shiftLeft_eq]
  omega

/-- A field of four bytes. -/
theorem slice_fromBe_four (p0 p1 p2 p3 : Byte) (start width : Nat) :
    (slice (BitVec.ofNat 32 (fromBe [p0, p1, p2, p3])) start width : BitVec width) =
      BitVec.ofNat width ((((p0.toNat * 256 + p1.toNat) * 256 + p2.toNat) * 256 + p3.toNat) / 2 ^ start) := by
  apply BitVec.eq_of_toNat_eq
  rw [slice_eq_of_toNat]
  have := p0.isLt
  have := p1.isLt
  have := p2.isLt
  have := p3.isLt
  simp only [BitVec.toNat_ofNat, fromBe, List.length_cons, List.length_nil]
  congr 2
  omega

/-- The variant of each structure code (R285). -/
theorem csdVariant_zero {v : BitVec 128} (h : (slice v 126 2 : BitVec 2) = 0) :
    csdVariant v = .v1 (slice v 62 12) (slice v 59 3) (slice v 56 3) (slice v 53 3) (slice v 50 3)
      (slice v 47 3) := by
  simp [csdVariant, h]

theorem csdVariant_one {v : BitVec 128} (h : (slice v 126 2 : BitVec 2) = 1) :
    csdVariant v = .v2 (slice v 48 22) := by
  simp [csdVariant, h]

theorem csdVariant_two {v : BitVec 128} (h : (slice v 126 2 : BitVec 2) = 2) :
    csdVariant v = .v3 (slice v 48 28) := by
  simp [csdVariant, h]

theorem csdVariant_three {v : BitVec 128} (h : (slice v 126 2 : BitVec 2) = 3) :
    csdVariant v = .none := by
  simp [csdVariant, h]

end Sys2Proof.Machine
end

