-- ==== Sys2Proof/Laws/Items.lean ====
section
/-!
SUPPORT. Items the card drives, read by the engine (log 9), and what any item on the wire leaves alone.
-/

namespace Sys2Proof.Machine

/-- The response poll reads a driven response byte at once. -/
theorem pollResponse_drive {f : BitVec 7} {rest : List Byte} {s : State} (hw : 0 < s.params.maxWaitBytes) :
    pollResponse (s.drive (responseByte f :: rest)) = (some (responseByte f),
      ((s.drive (responseByte f :: rest)).onWire (fillers 1) [responseByte f]).setAttempt 1) := by
  have hp := pollFrom_of_answers (stop := isResponse) (d := 0) (k := 1)
    (s := s.drive (responseByte f :: rest)) (fuel := s.params.maxWaitBytes) (miss := [])
    (b := responseByte f) (rest := rest ++ s.answers) (by simp)
    (by rw [isResponse_eq]; revert f; decide) (by simpa using hw) (by simp)
  simp only [pollResponse, poll, State.drive_params, hp]
  simp

/-- A driven response and its payload are read to the last byte. -/
theorem readResponse_drive {f : BitVec 7} {p : List Byte} {make : Byte → List Byte → Result} {s : State}
    (hw : 0 < s.params.maxWaitBytes) :
    readResponse p.length make (s.drive (responseByte f :: p)) =
      (((s.heard (responseByte f :: p)).setAttempt 1).setResp p).finish (make (responseByte f) p) none := by
  simp only [readResponse, pollResponse_drive hw, captureDirect]
  rw [recvBytes_of_answers (is := p) (rest := s.answers) (by simp)]
  simp only [State.setResp_resp]
  congr 1
  rw [setAttempt_onWire, onWire_filler]
  rfl

/-- A response read from the wire keeps the command frame, both accumulators and the token. -/
theorem readResponse_keeps (n : Nat) (make : Byte → List Byte → Result) (s : State) :
    (readResponse n make s).frame = s.frame ∧ (readResponse n make s).crc7acc = s.crc7acc ∧
      SameData s (readResponse n make s) := by
  have hp := poll_scratch isResponse 0 s.params.maxWaitBytes s
  unfold readResponse
  rw [pollResponse]
  split
  · rename_i s1 h
    rw [h] at hp
    exact ⟨hp.frame, hp.crc7acc, hp.crc16acc, hp.tok⟩
  · rename_i r s1 h
    rw [h] at hp
    have k := recvBytes_scratch n s1
    refine ⟨?_, ?_, ?_, ?_⟩ <;> simp only [captureDirect, State.finish_frame, State.finish_crc7acc,
      State.finish_crc16acc, State.finish_tok, State.setResp_frame, State.setResp_crc7acc,
      State.setResp_crc16acc, State.setResp_tok]
    · exact k.frame.trans hp.frame
    · exact k.crc7acc.trans hp.crc7acc
    · exact k.crc16acc.trans hp.crc16acc
    · exact k.tok.trans hp.tok

/-- A token read from the wire keeps the command transients and the CRC16 accumulator. -/
theorem receiveToken_keeps (s : State) :
    SameFraming s (receiveToken s) ∧ (receiveToken s).crc16acc = s.crc16acc := by
  have hp := poll_scratch isToken s.params.tokenWaitDelayUs s.params.tokenWaitSteps s
  unfold receiveToken
  rw [pollTokenLong]
  split
  · rename_i s1 h
    rw [h] at hp
    exact ⟨⟨hp.frame, hp.crc7acc, hp.resp⟩, hp.crc16acc⟩
  · rename_i r s1 h
    rw [h] at hp
    exact ⟨⟨hp.frame, hp.crc7acc, hp.resp⟩, hp.crc16acc⟩

/-- The stop token carries no payload, so no CRC16 is computed. -/
theorem transmitFrame_stop_crc16acc (s : State) :
    (transmitFrame tokenStopTranByte [] s).2.crc16acc = s.crc16acc := by
  have h := sendToken_scratch tokenStopTranByte s
  unfold transmitFrame
  split
  · rename_i e s1 he
    rw [he] at h
    exact h.crc16acc
  · rename_i s1 he
    rw [he] at h
    exact h.crc16acc

end Sys2Proof.Machine
end

