-- ==== Sys2Proof/Laws/Kept.lean ====
section
/-!
SUPPORT. Which registers a bring-up writes, whatever the card answers: path and poll registers
(`44_init_fsm.md` R244, R252), CSD and CID (R260, R263), and what a failed one keeps (R233, R266).
-/

namespace Sys2Proof.Machine

/-! ### The bytes received -/

theorem onWire_got (s : State) {o i : List Byte} (h : o.length = i.length) : (s.onWire o i).got = s.got ++ i := by
  have hm : ((exchanges s.cs o i).map Exchange.miso).reverse = i := by
    simp only [exchanges, List.map_reverse, List.reverse_reverse, List.map_zipWith]
    exact List.ext_getElem (by simp [h]) (by simp)
  simp [State.got, hm]

theorem Grows.got {n : Nat} {s t : State} (h : Grows n s t) : ∃ new, t.got = s.got ++ new := by
  obtain ⟨new, h, -⟩ := h
  exact ⟨(new.map Exchange.miso).reverse, by simp [State.got, h]⟩

/-- A register fetched meanwhile was fetched in the whole run. -/
theorem Fetched.widen {v : BitVec 128} {s0 s t u : State} (h : Fetched v s t) (hp : s.params = s0.params)
    (hs : ∃ new, s.got = s0.got ++ new) (hu : ∃ new, u.got = t.got ++ new) : Fetched v s0 u := by
  obtain ⟨b, p, a, hg, hl, hv⟩ := h
  obtain ⟨b0, hs⟩ := hs
  obtain ⟨a0, hu⟩ := hu
  exact ⟨b0 ++ b, p, a ++ a0, by simp [hu, hg, hs, hp], hl, hv⟩

/-- A payload accepted by the CRC16 comparison (lines 24-27 of R155). -/
theorem captureBlock_fetched {s : State} (h0 : s.params.errSentinel ≠ 0) (h : (captureBlock 0 16 s).1.r1 = 0) :
    Fetched (BitVec.ofNat 128 (fromBe (captureBlock 0 16 s).2.resp)) s (captureBlock 0 16 s).2 := by
  obtain ⟨is, hl, hi⟩ := recvBytes_any 16 s
  obtain ⟨js, hm, hj⟩ := recvBytes_any 2 ((s.onWire (fillers 16) is).setResp is)
  simp only [captureBlock, hi, hj] at h ⊢
  split at h
  · rename_i hc
    rw [if_pos hc]
    refine ⟨[], is, [], ?_, hl, ?_⟩
    · have ht := beBytes_fromBe js
      rw [hm, ← hc] at ht
      rw [ht]
      show (((s.onWire (fillers 16) is).setResp is).onWire (fillers 2) js).got = _
      rw [onWire_got _ (by simp [hm])]
      show (s.onWire (fillers 16) is).got ++ js = _
      rw [onWire_got _ (by simp [hl])]
      simp
    · simp
  · exact absurd h h0

/-- The data path of a command whose R1 was 0 (lines 19-27 of R155). -/
theorem captureData_fetched {s : State} (h0 : s.params.errSentinel ≠ 0) (h : (captureData 0 16 s).1.r1 = 0) :
    Fetched (BitVec.ofNat 128 (fromBe (captureData 0 16 s).2.resp)) s (captureData 0 16 s).2 := by
  have hq := poll_ran isToken 0 s.params.maxWaitBytes s
  change Ran _ s (pollTokenShort s).2 at hq
  simp only [captureData] at h ⊢
  generalize pollTokenShort s = r at h hq ⊢
  obtain ⟨_ | token, t⟩ := r
  · exact absurd h (show t.params.errSentinel ≠ 0 from hq.host.params.symm ▸ h0)
  · by_cases ht : token = tokenStartByte
    · have hk := hq.trans (Ran.setTok t token)
      simp only [ht, if_true] at h hk ⊢
      exact (captureBlock_fetched (hk.host.params ▸ h0) h).widen hk.host.params hk.grows.got
        ⟨[], (List.append_nil _).symm⟩
    · simp only [ht, if_false] at h
      exact absurd h (show t.params.errSentinel ≠ 0 from hq.host.params.symm ▸ h0)

/-- A register that CMD9 or CMD10 answers with is one the card sent, with its CRC16 (R155, R160). -/
theorem sendCommand_fetched {cmd : Byte} (h6 : cmd.getLsbD 6 = false) (h7 : cmd.getLsbD 7 = false)
    (hb : dataBearing false (cmdIndex cmd) = true) {argument : BitVec 32} {s : State}
    (h0 : s.params.errSentinel ≠ 0) (h : (sendCommand cmd argument 16 s).1.r1 = 0) :
    Fetched (BitVec.ofNat 128 (fromBe (sendCommand cmd argument 16 s).2.resp)) s
      (sendCommand cmd argument 16 s).2 := by
  have hp := (sendFrame_ran false (cmdIndex cmd) argument s).trans
    (poll_ran isResponse 0 (sendFrame false (cmdIndex cmd) argument s).params.maxWaitBytes _)
  change Ran _ s (pollResponse _).2 at hp
  rw [sendCommand_plain h6 h7] at h ⊢
  simp only [transact] at h ⊢
  generalize pollResponse (sendFrame false (cmdIndex cmd) argument s) = r at h hp ⊢
  obtain ⟨_ | r1, t⟩ := r
  · exact absurd h (show t.params.errSentinel ≠ 0 from hp.host.params.symm ▸ h0)
  · by_cases hr : r1 = 0
    · subst hr
      have he : afterResponse (dataBearing false (cmdIndex cmd)) 0 16 t = captureData 0 16 t := by
        simp [afterResponse, hb]
      simp only [he] at h ⊢
      exact (captureData_fetched (hp.host.params ▸ h0) h).widen hp.host.params hp.grows.got
        ⟨[], (List.append_nil _).symm⟩
    · have he : (afterResponse (dataBearing false (cmdIndex cmd)) r1 16 t).1.r1 = r1 := by
        simp only [afterResponse, hb, ne_eq, hr]
        rfl
      exact absurd (he.symm.trans h) hr

/-! ### The registers along the path -/

/-- The path and poll registers of `t` are those of `s`. -/
structure SamePath (s t : State) : Prop where
  pathV2  : t.pathV2 = s.pathV2
  pollCmd : t.pollCmd = s.pollCmd
  pollArg : t.pollArg = s.pollArg

/-- Path and poll registers in each state of a bring-up that began in `s` (R233, R244, R252). -/
def Route (s t : State) : Prop :=
  match t.initState with
  | .reset | .idleNegotiation | .versionBranch | .voltageCheck => SamePath s t
  | .readyPoll => t.pathV2 = true → ChosenPath t
  | .ocrRead | .blockLengthSet | .geometryRead | .done => ChosenPath t
  | .failed => SamePath s t ∨ ChosenPath t

/-- CSD and CID in each state of a bring-up that began in `s` (R260, R263, R266). -/
def Registers (s t : State) : Prop :=
  match t.initState with
  | .done => s.params.errSentinel ≠ 0 → Fetched t.csd s t ∧ Fetched t.cid s t
  | .failed => t.cid = s.cid ∧ (s.params.errSentinel ≠ 0 → t.csd = s.csd ∨ Fetched t.csd s t)
  | _ => t.csd = s.csd ∧ t.cid = s.cid

/-- What a bring-up that began in `s` has done to these registers when it is in `t`. -/
structure Kept (s t : State) : Prop where
  params    : t.params = s.params
  got       : ∃ new, t.got = s.got ++ new
  route     : Route s t
  registers : Registers s t

/-- Before the first register arrives: neither is written. -/
structure Untouched (s t : State) : Prop where
  params : t.params = s.params
  got    : ∃ new, t.got = s.got ++ new
  csd    : t.csd = s.csd
  cid    : t.cid = s.cid

theorem Ran.samePath {n : Nat} {s0 s t : State} (h : Ran n s t) (k : SamePath s0 s) : SamePath s0 t :=
  ⟨h.control.pathV2.trans k.1, h.control.pollCmd.trans k.2, h.control.pollArg.trans k.3⟩

theorem Ran.chosenPath {n : Nat} {s t : State} (h : Ran n s t) (k : ChosenPath s) : ChosenPath t := by
  simpa only [ChosenPath, h.control.pathV2, h.control.pollCmd, h.control.pollArg] using k

theorem Ran.kept_got {n : Nat} {s0 s t : State} (h : Ran n s t) (k : ∃ new, s.got = s0.got ++ new) :
    ∃ new, t.got = s0.got ++ new := by
  obtain ⟨a, ha⟩ := k
  obtain ⟨b, hb⟩ := h.grows.got
  exact ⟨a ++ b, by rw [hb, ha, List.append_assoc]⟩

theorem Ran.untouched {n : Nat} {s0 s t : State} (h : Ran n s t) (k : Untouched s0 s) : Untouched s0 t :=
  ⟨h.host.params.trans k.params, h.kept_got k.got, h.session.csd.trans k.csd, h.session.cid.trans k.cid⟩

/-- A failure before the first register arrives. -/
theorem Untouched.fail {s0 t : State} (h : Untouched s0 t) (hp : SamePath s0 t ∨ ChosenPath t) (c : ErrorClass) :
    Kept s0 (fail c t).2 :=
  ⟨h.params, h.got, hp.imp (fun k => ⟨k.1, k.2, k.3⟩) id, h.cid, fun _ => .inl h.csd⟩

/-- The legacy probe chooses its poll command (R252). -/
theorem legacyProbe_chosen {s : State} (hv : s.pathV2 = false) : ChosenPath (legacyProbe s) := by
  obtain ⟨_, _, h1, h2, h3, _⟩ := legacyProbe_stepped s
  exact .inr ⟨h1.trans hv, h3, h2⟩

theorem initReset_kept {s0 s : State} (h : Untouched s0 s) (hr : SamePath s0 s) : Kept s0 (initReset s).2 := by
  have h1 := sendBytes_ran (List.replicate s.params.dummyBytes 0xFF) s
  have hu := h1.untouched h
  have hp := h1.samePath hr
  exact ⟨hu.params, hu.got, ⟨hp.1, hp.2, hp.3⟩, hu.csd, hu.cid⟩

theorem initIdleNegotiation_kept {s0 s : State} (h : Untouched s0 s) (hr : SamePath s0 s) :
    Kept s0 (initIdleNegotiation s).2 := by
  have h1 := sendCommandRetry_ran 0x00 0 1 s.params.cmd0Attempts s.params.cmd0RetryDelayUs s
  simp only [initIdleNegotiation]
  generalize sendCommandRetry 0x00 0 1 s.params.cmd0Attempts s.params.cmd0RetryDelayUs s = r at h1 ⊢
  have hu := h1.untouched h
  have hp := h1.samePath hr
  split
  · exact ⟨hu.params, hu.got, ⟨hp.1, hp.2, hp.3⟩, hu.csd, hu.cid⟩
  · exact hu.fail (.inl hp) _

theorem initVersionBranch_kept {s0 s : State} (h : Untouched s0 s) (hr : SamePath s0 s) :
    Kept s0 (initVersionBranch s).2 := by
  have h1 := sendCommand_ran 0x08 0x000001AA 4 s
  simp only [initVersionBranch]
  generalize sendCommand 0x08 0x000001AA 4 s = r at h1 ⊢
  have hu := h1.untouched h
  have hp := h1.samePath hr
  split
  · exact ⟨hu.params, hu.got, ⟨hp.1, hp.2, hp.3⟩, hu.csd, hu.cid⟩
  · exact ⟨hu.params, hu.got, nofun, hu.csd, hu.cid⟩

theorem initVoltageCheck_kept {s0 s : State} (h : Untouched s0 s) : Kept s0 (initVoltageCheck s).2 := by
  unfold initVoltageCheck
  split
  · exact ⟨h.params, h.got, fun _ => .inl ⟨rfl, rfl, rfl⟩, h.csd, h.cid⟩
  · exact ⟨h.params, h.got, nofun, h.csd, h.cid⟩

/-- State ReadyPoll (R248, R252). -/
theorem initReadyPoll_kept {s0 s : State} (h : Untouched s0 s) (hr : s.pathV2 = true → ChosenPath s) :
    Kept s0 (initReadyPoll s).2 := by
  obtain ⟨hc, hu⟩ : ChosenPath (if s.pathV2 then s else legacyProbe s) ∧
      Untouched s0 (if s.pathV2 then s else legacyProbe s) := by
    cases hv : s.pathV2 with
    | true => exact ⟨hr hv, h⟩
    | false =>
      have hq := (sendCommand_ran 0xA9 0 0 s).untouched h
      exact ⟨legacyProbe_chosen hv, hq.params, hq.got, hq.csd, hq.cid⟩
  simp only [initReadyPoll]
  generalize (if s.pathV2 then s else legacyProbe s) = s1 at hc hu ⊢
  have h1 := sendCommandRetry_ran s1.pollCmd s1.pollArg 0 s1.params.readyPollAttempts s1.params.readyPollDelayUs s1
  generalize sendCommandRetry s1.pollCmd s1.pollArg 0 s1.params.readyPollAttempts s1.params.readyPollDelayUs s1 = r
    at h1 ⊢
  replace hu := h1.untouched hu
  replace hc := h1.chosenPath hc
  split
  · cases r.2.pathV2
    · exact ⟨hu.params, hu.got, hc, hu.csd, hu.cid⟩
    · exact ⟨hu.params, hu.got, hc, hu.csd, hu.cid⟩
  · exact hu.fail (.inr hc) _

theorem initOcrRead_kept {s0 s : State} (h : Untouched s0 s) (hc : ChosenPath s) : Kept s0 (initOcrRead s).2 := by
  have h1 := sendCommand_ran 0x3A 0 4 s
  simp only [initOcrRead]
  generalize sendCommand 0x3A 0 4 s = r at h1 ⊢
  have hu := h1.untouched h
  split
  · exact ⟨hu.params, hu.got, h1.chosenPath hc, hu.csd, hu.cid⟩
  · exact hu.fail (.inr (h1.chosenPath hc)) _

theorem initBlockLengthSet_kept {s0 s : State} (h : Untouched s0 s) (hc : ChosenPath s) :
    Kept s0 (initBlockLengthSet s).2 := by
  have h1 := sendCommand_ran 0x10 512 0 s
  simp only [initBlockLengthSet]
  generalize sendCommand 0x10 512 0 s = r at h1 ⊢
  have hu := h1.untouched h
  split
  · exact ⟨hu.params, hu.got, h1.chosenPath hc, hu.csd, hu.cid⟩
  · exact hu.fail (.inr (h1.chosenPath hc)) _

/-- The CID half of state GeometryRead, once the CSD of the card stands (R263). -/
theorem readCid_kept {s0 s : State} (hp : s.params = s0.params) (hg : ∃ new, s.got = s0.got ++ new)
    (hc : ChosenPath s) (hi : s.cid = s0.cid) (hd : s0.params.errSentinel ≠ 0 → Fetched s.csd s0 s) :
    Kept s0 (readCid s).2 := by
  have h1 := sendCommand_ran 0x0A 0 16 s
  have hf : (sendCommand 0x0A 0 16 s).1.r1 = 0 → s0.params.errSentinel ≠ 0 →
      Fetched (BitVec.ofNat 128 (fromBe (sendCommand 0x0A 0 16 s).2.resp)) s (sendCommand 0x0A 0 16 s).2 :=
    fun h h0 => sendCommand_fetched (by decide) (by decide) (by decide) (by rw [hp]; exact h0) h
  simp only [readCid]
  generalize sendCommand 0x0A 0 16 s = r at h1 hf ⊢
  have hp1 := h1.host.params.trans hp
  have hg1 := h1.kept_got hg
  have hd1 : s0.params.errSentinel ≠ 0 → Fetched r.2.csd s0 r.2 := fun h0 => by
    rw [h1.session.csd]
    exact (hd h0).widen rfl ⟨[], (List.append_nil _).symm⟩ h1.grows.got
  split
  · rename_i hz
    exact ⟨hp1, hg1, h1.chosenPath hc, fun h0 => ⟨hd1 h0,
      (hf (eq_of_beq hz) h0).widen hp hg ⟨[], (List.append_nil _).symm⟩⟩⟩
  · exact ⟨hp1, hg1, .inr (h1.chosenPath hc), h1.session.cid.trans hi, fun h0 => .inr (hd1 h0)⟩

/-- State GeometryRead (R260, R262, R263). -/
theorem initGeometryRead_kept {s0 s : State} (h : Untouched s0 s) (hc : ChosenPath s) :
    Kept s0 (initGeometryRead s).2 := by
  have h1 := sendCommand_ran 0x09 0 16 s
  have hf : (sendCommand 0x09 0 16 s).1.r1 = 0 → s0.params.errSentinel ≠ 0 →
      Fetched (BitVec.ofNat 128 (fromBe (sendCommand 0x09 0 16 s).2.resp)) s (sendCommand 0x09 0 16 s).2 :=
    fun hz h0 => sendCommand_fetched (by decide) (by decide) (by decide) (by rw [h.params]; exact h0) hz
  simp only [initGeometryRead]
  generalize sendCommand 0x09 0 16 s = r at h1 hf ⊢
  have hu := h1.untouched h
  have hc1 := h1.chosenPath hc
  split
  · rename_i hz
    have hd : s0.params.errSentinel ≠ 0 → Fetched (BitVec.ofNat 128 (fromBe r.2.resp)) s0 r.2 := fun h0 =>
      (hf (eq_of_beq hz) h0).widen h.params h.got ⟨[], (List.append_nil _).symm⟩
    split
    · exact readCid_kept hu.params hu.got hc1 hu.cid hd
    · exact ⟨hu.params, hu.got, .inr hc1, hu.cid, fun h0 => .inr (hd h0)⟩
  · exact hu.fail (.inr hc1) _

/-- Every transition keeps what R233 and R266 say of these registers. -/
theorem initStep_kept {s0 s : State} (h : Kept s0 s) : Kept s0 (initStep s).2 := by
  have hr := h.route
  have hc := h.registers
  have hu : (s.csd = s0.csd ∧ s.cid = s0.cid) → Untouched s0 s := fun k => ⟨h.params, h.got, k.1, k.2⟩
  cases hx : s.initState <;> simp only [Route, Registers, hx] at hr hc <;> simp only [initStep, hx]
  · exact initReset_kept (hu hc) hr
  · exact initIdleNegotiation_kept (hu hc) hr
  · exact initVersionBranch_kept (hu hc) hr
  · exact initVoltageCheck_kept (hu hc)
  · exact initReadyPoll_kept (hu hc) hr
  · exact initOcrRead_kept (hu hc) hr
  · exact initBlockLengthSet_kept (hu hc) hr
  · exact initGeometryRead_kept (hu hc) hr
  · exact h
  · exact h

/-- What every transition keeps, the machine keeps. -/
theorem runInit_of_step {P : State → Prop} (hstep : ∀ s, P s → P (initStep s).2) (n : Nat) {s : State}
    (h : P s) : P (runInit n s).2 := by
  induction n generalizing s with
  | zero => exact h
  | succ n ih =>
    have h1 := hstep s h
    rw [runInit]
    split <;> rename_i he <;> rw [he] at h1
    · exact ih h1
    · exact h1

/-- BEGIN, from its entry (R233). -/
theorem runInit_beginEntry_kept (s : State) : Kept s (runInit longestPath (beginEntry s)).2 :=
  runInit_of_step (fun _ => initStep_kept) _
    ⟨rfl, ⟨[], (List.append_nil _).symm⟩, ⟨rfl, rfl, rfl⟩, rfl, rfl⟩

end Sys2Proof.Machine
end

