-- ==== Sys2Proof/Laws/PerInstr.lean ====
section
/-!
SUPPORT. The family `RoundTrip`, one lemma a constructor: decoding the encoding of a well-formed
instruction gives it back.
-/

namespace Sys2Proof.Laws.RoundTrip

open Sys2Proof.Machine

def Statement (i : Instr) : Prop :=
  ∀ seed : BitVec 16, i.wellFormed = true → decode seed (encode seed i) = .ok i

theorem cmd0 (argument : BitVec 32) : Statement (.cmd0 argument) := fun _ _ => decode_commandItem _ 0 argument
theorem cmd1 (argument : BitVec 32) : Statement (.cmd1 argument) := fun _ _ => decode_commandItem _ 1 argument
theorem cmd8 (argument : BitVec 32) : Statement (.cmd8 argument) := fun _ _ => decode_commandItem _ 8 argument
theorem cmd9 (argument : BitVec 32) : Statement (.cmd9 argument) := fun _ _ => decode_commandItem _ 9 argument
theorem cmd10 (argument : BitVec 32) : Statement (.cmd10 argument) := fun _ _ => decode_commandItem _ 10 argument
theorem cmd12 (argument : BitVec 32) : Statement (.cmd12 argument) := fun _ _ => decode_commandItem _ 12 argument
theorem cmd13 (argument : BitVec 32) : Statement (.cmd13 argument) := fun _ _ => decode_commandItem _ 13 argument
theorem cmd16 (argument : BitVec 32) : Statement (.cmd16 argument) := fun _ _ => decode_commandItem _ 16 argument
theorem cmd17 (argument : BitVec 32) : Statement (.cmd17 argument) := fun _ _ => decode_commandItem _ 17 argument
theorem cmd18 (argument : BitVec 32) : Statement (.cmd18 argument) := fun _ _ => decode_commandItem _ 18 argument
theorem cmd23 (argument : BitVec 32) : Statement (.cmd23 argument) := fun _ _ => decode_commandItem _ 23 argument
theorem cmd24 (argument : BitVec 32) : Statement (.cmd24 argument) := fun _ _ => decode_commandItem _ 24 argument
theorem cmd25 (argument : BitVec 32) : Statement (.cmd25 argument) := fun _ _ => decode_commandItem _ 25 argument
theorem cmd32 (argument : BitVec 32) : Statement (.cmd32 argument) := fun _ _ => decode_commandItem _ 32 argument
theorem cmd33 (argument : BitVec 32) : Statement (.cmd33 argument) := fun _ _ => decode_commandItem _ 33 argument
theorem cmd38 (argument : BitVec 32) : Statement (.cmd38 argument) := fun _ _ => decode_commandItem _ 38 argument
theorem cmd55 (argument : BitVec 32) : Statement (.cmd55 argument) := fun _ _ => decode_commandItem _ 55 argument
theorem cmd58 (argument : BitVec 32) : Statement (.cmd58 argument) := fun _ _ => decode_commandItem _ 58 argument

theorem acmd13 (argument : BitVec 32) : Statement (.acmd13 argument) :=
  fun _ _ => decode_appCommandItem _ 13 argument
theorem acmd23 (argument : BitVec 32) : Statement (.acmd23 argument) :=
  fun _ _ => decode_appCommandItem _ 23 argument
theorem acmd41 (argument : BitVec 32) : Statement (.acmd41 argument) :=
  fun _ _ => decode_appCommandItem _ 41 argument

theorem r1 (flags : BitVec 7) : Statement (.r1 flags) := by
  intro _ _; simp [encode, decode, decodeR1, isResponse_responseByte, slice_responseByte]

theorem r2 (flags : BitVec 7) (status : Byte) : Statement (.r2 flags status) := by
  intro _ _; simp [encode, decode, decodeR2, isResponse_responseByte, slice_responseByte]

theorem r3 (flags : BitVec 7) (ocr : BitVec 32) : Statement (.r3 flags ocr) := by
  intro _ _
  simp [encode, decode, decodeR3, isResponse_responseByte, slice_responseByte, fromBe_beBytes_toNat]

theorem r7 (flags : BitVec 7) (value : BitVec 32) : Statement (.r7 flags value) := by
  intro _ _
  simp [encode, decode, decodeR7, isResponse_responseByte, slice_responseByte, fromBe_beBytes_toNat]

theorem tokenStart (dir : Direction) : Statement (.tokenStart dir) := by
  intro _ _; cases dir <;> rfl

theorem tokenStartMultiWrite : Statement .tokenStartMultiWrite := fun _ _ => rfl

theorem tokenStopTran : Statement .tokenStopTran := fun _ _ => rfl

theorem dataResponseAccepted (ignored : BitVec 3) : Statement (.dataResponseAccepted ignored) := by
  intro _ _; simp [encode, decode, decodeDataResponse, isAccepted_acceptedByte, slice_acceptedByte]

theorem dataBlock (dir : Direction) (token : Byte) (payload : List Byte) :
    Statement (.dataBlock dir token payload) := by
  intro seed h
  have h' : blockShape dir token payload = true := h
  have hl : (payload ++ blockTrailer seed payload).length - 2 = payload.length := by simp [blockTrailer]
  simp only [encode, decode, decodeBlock, hl, List.drop_left, List.take_left]
  rw [if_neg (by simp [blockTrailer]), if_neg (by simp), if_pos h']

theorem beginOp (frequency : Nat) :
    Statement (.beginOp frequency) := by
  intro seed h
  have hf : fits [8] [frequency] :=
    ⟨lt_of_fits64 h, trivial⟩
  rw [encode, decodeOp_opItem (by decide), decodeSelect, withOperands_joinOperands hf]

theorem endOp : Statement .endOp := fun _ _ => rfl

theorem sync : Statement .sync := fun _ _ => rfl

theorem getSectorSize : Statement .getSectorSize := fun _ _ => rfl

theorem getSectorCount : Statement .getSectorCount := fun _ _ => rfl

theorem getCid : Statement .getCid := fun _ _ => rfl

theorem getCsd : Statement .getCsd := fun _ _ => rfl

theorem waitReady : Statement .waitReady := fun _ _ => rfl

theorem readSectors (address : BitVec 64) (count : Nat) :
    Statement (.readSectors address count) := by
  intro seed h
  have hf : fits [8, 8] [address.toNat, count] :=
    ⟨by have := address.isLt; omega, lt_of_fits64 h, trivial⟩
  rw [encode, decodeOp_opItem (by decide), decodeSelect, withOperands_joinOperands hf]
  simp

theorem writeSectors (address : BitVec 64) (count : Nat) :
    Statement (.writeSectors address count) := by
  intro seed h
  have hf : fits [8, 8] [address.toNat, count] :=
    ⟨by have := address.isLt; omega, lt_of_fits64 h, trivial⟩
  rw [encode, decodeOp_opItem (by decide), decodeSelect, withOperands_joinOperands hf]
  simp

theorem eraseSectors (address : BitVec 64) (count : Nat) :
    Statement (.eraseSectors address count) := by
  intro seed h
  have hf : fits [8, 8] [address.toNat, count] :=
    ⟨by have := address.isLt; omega, lt_of_fits64 h, trivial⟩
  rw [encode, decodeOp_opItem (by decide), decodeSelect, withOperands_joinOperands hf]
  simp

theorem crc7 (data : List Byte) : Statement (.crc7 data) := by
  intro _ _
  rw [encode, decodeOp_opItem (by decide), decodeSelect]

theorem crc16 (seed : BitVec 16) (data : List Byte) : Statement (.crc16 seed data) := by
  intro _ _
  rw [encode, decodeOp_opItem (by decide), decodeSelect, if_neg (by simp; omega),
    List.take_left' (by simp), List.drop_left' (by simp), fromBe_beBytes_toNat _ _ (by decide)]
  simp

theorem buildFrame (index : BitVec 6) (argument : BitVec 32) :
    Statement (.buildFrame index argument) := by
  intro seed h
  have hf : fits [1, 4] [index.toNat, argument.toNat] :=
    ⟨by have := index.isLt; omega, by have := argument.isLt; omega, trivial⟩
  rw [encode, decodeOp_opItem (by decide), decodeSelect, withOperands_joinOperands hf]
  simp [index.isLt]

theorem parseFrame (frame : BitVec 48) :
    Statement (.parseFrame frame) := by
  intro seed h
  have hf : fits [6] [frame.toNat] :=
    ⟨by have := frame.isLt; omega, trivial⟩
  rw [encode, decodeOp_opItem (by decide), decodeSelect, withOperands_joinOperands hf]
  simp

theorem sendCommand (cmd : Byte) (argument : BitVec 32) (respSize : Nat) :
    Statement (.sendCommand cmd argument respSize) := by
  intro seed h
  have hf : fits [1, 4, 8] [cmd.toNat, argument.toNat, respSize] :=
    ⟨by have := cmd.isLt; omega, by have := argument.isLt; omega, lt_of_fits64 h, trivial⟩
  rw [encode, decodeOp_opItem (by decide), decodeSelect, withOperands_joinOperands hf]
  simp

theorem sendCommandRetry (cmd : Byte) (argument : BitVec 32) (required : Byte) (maxAttempts delayUs : Nat) :
    Statement (.sendCommandRetry cmd argument required maxAttempts delayUs) := by
  intro seed h
  simp only [Instr.wellFormed, Bool.and_eq_true] at h
  have hf : fits [1, 4, 1, 8, 8] [cmd.toNat, argument.toNat, required.toNat, maxAttempts, delayUs] :=
    ⟨by have := cmd.isLt; omega, by have := argument.isLt; omega, by have := required.isLt; omega, lt_of_fits64 h.1, lt_of_fits64 h.2, trivial⟩
  rw [encode, decodeOp_opItem (by decide), decodeSelect, withOperands_joinOperands hf]
  simp

theorem r1Extract (b : Byte) :
    Statement (.r1Extract b) := by
  intro seed h
  have hf : fits [1] [b.toNat] :=
    ⟨by have := b.isLt; omega, trivial⟩
  rw [encode, decodeOp_opItem (by decide), decodeSelect, withOperands_joinOperands hf]
  simp

theorem r2Extract (first status : Byte) :
    Statement (.r2Extract first status) := by
  intro seed h
  have hf : fits [1, 1] [first.toNat, status.toNat] :=
    ⟨by have := first.isLt; omega, by have := status.isLt; omega, trivial⟩
  rw [encode, decodeOp_opItem (by decide), decodeSelect, withOperands_joinOperands hf]
  simp

theorem r3Extract (first : Byte) (payload : List Byte) : Statement (.r3Extract first payload) := by
  intro seed h
  simp only [Instr.wellFormed, beq_iff_eq] at h
  rw [encode, decodeOp_opItem (by decide), decodeSelect]
  simp [h]

theorem r7Extract (first : Byte) (payload : List Byte) : Statement (.r7Extract first payload) := by
  intro seed h
  simp only [Instr.wellFormed, beq_iff_eq] at h
  rw [encode, decodeOp_opItem (by decide), decodeSelect]
  simp [h]

theorem receiveBlock (offset length : Nat) :
    Statement (.receiveBlock offset length) := by
  intro seed h
  simp only [Instr.wellFormed, Bool.and_eq_true] at h
  have hf : fits [8, 8] [offset, length] :=
    ⟨lt_of_fits64 h.1, lt_of_fits64 h.2, trivial⟩
  rw [encode, decodeOp_opItem (by decide), decodeSelect, withOperands_joinOperands hf]

theorem transmitBlock (offset : Nat) (token : Byte) :
    Statement (.transmitBlock offset token) := by
  intro seed h
  have hf : fits [8, 1] [offset, token.toNat] :=
    ⟨lt_of_fits64 h, by have := token.isLt; omega, trivial⟩
  rw [encode, decodeOp_opItem (by decide), decodeSelect, withOperands_joinOperands hf]
  simp

theorem field (value : BitVec 128) (start width : Nat) :
    Statement (.field value start width) := by
  intro seed h
  simp only [Instr.wellFormed, Bool.and_eq_true, decide_eq_true_eq] at h
  have hf : fits [16, 1, 1] [value.toNat, start, width] :=
    ⟨by have := value.isLt; omega, by omega, by omega, trivial⟩
  rw [encode, decodeOp_opItem (by decide), decodeSelect, withOperands_joinOperands hf]
  simp

theorem csdDecode (value : BitVec 128) :
    Statement (.csdDecode value) := by
  intro seed h
  have hf : fits [16] [value.toNat] :=
    ⟨by have := value.isLt; omega, trivial⟩
  rw [encode, decodeOp_opItem (by decide), decodeSelect, withOperands_joinOperands hf]
  simp

theorem cidDecode (value : BitVec 128) :
    Statement (.cidDecode value) := by
  intro seed h
  have hf : fits [16] [value.toNat] :=
    ⟨by have := value.isLt; omega, trivial⟩
  rw [encode, decodeOp_opItem (by decide), decodeSelect, withOperands_joinOperands hf]
  simp

theorem reserved_selects : ∀ select : BitVec 5, (Instr.reserved select).wellFormed = true →
    decode 0 (encode 0 (.reserved select)) = .ok (.reserved select) := by decide

theorem reserved (select : BitVec 5) : Statement (.reserved select) :=
  fun _ h => reserved_selects select h

end Sys2Proof.Laws.RoundTrip
end

