-- ==== Sys2Proof/Laws/Spent.lean ====
section
/-!
SUPPORT. The exchanges and delays of a bring-up by its path, whatever the card answers
(`70_reset_and_hazards.md` R431, rows BEGIN).
-/

namespace Sys2Proof.Machine

/-- The row of R431 a state is charged to: the longer one until the path is chosen (`44_init_fsm.md` R244). -/
def chargedV2 (s : State) : Bool :=
  match s.initState with
  | .reset | .idleNegotiation | .versionBranch | .voltageCheck => false
  | .readyPoll | .ocrRead | .blockLengthSet | .geometryRead | .done | .failed => s.pathV2

/-- The delays up to each state. -/
def delaySpent (p : Params) : InitState → Nat
  | .reset | .idleNegotiation => 0
  | .versionBranch | .voltageCheck | .readyPoll => cmd0LoopDelay p
  | .ocrRead | .blockLengthSet | .geometryRead | .done | .failed => cmd0LoopDelay p + readyPollDelay p

/-- What a bring-up that began in `s0` has spent when it is in `s`: with what is left it stays within R431. -/
structure Spent (s0 s : State) : Prop where
  params    : s.params = s0.params
  exchanges : s.xchgCount + budget s ≤ s0.xchgCount + beginBound s0.params (chargedV2 s)
  delays    : Delays (delaySpent s0.params s.initState) s0 s
  atPoll    : AtPoll s

theorem Advances.params {s : State} {r : InitStep} (h : Advances s r) : r.2.params = s.params := by
  obtain ⟨_, h1, _⟩ := h.stepped
  exact h1.host.params

theorem Stepped.count {n : Nat} {s t : State} (h : Stepped n s t) : t.xchgCount ≤ s.xchgCount + n := by
  obtain ⟨new, _, hl, hx, _⟩ := h.grows
  omega

/-- The states that follow are charged the delays of this one. -/
theorem initStep_delaySpent (p : Params) (s : State) :
    delaySpent p s.initState + stateDelay p s.initState ≤ delaySpent p (initStep s).2.initState := by
  cases hs : s.initState <;> simp only [initStep, hs, stateDelay]
  · exact Nat.zero_le _
  · simp only [initIdleNegotiation]; split <;> simp [goto, fail, delaySpent]
  · simp only [initVersionBranch]; split <;> simp [goto, delaySpent]
  · simp only [initVoltageCheck]; split <;> simp [goto, delaySpent]
  · simp only [initReadyPoll]
    generalize (if s.pathV2 then s else legacyProbe s) = s1
    generalize sendCommandRetry s1.pollCmd s1.pollArg 0 s1.params.readyPollAttempts s1.params.readyPollDelayUs s1 = r
    split
    · cases r.2.pathV2 <;> simp [goto, delaySpent]
    · simp [fail, delaySpent]
  · simp only [initOcrRead]; split <;> simp [goto, fail, delaySpent]
  · simp only [initBlockLengthSet]; split <;> simp [goto, fail, delaySpent]
  · simp only [initGeometryRead, readCid]; repeat' split
    all_goals simp [goto, fail, delaySpent]
  · simp
  · simp

/-- From ReadyPoll on the path stands, and so does the row. -/
theorem initStep_charged {s : State}
    (h : s.initState ≠ .reset ∧ s.initState ≠ .idleNegotiation ∧ s.initState ≠ .voltageCheck) :
    chargedV2 (initStep s).2 = chargedV2 s := by
  cases hs : s.initState <;> simp only [hs, ne_eq, not_true_eq_false, false_and, and_false] at h <;>
    simp only [initStep, hs]
  · simp only [initVersionBranch]
    split <;> simp [goto, chargedV2, hs]
  · simp only [initReadyPoll]
    have hv : (if s.pathV2 then s else legacyProbe s).pathV2 = s.pathV2 := by
      split
      · rfl
      · exact (legacyProbe_stepped s).2.2.1
    generalize (if s.pathV2 then s else legacyProbe s) = s1 at hv ⊢
    have h1 := (sendCommandRetry_ran s1.pollCmd s1.pollArg 0 s1.params.readyPollAttempts
      s1.params.readyPollDelayUs s1).control.pathV2.trans hv
    generalize sendCommandRetry s1.pollCmd s1.pollArg 0 s1.params.readyPollAttempts s1.params.readyPollDelayUs s1 = r
      at h1 ⊢
    split
    · cases hq : r.2.pathV2 <;> simp [goto, chargedV2, hs, ← h1, hq]
    · simp [fail, chargedV2, hs, h1]
  · have h1 := (sendCommand_ran 0x3A 0 4 s).control.pathV2
    simp only [initOcrRead]
    generalize sendCommand 0x3A 0 4 s = r at h1 ⊢
    split <;> simp [goto, fail, chargedV2, hs, h1]
  · have h1 := (sendCommand_ran 0x10 512 0 s).control.pathV2
    simp only [initBlockLengthSet]
    generalize sendCommand 0x10 512 0 s = r at h1 ⊢
    split <;> simp [goto, fail, chargedV2, hs, h1]
  · have h1 := (sendCommand_ran 0x09 0 16 s).control.pathV2
    simp only [initGeometryRead]
    generalize sendCommand 0x09 0 16 s = r at h1 ⊢
    split
    · split
      · generalize hq : r.2.setCsd _ = s1
        have h2 : s1.pathV2 = s.pathV2 := by rw [← hq]; exact h1
        have h3 := (sendCommand_ran 0x0A 0 16 s1).control.pathV2.trans h2
        simp only [readCid]
        generalize sendCommand 0x0A 0 16 s1 = q at h3 ⊢
        split <;> simp [goto, fail, chargedV2, hs, h3]
      · simp [fail, chargedV2, hs, h1]
    · simp [fail, chargedV2, hs, h1]

/-- A transition that does not choose the path stays within what the states before it left. -/
theorem Spent.advance {s0 s : State} (h : Spent s0 s) (ha : Advances s (initStep s))
    (hc : beginBound s0.params (chargedV2 s) ≤ beginBound s0.params (chargedV2 (initStep s).2)) :
    Spent s0 (initStep s).2 := by
  obtain ⟨n, h1, hn⟩ := ha.stepped
  have he := h.exchanges
  have hx := h1.count
  exact ⟨h1.host.params.trans h.params, by omega,
    (h.params ▸ h.delays.trans (initStep_delays s)).mono (initStep_delaySpent s0.params s), ha.atPoll⟩

/-- State IdleNegotiation: even where it fails, whatever the path register held before. -/
theorem initIdleNegotiation_spent {s0 s : State} (h : Spent s0 s) (hs : s.initState = .idleNegotiation) :
    Spent s0 (initStep s).2 := by
  have ha := advances_idleNegotiation hs
  have hi : initStep s = initIdleNegotiation s := by simp only [initStep, hs]
  have h1 := sendCommandRetry_ran 0x00 0 1 s.params.cmd0Attempts s.params.cmd0RetryDelayUs s
  rw [commandBound_00] at h1
  by_cases hf : (initStep s).2.initState = .failed
  · have hx : (initStep s).2.xchgCount ≤ s.xchgCount + s.params.cmd0Attempts * (6 + s.params.maxWaitBytes) := by
      refine Nat.le_trans (Nat.le_of_eq ?_) h1.stepped.count
      rw [hi, initIdleNegotiation]
      split <;> rfl
    have he := h.exchanges
    have hl := beginBound_eq s0.params
    simp only [budget, chargedV2, hs, hl, h.params, Bool.false_eq_true, if_false, geometryCost] at he
    refine ⟨(hi ▸ ha.params).trans h.params, ?_,
      (h.params ▸ h.delays.trans (initStep_delays s)).mono (initStep_delaySpent s0.params s), hi ▸ ha.atPoll⟩
    simp only [budget, chargedV2, hf, hl]
    rw [h.params] at hx
    split <;> omega
  · refine h.advance (hi ▸ ha) (Nat.le_of_eq ?_)
    have hv : (initStep s).2.initState = .versionBranch := by
      revert hf
      rw [hi, initIdleNegotiation]
      split <;> simp [goto, fail]
    simp [chargedV2, hs, hv]

/-- State VoltageCheck chooses the path (R244) and exchanges nothing. -/
theorem initVoltageCheck_spent {s0 s : State} (h : Spent s0 s) (hs : s.initState = .voltageCheck) :
    Spent s0 (initStep s).2 := by
  have ha := advances_voltageCheck hs
  have hi : initStep s = initVoltageCheck s := by simp only [initStep, hs]
  have he := h.exchanges
  have hl := beginBound_eq s0.params
  simp only [budget, chargedV2, hs, hl, h.params, Bool.false_eq_true, if_false, geometryCost] at he
  have hr : (initStep s).2.initState = .readyPoll ∧ (initStep s).2.xchgCount = s.xchgCount := by
    rw [hi, initVoltageCheck]
    split <;> simp [goto]
  have hp := (hi ▸ ha.params : (initStep s).2.params = s.params).trans h.params
  refine ⟨hp, ?_, (h.params ▸ h.delays.trans (initStep_delays s)).mono (initStep_delaySpent s0.params s),
    hi ▸ ha.atPoll⟩
  simp only [budget, chargedV2, hr.1, hr.2, hl, hp, geometryCost]
  split <;> omega

/-- State Reset: the dummy bytes. -/
theorem initReset_spent {s0 s : State} (h : Spent s0 s) (hs : s.initState = .reset) :
    Spent s0 (initStep s).2 := by
  have hi : initStep s = initReset s := by simp only [initStep, hs]
  have h1 := sendBytes_ran (List.replicate s.params.dummyBytes 0xFF) s
  have he := h.exchanges
  have hx := h1.stepped.count
  simp only [budget, chargedV2, hs, h.params] at he
  rw [List.length_replicate, h.params] at hx
  have hn : (initStep s).2.initState = .idleNegotiation ∧
      (initStep s).2.xchgCount = (sendBytes (List.replicate s.params.dummyBytes 0xFF) s).xchgCount ∧
      (initStep s).2.params = s0.params := by
    rw [hi]; exact ⟨rfl, rfl, h1.host.params.trans h.params⟩
  refine ⟨hn.2.2, ?_, (h.params ▸ h.delays.trans (initStep_delays s)).mono (initStep_delaySpent s0.params s),
    fun k => absurd (hn.1.symm.trans k) nofun⟩
  simp only [budget, chargedV2, hn.1, hn.2.1, hn.2.2]
  rw [h.params]
  omega

/-- One transition stays within the bounds of R431. -/
theorem initStep_spent {s0 s : State} (h : Spent s0 s) : Spent s0 (initStep s).2 := by
  by_cases h0 : s.initState = .reset
  · exact initReset_spent h h0
  · by_cases h1 : s.initState = .idleNegotiation
    · exact initIdleNegotiation_spent h h1
    · by_cases h4 : s.initState = .voltageCheck
      · exact initVoltageCheck_spent h h4
      · by_cases hr : rank s.initState = 0
        · have : initStep s = (none, s) := by
            revert hr
            unfold initStep
            cases s.initState <;> simp [rank]
          rw [this]; exact h
        · exact h.advance (initStep_advances h.atPoll hr h0) (by rw [initStep_charged ⟨h0, h1, h4⟩])

/-- BEGIN, from its entry (`44_init_fsm.md` R233), whichever way it ends. -/
theorem runInit_beginEntry_spent (s : State) : Spent s (runInit longestPath (beginEntry s)).2 :=
  runInit_of_step (fun _ => initStep_spent) _
    ⟨rfl, by simp only [beginBound_eq]; simp [budget, chargedV2, beginEntry, geometryCost]; omega,
      Delays.refl s, nofun⟩

end Sys2Proof.Machine
end

