-- ==== Sys2Proof/Tests/Slice0.lean ====
section
/-!
SUPPORT. The model's own tests. Expected values are the spec's: `95_test_vectors.md` (the vector's id stands
in the comment) or written out by hand from the rule named. Then one witness for the hypotheses of each
statement that has any.
-/

namespace Sys2Proof.Tests

open Sys2Proof Sys2Proof.Machine

set_option Elab.async false

/-- A state after reset whose card will answer `answers`. -/
def card (answers : List Byte) : State := { State.reset with answers := answers }

/-- An initialized session with a card of this type. -/
def session (cardType : BitVec 4) (answers : List Byte) : State :=
  { State.reset with initialized := true, initState := .done, cardType := cardType, answers := answers }

/-- What a test looks at: result, class, number of exchanges. -/
def outcome (i : Instr) (s : State) : Option (Result × Option ErrorClass × Nat) :=
  match exec i s with
  | .next t => some (t.result, t.error, t.xchgCount)
  | _ => none

/-- One thing of the next state. -/
def after {α : Type} (f : State → α) (i : Instr) (s : State) : Option α :=
  match exec i s with
  | .next t => some (f t)
  | _ => none

/-- The six bytes a card answers during a frame. -/
def x6 : List Byte := List.replicate 6 0xFF

/-- `n` bytes of one value. -/
def rep (n : Nat) (b : Byte) : List Byte := List.replicate n b

def csdSample : BitVec 128 := 0x400E00325B590000EE7F7F800A404055
def cidSample : BitVec 128 := 0x1B534D454231515430F1775FEA011AB9
def csdV1 : BitVec 128 := 0x002600325F5A83C93EFBCFFF928040CB
def csdBad : BitVec 128 := 0xC00E00325B590000EE7F7F800A4040DD

/-! ### Well-formedness refuses an ill-formed term of each kind -/

theorem test_illFormed_frequency : (Instr.beginOp (2 ^ 64)).wellFormed = false := by decide +kernel
theorem test_illFormed_counts : (Instr.readSectors 0 (2 ^ 64)).wellFormed = false ∧
    (Instr.writeSectors 0 (2 ^ 64)).wellFormed = false ∧
    (Instr.eraseSectors 0 (2 ^ 64)).wellFormed = false := by decide +kernel
theorem test_illFormed_sizes : (Instr.sendCommand 0 0 (2 ^ 64)).wellFormed = false ∧
    (Instr.sendCommandRetry 0 0 0 (2 ^ 64) 0).wellFormed = false ∧
    (Instr.sendCommandRetry 0 0 0 0 (2 ^ 64)).wellFormed = false := by decide +kernel
theorem test_illFormed_offsets : (Instr.receiveBlock (2 ^ 64) 0).wellFormed = false ∧
    (Instr.receiveBlock 0 (2 ^ 64)).wellFormed = false ∧
    (Instr.transmitBlock (2 ^ 64) 0xFE).wellFormed = false := by decide +kernel
theorem test_illFormed_payload : (Instr.r3Extract 0 [0, 0, 0]).wellFormed = false ∧
    (Instr.r7Extract 0 [0, 0, 0, 0, 0]).wellFormed = false := by decide
theorem test_illFormed_field : (Instr.field 0 256 1).wellFormed = false ∧
    (Instr.field 0 0 256).wellFormed = false := by decide
theorem test_illFormed_select : (Instr.reserved 9).wellFormed = false ∧
    (Instr.reserved 16).wellFormed = false ∧ (Instr.reserved 10).wellFormed = true ∧
    (Instr.reserved 15).wellFormed = true := by decide
theorem test_illFormed_block : (Instr.dataBlock .fromCard 0xFC []).wellFormed = false ∧
    (Instr.dataBlock .toCard 0xFD (rep 512 0)).wellFormed = false ∧
    (Instr.dataBlock .toCard 0xFE (rep 511 0)).wellFormed = false := by decide +kernel
theorem test_wellFormed_limits : (Instr.beginOp (2 ^ 64 - 1)).wellFormed = true ∧
    (Instr.field 0 255 255).wellFormed = true ∧
    (Instr.dataBlock .toCard 0xFC (rep 512 0)).wellFormed = true := by decide +kernel

/-! ### Decoding: every constructor from bytes written out from R81, R92, R100-R113, R118 -/

/-- Vectors F1-F14, CRC7 included. -/
theorem test_decode_commands :
    decode 0 ⟨.cf, [0x40, 0, 0, 0, 0, 0x95]⟩ = .ok (.cmd0 0) ∧
    decode 0 ⟨.cf, [0x41, 0, 0, 0, 0, 0xF9]⟩ = .ok (.cmd1 0) ∧
    decode 0 ⟨.cf, [0x48, 0, 0, 0x01, 0xAA, 0x87]⟩ = .ok (.cmd8 0x1AA) ∧
    decode 0 ⟨.cf, [0x49, 0, 0, 0, 0, 0xAF]⟩ = .ok (.cmd9 0) ∧
    decode 0 ⟨.cf, [0x4A, 0, 0, 0, 0, 0x1B]⟩ = .ok (.cmd10 0) ∧
    decode 0 ⟨.cf, [0x4C, 0, 0, 0, 0, 0x61]⟩ = .ok (.cmd12 0) ∧
    decode 0 ⟨.cf, [0x4D, 0, 0, 0, 0, 0x0D]⟩ = .ok (.cmd13 0) ∧
    decode 0 ⟨.cf, [0x50, 0, 0, 0x02, 0, 0x15]⟩ = .ok (.cmd16 512) ∧
    decode 0 ⟨.cf, [0x51, 0xFF, 0xFF, 0xFE, 0, 0x9B]⟩ = .ok (.cmd17 0xFFFFFE00) := by decide +kernel

/-- Vectors F15-F32, CRC7 included. -/
theorem test_decode_commands_more :
    decode 0 ⟨.cf, [0x52, 0, 0, 0, 0x10, 0xD3]⟩ = .ok (.cmd18 16) ∧
    decode 0 ⟨.cf, [0x57, 0, 0, 0, 1, 0x3D]⟩ = .ok (.cmd23 1) ∧
    decode 0 ⟨.cf, [0x58, 0, 0x3F, 0xFF, 0xFF, 0x25]⟩ = .ok (.cmd24 0x003FFFFF) ∧
    decode 0 ⟨.cf, [0x59, 0, 0, 0x20, 0, 0xE7]⟩ = .ok (.cmd25 0x2000) ∧
    decode 0 ⟨.cf, [0x60, 0, 0x02, 0, 0, 0x63]⟩ = .ok (.cmd32 0x20000) ∧
    decode 0 ⟨.cf, [0x61, 0, 0x03, 0xFE, 0, 0x7F]⟩ = .ok (.cmd33 0x3FE00) ∧
    decode 0 ⟨.cf, [0x66, 0, 0, 0, 0, 0xA5]⟩ = .ok (.cmd38 0) ∧
    decode 0 ⟨.cf, [0x77, 0, 0, 0, 0, 0x65]⟩ = .ok (.cmd55 0) ∧
    decode 0 ⟨.cf, [0x7A, 0, 0, 0, 0, 0xFD]⟩ = .ok (.cmd58 0) := by decide +kernel

/-- R92: two frames, the first of them F31; F7, F17, F33. -/
theorem test_decode_appCommands :
    decode 0 ⟨.cf, [0x77, 0, 0, 0, 0, 0x65, 0x4D, 0, 0, 0, 0, 0x0D]⟩ = .ok (.acmd13 0) ∧
    decode 0 ⟨.cf, [0x77, 0, 0, 0, 0, 0x65, 0x57, 0, 0, 0, 2, 0x0B]⟩ = .ok (.acmd23 2) ∧
    decode 0 ⟨.cf, [0x77, 0, 0, 0, 0, 0x65, 0x69, 0x40, 0, 0, 0, 0x77]⟩ = .ok (.acmd41 0x40000000) := by
  decide +kernel

/-- R100-R105, R110, R112, R113; the CRC16 of `DE AD BE EF` is K28. -/
theorem test_decode_wire :
    decode 0 ⟨.r1, [0b00000101]⟩ = .ok (.r1 0b0000101) ∧
    decode 0 ⟨.r2, [0x01, 0x81]⟩ = .ok (.r2 1 0x81) ∧
    decode 0 ⟨.r3, [0x00, 0xC0, 0xFF, 0x80, 0x00]⟩ = .ok (.r3 0 0xC0FF8000) ∧
    decode 0 ⟨.r7, [0x01, 0x00, 0x00, 0x01, 0xAA]⟩ = .ok (.r7 1 0x000001AA) ∧
    decode 0 ⟨.dt .fromCard, [0b11111110]⟩ = .ok (.tokenStart .fromCard) ∧
    decode 0 ⟨.dt .toCard, [0b11111110]⟩ = .ok (.tokenStart .toCard) ∧
    decode 0 ⟨.dt .toCard, [0b11111100]⟩ = .ok .tokenStartMultiWrite ∧
    decode 0 ⟨.dt .toCard, [0b11111101]⟩ = .ok .tokenStopTran ∧
    decode 0 ⟨.dr, [0b11100101]⟩ = .ok (.dataResponseAccepted 0b111) ∧
    decode 0 ⟨.db .fromCard, [0xFE, 0xDE, 0xAD, 0xBE, 0xEF, 0xC4, 0x57]⟩ =
      .ok (.dataBlock .fromCard 0xFE [0xDE, 0xAD, 0xBE, 0xEF]) := by decide +kernel

/-- R118, selects 0-9 and 10-15; operands big-endian (log 7). -/
theorem test_decode_hostOperations :
    decode 0 ⟨.op, [0b00000, 0, 0, 0, 0, 0x01, 0x31, 0x2D, 0]⟩ = .ok (.beginOp 20000000) ∧
    decode 0 ⟨.op, [0b00001]⟩ = .ok .endOp ∧
    decode 0 ⟨.op, [0b00010, 0, 0, 0, 0, 0, 0, 0x12, 0x34, 0, 0, 0, 0, 0, 0, 0, 1]⟩ =
      .ok (.readSectors 0x1234 1) ∧
    decode 0 ⟨.op, [0b00011, 0, 0, 0, 0, 0, 0, 0, 16, 0, 0, 0, 0, 0, 0, 0, 2]⟩ = .ok (.writeSectors 16 2) ∧
    decode 0 ⟨.op, [0b00100, 0, 0, 0, 0, 0, 0, 1, 0, 0, 0, 0, 0, 0, 0, 1, 0]⟩ =
      .ok (.eraseSectors 0x100 0x100) ∧
    decode 0 ⟨.op, [0b00101]⟩ = .ok .sync ∧ decode 0 ⟨.op, [0b00110]⟩ = .ok .getSectorSize ∧
    decode 0 ⟨.op, [0b00111]⟩ = .ok .getSectorCount ∧ decode 0 ⟨.op, [0b01000]⟩ = .ok .getCid ∧
    decode 0 ⟨.op, [0b01001]⟩ = .ok .getCsd ∧ decode 0 ⟨.op, [0b01010]⟩ = .ok (.reserved 10) ∧
    decode 0 ⟨.op, [0b01111]⟩ = .ok (.reserved 15) := by decide +kernel

/-- R118, selects 16-24. -/
theorem test_decode_unitOperations :
    decode 0 ⟨.op, [0b10000, 0x31]⟩ = .ok (.crc7 [0x31]) ∧
    decode 0 ⟨.op, [0b10001, 0xFF, 0xFE, 0x31]⟩ = .ok (.crc16 0xFFFE [0x31]) ∧
    decode 0 ⟨.op, [0b10010, 8, 0, 0, 0x01, 0xAA]⟩ = .ok (.buildFrame 8 0x1AA) ∧
    decode 0 ⟨.op, [0b10011, 0x48, 0, 0, 0x01, 0xAA, 0x87]⟩ = .ok (.parseFrame 0x48000001AA87) ∧
    decode 0 ⟨.op, [0b10100, 0x3A, 0, 0, 0, 0, 0, 0, 0, 0, 0, 0, 0, 4]⟩ = .ok (.sendCommand 0x3A 0 4) ∧
    decode 0 ⟨.op, [0b10101, 0, 0, 0, 0, 7, 1, 0, 0, 0, 0, 0, 0, 0, 5, 0, 0, 0, 0, 0, 0, 0x03, 0xE8]⟩ =
      .ok (.sendCommandRetry 0 7 1 5 1000) ∧
    decode 0 ⟨.op, [0b10110, 0x09]⟩ = .ok (.r1Extract 0x09) ∧
    decode 0 ⟨.op, [0b10111, 0x01, 0x81]⟩ = .ok (.r2Extract 0x01 0x81) ∧
    decode 0 ⟨.op, [0b11000, 0, 0xC0, 0xFF, 0x80, 0]⟩ = .ok (.r3Extract 0 [0xC0, 0xFF, 0x80, 0]) := by
  decide +kernel

/-- R118, selects 25-31. -/
theorem test_decode_unitOperations_more :
    decode 0 ⟨.op, [0b11001, 1, 0, 0, 1, 0xAA]⟩ = .ok (.r7Extract 1 [0, 0, 1, 0xAA]) ∧
    decode 0 ⟨.op, [0b11010]⟩ = .ok .waitReady ∧
    decode 0 ⟨.op, [0b11011, 0, 0, 0, 0, 0, 0, 2, 0, 0, 0, 0, 0, 0, 0, 0, 4]⟩ = .ok (.receiveBlock 512 4) ∧
    decode 0 ⟨.op, [0b11100, 0, 0, 0, 0, 0, 0, 2, 0, 0xFC]⟩ = .ok (.transmitBlock 512 0xFC) ∧
    decode 0 ⟨.op, 0b11101 :: (beBytes 16 csdSample.toNat ++ [48, 22])⟩ = .ok (.field csdSample 48 22) ∧
    decode 0 ⟨.op, 0b11110 :: beBytes 16 csdSample.toNat⟩ = .ok (.csdDecode csdSample) ∧
    decode 0 ⟨.op, 0b11111 :: beBytes 16 cidSample.toNat⟩ = .ok (.cidDecode cidSample) := by decide +kernel

/-- R120-R124: what is no encoding is rejected by its own name. -/
theorem test_decode_rejects :
    decode 0 ⟨.cf, [0xC0, 0, 0, 0, 0, 0x95]⟩ = .error .badStartBit ∧
    decode 0 ⟨.cf, [0, 0, 0, 0, 0, 1]⟩ = .error .badTransmissionBit ∧
    decode 0 ⟨.cf, [0x40, 0, 0, 0, 0, 0x94]⟩ = .error .badStopBit ∧
    decode 0 ⟨.cf, [0x40, 0, 0, 0, 0, 0x97]⟩ = .error .frameChecksum ∧
    decode 0 ⟨.cf, [0x7F, 0, 0, 0, 0, 0x33]⟩ = .error (.unlistedCommand 63) ∧
    decode 0 ⟨.cf, [0x69, 0, 0, 0, 0, 0xE5]⟩ = .error (.unlistedCommand 41) ∧
    decode 0 ⟨.cf, [0x40, 0, 0, 0, 0, 0x95, 0x69, 0, 0, 0, 0, 0xE5]⟩ = .error .notPrefixed ∧
    decode 0 ⟨.r1, [0xFF]⟩ = .error .notAResponse ∧ decode 0 ⟨.dt .fromCard, [0xFC]⟩ = .error (.unknownToken 0xFC) ∧
    decode 0 ⟨.dr, [0x0B]⟩ = .error .notAccepted ∧ decode 0 ⟨.op, [0x20]⟩ = .error .badSelect ∧
    decode 0 ⟨.db .fromCard, [0xFE, 0xDE, 0xAD, 0xBE, 0xEF, 0xC4, 0x56]⟩ = .error .blockChecksum ∧
    decode 0 ⟨.op, [0x12, 64, 0, 0, 0, 0]⟩ = .error .badOperand := by decide +kernel

/-- K27: the data block of an engine with another CRC16_SEED (R7, R112). -/
theorem test_decode_seed :
    decode 0xFFFF ⟨.db .fromCard, [0xFE, 0x31, 0x32, 0x33, 0x34, 0x35, 0x36, 0x37, 0x38, 0x39, 0x29, 0xB1]⟩ =
      .ok (.dataBlock .fromCard 0xFE [0x31, 0x32, 0x33, 0x34, 0x35, 0x36, 0x37, 0x38, 0x39]) ∧
    decode 0 ⟨.db .fromCard, [0xFE, 0x31, 0x32, 0x33, 0x34, 0x35, 0x36, 0x37, 0x38, 0x39, 0x29, 0xB1]⟩ =
      .error .blockChecksum := by decide +kernel

/-- The table's words (log 13). -/
theorem test_tableWords :
    decodeTableWord 48 0x400000000001 = some (.cmd0 0) ∧
    decodeTableWord 48 0x48000001AA87 = some (.cmd8 0x1AA) ∧
    decodeTableWord 48 0x690000000001 = some (.acmd41 0) ∧ decodeTableWord 16 0x0000 = some (.r2 0 0) ∧
    decodeTableWord 8 0xFE = some (.tokenStart .fromCard) ∧ decodeTableWord 8 0x13 = some (.parseFrame 0) ∧
    decodeTableWord 8 0x0A = some (.reserved 10) ∧ decodeTableWord 8 0x25 = some (.dataResponseAccepted 1) := by
  decide +kernel

/-! ### Checksums (vectors S1, S3, K1-K39) -/

theorem test_crc7_vectors : crc7 [0x40, 0, 0, 0, 0] = 0x4A ∧ crc7 [0x48, 0, 0, 0x01, 0xAA] = 0x43 ∧
    crc7 [] = 0 ∧ crc7 [0x01] = 0x09 ∧ crc7 [0x80] = 0x41 ∧ crc7 [0xFF] = 0x79 ∧
    crc7 [0x31, 0x32, 0x33, 0x34, 0x35, 0x36, 0x37, 0x38, 0x39] = 0x75 ∧
    crc7 [0x40, 0, 0, 0, 0, 0x95] = 0x09 ∧ crc7 [0x40, 0, 0, 0, 0, 0x94] = 0 := by decide +kernel

theorem test_crc16_vectors : crc16 0 [] = 0 ∧ crc16 0 [0x01] = 0x1021 ∧ crc16 0 [0x80] = 0x9188 ∧
    crc16 0 [0x31, 0x32, 0x33, 0x34, 0x35, 0x36, 0x37, 0x38, 0x39] = 0x31C3 ∧
    crc16 0xFFFF [0x31, 0x32, 0x33, 0x34, 0x35, 0x36, 0x37, 0x38, 0x39] = 0x29B1 ∧
    crc16 0 [0xDE, 0xAD, 0xBE, 0xEF] = 0xC457 ∧ crc16 0 (beBytes 16 csdSample.toNat) = 0x6361 ∧
    crc16 0 (beBytes 16 cidSample.toNat) = 0xC9C7 := by decide +kernel

/-- K29 and, for the law of R140 (b), the residue of `DE AD BE EF`. -/
theorem test_crc16_residue : crc16 0 (rep 16 0xFF) = 0x0041 ∧
    crc16 0 [0xDE, 0xAD, 0xBE, 0xEF, 0xC4, 0x57] = 0 := by decide +kernel

/-- "the 256 entries of `T7` sum to 16256; those of `T16` to 8388480". -/
theorem test_table_sums : (t7.map BitVec.toNat).sum = 16256 ∧ (t16.map BitVec.toNat).sum = 8388480 := by
  decide +kernel

/-- R142: "`T7[i]` and `T16[i]` are by definition the bit-serial result for the one-byte string `i`". -/
theorem test_serial_tables : serialT7.getD 0x80 0 = 0x41 ∧ serialT16.getD 0x80 0 = 0x9188 := by decide +kernel

/-- K7 and K27 as operations. -/
theorem test_exec_crc : outcome (.crc7 [0x31, 0x32, 0x33, 0x34, 0x35, 0x36, 0x37, 0x38, 0x39]) State.reset =
      some (.crc7 0x75, none, 0) ∧
    outcome (.crc16 0xFFFF [0x31, 0x32, 0x33, 0x34, 0x35, 0x36, 0x37, 0x38, 0x39]) State.reset =
      some (.crc16 0x29B1, none, 0) := by decide +kernel

/-! ### Frames (F13, F38, F50-F60) -/

theorem test_exec_buildFrame : outcome (.buildFrame 17 0xFFFFFE00) State.reset =
      some (.frame 0x51FFFFFE009B, none, 0) ∧
    outcome (.buildFrame 6 0x12345678) State.reset = some (.frame 0x4612345678E7, none, 0) := by decide +kernel

theorem test_exec_parseFrame :
    outcome (.parseFrame 0x510000020079) State.reset = some (.parsed (.ok 17 0x200), none, 0) ∧
    outcome (.parseFrame 0xC00000000095) State.reset =
      some (.parsed .badStartBit, some .protocolRejection, 0) ∧
    outcome (.parseFrame 0x3F0000000000) State.reset =
      some (.parsed .badTransmissionBit, some .protocolRejection, 0) ∧
    outcome (.parseFrame 0x400000000094) State.reset = some (.parsed .badStopBit, some .protocolRejection, 0) ∧
    outcome (.parseFrame 0x400000000195) State.reset =
      some (.parsed .checksumMismatch, some .checksumMismatch, 0) := by decide +kernel

/-! ### Command sender (SC1-SC26) -/

/-- SC1, SC19, SC15: filler, bytes with bit 7 = 1 of any value, the last allowed poll byte. -/
theorem test_send_plain :
    outcome (.sendCommand 0x00 0 0) (card (x6 ++ [0xFF, 0x01])) = some (.response 0x01 none, none, 8) ∧
    outcome (.cmd0 0) (card (x6 ++ [0x80, 0xC1, 0x7F])) = some (.response 0x7F none, none, 9) ∧
    outcome (.cmd16 0x200) (card (x6 ++ rep 7 0xFF ++ [0])) = some (.response 0 none, none, 14) := by
  decide +kernel

/-- SC2, SC16: no response within the budget. -/
theorem test_send_silent : outcome (.sendCommand 0x00 0 0) (card (rep 14 0xFF)) =
      some (.response 0xFF none, some .transportTimeout, 14) ∧
    outcome (.cmd16 0x200) (card (x6 ++ rep 8 0xFF ++ [0])) =
      some (.response 0xFF none, some .transportTimeout, 14) := by decide +kernel

/-- SC3, SC4, SC24: direct payloads. -/
theorem test_send_direct :
    outcome (.cmd13 0) (card (x6 ++ [0xFF, 0, 0x20])) = some (.response 0 (some [0x20]), none, 9) ∧
    outcome (.cmd8 0x1AA) (card (x6 ++ [0xFF, 5] ++ rep 4 0xFF)) =
      some (.response 5 (some (rep 4 0xFF)), none, 12) ∧
    outcome (.cmd58 0) (card (x6 ++ [0xFF, 0, 0xC0, 0xFF, 0x80, 0])) =
      some (.response 0 (some [0xC0, 0xFF, 0x80, 0]), none, 12) := by decide +kernel

/-- SC6, SC11: the data path, and the token at the last allowed poll. -/
theorem test_send_data :
    outcome (.cmd9 0) (card (x6 ++ [0xFF, 0, 0xFF, 0xFE] ++ beBytes 16 csdSample.toNat ++ [0x63, 0x61])) =
      some (.response 0 (some (beBytes 16 csdSample.toNat)), none, 28) ∧
    outcome (.cmd9 0) (card (x6 ++ [0xFF, 0] ++ rep 7 0xFF ++ [0xFE] ++ beBytes 16 csdSample.toNat ++
      [0x63, 0x61])) = some (.response 0 (some (beBytes 16 csdSample.toNat)), none, 34) := by decide +kernel

/-- SC7, SC8, SC9, SC10: its failures. -/
theorem test_send_data_fails :
    outcome (.cmd9 0) (card (x6 ++ [0xFF, 0, 0xFF, 0xFE] ++ beBytes 16 csdSample.toNat ++ [0x63, 0x60])) =
      some (.response 0xFF none, some .checksumMismatch, 28) ∧
    outcome (.cmd9 0) (card (x6 ++ [0xFF, 0, 0xFF, 0xFC])) =
      some (.response 0xFF none, some .transportTimeout, 10) ∧
    outcome (.cmd10 0) (card (x6 ++ [0xFF, 4])) = some (.response 4 none, some .protocolRejection, 8) ∧
    outcome (.cmd10 0) (card (x6 ++ [0xFF, 0] ++ rep 8 0xFF)) =
      some (.response 0xFF none, some .transportTimeout, 16) := by decide +kernel

/-- SC13, SC14: the application prefix. -/
theorem test_send_app :
    outcome (.acmd41 0) (card (x6 ++ [0xFF, 5])) = some (.response 5 none, some .protocolRejection, 8) ∧
    after State.sent (.acmd41 0) (card (x6 ++ [0xFF, 1] ++ x6 ++ [0xFF, 0])) =
      some [0x77, 0, 0, 0, 0, 0x65, 0xFF, 0xFF, 0x69, 0, 0, 0, 0, 0xE5, 0xFF, 0xFF] := by decide +kernel

/-- SC18, SC25, SC26: a refused code; the stuffing byte of CMD17 and none of CMD12. -/
theorem test_send_forms : outcome (.sendCommand 0x40 0 0) State.reset = some (.failure, some .refused, 0) ∧
    outcome (.sendCommand 0xFF 0 0) State.reset = some (.failure, some .refused, 0) ∧
    outcome (.cmd17 0) (card (x6 ++ [0xFF, 0])) = some (.response 0 none, none, 8) ∧
    outcome (.cmd12 0) (card (x6 ++ [0xFF, 0])) = some (.response 0 none, none, 8) := by decide +kernel

/-- SC20-SC23: the retry loop. -/
theorem test_retry :
    outcome (.sendCommandRetry 0 0 1 3 1000) (card (x6 ++ rep 8 0xFF ++ x6 ++ [0xFF, 0] ++ x6 ++ [0xFF, 1])) =
      some (.responseByte 1, none, 30) ∧
    outcome (.sendCommandRetry 0 0 1 2 1000) (card (x6 ++ [0xFF, 5] ++ x6 ++ [0xFF, 0])) =
      some (.responseByte 0, some .protocolRejection, 16) ∧
    outcome (.sendCommandRetry 0 0 1 0 1000) State.reset = some (.responseByte 0xFF, some .transportTimeout, 0) ∧
    outcome (.sendCommandRetry 0 0 1 5 1000) (card (rep 70 0xFF)) =
      some (.responseByte 0xFF, some .transportTimeout, 70) := by decide +kernel

/-- R95: the remaining rows send their own frame (F2, F14, F16, F20, F24, F26, F28, F30, F31, F18). -/
theorem test_command_rows :
    after State.sent (.cmd1 0) (card (x6 ++ [0])) = some [0x41, 0, 0, 0, 0, 0xF9, 0xFF] ∧
    after State.sent (.cmd18 0) (card (x6 ++ [0])) = some [0x52, 0, 0, 0, 0, 0xE1, 0xFF] ∧
    after State.sent (.cmd23 1) (card (x6 ++ [0])) = some [0x57, 0, 0, 0, 1, 0x3D, 0xFF] ∧
    after State.sent (.cmd24 5) (card (x6 ++ [0])) = some [0x58, 0, 0, 0, 5, 0x35, 0xFF] ∧
    after State.sent (.cmd25 0x400) (card (x6 ++ [0])) = some [0x59, 0, 0, 4, 0, 0x5B, 0xFF] ∧
    after State.sent (.cmd32 0x100) (card (x6 ++ [0])) = some [0x60, 0, 0, 1, 0, 0xC9, 0xFF] ∧
    after State.sent (.cmd33 0x1FF) (card (x6 ++ [0])) = some [0x61, 0, 0, 1, 0xFF, 0x57, 0xFF] ∧
    after State.sent (.cmd38 0) (card (x6 ++ [0])) = some [0x66, 0, 0, 0, 0, 0xA5, 0xFF] ∧
    after State.sent (.cmd55 0) (card (x6 ++ [0])) = some [0x77, 0, 0, 0, 0, 0x65, 0xFF] := by decide +kernel

theorem test_app_rows :
    after State.sent (.acmd23 3) (card (x6 ++ [0] ++ x6 ++ [0])) =
      some [0x77, 0, 0, 0, 0, 0x65, 0xFF, 0x57, 0, 0, 0, 3, 0x19, 0xFF] ∧
    outcome (.acmd13 0) (card (x6 ++ [0] ++ x6 ++ [0xFF, 0, 0xFE] ++ rep 64 0 ++ [0, 0])) =
      some (.response 0 (some (rep 64 0)), none, 82) := by decide +kernel

/-! ### Response extractors (X1-X20) -/

theorem test_r1Extract : outcome (.r1Extract 0x09) State.reset =
      some (.r1Fields ⟨true, true, false, false, true, false, false, false, true⟩, none, 0) ∧
    outcome (.r1Extract 0x01) State.reset =
      some (.r1Fields ⟨true, true, false, false, false, false, false, false, false⟩, none, 0) := by decide +kernel

theorem test_r2Extract : (r2Fields 0x01 0x81).value16 = 0x0181 ∧ (r2Fields 0x01 0x81).first.idle = true ∧
    (r2Fields 0x01 0x81).outOfRange = true ∧ (r2Fields 0x01 0x81).cardIsLocked = true ∧
    (r2Fields 0x00 0x20).wpViolation = true := by decide +kernel

theorem test_r3Extract : (r3Fields 0 [0xC0, 0xFF, 0x80, 0]).ocr = 0xC0FF8000 ∧
    (r3Fields 0 [0xC0, 0xFF, 0x80, 0]).ccs = true ∧ (r3Fields 0 [0xC0, 0xFF, 0x80, 0]).powerUp = true ∧
    (r3Fields 0 [0xC0, 0xFF, 0x80, 0]).voltageWindow = 0x1FF ∧
    (r3Fields 0 [0xBF, 0xFF, 0xFF, 0xFF]).ccs = false := by decide +kernel

theorem test_r7Extract : r7Fields 0x01 [0, 0, 0x01, 0xAA] =
      ⟨r1Fields 0x01, 0x000001AA, true, 0, 1, 0xAA⟩ ∧
    (r7Fields 0x01 [0xFF, 0xFF, 0x01, 0xAA]).echoOk = true ∧
    (r7Fields 0x01 [0, 0, 0x01, 0xAB]).echoOk = false ∧ (r7Fields 0x01 [0, 0, 0, 0xAA]).echoOk = false := by
  decide +kernel

/-! ### Items on the wire -/

/-- R103-R105 read from the wire: X11, X12, X16. -/
theorem test_wire_responses :
    outcome (.r1 0b0001001) State.reset = some (.r1Fields (r1Fields 0x09), none, 1) ∧
    outcome (.r2 1 0x81) State.reset = some (.r2Fields (r2Fields 0x01 0x81), none, 2) ∧
    outcome (.r3 0 0xC0FF8000) State.reset = some (.r3Fields (r3Fields 0 [0xC0, 0xFF, 0x80, 0]), none, 5) ∧
    outcome (.r7 1 0x1AA) State.reset = some (.r7Fields (r7Fields 1 [0, 0, 1, 0xAA]), none, 5) := by
  decide +kernel

theorem test_wire_tokens :
    outcome (.tokenStart .fromCard) State.reset = some (.token 0xFE, none, 1) ∧
    after State.sent (.tokenStart .toCard) (card [0xFF, 0]) = some [0xFF, 0xFE] ∧
    after State.sent .tokenStartMultiWrite (card [0, 0xFF, 0]) = some [0xFF, 0xFF, 0xFC] ∧
    after State.sent .tokenStopTran (card [0xFF, 0]) = some [0xFF, 0xFD] ∧
    outcome (.dataResponseAccepted 7) State.reset = some (.bool true, none, 1) := by decide +kernel

theorem test_wire_block : after (fun t => (t.buf.readBytes 0 4, t.result, t.xchgCount))
    (.dataBlock .fromCard 0xFE [0xDE, 0xAD, 0xBE, 0xEF]) State.reset =
      some ([0xDE, 0xAD, 0xBE, 0xEF], .bool true, 7) := by decide +kernel

/-! ### Transceiver (B2, B4-B7, B12-B18) -/

theorem test_waitReady : outcome .waitReady (card [0, 0, 0xFF]) = some (.bool true, none, 3) ∧
    outcome .waitReady (card [0x7F, 0xFF]) = some (.bool true, none, 2) := by decide +kernel

theorem test_receiveBlock : after (fun t => (t.buf.readBytes 0 4, t.result, t.xchgCount)) (.receiveBlock 0 4)
      (card [0xFF, 0xFE, 0xDE, 0xAD, 0xBE, 0xEF, 0xC4, 0x57]) =
        some ([0xDE, 0xAD, 0xBE, 0xEF], .bool true, 8) ∧
    outcome (.receiveBlock 0 0) (card [0xFF, 0x09]) = some (.bool false, some .transportTimeout, 2) := by
  decide +kernel

/-- B6: the failed block's bytes are free values, so only the rest is looked at. -/
theorem test_receiveBlock_crc : (receiveBlock 0 4 (card [0xFF, 0xFE, 0xDE, 0xAD, 0xBE, 0xEE, 0xC4, 0x57])).1 =
    some .checksumMismatch := by decide +kernel

/-- B14, B15 with a budget of 3: the stop token goes alone, a busy card is sent nothing. -/
theorem test_transmitBlock :
    after State.sent (.transmitBlock 0 0xFD) (card [0, 0, 0xFF, 0]) = some [0xFF, 0xFF, 0xFF, 0xFD] ∧
    outcome (.transmitBlock 0 0xFC)
        { card [0, 0, 0] with params := { defaultParams with readyWaitSteps := 3 } } =
      some (.bool false, some .transportTimeout, 3) := by decide +kernel

/-- R210 with a short payload, through the definition the 512-byte form shares: token, payload, K28, and the
data responses of B12 and B11. -/
theorem test_transmitFrame :
    (transmitFrame 0xFE [0xDE, 0xAD, 0xBE, 0xEF] (card (0xFF :: rep 7 0 ++ [0x25]))).1 = none ∧
    (transmitFrame 0xFE [0xDE, 0xAD, 0xBE, 0xEF] (card (0xFF :: rep 7 0 ++ [0x25]))).2.sent =
      [0xFF, 0xFE, 0xDE, 0xAD, 0xBE, 0xEF, 0xC4, 0x57, 0xFF] ∧
    (transmitFrame 0xFC [0xDE, 0xAD, 0xBE, 0xEF] (card (0xFF :: rep 7 0 ++ [0x0B]))).1 =
      some .protocolRejection := by decide +kernel

/-! ### Initialization (P1, P2, P5, P6, P8) -/

/-- A card that answers every command after one filler byte: the reply to a plain command. -/
def replies (r1 : Byte) : List Byte := x6 ++ [0xFF, r1]

/-- A register block after its command, as in P1. -/
def register (value : BitVec 128) (crc : List Byte) : List Byte :=
  x6 ++ [0xFF, 0x00, 0xFF, 0xFE] ++ beBytes 16 value.toNat ++ crc

def p1Answers : List Byte :=
  rep 10 0xFF ++ replies 1 ++ replies 1 ++ [0, 0, 1, 0xAA] ++ replies 1 ++ replies 1 ++ replies 1 ++ replies 0 ++ replies 0 ++
    [0xC0, 0xFF, 0x80, 0] ++ register csdSample [0x63, 0x61] ++ register cidSample [0xC9, 0xC7]

theorem test_begin_v2 : after (fun t => (t.result, t.xchgCount, t.initialized, t.cardType, t.sectorCount))
      (.beginOp 20000000) (card p1Answers) = some (.bool true, 130, true, 0b1100, 62521344) := by decide +kernel

/-- R431: the bounds of a data-bearing command and of an application command are reached by a card that answers
as late as it may. -/
theorem test_latest_answers : outcome (.sendCommand 0x09 0 16) (card (rep 14 0xFF ++ [0] ++ rep 7 0xFF ++ [0xFE] ++
      rep 18 0)) = some (.response 0 (some (rep 16 0)), none, 6 + 1 + 8 + 8 + 16 + 2) ∧
    outcome (.sendCommand 0xA9 0 0) (card (rep 13 0xFF ++ [1] ++ rep 13 0xFF ++ [0])) =
      some (.response 0 none, none, 14 + (6 + 8)) := by decide +kernel

theorem test_begin_v2_registers :
    after (fun t => (t.csd, t.cid, t.initState, t.pathV2)) (.beginOp 20000000) (card p1Answers) =
      some (csdSample, cidSample, .done, true) ∧
    after (fun t => (t.pollCmd, t.pollArg, t.cs, t.clockHz)) (.beginOp 20000000) (card p1Answers) =
      some (0xA9, 0x40000000, .released, 20000000) := by decide +kernel

def p6Answers : List Byte :=
  rep 10 0xFF ++ replies 1 ++ replies 5 ++ rep 4 0xFF ++ replies 5 ++ replies 1 ++ replies 0 ++ replies 0 ++
    register csdV1 [0x8F, 0xAF] ++ register cidSample [0xC9, 0xC7]

theorem test_begin_mmc : after (fun t => (t.result, t.xchgCount, t.cardType, t.sectorCount)) (.beginOp 10000000)
      (card p6Answers) = some (.bool true, 118, 0b0001, 3970048) ∧
    after (fun t => (t.pathV2, t.pollCmd, t.pollArg, t.clockHz)) (.beginOp 10000000) (card p6Answers) =
      some (false, 0x01, 0, 10000000) := by decide +kernel

/-! ### Sessions -/

theorem test_end : after (fun t => (t.initialized, t.result, t.sectorCount)) .endOp
    { session 0b1100 [] with sectorCount := 7 } = some (false, .done, 7) := by decide +kernel

/-! ### Geometry (S5, S8, FV1-FV22, GV30-GV39) -/

theorem test_field : outcome (.field csdSample 48 22) State.reset = some (.field 22 61055, none, 0) ∧
    outcome (.field csdSample 96 32) State.reset = some (.field 32 0x400E0032, none, 0) ∧
    outcome (.field csdSample 0 128) State.reset = some (.field 128 csdSample.toNat, none, 0) := by
  decide +kernel

theorem test_field_refused :
    outcome (.field csdSample 127 2) State.reset = some (.failure, some .refused, 0) ∧
    outcome (.field csdSample 0 0) State.reset = some (.failure, some .refused, 0) ∧
    outcome (.field csdSample 128 1) State.reset = some (.failure, some .refused, 0) := by decide +kernel

theorem test_csdDecode : outcome (.csdDecode csdSample) State.reset = some (.csd (csdDecode csdSample), none, 0) ∧
    (csdDecode csdSample).structureCode = 1 ∧ (csdDecode csdSample).taac = 14 ∧
    (csdDecode csdSample).nsac = 0 ∧ (csdDecode csdSample).tranSpeed = 50 ∧ (csdDecode csdSample).ccc = 1461 ∧
    (csdDecode csdSample).readBlLen = 9 ∧ (csdDecode csdSample).variant = .v2 61055 ∧
    (csdDecode csdSample).size = 32010928128 ∧ (csdDecode csdSample).eraseBlkEn = 1 ∧
    (csdDecode csdSample).sectorSize = 127 ∧ (csdDecode csdSample).crc = 42 := by decide +kernel

theorem test_csdDecode_sizes : (csdDecode csdV1).size = 2032664576 ∧
    (csdDecode 0x800E00325B59007FFFFF7F800A404067).size = 4398046511104 ∧
    (csdDecode csdBad).valid = false ∧ (csdDecode csdBad).size = 0 ∧
    (csdDecode 0x3FFFFFFFFFFFFFFFFFFFFFFFFFFFFFFF).size = 2 ^ 36 ∧
    (csdDecode 0x7FFFFFFFFFFFFFFFFFFFFFFFFFFFFFFF).size = 2 ^ 41 ∧
    (csdDecode 0xBFFFFFFFFFFFFFFFFFFFFFFFFFFFFFFF).size = 2 ^ 47 := by decide +kernel

theorem test_cidDecode : outcome (.cidDecode cidSample) State.reset =
    some (.cid ⟨0x1B, [0x53, 0x4D], [0x45, 0x42, 0x31, 0x51, 0x54], 3, 0, 0xF1775FEA, 2017, 10, 0x5C⟩, none, 0) := by
  decide +kernel

/-! ### Block layer (A1-A10, O1-O22, E1-E4) -/

theorem test_cmdAddr : cmdAddr true 0xFFFFFFFF = some 0xFFFFFFFF ∧ cmdAddr true 0x100000000 = none ∧
    cmdAddr false 1 = some 0x200 ∧ cmdAddr false 0x7FFFFF = some 0xFFFFFE00 ∧ cmdAddr false 0x800000 = none := by
  decide +kernel

/-- O1, O2, E3, A9, O3. -/
theorem test_readSectors_refusals :
    outcome (.readSectors 0 0) (session 0b1100 []) = some (.bool false, none, 0) ∧
    outcome (.readSectors 0 1) State.reset = some (.bool false, some .notInitialized, 0) ∧
    outcome (.readSectors 0x100000000 0) (session 0b1100 []) = some (.bool false, none, 0) ∧
    outcome (.readSectors 0x800000 1) (session 0b0100 []) = some (.failure, some .refused, 0) := by decide +kernel

/-- O3, O7: a rejected CMD17, a rejected CMD18 after which no CMD12 is sent. -/
theorem test_readSectors :
    (readSingle 0 (session 0b1100 (rep 7 0xFF ++ [0xFF, 5]))).1 = some .protocolRejection ∧
    (readSingle 0 (session 0b1100 (rep 7 0xFF ++ [0xFF, 5]))).2.xchgCount = 9 ∧
    (readMultiple 16 2 (session 0b1100 (replies 4))).2.sent = [0x52, 0, 0, 0, 0x10, 0xD3, 0xFF, 0xFF] := by
  decide +kernel

/-- O12, with CMD25 rejected: the `57 ..` frame is absent; R330: CMD24 rejected. -/
theorem test_writeSectors :
    after State.sent (.writeSectors 16 2) (session 0b1100 (replies 5 ++ replies 4)) =
      some [0x77, 0, 0, 0, 0, 0x65, 0xFF, 0xFF, 0x59, 0, 0, 0, 0x10, 0x31, 0xFF, 0xFF] ∧
    after State.sent (.writeSectors 2 2) (session 0b0001 (replies 4)) =
      some [0x59, 0, 0, 4, 0, 0x5B, 0xFF, 0xFF] ∧
    outcome (.writeSectors 0x1234 1) (session 0b1100 (replies 4)) =
      some (.bool false, some .protocolRejection, 8) := by decide +kernel

/-- O13, O16. -/
theorem test_eraseSectors :
    after State.sent (.eraseSectors 0x100 0x100) (session 0b1100 (replies 0 ++ replies 0 ++ replies 0)) =
      some ([0x60, 0, 0, 1, 0, 0xC9, 0xFF, 0xFF] ++ [0x61, 0, 0, 1, 0xFF, 0x57, 0xFF, 0xFF] ++
        [0x66, 0, 0, 0, 0, 0xA5, 0xFF, 0xFF]) ∧
    outcome (.eraseSectors 0x100 0x100) (session 0b1100 (replies 0 ++ replies 0x10)) =
      some (.bool false, some .protocolRejection, 16) := by decide +kernel

/-- A10, O15. -/
theorem test_eraseSectors_refusals :
    outcome (.eraseSectors 0x7FFFFF 2) (session 0b0100 []) = some (.failure, some .refused, 0) ∧
    outcome (.eraseSectors 0 0) (session 0b0100 []) = some (.bool false, none, 0) := by decide +kernel

/-- O17-O19. -/
theorem test_sync : outcome .sync (session 0b1100 [0xFF]) = some (.bool true, none, 1) ∧
    outcome .sync (session 0b1100 [0, 0, 0, 0xFF]) = some (.bool true, none, 4) ∧
    outcome .sync State.reset = some (.bool false, some .notInitialized, 0) := by decide +kernel

/-- O20-O22, E4. -/
theorem test_accessors : outcome .getSectorSize State.reset = some (.sectorSize 512, none, 0) ∧
    outcome .getSectorCount State.reset = some (.sectorCount 0, none, 0) ∧
    outcome .getCsd { State.reset with csd := csdSample } =
      some (.csdRegister csdSample (csdDecode csdSample), none, 0) ∧
    outcome .getCid { State.reset with cid := cidSample } =
      some (.cidRegister cidSample (cidDecode cidSample), none, 0) ∧
    outcome (.reserved 12) State.reset = some (.failure, some .refused, 0) := by decide +kernel

/-! ### Witnesses: each shows a state and operands that meet all hypotheses of a statement (or of one of its
clauses), at a boundary value where the clause has a range -/

/-- A reply after the last filler the budget of 8 allows. -/
def lateReply (stuff : Nat) (r1 : Byte) : Reply := ⟨rep (6 + stuff) 0xFF, rep 7 0xFF, r1⟩

/-- A reply at the first poll byte. -/
def promptReply (stuff : Nat) (r1 : Byte) : Reply := ⟨rep (6 + stuff) 0x00, [], r1⟩

theorem witness_heard : (lateReply 0 0x7F).Heard 8 0 ∧ (lateReply 1 0).Heard 8 1 ∧ (promptReply 0 1).Heard 8 0 ∧
    (promptReply 1 0).Heard 1 1 := by
  refine ⟨⟨?_, ?_, ?_, ?_⟩, ⟨?_, ?_, ?_, ?_⟩, ⟨?_, ?_, ?_, ?_⟩, ⟨?_, ?_, ?_, ?_⟩⟩ <;> decide

theorem promptReply_heard (r1 : Byte) (h : r1.getLsbD 7 = false) : (promptReply 0 r1).Heard 8 0 :=
  ⟨rfl, nofun, Nat.zero_lt_succ 7, h⟩

/-- A command answered at once; of an application command CMD55 is accepted. -/
def answer (r1 : Byte) : Attempt := .answered (promptReply 0 1) (promptReply 0 r1)

/-- A command that no byte of the whole response poll answers; of an application command CMD55 is accepted. -/
def silence : Attempt := .unanswered (promptReply 0 1) (rep 6 0xFF) (rep 8 0x80)

/-- An application command whose CMD55 is answered with 2, the smallest value that turns it away. -/
def turnedAway : Attempt := .leadRejected (promptReply 0 2)

/-- An application command whose CMD55 no byte answers. -/
def leadSilence : Attempt := .leadUnanswered (rep 6 0) (rep 8 0xFF)

theorem answer_runs {app : Bool} {index : BitVec 6} (hs : stuffing app index = 0) (r1 : Byte)
    (h : r1.getLsbD 7 = false) : (answer r1).Runs defaultParams app index :=
  ⟨fun _ => ⟨promptReply_heard 1 rfl, by decide⟩, by rw [hs]; exact promptReply_heard r1 h⟩

theorem silence_runs {app : Bool} {index : BitVec 6} (hs : stuffing app index = 0) :
    silence.Runs defaultParams app index :=
  ⟨fun _ => ⟨promptReply_heard 1 rfl, by decide⟩, by rw [hs]; rfl, by decide, by decide⟩

theorem turnedAway_runs (index : BitVec 6) : turnedAway.Runs defaultParams true index :=
  ⟨rfl, promptReply_heard 2 rfl, by decide⟩

theorem leadSilence_runs (index : BitVec 6) : leadSilence.Runs defaultParams true index :=
  ⟨rfl, ⟨rfl, rfl, by decide⟩, by decide⟩

theorem witness_DecodeOfEncode : (Instr.dataBlock .toCard 0xFC (rep 512 0)).wellFormed = true ∧
    (Instr.acmd41 0x40000000).wellFormed = true ∧ (Instr.r3Extract 0 [1, 2, 3, 4]).wellFormed = true := by
  decide +kernel

theorem witness_DecodedIsEncoding : decode 0 ⟨.op, [0x05]⟩ = .ok .sync := by decide +kernel

theorem witness_StepRunsOldestRequest : ∃ s1 s2 s3 : State,
    s1.requests = [encode defaultParams.crc16Seed .sync, encode 0 .endOp] ∧
    (s2.requests = [⟨.op, [0x20]⟩] ∧ decode 0 ⟨.op, [0x20]⟩ = .error .badSelect) ∧ s3.requests = [] :=
  ⟨{ State.reset with requests := [encode 0 .sync, encode 0 .endOp] },
    { State.reset with requests := [⟨.op, [0x20]⟩] }, State.reset, rfl, ⟨rfl, by decide⟩, rfl⟩

theorem witness_FetchedWordRuns : decodeTableWord 48 0x510000000155 = none ∧
    decodeTableWord 48 0x510000000001 = some (.cmd17 0) := by decide +kernel

theorem witness_CrcLaws : ([0x40, 0] : List Byte).length = ([0xFF, 0x95] : List Byte).length := by decide

/-- One frame for each of the five outcomes of R152. -/
theorem witness_ParseFrameChecks :
    (frameBytes 0xC00000000095 = [0xC0, 0, 0, 0, 0, 0x95] ∧ (0xC0 : Byte).getLsbD 7 = true) ∧
    (frameBytes 0x000000000001 = [0, 0, 0, 0, 0, 1] ∧ (0 : Byte).getLsbD 7 = false ∧
      (0 : Byte).getLsbD 6 = false) ∧
    (frameBytes 0x400000000094 = [0x40, 0, 0, 0, 0, 0x94] ∧ (0x40 : Byte).getLsbD 7 = false ∧
      (0x40 : Byte).getLsbD 6 = true ∧ (0x94 : Byte).getLsbD 0 = false) ∧
    (frameBytes 0x400000000097 = [0x40, 0, 0, 0, 0, 0x97] ∧ (0x97 : Byte).getLsbD 0 = true ∧
      crc7 [0x40, 0, 0, 0, 0] ≠ slice (0x97 : Byte) 1 7) ∧
    (frameBytes 0x400000000095 = [0x40, 0, 0, 0, 0, 0x95] ∧ (0x95 : Byte).getLsbD 0 = true ∧
      crc7 [0x40, 0, 0, 0, 0] = slice (0x95 : Byte) 1 7) := by decide +kernel

theorem witness_FrameRoundTrip : parseFrame 0x7FFFFFFFFF19 = .ok 63 0xFFFFFFFF := by decide +kernel

/-- Ordinary, data-bearing (CMD17, one stuffing byte) and application command. -/
theorem witness_CommandWithoutPayload : ∃ s1 s2 s3 : State,
    (commandOf (.cmd0 0) = some (0x00, 0, 0) ∧ (0x00 : Byte).getLsbD 6 = false ∧
      (promptReply 0 1).Leads (cmdApp 0x00) s1.params.maxWaitBytes ∧
      (lateReply 0 0x7F).Heard s1.params.maxWaitBytes (stuffing (cmdApp 0x00) (cmdIndex 0x00)) ∧
      s1.answers = (promptReply 0 1).lead (cmdApp 0x00) ++ ((lateReply 0 0x7F).bytes ++ [])) ∧
    (commandOf (.cmd17 7) = some (0x11, 7, 0) ∧
      (lateReply 1 0).Heard s2.params.maxWaitBytes (stuffing (cmdApp 0x11) (cmdIndex 0x11)) ∧
      s2.answers = (lateReply 1 0).bytes ++ [0xFE]) ∧
    (commandOf (.acmd41 0) = some (0xA9, 0, 0) ∧
      (promptReply 0 1).Leads (cmdApp 0xA9) s3.params.maxWaitBytes ∧
      (lateReply 0 0).Heard s3.params.maxWaitBytes (stuffing (cmdApp 0xA9) (cmdIndex 0xA9)) ∧
      s3.answers = (promptReply 0 1).lead (cmdApp 0xA9) ++ ((lateReply 0 0).bytes ++ [])) := by
  refine ⟨card (lateReply 0 0x7F).bytes, card ((lateReply 1 0).bytes ++ [0xFE]),
    card ((promptReply 0 1).bytes ++ (lateReply 0 0).bytes), ⟨rfl, rfl, nofun, ?_, rfl⟩, ⟨rfl, ?_, rfl⟩,
    ⟨rfl, fun _ => ⟨?_, by decide⟩, ?_, rfl⟩⟩ <;> (refine ⟨?_, ?_, ?_, ?_⟩ <;> decide)

theorem witness_CommandWithDirectPayload : ∃ s : State,
    commandOf (.cmd8 0x1AA) = some (0x08, 0x1AA, ([0, 0, 1, 0xAA] : List Byte).length) ∧
    (0x08 : Byte).getLsbD 6 = false ∧ ([0, 0, 1, 0xAA] : List Byte) ≠ [] ∧
    dataBearing (cmdApp 0x08) (cmdIndex 0x08) = false ∧
    (promptReply 0 1).Leads (cmdApp 0x08) s.params.maxWaitBytes ∧
    (lateReply 0 5).Heard s.params.maxWaitBytes 0 ∧
    s.answers = (promptReply 0 1).lead (cmdApp 0x08) ++ ((lateReply 0 5).bytes ++ ([0, 0, 1, 0xAA] ++ [])) := by
  refine ⟨card ((lateReply 0 5).bytes ++ [0, 0, 1, 0xAA]), rfl, rfl, by decide, by decide, nofun, ?_, rfl⟩
  refine ⟨?_, ?_, ?_, ?_⟩ <;> decide

/-- The token at the last poll byte. -/
theorem witness_CommandWithDataBlock : ∃ (d : Block) (s : State),
    commandOf (.cmd9 0) = some (0x09, 0, d.payload.length) ∧ (0x09 : Byte).getLsbD 6 = false ∧ d.payload ≠ [] ∧
    dataBearing (cmdApp 0x09) (cmdIndex 0x09) = true ∧
    (promptReply 0 1).Leads (cmdApp 0x09) s.params.maxWaitBytes ∧
    (lateReply 1 0).Heard s.params.maxWaitBytes 1 ∧ (lateReply 1 0).r1 = 0 ∧ d.wait < s.params.maxWaitBytes ∧
    s.answers = (promptReply 0 1).lead (cmdApp 0x09) ++
      ((lateReply 1 0).bytes ++ (d.bytes s.params.crc16Seed ++ [])) := by
  refine ⟨⟨7, rep 16 0⟩, card ((lateReply 1 0).bytes ++ ((⟨7, rep 16 0⟩ : Block).bytes 0 ++ [])), by decide, rfl,
    by decide, by decide, nofun, ?_, rfl, by decide, rfl⟩
  refine ⟨?_, ?_, ?_, ?_⟩ <;> decide

/-- A CMD55 answered with 2, the smallest value that turns the command away; a silent card; a card silent at
CMD55. -/
theorem witness_CommandTurnedAway : ∃ s1 s2 s3 : State,
    (commandOf (.acmd23 1) = some (0x97, 1, 0) ∧ (0x97 : Byte).getLsbD 6 = false ∧ cmdApp 0x97 = true ∧
      (promptReply 0 2).Heard s1.params.maxWaitBytes 0 ∧ 1 < (promptReply 0 2).r1.toNat ∧
      s1.answers = (promptReply 0 2).bytes ++ []) ∧
    (commandOf (.cmd10 0) = some (0x0A, 0, 16) ∧ (promptReply 0 1).Leads (cmdApp 0x0A) s2.params.maxWaitBytes ∧
      (rep 7 0).length = 6 + stuffing (cmdApp 0x0A) (cmdIndex 0x0A) ∧
      (rep 8 0x80).length = s2.params.maxWaitBytes ∧ (∀ b ∈ rep 8 0x80, b.getLsbD 7 = true) ∧
      s2.answers = (promptReply 0 1).lead (cmdApp 0x0A) ++ (rep 7 0 ++ (rep 8 0x80 ++ []))) ∧
    (Silent s3.params.maxWaitBytes 0 (rep 6 0) (rep 8 0x80) ∧ 1 < s3.params.errSentinel.toNat ∧
      s3.answers = rep 6 0 ++ (rep 8 0x80 ++ [])) := by
  refine ⟨card (promptReply 0 2).bytes, card (rep 7 0 ++ rep 8 0x80), card (rep 6 0 ++ rep 8 0x80),
    ⟨rfl, rfl, rfl, promptReply_heard 2 rfl, ?_, ?_⟩, ⟨rfl, nofun, ?_, ?_, ?_, ?_⟩, ⟨⟨?_, ?_, ?_⟩, ?_, ?_⟩⟩ <;>
    decide

/-- The common hypotheses, with the tail of each of the four clauses. -/
theorem witness_CommandDataFailures : ∃ s1 s2 s3 s4 : State,
    (commandOf (.cmd9 0) = some (0x09, 0, 16) ∧ dataBearing (cmdApp 0x09) (cmdIndex 0x09) = true ∧
      (promptReply 0 1).Leads (cmdApp 0x09) s1.params.maxWaitBytes) ∧
    ((promptReply 1 4).Heard s1.params.maxWaitBytes 1 ∧ (promptReply 1 4).r1 ≠ 0 ∧
      s1.answers = (promptReply 1 4).bytes ++ ([] ++ [])) ∧
    ((promptReply 1 0).Heard s2.params.maxWaitBytes 1 ∧
      s2.answers = (promptReply 1 0).bytes ++ (fillers s2.params.maxWaitBytes ++ [])) ∧
    (7 < s3.params.maxWaitBytes ∧ s3.answers = (promptReply 1 0).bytes ++ ((fillers 7 ++ [0xFC]) ++ [])) ∧
    (7 < s4.params.maxWaitBytes ∧ (rep 16 1).length = 16 ∧
      (crc16 s4.params.crc16Seed (rep 16 1)).toNat ≠ fromBe [0, 0] ∧
      s4.answers = (promptReply 1 0).bytes ++ ((fillers 7 ++ (0xFE :: (rep 16 1 ++ [0, 0]))) ++ [])) := by
  refine ⟨card (promptReply 1 4).bytes, card ((promptReply 1 0).bytes ++ rep 8 0xFF),
    card ((promptReply 1 0).bytes ++ (rep 7 0xFF ++ [0xFC])),
    card ((promptReply 1 0).bytes ++ (rep 7 0xFF ++ (0xFE :: (rep 16 1 ++ [0, 0])))),
    ⟨rfl, by decide, nofun⟩, ⟨⟨?_, ?_, ?_, ?_⟩, ?_, ?_⟩, ⟨⟨?_, ?_, ?_, ?_⟩, ?_⟩, ⟨?_, ?_⟩, ?_, ?_, ?_, ?_⟩ <;>
    decide +kernel

/-- Ordinary and application command, each data-bearing and not. -/
theorem witness_CommandBounds : ∀ c ∈ [((0x00 : Byte), 0), (0x09, 16), (0xA9, 0), (0x8D, 64)],
    c.1.getLsbD 6 = false ∧ (dataBearing (cmdApp c.1) (cmdIndex c.1) = true → c.2 ≠ 0) := by decide

theorem witness_CommandFrame : commandOf (.cmd58 0) = some (0x3A, 0, 4) ∧
    (∃ t, exec (.cmd58 0) State.reset = .next t) ∧
    ∃ t, exec (.sendCommandRetry 0 0 1 5 1000) State.reset = .next t := ⟨rfl, ⟨_, rfl⟩, ⟨_, rfl⟩⟩

/-- An answered and an unanswered miss and a hit at the last attempt, and the misses without the hit, for an
ordinary command. -/
theorem witness_RetryOutcomes : ∃ s1 s2 : State,
    ((0x00 : Byte).getLsbD 6 = false ∧ (∀ a ∈ [answer 0, silence],
      a.Runs s1.params (cmdApp 0x00) (cmdIndex 0x00) ∧ a.r1 s1.params.errSentinel ≠ 1)) ∧
    ([answer 0, silence].length < 3 ∧ (answer 1).Runs s1.params (cmdApp 0x00) (cmdIndex 0x00) ∧
      (answer 1).r1 s1.params.errSentinel = 1 ∧
      s1.answers = [answer 0, silence].flatMap (Attempt.bytes (cmdApp 0x00)) ++
        ((answer 1).bytes (cmdApp 0x00) ++ [])) ∧
    ([answer 0, silence].getLast? = some silence ∧ [answer 0, silence].length = 2 ∧
      s2.answers = [answer 0, silence].flatMap (Attempt.bytes (cmdApp 0x00)) ++ []) := by
  refine ⟨card _, card _, ⟨rfl, ?_⟩, ⟨by decide, answer_runs rfl 1 rfl, rfl, rfl⟩, ⟨rfl, rfl, rfl⟩⟩
  simp only [List.forall_mem_cons]
  exact ⟨⟨answer_runs rfl 0 rfl, by decide⟩, ⟨silence_runs rfl, by decide⟩, nofun⟩

/-- The same for an application command, with a miss of every kind. -/
theorem witness_RetryOutcomes_app : ∃ s1 s2 : State,
    ((0xA9 : Byte).getLsbD 6 = false ∧ (∀ a ∈ [answer 1, turnedAway, silence, leadSilence],
      a.Runs s1.params (cmdApp 0xA9) (cmdIndex 0xA9) ∧ a.r1 s1.params.errSentinel ≠ 0)) ∧
    ([answer 1, turnedAway, silence, leadSilence].length < 5 ∧
      (answer 0).Runs s1.params (cmdApp 0xA9) (cmdIndex 0xA9) ∧ (answer 0).r1 s1.params.errSentinel = 0 ∧
      s1.answers = [answer 1, turnedAway, silence, leadSilence].flatMap (Attempt.bytes (cmdApp 0xA9)) ++
        ((answer 0).bytes (cmdApp 0xA9) ++ [])) ∧
    ([answer 1, turnedAway, silence, leadSilence].getLast? = some leadSilence ∧
      s2.answers = [answer 1, turnedAway, silence, leadSilence].flatMap (Attempt.bytes (cmdApp 0xA9)) ++ []) := by
  refine ⟨card _, card _, ⟨rfl, ?_⟩, ⟨by decide, answer_runs rfl 0 rfl, rfl, rfl⟩, ⟨rfl, rfl⟩⟩
  simp only [List.forall_mem_cons]
  exact ⟨⟨answer_runs rfl 1 rfl, by decide⟩, ⟨turnedAway_runs _, by decide⟩, ⟨silence_runs rfl, by decide⟩,
    ⟨leadSilence_runs _, by decide⟩, nofun⟩

/-- One refused operand of each kind, at the boundary. -/
theorem witness_RefusedExactly : RefusesOperands (.reserved 10) State.reset ∧
    RefusesOperands (.sendCommand 0x40 0 0) State.reset ∧
    RefusesOperands (.sendCommandRetry 0xC0 0 1 1 0) State.reset ∧
    RefusesOperands (.field 0 128 1) State.reset ∧
    RefusesOperands (.readSectors 0x800000 1) (session 0b0100 []) ∧
    RefusesOperands (.eraseSectors 0x7FFFFF 2) (session 0b0100 []) ∧
    ∃ t, exec (.reserved 10) State.reset = .next t ∧ t.error = some .refused := by
  refine ⟨.inl ⟨10, rfl⟩, .inr (.inl ⟨0x40, 0, 0, rfl, rfl⟩),
    .inr (.inr (.inl ⟨0xC0, 0, 1, 1, 0, rfl, rfl, by decide⟩)),
    .inr (.inr (.inr (.inl ⟨0, 128, 1, rfl, .inr (by decide)⟩))),
    .inr (.inr (.inr (.inr (.inl ⟨0x800000, 1, .inl rfl, rfl, by decide, by decide⟩)))),
    .inr (.inr (.inr (.inr (.inr ⟨0x7FFFFF, 2, rfl, rfl, by decide, by decide⟩)))), _, rfl, rfl⟩

theorem witness_ExtractorLaws : Instr.r7Extract 1 [0, 0, 1, 0xAA] ∈ [Instr.r1Extract 1, .r2Extract 1 2,
      .r3Extract 1 [0, 0, 1, 0xAA], .r7Extract 1 [0, 0, 1, 0xAA]] ∧
    ([0, 0, 1, 0xAA] : List Byte).length = 4 ∧ noError 0x01 = true := by decide

/-- A state whose ready and token budgets are 3, so that both ends of their ranges are short lists. -/
def brief (answers : List Byte) : State :=
  { card answers with params := { defaultParams with readyWaitSteps := 3, tokenWaitSteps := 3 } }

theorem witness_WaitReadyOutcomes : ∃ s1 s2 : State,
    ((∀ b ∈ [(0x00 : Byte), 0xFE], b ≠ 0xFF) ∧ [(0x00 : Byte), 0xFE].length < s1.params.readyWaitSteps ∧
      s1.answers = readyBytes [0x00, 0xFE] ++ []) ∧
    ((∀ b ∈ [(0x00 : Byte), 0, 0], b ≠ 0xFF) ∧ [(0x00 : Byte), 0, 0].length = s2.params.readyWaitSteps ∧
      s2.answers = [0, 0, 0] ++ []) :=
  ⟨brief [0x00, 0xFE, 0xFF], brief [0, 0, 0], ⟨by decide, by decide, rfl⟩, ⟨by decide, rfl, rfl⟩⟩

theorem witness_ReceiveBlockCompletes : ∃ (d : Block) (s : State), d.wait < s.params.tokenWaitSteps ∧
    s.answers = d.bytes s.params.crc16Seed ++ [] ∧ s.buf.wf = true ∧ d.payload = [0xFE, 0xFF] :=
  ⟨⟨2, [0xFE, 0xFF]⟩, brief ((⟨2, [0xFE, 0xFF]⟩ : Block).bytes 0), by decide, by simp [brief, card]; rfl, rfl, rfl⟩

theorem witness_ReceiveBlockFails : ∃ s1 s2 s3 : State, s1.answers = fillers s1.params.tokenWaitSteps ++ [] ∧
    (2 < s2.params.tokenWaitSteps ∧ s2.answers = (fillers 2 ++ [0x09]) ++ []) ∧
    (2 < s3.params.tokenWaitSteps ∧ ([1, 2] : List Byte).length = 2 ∧
      (crc16 s3.params.crc16Seed [1, 2]).toNat ≠ fromBe [0, 0] ∧
      s3.answers = (fillers 2 ++ (0xFE :: ([1, 2] ++ [0, 0]))) ++ []) := by
  refine ⟨brief (rep 3 0xFF), brief (rep 2 0xFF ++ [0x09]), brief (rep 2 0xFF ++ [0xFE, 1, 2, 0, 0]), rfl,
    ⟨?_, rfl⟩, ?_, rfl, ?_, rfl⟩ <;> decide +kernel

/-- A card that takes a block after the last busy byte a budget of 3 allows. -/
def taken (resp : Byte) : Taken := ⟨[0, 0], rep 515 0, resp⟩

theorem taken_heard (resp : Byte) : (taken resp).Heard 3 :=
  ⟨by simp [taken], by simp [taken], List.length_replicate⟩

theorem witness_TransmitBlockOutcomes : ∃ s1 s2 s3 : State,
    ((0xFE : Byte) ≠ 0xFD ∧ (taken 0xE5).Heard s1.params.readyWaitSteps ∧ s1.answers = (taken 0xE5).bytes ++ []) ∧
    ((∀ b ∈ [(0 : Byte), 0], b ≠ 0xFF) ∧ [(0 : Byte), 0].length < s2.params.readyWaitSteps ∧
      s2.answers = readyBytes [0, 0] ++ (0xFF :: [])) ∧
    ([(0 : Byte), 0, 0].length = s3.params.readyWaitSteps ∧ s3.answers = [0, 0, 0] ++ []) :=
  ⟨brief (taken 0xE5).bytes, brief [0, 0, 0xFF, 0xFF], brief [0, 0, 0],
    ⟨by decide, taken_heard _, (List.append_nil _).symm⟩, ⟨by decide, by decide, rfl⟩, ⟨rfl, rfl⟩⟩

theorem witness_TransceiverFrame : (∃ t, exec .waitReady State.reset = .next t) ∧
    (∃ t, exec (.receiveBlock 512 512) State.reset = .next t) ∧
    (∃ t, exec (.dataBlock .fromCard 0xFE [1]) State.reset = .next t) ∧ isDataUnit .waitReady = true ∧
    awaitsToken .waitReady = false ∧ carriesPayload .waitReady = false ∧ isDataUnit (.receiveBlock 512 512) = true ∧
    isDataUnit (.dataBlock .fromCard 0xFE [1]) = true ∧ isResponseItem (.r7 1 0x1AA) = true :=
  ⟨⟨_, rfl⟩, ⟨_, rfl⟩, ⟨_, rfl⟩, rfl, rfl, rfl, rfl, rfl, rfl⟩

theorem witness_WireItems : 0 < State.reset.params.maxWaitBytes ∧ 0 < State.reset.params.tokenWaitSteps ∧
    (∃ s : State, (∀ b ∈ [(0x7F : Byte)], b ≠ 0xFF) ∧ [(0x7F : Byte)].length < s.params.readyWaitSteps ∧
      s.answers = readyBytes [0x7F] ++ (0x00 :: [])) ∧
    (∃ s : State, (Instr.dataBlock .toCard 0xFC (rep 512 1)).wellFormed = true ∧
      (taken 0x0B).Heard s.params.readyWaitSteps ∧ s.answers = (taken 0x0B).bytes ++ [] ∧ s.buf.wf = true) :=
  ⟨by decide, by decide, ⟨brief [0x7F, 0xFF, 0x00], by decide, by decide, rfl⟩,
    ⟨brief (taken 0x0B).bytes, by decide +kernel, taken_heard _, (List.append_nil _).symm, rfl⟩⟩

theorem witness_InitTransitions : State.reset.initState ≠ .failed ∧
    (∃ s : State, s.initState = .versionBranch ∧ nextInitState s = .readyPoll) ∧
    (∃ s : State, s.initState = .voltageCheck) ∧
    ((∀ frequency, Instr.sync ≠ .beginOp frequency) ∧ ∃ t, exec .sync State.reset = .next t) := by
  refine ⟨by decide, ⟨{ card (promptReply 0 5).bytes with initState := .versionBranch }, rfl, ?_⟩,
    ⟨{ State.reset with initState := .voltageCheck }, rfl⟩, nofun, ⟨_, rfl⟩⟩
  decide +kernel

theorem witness_SessionWrittenByBeginAlone : (∀ frequency, Instr.getCid ≠ .beginOp frequency) ∧
    (∃ t, exec .getCid State.reset = .next t) ∧ Instr.getCid ≠ .endOp ∧ isGated .getCid = false :=
  ⟨nofun, ⟨_, rfl⟩, by decide, rfl⟩

/-- A card that is silent until it is idle at the last CMD0 the budget allows, and what it then answers to
CMD8. -/
def opening (ifCond : Attempt) (echo : List Byte) : Opening :=
  ⟨rep 10 0xFF, List.replicate 4 silence, answer 1, ifCond, echo⟩

/-- The registers of 1.2 and 1.3 of the vectors. -/
def closing : Closing :=
  ⟨promptReply 1 0, ⟨7, beBytes 16 csdSample.toNat⟩, lateReply 1 0, ⟨0, beBytes 16 cidSample.toNat⟩⟩

theorem opening_healthy (ifCond : Attempt) (echo : List Byte) (h : ifCond.Runs defaultParams false 8)
    (he : echo.length = if ifCond.responds then 4 else 0) : (opening ifCond echo).Healthy defaultParams where
  dummy := rfl
  misses := fun q hq => by
    rw [List.eq_of_mem_replicate hq]
    exact ⟨silence_runs rfl, by decide⟩
  budget := Nat.lt_succ_self 4
  idle := ⟨answer_runs rfl 1 rfl, rfl⟩
  ifCond := h
  ifValue := he
  silence := fun _ => by decide

theorem closing_healthy : closing.Healthy defaultParams where
  csdReply := ⟨⟨by decide, nofun, by decide, rfl⟩, rfl⟩
  csd := ⟨by decide, by decide⟩
  cidReply := ⟨⟨by decide, by decide, by decide, rfl⟩, rfl⟩
  cid := ⟨by decide, by decide⟩
  size := by decide +kernel

/-- CMD9 or CMD10 rejected, and not answered: of these the card answers the stuffing byte too. -/
def registerRejected : Attempt := .answered (promptReply 0 1) (promptReply 1 4)
def registerSilence : Attempt := .unanswered (promptReply 0 1) (rep 7 0xFF) (rep 8 0x80)

theorem register_refused {index : BitVec 6} (h : stuffing false index = 1) :
    (registerRejected.Runs defaultParams false index ∧ registerRejected.r1 defaultParams.errSentinel ≠ 0) ∧
      registerSilence.Runs defaultParams false index ∧ registerSilence.r1 defaultParams.errSentinel ≠ 0 := by
  refine ⟨⟨⟨nofun, ?_⟩, by decide⟩, ⟨nofun, ?_⟩, by decide⟩ <;> rw [h]
  · exact ⟨rfl, nofun, by decide, rfl⟩
  · exact ⟨rfl, rfl, by decide⟩

/-- A register at the last byte the budget allows. -/
def lateRegister (value : BitVec 128) : Block := ⟨7, beBytes 16 value.toNat⟩

/-- The registers that make a bring-up fail, in each way. -/
def brokenClosings : List BrokenClosing :=
  [.csdRefused registerRejected, .csdRefused registerSilence, .capacity (promptReply 1 0) (lateRegister csdBad),
    .cidRefused (promptReply 1 0) (lateRegister csdSample) registerRejected,
    .cidRefused (promptReply 1 0) (lateRegister csdSample) registerSilence]

theorem brokenClosings_break : ∀ c ∈ brokenClosings, c.Breaks defaultParams := by
  have hq : (promptReply 1 0).Heard defaultParams.maxWaitBytes 1 ∧ (promptReply 1 0).r1 = 0 :=
    ⟨⟨rfl, nofun, by decide, rfl⟩, rfl⟩
  have hd : ∀ v, (lateRegister v).wait < defaultParams.maxWaitBytes ∧ (lateRegister v).payload.length = 16 :=
    fun _ => ⟨Nat.lt_succ_self 7, rfl⟩
  simp only [brokenClosings, List.forall_mem_cons]
  exact ⟨(register_refused rfl).1, (register_refused rfl).2, ⟨hq, hd _, by decide +kernel⟩, ⟨hq, hd _, by decide +kernel, (register_refused rfl).1⟩,
    ⟨hq, hd _, by decide +kernel, (register_refused rfl).2⟩, nofun⟩

/-- A capacity one byte over what the build supports. -/
theorem tooLarge_breaks : (BrokenClosing.capacity (promptReply 1 0) (lateRegister csdSample)).Breaks
    { defaultParams with maxSizeBytes := 61056 * 524288 - 1 } :=
  ⟨⟨⟨rfl, nofun, by decide, rfl⟩, rfl⟩, ⟨Nat.lt_succ_self 7, rfl⟩, by decide +kernel⟩

/-- A V2 card that is ready at the third poll; the second goes unanswered at CMD55. -/
def middleV2 : V2Middle := ⟨[answer 1, leadSilence], answer 0, promptReply 0 0, [0xC0, 0xFF, 0x80, 0]⟩

theorem witness_BringUpOfV2Card : (opening (answer 1) [0, 0, 0x01, 0xAA]).Healthy defaultParams ∧
    (opening (answer 1) [0, 0, 0x01, 0xAA]).V2 ∧ middleV2.Healthy defaultParams ∧
    closing.Healthy defaultParams ∧
    (∃ s : State, s.params = defaultParams ∧ s.answers = (opening (answer 1) [0, 0, 0x01, 0xAA]).bytes ++
      (middleV2.bytes ++ (closing.bytes s.params.crc16Seed ++ []))) ∧
    ∀ c ∈ brokenClosings, c.Breaks defaultParams ∧ ∃ s : State, s.params = defaultParams ∧
      s.answers = (opening (answer 1) [0, 0, 0x01, 0xAA]).bytes ++
        (middleV2.bytes ++ (c.bytes s.params.crc16Seed ++ [])) := by
  refine ⟨opening_healthy _ _ (answer_runs rfl 1 rfl) rfl, ⟨⟨_, _, rfl, rfl⟩, rfl⟩, ⟨?_, by decide,
    ⟨answer_runs rfl 0 rfl, rfl⟩, ⟨promptReply_heard 0 rfl, rfl⟩, rfl⟩, closing_healthy,
    ⟨card ((opening (answer 1) [0, 0, 0x01, 0xAA]).bytes ++ (middleV2.bytes ++ (closing.bytes 0 ++ []))), rfl, rfl⟩,
    fun c hc => ⟨brokenClosings_break c hc, card ((opening (answer 1) [0, 0, 0x01, 0xAA]).bytes ++
      (middleV2.bytes ++ (c.bytes 0 ++ []))), rfl, rfl⟩⟩
  simp only [middleV2, List.forall_mem_cons]
  exact ⟨⟨answer_runs rfl 1 rfl, by decide⟩, ⟨leadSilence_runs _, by decide⟩, nofun⟩

/-- An SD v1 card, ready at the third poll; at the second CMD55 is turned away. -/
def middleSd1 : LegacyMiddle := ⟨answer 1, [answer 1, turnedAway], answer 0, promptReply 0 0⟩

/-- An MMC card, told by this probe, ready at the third poll. -/
def middleMmc (probe : Attempt) : LegacyMiddle := ⟨probe, [answer 1, silence], answer 0, promptReply 0 0⟩

theorem middleSd1_healthy : middleSd1.isSd1 defaultParams.errSentinel = true ∧
    middleSd1.Healthy defaultParams := by
  refine ⟨by decide, answer_runs rfl 1 rfl, ?_, by decide, ⟨answer_runs rfl 0 rfl, rfl⟩, promptReply_heard 0 rfl,
    rfl⟩
  simp only [middleSd1, List.forall_mem_cons]
  exact ⟨⟨answer_runs rfl 1 rfl, by decide⟩, ⟨turnedAway_runs _, by decide⟩, nofun⟩

theorem middleMmc_healthy {probe : Attempt} (h : probe.Runs defaultParams true 41)
    (hp : (middleMmc probe).isSd1 defaultParams.errSentinel = false) :
    (middleMmc probe).Healthy defaultParams where
  probe := h
  polls := by
    rw [LegacyMiddle.pollIndex, hp]
    simp only [middleMmc, List.forall_mem_cons]
    exact ⟨⟨answer_runs rfl 1 rfl, by decide⟩, ⟨silence_runs rfl, by decide⟩, nofun⟩
  budget := (by decide : 2 < defaultParams.readyPollAttempts)
  ready := by
    simp only [LegacyMiddle.pollIndex, hp]
    exact ⟨answer_runs rfl 0 rfl, rfl⟩
  blockLength := ⟨promptReply_heard 0 rfl, rfl⟩

/-- CMD8 rejected, unanswered, or answered with a wrong echo; an SD v1 card, and an MMC card told by each of the
four ways a probe can go. -/
theorem witness_BringUpOfLegacyCard :
    ((opening (answer 5) (rep 4 0xFF)).Healthy defaultParams ∧ ¬ (opening (answer 5) (rep 4 0xFF)).V2) ∧
    ((opening silence []).Healthy defaultParams ∧ ¬ (opening silence []).V2) ∧
    ((opening (answer 1) [0, 0, 0x01, 0xAB]).Healthy defaultParams ∧
      ¬ (opening (answer 1) [0, 0, 0x01, 0xAB]).V2) ∧
    middleSd1.Healthy defaultParams ∧
    (∀ probe ∈ [answer 5, silence, turnedAway, leadSilence], (middleMmc probe).Healthy defaultParams) ∧
    closing.Healthy defaultParams ∧
    (∃ s : State, s.params = defaultParams ∧ s.answers = (opening silence []).bytes ++
      (middleSd1.bytes s.params.errSentinel ++ (closing.bytes s.params.crc16Seed ++ []))) ∧
    ∀ c ∈ brokenClosings, c.Breaks defaultParams ∧ ∃ s : State, s.params = defaultParams ∧
      s.answers = (opening silence []).bytes ++
        (middleSd1.bytes s.params.errSentinel ++ (c.bytes s.params.crc16Seed ++ [])) := by
  refine ⟨⟨opening_healthy _ _ (answer_runs rfl 5 rfl) rfl, fun h => ?_⟩,
    ⟨opening_healthy _ _ (silence_runs rfl) rfl, fun h => ?_⟩,
    ⟨opening_healthy _ _ (answer_runs rfl 1 rfl) rfl, fun h => absurd h.2 (by decide)⟩, middleSd1_healthy.2, ?_,
    closing_healthy, ⟨card ((opening silence []).bytes ++ (middleSd1.bytes 0xFF ++ (closing.bytes 0 ++ []))),
      rfl, rfl⟩, fun c hc => ⟨brokenClosings_break c hc, card ((opening silence []).bytes ++
      (middleSd1.bytes 0xFF ++ (c.bytes 0 ++ []))), rfl, rfl⟩⟩
  · obtain ⟨⟨_, _, hq, h1⟩, -⟩ := h
    cases hq
    exact absurd h1 (by decide)
  · obtain ⟨⟨_, _, hq, -⟩, -⟩ := h
    cases hq
  · simp only [List.forall_mem_cons]
    exact ⟨middleMmc_healthy (answer_runs rfl 5 rfl) (by decide), middleMmc_healthy (silence_runs rfl) (by decide),
      middleMmc_healthy (turnedAway_runs _) (by decide), middleMmc_healthy (leadSilence_runs _) (by decide), nofun⟩

theorem witness_BeginOutcome : State.reset.params.errSentinel ≠ 0 := by decide

theorem witness_BringUpWithoutCard : ∃ s : State, s.params.errSentinel ≠ 1 ∧ s.answers =
    fillers (s.params.dummyBytes + s.params.cmd0Attempts * (6 + s.params.maxWaitBytes)) ++ [] :=
  ⟨card (fillers 80 ++ []), by decide, rfl⟩

theorem witness_BeginBound : State.reset.params = defaultParams ∧ (card p1Answers).params = defaultParams ∧
    after State.pathV2 (.beginOp 20000000) (card p1Answers) = some true := ⟨rfl, rfl, by decide +kernel⟩

theorem witness_EndClearsTheFlag : State.reset.initialized = false ∧ State.reset.cs = .released ∧
    isGated .sync = true ∧ ∃ t, exec .endOp State.reset = .next t := ⟨rfl, rfl, rfl, ⟨_, rfl⟩⟩

/-- The last bit, the whole register; no width, one bit too many. -/
theorem witness_FieldReadsTheSlice : (1 ≠ 0 ∧ 127 + 1 ≤ 128) ∧ (128 ≠ 0 ∧ 0 + 128 ≤ 128) ∧
    ((0 : Nat) = 0 ∨ 128 < 5 + 0) ∧ ((2 : Nat) = 0 ∨ 128 < 127 + 2) := by decide

/-- One register for each of the four structures. -/
theorem witness_CsdFields : (csdDecode csdV1).structureCode = 0 ∧ (csdDecode csdSample).structureCode = 1 ∧
    (csdDecode 0x800E00325B59007FFFFF7F800A404067).structureCode = 2 ∧ (csdDecode csdBad).structureCode = 3 := by
  decide +kernel

theorem witness_CapacityLaws :
    (Instr.cidDecode 7 ∈ [Instr.field 7 0 1, .csdDecode 7, .cidDecode 7]) ∧
    (slice csdSample 126 2 = (1 : BitVec 2) ∧ 61055 = (slice csdSample 48 22 : BitVec 22).toNat) ∧
    (slice (0x800E00325B59007FFFFF7F800A404067 : BitVec 128) 126 2 = (2 : BitVec 2) ∧
      8388607 = (slice (0x800E00325B59007FFFFF7F800A404067 : BitVec 128) 48 28 : BitVec 28).toNat) ∧
    slice (0x000E00325B590000EE7F7F800A404055 : BitVec 126) 70 6 = (0 : BitVec 6) ∧
    (slice csdSample 126 2 = (slice (csdSample ^^^ 1) 126 2 : BitVec 2) ∧
      slice csdSample 48 22 = (slice (csdSample ^^^ 1) 48 22 : BitVec 22)) := by decide +kernel

theorem witness_GateComesFirst : (isGated (.readSectors 0x800000 0) = true ∧ State.reset.initialized = false) ∧
    ((session 0b1100 []).initialized = true ∧
      Instr.eraseSectors 5 0 ∈ [Instr.readSectors 5 0, .writeSectors 5 0, .eraseSectors 5 0]) := by decide

/-- A block whose token comes at the last byte the default budget allows. -/
def oneBlock : Block := ⟨4999, rep 512 0xA5⟩

/-- One sector into the last block address; three sectors on a byte-addressed card, whose CMD12 is answered with an
error or not answered. -/
theorem witness_ReadSectorsCompletes : ∃ d : Block,
    (∃ s : State, s.initialized = true ∧
      cmdAddr (isBlock s.cardType) (0xFFFFFFFF : BitVec 64).toNat = some 0xFFFFFFFF ∧
      (lateReply 1 0).Heard s.params.maxWaitBytes 1 ∧ d.Sector s.params.tokenWaitSteps ∧
      s.answers = (lateReply 1 0).bytes ++ (d.bytes s.params.crc16Seed ++ []) ∧ s.buf.wf = true) ∧
    ∀ stop ∈ [answer 4, silence], stop.Runs defaultParams false 12 ∧ ∃ s : State, s.params = defaultParams ∧
      s.initialized = true ∧ cmdAddr (isBlock s.cardType) (2 : BitVec 64).toNat = some 0x400 ∧
      1 < [d, d, d].length ∧ (promptReply 0 0).Heard s.params.maxWaitBytes 0 ∧
      (∀ b ∈ [d, d, d], b.Sector s.params.tokenWaitSteps) ∧
      s.answers = (promptReply 0 0).bytes ++ ([d, d, d].flatMap (Block.bytes s.params.crc16Seed) ++
        (stop.bytes false ++ [])) ∧ s.buf.wf = true := by
  have hd : oneBlock.Sector 5000 := ⟨by decide, List.length_replicate⟩
  have h3 : ∀ b ∈ [oneBlock, oneBlock, oneBlock], b.Sector 5000 := by
    intro b hb
    rw [show b = oneBlock by simpa using hb]
    exact hd
  have hr : ∀ stop ∈ [answer 4, silence], stop.Runs defaultParams false 12 := by
    simp only [List.forall_mem_cons]
    exact ⟨answer_runs rfl 4 rfl, silence_runs rfl, nofun⟩
  exact ⟨oneBlock, ⟨session 0b1100 ((lateReply 1 0).bytes ++ (oneBlock.bytes 0 ++ [])),
      rfl, by decide, ⟨by decide, by decide, by decide, rfl⟩, hd, rfl, rfl⟩,
    fun stop h => ⟨hr stop h, session 0b0100 ((promptReply 0 0).bytes ++
      ([oneBlock, oneBlock, oneBlock].flatMap (Block.bytes 0) ++ (stop.bytes false ++ []))), rfl, rfl,
      by simp only [session]; decide, by decide, promptReply_heard 0 rfl, h3, rfl, rfl⟩⟩

/-- Sector 16 of a block-addressed card. -/
theorem sector16 (answers : List Byte) :
    cmdAddr (isBlock (session 0b1100 answers).cardType) (16 : BitVec 64).toNat = some 16 := by
  simp only [session]
  decide

theorem crc16_zeros (n : Nat) : crc16 0 (rep n 0) = 0 := by
  induction n with
  | zero => rfl
  | succ n ih =>
    have : crc16Byte 0 0 = 0 := by decide
    rw [rep, crc16, List.replicate_succ, List.foldl_cons, this]
    exact ih

/-- A block that breaks off in each of the three ways, the last two at the last byte the default budget
allows. -/
theorem broken_ways : BrokenBlock defaultParams 512 (fillers 5000) .transportTimeout ∧
    BrokenBlock defaultParams 512 (fillers 4999 ++ [0x09]) .transportTimeout ∧
    BrokenBlock defaultParams 512 (fillers 4999 ++ (0xFE :: (rep 512 0 ++ [0, 1]))) .checksumMismatch :=
  ⟨.noToken, .wrongToken 4999 0x09 (by decide) (by decide) (by decide),
    .wrongChecksum 4999 (rep 512 0) 0 1 (by decide) List.length_replicate
      (by rw [show defaultParams.crc16Seed = 0 from rfl, crc16_zeros]; decide)⟩

/-- One sector, and the second of three, broken off in any way (`broken_ways`); CMD12 answered, and not
answered. -/
theorem witness_AbortedReadKeepsGoodSectors : ∃ d : Block, d.Sector 5000 ∧ (∀ broken : List Byte, ∃ s : State,
      s.initialized = true ∧ cmdAddr (isBlock s.cardType) (16 : BitVec 64).toNat = some 16 ∧
      (lateReply 1 0).Heard s.params.maxWaitBytes 1 ∧ s.params = defaultParams ∧
      s.answers = (lateReply 1 0).bytes ++ (broken ++ [])) ∧
    (∀ stop ∈ [answer 0, silence], stop.Runs defaultParams false 12) ∧
    ∀ (broken : List Byte) (stop : Attempt), ∃ s : State,
      s.initialized = true ∧ cmdAddr (isBlock s.cardType) (16 : BitVec 64).toNat = some 16 ∧ 1 < 3 ∧
      [d].length < 3 ∧ (promptReply 0 0).Heard s.params.maxWaitBytes 0 ∧ s.params = defaultParams ∧
      s.answers = (promptReply 0 0).bytes ++ ([d].flatMap (Block.bytes s.params.crc16Seed) ++
        (broken ++ (stop.bytes false ++ []))) ∧ s.buf.wf = true := by
  refine ⟨⟨0, rep 512 0⟩, ⟨by decide, List.length_replicate⟩, fun broken =>
    ⟨session 0b1100 ((lateReply 1 0).bytes ++ (broken ++ [])), rfl, sector16 _, witness_heard.2.1, rfl, rfl⟩, ?_,
    fun broken stop => ⟨session 0b1100 ((promptReply 0 0).bytes ++
      ([(⟨0, rep 512 0⟩ : Block)].flatMap (Block.bytes 0) ++ (broken ++ (stop.bytes false ++ [])))),
    rfl, sector16 _, by decide, (by decide : 1 < 3), promptReply_heard 0 rfl, rfl, rfl, rfl⟩⟩
  simp only [List.forall_mem_cons]
  exact ⟨answer_runs rfl 0 rfl, silence_runs rfl, nofun⟩

/-- A card that takes a block at once. -/
def takenAtOnce : Taken := ⟨[], rep 515 0, 0xE5⟩

theorem takenAtOnce_heard : takenAtOnce.Heard 5000 := ⟨nofun, by decide, List.length_replicate⟩

/-- One sector; two on an SD card, whose hint goes in each of the four ways; two on an MMC card. -/
theorem witness_WriteSectorsCompletes : (∃ s : State,
      s.initialized = true ∧ cmdAddr (isBlock s.cardType) (0x1234 : BitVec 64).toNat = some 0x1234 ∧
      takenAtOnce.Heard s.params.readyWaitSteps ∧ slice takenAtOnce.resp 0 5 = (0b00101 : BitVec 5) ∧
      s.answers = (promptReply 0 0).bytes ++ (takenAtOnce.bytes ++ [])) ∧
    (∀ hint ∈ [answer 0, silence, turnedAway, leadSilence], hint.Runs defaultParams true 23 ∧
      ∃ s : State, (isSd1 s.cardType || isSd2 s.cardType) = true ∧ s.initialized = true ∧ s.params = defaultParams ∧
        cmdAddr (isBlock s.cardType) (16 : BitVec 64).toNat = some 16 ∧
        s.answers = hint.bytes true ++ ((promptReply 0 0).bytes ++
          ([takenAtOnce, takenAtOnce].flatMap Taken.bytes ++ (readyBytes [0] ++ (0xFF :: []))))) ∧
    ∃ s : State, (isSd1 s.cardType || isSd2 s.cardType) = false ∧ s.initialized = true ∧
      cmdAddr (isBlock s.cardType) (2 : BitVec 64).toNat = some 0x400 ∧
      s.answers = [] ++ ((promptReply 0 0).bytes ++
        ([takenAtOnce, takenAtOnce].flatMap Taken.bytes ++ (readyBytes [] ++ (0xFF :: [])))) := by
  refine ⟨⟨session 0b1100 _, rfl, by decide, takenAtOnce_heard, by decide, rfl⟩, ?_,
    ⟨session 0b0001 _, rfl, rfl, by decide, rfl⟩⟩
  simp only [List.forall_mem_cons]
  exact ⟨⟨answer_runs rfl 0 rfl, session 0b1100 _, rfl, rfl, rfl, by decide, rfl⟩,
    ⟨silence_runs rfl, session 0b1100 _, rfl, rfl, rfl, by decide, rfl⟩,
    ⟨turnedAway_runs _, session 0b1100 _, rfl, rfl, rfl, by decide, rfl⟩,
    ⟨leadSilence_runs _, session 0b1100 _, rfl, rfl, rfl, by decide, rfl⟩, nofun⟩

/-- A range whose last sector is 0x1FF of a block-addressed card. -/
def Erasable (s : State) : Prop :=
  s.initialized = true ∧ s.params = defaultParams ∧ (256 : Nat) ≠ 0 ∧
    cmdAddr (isBlock s.cardType) (0x100 : BitVec 64).toNat = some 0x100 ∧
    cmdAddr (isBlock s.cardType) ((0x100 : BitVec 64).toNat + 256 - 1) = some 0x1FF

theorem session_erasable (answers : List Byte) : Erasable (session 0b1100 answers) := by
  refine ⟨rfl, rfl, by decide, ?_, ?_⟩ <;> simp only [session] <;> decide

/-- A command rejected or not answered, at each of CMD32, CMD33 and CMD38; all three accepted. SYNC of a card that
is ready at the last byte a budget of 3 allows, and of one that is not. -/
theorem witness_EraseAndSyncOutcomes :
    (∀ a ∈ [answer 1, silence], a.r1 defaultParams.errSentinel ≠ 0 ∧
      (a.Runs defaultParams false 32 ∧ ∃ s, Erasable s ∧ s.answers = a.bytes false ++ []) ∧
      ((answer 0).Runs defaultParams false 32 ∧ (answer 0).r1 defaultParams.errSentinel = 0 ∧
        a.Runs defaultParams false 33 ∧
        ∃ s, Erasable s ∧ s.answers = (answer 0).bytes false ++ (a.bytes false ++ []))) ∧
    (∀ a ∈ [answer 0, answer 1, silence], (answer 0).Runs defaultParams false 32 ∧
      (answer 0).Runs defaultParams false 33 ∧ (answer 0).r1 defaultParams.errSentinel = 0 ∧
      a.Runs defaultParams false 38 ∧
      ∃ s, Erasable s ∧ s.answers = (answer 0).bytes false ++ ((answer 0).bytes false ++ (a.bytes false ++ []))) ∧
    ∃ s1 s2 : State,
      (s1.initialized = true ∧ (∀ b ∈ [(0 : Byte), 0xFE], b ≠ 0xFF) ∧
        [(0 : Byte), 0xFE].length < s1.params.readyWaitSteps ∧ s1.answers = readyBytes [0, 0xFE] ++ []) ∧
      (s2.initialized = true ∧ (∀ b ∈ [(0 : Byte), 0, 0], b ≠ 0xFF) ∧
        [(0 : Byte), 0, 0].length = s2.params.readyWaitSteps ∧ s2.answers = [0, 0, 0] ++ []) := by
  have h0 : ∀ {i : BitVec 6}, stuffing false i = 0 → (answer 0).Runs defaultParams false i :=
    fun h => answer_runs h 0 rfl
  have h1 : ∀ {i : BitVec 6}, stuffing false i = 0 → (answer 1).Runs defaultParams false i :=
    fun h => answer_runs h 1 rfl
  simp only [List.forall_mem_cons]
  exact ⟨⟨⟨by decide, ⟨h1 rfl, _, session_erasable _, rfl⟩, h0 rfl, rfl, h1 rfl, _, session_erasable _, rfl⟩,
      ⟨by decide, ⟨silence_runs rfl, _, session_erasable _, rfl⟩, h0 rfl, rfl, silence_runs rfl, _,
        session_erasable _, rfl⟩, nofun⟩,
    ⟨⟨h0 rfl, h0 rfl, rfl, h0 rfl, _, session_erasable _, rfl⟩,
      ⟨h0 rfl, h0 rfl, rfl, h1 rfl, _, session_erasable _, rfl⟩,
      ⟨h0 rfl, h0 rfl, rfl, silence_runs rfl, _, session_erasable _, rfl⟩, nofun⟩,
    { brief [0, 0xFE, 0xFF] with initialized := true }, { brief [0, 0, 0] with initialized := true },
    ⟨rfl, by decide, by decide, rfl⟩, ⟨rfl, by decide, rfl, rfl⟩⟩

/-- CMD17, CMD18, CMD24 and CMD25 rejected and accepted; after CMD25 a ready and a busy card. -/
theorem witness_AcceptedTransfersAreClosed :
    (∃ s : State, s.initialized = true ∧ cmdAddr (isBlock s.cardType) (16 : BitVec 64).toNat = some 16 ∧
      (∃ t, exec (.readSectors 16 2) s = .next t) ∧ (readCommand 1 16 s).1.r1 ≠ 0 ∧
      (readCommand 2 16 s).1.r1 ≠ 0 ∧ (writeCommand 1 16 s).1.r1 ≠ 0 ∧ (writeCommand 2 16 s).1.r1 ≠ 0) ∧
    (∃ s : State, (readCommand 2 16 s).1.r1 = 0 ∧ (∃ t, exec (.writeSectors 16 2) s = .next t) ∧
      (writeCommand 1 16 s).1.r1 = 0 ∧ (writeCommand 2 16 s).1.r1 = 0 ∧
      (waitReady (writeBlocks 2 0 (writeCommand 2 16 s).2).2).1 = true) ∧
    ∃ s : State, (writeCommand 2 16 s).1.r1 = 0 ∧
      (waitReady (writeBlocks 2 0 (writeCommand 2 16 s).2).2).1 = false := by
  refine ⟨⟨session 0b1001 (rep 8 4), rfl, by decide, ⟨_, rfl⟩, ?_, ?_, ?_, ?_⟩,
    ⟨{ session 0b1001 ((promptReply 0 0).bytes ++ rep 3 0 ++ [0xFF]) with
      params := { defaultParams with readyWaitSteps := 3 } }, ?_, ⟨_, rfl⟩, ?_, ?_, ?_⟩,
    ⟨{ session 0b1001 ((promptReply 0 0).bytes ++ rep 6 0) with
      params := { defaultParams with readyWaitSteps := 3 } }, ?_, ?_⟩⟩ <;> decide +kernel

/-- The first block rejected (data response 0x0B) or never awaited, of one sector and of two. -/
theorem witness_AcceptedTransfersAreClosed_untaken : ∃ s1 s2 : State,
    ((Untaken.rejected (taken 0x0B)).Heard s1.params.readyWaitSteps ∧ (writeCommand 1 16 s1).1.r1 = 0 ∧
      (writeCommand 1 16 s1).2.answers =
        ([] : List Taken).flatMap Taken.bytes ++ ((Untaken.rejected (taken 0x0B)).bytes ++ []) ∧
      (writeCommand 2 16 s1).1.r1 = 0 ∧ (writeCommand 2 16 s1).2.answers =
        ([] : List Taken).flatMap Taken.bytes ++ ((Untaken.rejected (taken 0x0B)).bytes ++ [])) ∧
    ((Untaken.busy [0, 0, 0]).Heard s2.params.readyWaitSteps ∧ (writeCommand 1 16 s2).1.r1 = 0 ∧
      (writeCommand 1 16 s2).2.answers =
        ([] : List Taken).flatMap Taken.bytes ++ ((Untaken.busy [0, 0, 0]).bytes ++ [])) := by
  refine ⟨{ session 0b1001 ((promptReply 0 0).bytes ++ (taken 0x0B).bytes) with
      params := { defaultParams with readyWaitSteps := 3 } },
    { session 0b1001 ((promptReply 0 0).bytes ++ rep 3 0) with
      params := { defaultParams with readyWaitSteps := 3 } },
    ⟨⟨taken_heard _, by decide⟩, ?_, ?_, ?_, ?_⟩, ⟨by decide, rfl⟩, ?_, ?_⟩ <;> decide +kernel

theorem witness_BlockOperationFrame : isGated (.readSectors 0 1) = true ∧ isGated .sync = true ∧
    (∃ t, exec (.readSectors 0 1) State.reset = .next t) ∧ ∃ t, exec .sync (session 0b1100 [0xFF]) = .next t :=
  ⟨rfl, rfl, ⟨_, rfl⟩, ⟨_, rfl⟩⟩

theorem witness_BusyCardHazard : ∃ s : State, s.initialized = true ∧ (256 : Nat) ≠ 0 ∧ 0 < s.params.maxWaitBytes ∧
    0 < s.params.tokenWaitSteps ∧ cmdAddr (isBlock s.cardType) (0x100 : BitVec 64).toNat = some 0x100 ∧
    cmdAddr (isBlock s.cardType) ((0x100 : BitVec 64).toNat + 256 - 1) = some 0x1FF ∧
    s.answers = List.replicate 21 0x00 ++ [] :=
  ⟨session 0b1100 _, rfl, by decide, by decide, by decide, by decide, by decide, rfl⟩

/-- The reset state, and a session as BEGIN leaves it (P1). -/
theorem witness_StepKeepsIdleState : State.reset.Inv ∧ (∃ t, step State.reset = .next t) ∧ ∃ s : State, s.Inv ∧
    s.initialized = true ∧ s.requests = [encode 0 .endOp] ∧ ∃ t, step s = .next t := by
  refine ⟨⟨rfl, rfl, .inl rfl, .inl rfl, nofun, nofun, fun _ => ⟨rfl, rfl, rfl⟩, .inl rfl, nofun, .inl rfl, rfl⟩,
    ⟨_, rfl⟩, { State.reset with
      initialized := true, cardType := 0b1100, sectorCount := 62521344, csd := csdSample, cid := cidSample,
      initState := .done, pathV2 := true, pollCmd := 0xA9, pollArg := 0x40000000, clockHz := 20000000,
      requests := [encode 0 .endOp] }, ?_, rfl, rfl, ⟨_, rfl⟩⟩
  refine ⟨rfl, rfl, .inr (.inr (.inr (.inr rfl))), .inr (.inl rfl), fun _ => rfl, fun _ => ?_,
    fun h => absurd rfl h, .inr (.inl rfl), fun _ => ⟨rfl, rfl⟩, .inr rfl, rfl⟩
  decide +kernel

theorem witness_OnlyTheGateReadsTheFlag : isGated (.cmd0 0) = false ∧ ∃ t, exec (.cmd0 0) State.reset = .next t :=
  ⟨rfl, ⟨_, rfl⟩⟩

end Sys2Proof.Tests
end

section
/-!
Proofs of the family `00_scope.md`: a step runs the oldest request (R7, R12), and every instruction ends
(R13, R15).
-/

/-! ### Decoding what the encoder writes -/

namespace Sys2Proof
open Sys2Proof.Machine Sys2Proof.Laws

/-- The round trip for all instructions at once: the family `RoundTrip`, row by row. -/
theorem decode_encode (seed : BitVec 16) {i : Instr} (h : i.wellFormed = true) :
    decode seed (encode seed i) = .ok i := by
  cases i with
  | cmd0 a => exact RoundTrip.cmd0 a seed h
  | cmd1 a => exact RoundTrip.cmd1 a seed h
  | cmd8 a => exact RoundTrip.cmd8 a seed h
  | cmd9 a => exact RoundTrip.cmd9 a seed h
  | cmd10 a => exact RoundTrip.cmd10 a seed h
  | cmd12 a => exact RoundTrip.cmd12 a seed h
  | cmd13 a => exact RoundTrip.cmd13 a seed h
  | cmd16 a => exact RoundTrip.cmd16 a seed h
  | cmd17 a => exact RoundTrip.cmd17 a seed h
  | cmd18 a => exact RoundTrip.cmd18 a seed h
  | cmd23 a => exact RoundTrip.cmd23 a seed h
  | cmd24 a => exact RoundTrip.cmd24 a seed h
  | cmd25 a => exact RoundTrip.cmd25 a seed h
  | cmd32 a => exact RoundTrip.cmd32 a seed h
  | cmd33 a => exact RoundTrip.cmd33 a seed h
  | cmd38 a => exact RoundTrip.cmd38 a seed h
  | cmd55 a => exact RoundTrip.cmd55 a seed h
  | cmd58 a => exact RoundTrip.cmd58 a seed h
  | acmd13 a => exact RoundTrip.acmd13 a seed h
  | acmd23 a => exact RoundTrip.acmd23 a seed h
  | acmd41 a => exact RoundTrip.acmd41 a seed h
  | r1 f => exact RoundTrip.r1 f seed h
  | r2 f v => exact RoundTrip.r2 f v seed h
  | r3 f v => exact RoundTrip.r3 f v seed h
  | r7 f v => exact RoundTrip.r7 f v seed h
  | tokenStart d => exact RoundTrip.tokenStart d seed h
  | tokenStartMultiWrite => exact RoundTrip.tokenStartMultiWrite seed h
  | tokenStopTran => exact RoundTrip.tokenStopTran seed h
  | dataResponseAccepted b => exact RoundTrip.dataResponseAccepted b seed h
  | dataBlock d t p => exact RoundTrip.dataBlock d t p seed h
  | beginOp f => exact RoundTrip.beginOp f seed h
  | endOp => exact RoundTrip.endOp seed h
  | readSectors a n => exact RoundTrip.readSectors a n seed h
  | writeSectors a n => exact RoundTrip.writeSectors a n seed h
  | eraseSectors a n => exact RoundTrip.eraseSectors a n seed h
  | sync => exact RoundTrip.sync seed h
  | getSectorSize => exact RoundTrip.getSectorSize seed h
  | getSectorCount => exact RoundTrip.getSectorCount seed h
  | getCid => exact RoundTrip.getCid seed h
  | getCsd => exact RoundTrip.getCsd seed h
  | crc7 d => exact RoundTrip.crc7 d seed h
  | crc16 c d => exact RoundTrip.crc16 c d seed h
  | buildFrame x a => exact RoundTrip.buildFrame x a seed h
  | parseFrame f => exact RoundTrip.parseFrame f seed h
  | sendCommand c a n => exact RoundTrip.sendCommand c a n seed h
  | sendCommandRetry c a q n d => exact RoundTrip.sendCommandRetry c a q n d seed h
  | r1Extract b => exact RoundTrip.r1Extract b seed h
  | r2Extract b v => exact RoundTrip.r2Extract b v seed h
  | r3Extract b p => exact RoundTrip.r3Extract b p seed h
  | r7Extract b p => exact RoundTrip.r7Extract b p seed h
  | waitReady => exact RoundTrip.waitReady seed h
  | receiveBlock o n => exact RoundTrip.receiveBlock o n seed h
  | transmitBlock o t => exact RoundTrip.transmitBlock o t seed h
  | field v a w => exact RoundTrip.field v a w seed h
  | csdDecode v => exact RoundTrip.csdDecode v seed h
  | cidDecode v => exact RoundTrip.cidDecode v seed h
  | reserved x => exact RoundTrip.reserved x seed h

/-- A table word is read alike under every `CRC16_SEED`. -/
theorem decode_tableItem_of_decodeTableWord {nbits w : Nat} {i : Instr} (h : decodeTableWord nbits w = some i)
    (seed : BitVec 16) : decode seed (tableItem nbits w) = .ok i := by
  rw [decode_tableItem_seed seed defaultParams.crc16Seed]
  unfold decodeTableWord at h
  split at h
  · rename_i j hj
    cases h
    exact hj
  · cases h

end Sys2Proof

namespace Sys2Proof.Machine

/-! ### The step by its oldest request -/

theorem step_of_idle {s : State} (h : s.requests = []) : step s = .next s := by
  rw [step, h]

theorem step_of_decode_ok {s : State} {item : Item} {rest : List Item} {i : Instr}
    (h : s.requests = item :: rest) (hd : decode s.params.crc16Seed item = .ok i) :
    step s = exec i { s with requests := rest } := by
  simp only [step, h, hd]

theorem step_of_decode_error {s : State} {item : Item} {rest : List Item} {e : DecodeError}
    (h : s.requests = item :: rest) (hd : decode s.params.crc16Seed item = .error e) :
    step s = .refused (.undecodable e) := by
  simp only [step, h, hd]

/-! ### What every instruction keeps of host and wire -/

/-- The host's side is as before and the wire only grew, every new exchange counted. It is what `Moved` and
`Stepped` share, without their bounds. -/
structure Extends (s t : State) : Prop where
  host : SameHost s t
  wire : ∃ new, t.trace = new ++ s.trace ∧ t.xchgCount = s.xchgCount + new.length

theorem Extends.of_grows {n : Nat} {s t : State} (h : SameHost s t) (g : Grows n s t) : Extends s t := by
  obtain ⟨new, ht, _, hc, _⟩ := g
  exact ⟨h, new, ht, hc⟩

theorem Extends.of_ran {n : Nat} {s t : State} (h : Ran n s t) : Extends s t := .of_grows h.host h.grows

theorem Extends.of_moved {n a len : Nat} {s t : State} (h : Moved n a len s t) : Extends s t :=
  .of_grows h.host h.grows

/-- Answers put before the card's own are neither parameters, requests nor exchanges. -/
theorem Extends.of_drive {s t : State} {bytes : List Byte} (h : Extends (s.drive bytes) t) : Extends s t :=
  ⟨⟨h.host.params, h.host.requests⟩, h.wire⟩

/-- Chip select and the report around a body are no exchanges. -/
theorem Extends.onBus {s : State} {f : State → Option ErrorClass × State}
    (h : Extends (s.setCs .asserted) (f (s.setCs .asserted)).2) : Extends s (onBus f s) :=
  ⟨⟨h.host.params, h.host.requests⟩, h.wire⟩

theorem Extends.beginDone {s t : State} (h : Extends s t) (frequency : Nat) :
    Extends s (beginDone frequency t) := ⟨⟨h.host.params, h.host.requests⟩, h.wire⟩

theorem Extends.beginFailed {s t : State} (h : Extends s t) (c : ErrorClass) : Extends s (beginFailed c t) :=
  ⟨⟨h.host.params, h.host.requests⟩, h.wire⟩

theorem exec_endOp_extends (s : State) : ∃ t, exec .endOp s = .next t ∧ Extends s t :=
  ⟨_, exec_endOp s, ⟨rfl, rfl⟩, [], rfl, rfl⟩

theorem beginStart_host (s : State) : SameHost s (beginStart s) := by
  obtain ⟨is, _, h⟩ := beginStart_eq s
  rw [h]
  exact ⟨rfl, rfl⟩

/-- BEGIN ends in `Done` or in `Failed`, after activity that `Stepped` describes. -/
theorem exec_beginOp_extends (frequency : Nat) (s : State) :
    ∃ t, exec (.beginOp frequency) s = .next t ∧ Extends s t := by
  obtain ⟨u, _, hst, _, hend⟩ := exec_beginOp_cases frequency s
  obtain ⟨asserted, dummy, htrace, _, _, _, _, hcount, _⟩ := beginStart_wire hst
  have hu : Extends s u :=
    ⟨(beginStart_host s).trans hst.host, asserted ++ dummy, by rw [htrace, List.append_assoc], hcount⟩
  obtain ⟨_, _, he⟩ | ⟨c, _, _, he⟩ := hend
  · exact ⟨_, he, hu.beginDone frequency⟩
  · exact ⟨_, he, hu.beginFailed c⟩

/-- A gated operation is turned away at once or runs its body on the bus. -/
theorem exec_gated_extends {i : Instr} (h : isGated i = true) (s : State) :
    ∃ t, exec i s = .next t ∧ Extends s t := by
  obtain ⟨v, c, _, _, he⟩ | ⟨_, f, hf, he⟩ := exec_gated h s.initialized s.cardType
  · exact ⟨_, he s rfl rfl, .of_ran (Ran.finish s v c)⟩
  · obtain ⟨n, hm⟩ := hf.moved (s.setCs .asserted)
    exact ⟨_, he s rfl rfl, (Extends.of_moved hm).onBus⟩

theorem exec_unit_extends {i : Instr} (h : isUnit i = true) (s : State) :
    ∃ t, exec i s = .next t ∧ Extends s t := by
  obtain ⟨t, bytes, n, a, len, he, hm, _⟩ := exec_unit_moved s h
  exact ⟨t, he, (Extends.of_moved hm).of_drive⟩

/-- Every instruction is BEGIN, END, gated, or a unit. -/
theorem exec_extends (i : Instr) (s : State) : ∃ t, exec i s = .next t ∧ Extends s t := by
  cases hg : isGated i with
  | true => exact exec_gated_extends hg s
  | false =>
    by_cases hb : ∃ f, i = .beginOp f
    · obtain ⟨f, rfl⟩ := hb
      exact exec_beginOp_extends f s
    · by_cases he : i = .endOp
      · subst he
        exact exec_endOp_extends s
      · exact exec_unit_extends (isUnit_of hg (fun f h => hb ⟨f, h⟩) he) s

end Sys2Proof.Machine

/-! ### The statements -/

open Sys2Proof Sys2Proof.Machine

/-- Settles O60: the four kinds of instruction (BEGIN, END, gated, unit) each end in a state that extends the
one before. -/
theorem everyOperationEnds : Obligations.EveryOperationEnds := by
  intro i s
  obtain ⟨t, he, hhost, new, htrace, hcount⟩ := exec_extends i s
  exact ⟨t, new, he, hhost, htrace, hcount⟩

/-- Settles O4: by the three equations of `step` at the state that holds `p`, and the round trip of the encoder. -/
theorem stepRunsOldestRequest : Obligations.StepRunsOldestRequest := by
  refine ⟨fun p i rest s hw hr => ?_, fun p item rest e s hr hd => ?_, fun p s hr => ?_, step_eq_stepWith⟩
  · exact step_of_decode_ok (s := { s with params := p }) hr (decode_encode p.crc16Seed hw)
  · exact step_of_decode_error (s := { s with params := p }) hr hd
  · exact step_of_idle (s := { s with params := p }) hr

/-- Settles O5: `withFetchWord` puts the word in front of the requests, and its reading does not depend on the
state's `CRC16_SEED`. -/
theorem fetchedWordRuns : Obligations.FetchedWordRuns := by
  intro nbits w i s h
  exact step_of_decode_ok (State.withFetchWord_requests s nbits w)
    (decode_tableItem_of_decodeTableWord h s.params.crc16Seed)
end

section
/-!
Proofs of the family `10_state.md`: the reset values (R44, R400), and the invariant of an idle engine, which
holds after reset and which every step keeps (R24-R33, R265, R266).
-/

namespace Sys2Proof.Machine

/-! ### Reset -/

/-- The engine is idle after reset: released, in `Reset`, with no card and nothing exchanged (R44). -/
theorem State.resetWith_inv (p : Params) : (State.resetWith p).Inv where
  buf := rfl
  cs := rfl
  cardType := .inl rfl
  initState := .inl rfl
  initialized := nofun
  done := nofun
  notDone _ := ⟨rfl, rfl, rfl⟩
  pollCmd := .inl rfl
  pathV2 := nofun
  pathLegacy := .inl rfl
  exchanged := rfl

/-! ### What the invariant needs of an instruction -/

/-- Every instruction only extends the wire, so exchanges stay counted (`20_memory.md` R55). -/
theorem exec_exchanged {i : Instr} {s t : State} (h : s.trace.length = s.xchgCount) (he : exec i s = .next t) :
    t.trace.length = t.xchgCount := by
  obtain ⟨u, hu, _, new, htrace, hcount⟩ := exec_extends i s
  cases he.symm.trans hu
  rw [htrace, hcount, List.length_append, h, Nat.add_comm]

/-- The invariant reads the parameters, the session and the control registers, the form of the block buffer and
the exchange count, and no other part of the state. -/
theorem State.Inv.of_frame {s t : State} (h : s.Inv) (hparams : t.params = s.params) (hsession : SameSession s t)
    (hcontrol : SameControl s t) (hbuf : t.buf.wf = true) (hcount : t.trace.length = t.xchgCount) : t.Inv where
  buf := hbuf
  cs := hcontrol.cs.trans h.cs
  cardType := hsession.cardType ▸ h.cardType
  initState := hcontrol.initState ▸ h.initState
  initialized := by rw [hsession.initialized, hcontrol.initState]; exact h.initialized
  done := by
    rw [hcontrol.initState, hsession.cardType, hparams, hsession.csd, hsession.sectorCount, hcontrol.clockHz]
    exact h.done
  notDone := by
    rw [hcontrol.initState, hsession.cardType, hsession.sectorCount, hcontrol.clockHz, hparams]
    exact h.notDone
  pollCmd := hcontrol.pollCmd ▸ h.pollCmd
  pathV2 := by rw [hcontrol.pathV2, hcontrol.pollCmd, hcontrol.pollArg]; exact h.pathV2
  pathLegacy := hcontrol.pollArg ▸ h.pathLegacy
  exchanged := hcount

/-- The host's requests are no part of the invariant. -/
theorem State.Inv.withRequests {s : State} (h : s.Inv) (requests : List Item) :
    State.Inv { s with requests := requests } :=
  ⟨h.buf, h.cs, h.cardType, h.initState, h.initialized, h.done, h.notDone, h.pollCmd, h.pathV2, h.pathLegacy,
    h.exchanged⟩

/-- The card's answers are no part of the invariant. -/
theorem State.Inv.drive {s : State} (h : s.Inv) (bytes : List Byte) : (s.drive bytes).Inv :=
  ⟨h.buf, h.cs, h.cardType, h.initState, h.initialized, h.done, h.notDone, h.pollCmd, h.pathV2, h.pathLegacy,
    h.exchanged⟩

/-- A bring-up that begins in an idle engine finds path and poll registers in order. -/
theorem State.Inv.onPath {s : State} (h : s.Inv) : OnPath s := ⟨h.pollCmd, h.pathV2, h.pathLegacy⟩

/-! ### Units and gated operations -/

/-- A unit writes transient storage, the wire and a region of the block buffer. -/
theorem exec_unit_inv {i : Instr} (hi : isUnit i = true) {s t : State} (h : s.Inv) (he : exec i s = .next t) :
    t.Inv := by
  obtain ⟨u, bytes, n, a, len, hu, hm, _⟩ := exec_unit_moved s hi
  cases he.symm.trans hu
  exact (h.drive bytes).of_frame hm.host.params hm.session hm.control (hm.wf h.buf) (exec_exchanged h.exchanged he)

/-- A gated operation is turned away at once, or asserts chip select around its body and releases it (R33). -/
theorem exec_gated_inv {i : Instr} (hi : isGated i = true) {s t : State} (h : s.Inv) (he : exec i s = .next t) :
    t.Inv := by
  have hcount := exec_exchanged h.exchanged he
  obtain ⟨v, c, _, _, hend⟩ | ⟨_, f, hf, hbus⟩ := exec_gated hi s.initialized s.cardType
  · cases he.symm.trans (hend s rfl rfl)
    have hr := Ran.finish s v c
    exact h.of_frame hr.host.params hr.session hr.control h.buf hcount
  · cases he.symm.trans (hbus s rfl rfl)
    obtain ⟨n, hm⟩ := hf.moved (s.setCs .asserted)
    exact h.of_frame hm.host.params { hm.session with } { hm.control with cs := h.cs.symm } (hm.wf h.buf) hcount

/-! ### END and BEGIN -/

/-- END clears the flag and releases chip select (`44_init_fsm.md` R270). -/
theorem exec_endOp_inv {s t : State} (h : s.Inv) (he : exec .endOp s = .next t) : t.Inv := by
  cases he.symm.trans (exec_endOp s)
  exact ⟨h.buf, rfl, h.cardType, h.initState, nofun, h.done, h.notDone, h.pollCmd, h.pathV2, h.pathLegacy,
    h.exchanged⟩

theorem usableCardType.legal {v : BitVec 4} (h : usableCardType v) : legalCardType v := .inr h

theorem usableCardType.ne_zero {v : BitVec 4} (h : usableCardType v) : v ≠ 0 := by
  rintro rfl
  revert h
  simp [usableCardType]

/-- State `Done` (`44_init_fsm.md` R265): flag, capacity and clock are set from what the bring-up found. -/
theorem beginDone_inv {u : State} (frequency : Nat) (hbuf : u.buf.wf = true) (hstate : u.initState = .done)
    (hfound : Found u) (hpath : OnPath u) (hcount : u.trace.length = u.xchgCount) : (beginDone frequency u).Inv := by
  obtain ⟨hcard, hsize⟩ := hfound.done hstate
  exact {
    buf := hbuf
    cs := rfl
    cardType := hcard.legal
    initState := .inr (.inl hstate)
    initialized := fun _ => hstate
    done := fun _ => ⟨hcard.ne_zero, hsize, by rw [← Nat.shiftRight_eq_div_pow _ 9]; rfl, Nat.min_le_right _ _⟩
    notDone := fun hne => absurd hstate hne
    pollCmd := hpath.poll
    pathV2 := hpath.v2
    pathLegacy := hpath.arg
    exchanged := hcount }

/-- State `Failed` (`44_init_fsm.md` R266): no card, and the clock still that of the bring-up. -/
theorem beginFailed_inv {u : State} (c : ErrorClass) (hbuf : u.buf.wf = true) (hstate : u.initState = .failed)
    (hclock : u.clockHz = u.params.fInitHz) (hpath : OnPath u) (hcount : u.trace.length = u.xchgCount) :
    (beginFailed c u).Inv where
  buf := hbuf
  cs := rfl
  cardType := .inl rfl
  initState := .inr (.inr hstate)
  initialized := nofun
  done hdone := nomatch hstate.symm.trans hdone
  notDone _ := ⟨rfl, rfl, hclock⟩
  pollCmd := hpath.poll
  pathV2 := hpath.v2
  pathLegacy := hpath.arg
  exchanged := hcount

theorem beginStart_buf (s : State) : (beginStart s).buf = s.buf := by
  obtain ⟨_, _, h⟩ := beginStart_eq s
  rw [h]
  rfl

/-- The clock of the bring-up (`44_init_fsm.md` R233). -/
theorem beginStart_clockHz (s : State) : (beginStart s).clockHz = s.params.fInitHz := by
  obtain ⟨_, _, h⟩ := beginStart_eq s
  rw [h]
  rfl

/-- BEGIN ends in `Done` or in `Failed`. -/
theorem exec_beginOp_inv {frequency : Nat} {s t : State} (h : s.Inv) (he : exec (.beginOp frequency) s = .next t) :
    t.Inv := by
  have hcount := exec_exchanged h.exchanged he
  obtain ⟨u, _, hrun, hpath, hend⟩ := exec_beginOp_cases frequency s
  have hbuf : u.buf.wf = true := by rw [hrun.buf, beginStart_buf]; exact h.buf
  obtain ⟨hstate, hfound, hu⟩ | ⟨c, hstate, _, hu⟩ := hend
  · cases he.symm.trans hu
    exact beginDone_inv frequency hbuf hstate hfound (hpath h.onPath) hcount
  · cases he.symm.trans hu
    have hclock : u.clockHz = u.params.fInitHz := by
      rw [hrun.clockHz, beginStart_clockHz, hrun.host.params, (beginStart_host s).params]
    exact beginFailed_inv c hbuf hstate hclock (hpath h.onPath) hcount

/-! ### Every instruction and every step -/

/-- Every instruction is BEGIN, END, gated, or a unit. -/
theorem exec_inv {i : Instr} {s t : State} (h : s.Inv) (he : exec i s = .next t) : t.Inv := by
  cases hg : isGated i with
  | true => exact exec_gated_inv hg h he
  | false =>
    by_cases hb : ∃ f, i = .beginOp f
    · obtain ⟨f, rfl⟩ := hb
      exact exec_beginOp_inv h he
    · by_cases hend : i = .endOp
      · subst hend
        exact exec_endOp_inv h he
      · exact exec_unit_inv (isUnit_of hg (fun f hf => hb ⟨f, hf⟩) hend) h he

/-- A step is idle, refuses, or runs one instruction. -/
theorem step_inv {s t : State} (h : s.Inv) (hs : step s = .next t) : t.Inv := by
  cases hr : s.requests with
  | nil =>
    cases hs.symm.trans (step_of_idle hr)
    exact h
  | cons item rest =>
    cases hd : decode s.params.crc16Seed item with
    | ok i =>
      rw [step_of_decode_ok hr hd] at hs
      exact exec_inv (h.withRequests rest) hs
    | error e => cases hs.symm.trans (step_of_decode_error hr hd)

end Sys2Proof.Machine

/-! ### The statements -/

open Sys2Proof Sys2Proof.Machine

/-- Settles O57: an idle step changes nothing, and each of the four kinds of instruction (BEGIN, END, gated,
unit) keeps the invariant. -/
theorem stepKeepsIdleState : Obligations.StepKeepsIdleState := fun _ _ h hs => step_inv h hs

/-- Settles O55: the table of R44, register by register, is how `State.resetWith` is written. -/
theorem resetValues : Obligations.ResetValues := by
  refine ⟨fun p s hs => ?_, rfl⟩
  subst hs
  exact ⟨rfl, rfl, rfl, rfl, rfl, rfl, rfl, rfl, rfl, rfl, rfl, rfl, rfl, rfl⟩

/-- Settles O56: reset at the default parameters is a case of reset at any. -/
theorem resetIsIdle : Obligations.ResetIsIdle := ⟨State.resetWith_inv defaultParams, State.resetWith_inv⟩
end

section
/-!
Proofs of the family `20_memory.md`: the argument of a sector address, and which addresses have one (R63, R64).
-/

namespace Sys2Proof.Machine

/-- Where an address is given an argument, no bit is lost (`20_memory.md` R63, R64). -/
theorem cmdAddr_eq_some {block : Bool} {a : Nat} {v : BitVec 32} :
    cmdAddr block a = some v ↔ v.toNat = (if block = true then a else a * 512) := by
  have hv := v.isLt
  unfold cmdAddr
  rw [Nat.shiftLeft_eq, show 2 ^ sectorShift = 512 from rfl]
  generalize (if block = true then a else a * 512) = n
  by_cases hn : n < 2 ^ 32
  · rw [if_pos hn, Option.some_inj, BitVec.toNat_eq, BitVec.toNat_ofNat, Nat.mod_eq_of_lt hn]
    exact eq_comm
  · rw [if_neg hn]
    exact ⟨nofun, fun h => absurd (h ▸ hv) hn⟩

end Sys2Proof.Machine

/-! ### The statement -/

open Sys2Proof Sys2Proof.Machine

/-- Settles O46: which argument an address has and when it has none, each said once for both kinds of card. -/
theorem addressConversion : Obligations.AddressConversion :=
  ⟨fun _ _ => cmdAddr_eq_some, fun _ _ => cmdAddr_eq_some, fun _ => ⟨cmdAddr_eq_none, cmdAddr_eq_none⟩⟩
end

section
/-!
Proofs of the family `30_encoding.md`: decoder and encoder as inverses (R80, R118, R124), the command frame
(R81-R85), refused operands (R121, R122, R366), and the items on the wire (R100-R113).
-/

/-! ### What each format's decoder accepts -/

namespace Sys2Proof
open Sys2Proof.Machine

/-- Format CF: one frame, or the frame of CMD55(0) and a second one (R81, R92). -/
theorem decodeCommand_ok {seed : BitVec 16} {bytes : List Byte} {i : Instr} (h : decodeCommand bytes = .ok i) :
    i.wellFormed = true ∧ encode seed i = ⟨.cf, bytes⟩ := by
  unfold decodeCommand at h
  split at h
  · split at h
    · next index argument hframe =>
      rw [← decodeFrame_ok hframe]
      exact plainCommand_ok h
    · cases h
  · split at h
    · next pre index argument hpre hframe =>
      split at h
      · next hprefix =>
        have hp := decodeFrame_ok hpre
        have hf := decodeFrame_ok hframe
        rw [hprefix] at hp
        rw [← List.take_append_drop 6 bytes, ← hp, ← hf]
        exact appCommand_ok h
      · cases h
    · cases h
    · cases h

/-- Format R1 (R101). -/
theorem decodeR1_ok {seed : BitVec 16} {bytes : List Byte} {i : Instr} (h : decodeR1 bytes = .ok i) :
    i.wellFormed = true ∧ encode seed i = ⟨.r1, bytes⟩ := by
  unfold decodeR1 at h
  split at h
  · split at h
    · next b hb =>
      cases h
      exact ⟨rfl, by rw [encode, responseByte_slice b hb]⟩
    · cases h
  · cases h

/-- Format R2 (R103). -/
theorem decodeR2_ok {seed : BitVec 16} {bytes : List Byte} {i : Instr} (h : decodeR2 bytes = .ok i) :
    i.wellFormed = true ∧ encode seed i = ⟨.r2, bytes⟩ := by
  unfold decodeR2 at h
  split at h
  · split at h
    · next b status hb =>
      cases h
      exact ⟨rfl, by rw [encode, responseByte_slice b hb]⟩
    · cases h
  · cases h

/-- A 32-bit operand read from four bytes is written back as these bytes. -/
theorem beBytes_ofNat_fromBe {bytes : List Byte} (h : bytes.length = 4) :
    beBytes 4 (BitVec.ofNat 32 (fromBe bytes)).toNat = bytes := by
  have hlt := fromBe_lt bytes
  have hb := beBytes_fromBe bytes
  rw [h] at hlt hb
  rw [BitVec.toNat_ofNat, Nat.mod_eq_of_lt (by simpa using hlt), hb]

/-- Format R3 (R104). -/
theorem decodeR3_ok {seed : BitVec 16} {bytes : List Byte} {i : Instr} (h : decodeR3 bytes = .ok i) :
    i.wellFormed = true ∧ encode seed i = ⟨.r3, bytes⟩ := by
  unfold decodeR3 at h
  split at h
  · split at h
    · cases h
    · next hl =>
      split at h
      · next b _ hb =>
        cases h
        exact ⟨rfl, by rw [encode, responseByte_slice b hb, beBytes_ofNat_fromBe (not_not.1 hl)]⟩
      · cases h
  · cases h

/-- Format R7 (R105). -/
theorem decodeR7_ok {seed : BitVec 16} {bytes : List Byte} {i : Instr} (h : decodeR7 bytes = .ok i) :
    i.wellFormed = true ∧ encode seed i = ⟨.r7, bytes⟩ := by
  unfold decodeR7 at h
  split at h
  · split at h
    · cases h
    · next hl =>
      split at h
      · next b _ hb =>
        cases h
        exact ⟨rfl, by rw [encode, responseByte_slice b hb, beBytes_ofNat_fromBe (not_not.1 hl)]⟩
      · cases h
  · cases h

/-- Format DT (R110). -/
theorem decodeToken_ok {seed : BitVec 16} {dir : Direction} {bytes : List Byte} {i : Instr}
    (h : decodeToken dir bytes = .ok i) : i.wellFormed = true ∧ encode seed i = ⟨.dt dir, bytes⟩ := by
  unfold decodeToken at h
  split at h
  · split at h
    · next b hb => cases h; exact ⟨rfl, by rw [hb, encode]⟩
    · cases h
  · split at h
    · next b hb => cases h; exact ⟨rfl, by rw [hb, encode]⟩
    · split at h
      · next b _ hb => cases h; exact ⟨rfl, by rw [hb, encode]⟩
      · split at h
        · next b _ _ hb => cases h; exact ⟨rfl, by rw [hb, encode]⟩
        · cases h
  · cases h

/-- Format DB (R112): the last two bytes are the CRC16 of those between the token and them. -/
theorem decodeBlock_ok {seed : BitVec 16} {dir : Direction} {bytes : List Byte} {i : Instr}
    (h : decodeBlock seed dir bytes = .ok i) : i.wellFormed = true ∧ encode seed i = ⟨.db dir, bytes⟩ := by
  unfold decodeBlock at h
  split at h
  · split at h
    · cases h
    · split at h
      · cases h
      · next htrailer =>
        split at h
        · next hshape =>
          cases h
          exact ⟨hshape, by rw [encode, ← not_not.1 htrailer, List.take_append_drop]⟩
        · cases h
  · cases h

/-- Format DR (R113). -/
theorem decodeDataResponse_ok {seed : BitVec 16} {bytes : List Byte} {i : Instr}
    (h : decodeDataResponse bytes = .ok i) : i.wellFormed = true ∧ encode seed i = ⟨.dr, bytes⟩ := by
  unfold decodeDataResponse at h
  split at h
  · split at h
    · next b hb =>
      cases h
      exact ⟨rfl, by rw [encode, acceptedByte_slice b hb]⟩
    · cases h
  · cases h

/-- Format OP (R118). -/
theorem decodeOp_ok {seed : BitVec 16} {bytes : List Byte} {i : Instr} (h : decodeOp bytes = .ok i) :
    i.wellFormed = true ∧ encode seed i = ⟨.op, bytes⟩ := by
  unfold decodeOp at h
  split at h
  · next b operands =>
    obtain ⟨hw, he⟩ := decodeSelect_ok (seed := seed) b.isLt h
    exact ⟨hw, by rw [he, opItem, BitVec.ofNat_toNat, BitVec.setWidth_eq]⟩
  · cases h

/-- The converse of `decode_encode`, format by format (R80). -/
theorem decode_ok {seed : BitVec 16} {item : Item} {i : Instr} (h : decode seed item = .ok i) :
    i.wellFormed = true ∧ encode seed i = item := by
  obtain ⟨format, bytes⟩ := item
  cases format with
  | cf => exact decodeCommand_ok h
  | r1 => exact decodeR1_ok h
  | r2 => exact decodeR2_ok h
  | r3 => exact decodeR3_ok h
  | r7 => exact decodeR7_ok h
  | dt dir => exact decodeToken_ok h
  | db dir => exact decodeBlock_ok h
  | dr => exact decodeDataResponse_ok h
  | op => exact decodeOp_ok h

end Sys2Proof

namespace Sys2Proof.Machine

/-! ### The command frame -/

/-- What the four checks of `41_command_framer.md` R152 leave of a frame that passes them. -/
theorem parseFrame_ok {f : BitVec 48} {index : BitVec 6} {argument : BitVec 32}
    (h : parseFrame f = .ok index argument) :
    f.getLsbD 47 = false ∧ f.getLsbD 46 = true ∧ f.getLsbD 0 = true ∧
      crc7 ((frameBytes f).take 5) = slice f 1 7 ∧ slice f 40 6 = index ∧ slice f 8 32 = argument := by
  unfold parseFrame at h
  split at h
  · cases h
  · next hstart =>
    split at h
    · cases h
    · next htransmission =>
      split at h
      · cases h
      · next hstop =>
        split at h
        · cases h
        · next hcrc =>
          obtain ⟨hindex, hargument⟩ := ParseOutcome.ok.inj h
          exact ⟨Bool.not_eq_true _ ▸ hstart, by simpa using htransmission, by simpa using hstop,
            not_not.1 hcrc, hindex, hargument⟩

/-- An argument in wire order, most significant byte first (R81). -/
theorem beBytes_four (v : BitVec 32) : beBytes 4 v.toNat = [slice v 24 8, slice v 16 8, slice v 8 8, slice v 0 8] := by
  simp only [beBytes, List.cons.injEq, and_true]
  refine ⟨?_, ?_, ?_, ?_⟩ <;>
  · apply BitVec.eq_of_toNat_eq
    rw [slice_eq_of_toNat, BitVec.toNat_ofNat]
    norm_num

/-- The six bytes of a built frame (R81-R85). -/
theorem frameBytes_buildFrame_eq (index : BitVec 6) (argument : BitVec 32) :
    frameBytes (buildFrame index argument) = [0x40 ||| index.zeroExtend 8, slice argument 24 8,
      slice argument 16 8, slice argument 8 8, slice argument 0 8,
      (crc7 ((frameBytes (buildFrame index argument)).take 5)).zeroExtend 8 <<< 1 ||| 1] := by
  rw [frameBytes_buildFrame, List.take_left' (by simp [frameBody]), crcByte]
  generalize crc7 (frameBody index argument) = c
  rw [frameBody, beBytes_four, startByte]
  rfl

/-- The CRC7 field of a built frame (R83, R84). -/
theorem crc7_frameBody (index : BitVec 6) (argument : BitVec 32) :
    crc7 (frameBody index argument) = slice (buildFrame index argument) 1 7 := by
  obtain ⟨_, _, _, hcrc, _, _⟩ := parseFrame_ok (parseFrame_buildFrame index argument)
  rwa [frameBytes_buildFrame, List.take_left' (by simp [frameBody])] at hcrc

/-- BUILD_FRAME leaves the frame, its CRC7 (log 20) and the report. -/
theorem exec_buildFrame_eq (index : BitVec 6) (argument : BitVec 32) (s : State) :
    exec (.buildFrame index argument) s = .next
      { s with
        frame := buildFrame index argument
        crc7acc := slice (buildFrame index argument) 1 7
        result := .frame (buildFrame index argument)
        error := none } := by
  have hstate : ∀ (f : BitVec 48) (c : BitVec 7), ((s.setCrc7 c).setFrame f).finish (.frame f) none =
      { s with frame := f, crc7acc := c, result := .frame f, error := none } := fun _ _ => rfl
  rw [exec_buildFrame, loadFrame_eq, crc7_frameBody, hstate]

/-! ### Refused operands are refused -/

theorem exec_sendCommand_refused {cmd : Byte} (h6 : cmd.getLsbD 6 = true) (argument : BitVec 32) (n : Nat)
    (s : State) : exec (.sendCommand cmd argument n) s = .next s.refuse := by
  rw [exec_of_commandOf rfl, sendCommand_refused h6]
  rfl

theorem exec_sendCommandRetry_refused {cmd : Byte} (h6 : cmd.getLsbD 6 = true) {maxAttempts : Nat}
    (hn : maxAttempts ≠ 0) (argument : BitVec 32) (required : Byte) (delayUs : Nat) (s : State) :
    exec (.sendCommandRetry cmd argument required maxAttempts delayUs) s = .next s.refuse := by
  rw [exec_sendCommandRetry, sendCommandRetry, if_pos ⟨h6, hn⟩]
  rfl

theorem exec_field_refused {start width : Nat} (h : width = 0 ∨ 128 < start + width) (value : BitVec 128)
    (s : State) : exec (.field value start width) s = .next s.refuse := by
  rw [exec_field, fieldOf, if_pos h]

/-- `Refused` changes nothing but the report (R366). -/
theorem exec_refuses {i : Instr} {s : State} (h : RefusesOperands i s) : exec i s = .next s.refuse := by
  obtain ⟨select, rfl⟩ | ⟨cmd, argument, n, rfl, h6⟩ | ⟨cmd, argument, required, maxAttempts, delayUs, rfl, h6, hn⟩ |
    ⟨value, start, width, rfl, hw⟩ | ⟨address, count, hi, hinit, hn, ha⟩ | ⟨address, count, rfl, hinit, hn, ha⟩ := h
  · exact exec_reserved s select
  · exact exec_sendCommand_refused h6 argument n s
  · exact exec_sendCommandRetry_refused h6 hn argument required delayUs s
  · exact exec_field_refused hw value s
  · have hc := cmdAddr_eq_none.2 ha
    obtain rfl | rfl := hi
    · exact exec_readSectors_refused hinit hn hc
    · exact exec_writeSectors_refused hinit hn hc
  · exact exec_eraseSectors_refused hinit hn (.inr (cmdAddr_eq_none.2 ha))

/-! ### No other instruction reports class `refused` -/

/-- A command is refused for bit 6 of its code, which no row of R95 has. -/
theorem command_reports_refused {i : Instr} {x : Byte × BitVec 32 × Nat} (hc : commandOf i = some x) {s t : State}
    (he : exec i s = .next t) (hr : t.error = some .refused) : RefusesOperands i s := by
  obtain ⟨cmd, argument, n⟩ := x
  cases h6 : cmd.getLsbD 6 with
  | false =>
    rw [exec_of_commandOf hc] at he
    have hcls : (sendCommand cmd argument n s).1.cls ≠ some .refused := fun h =>
      (sendCommand_cls h6 h).ne_refused rfl
    cases he
    rw [finishCommand_eq hcls] at hr
    exact absurd hr hcls
  | true =>
    cases i with
    | sendCommand c a m =>
      obtain ⟨rfl, rfl, rfl⟩ : c = cmd ∧ a = argument ∧ m = n := by simpa [commandOf] using hc
      exact .inr (.inl ⟨c, a, m, rfl, h6⟩)
    | _ => simp only [commandOf, reduceCtorEq, Option.some.injEq, Prod.mk.injEq] at hc <;>
        (obtain ⟨rfl, _, _⟩ := hc; cases h6)

/-- Without an attempt nothing is refused (log 14). -/
theorem retry_reports_refused {cmd : Byte} {argument : BitVec 32} {required : Byte} {maxAttempts delayUs : Nat}
    {s t : State} (he : exec (.sendCommandRetry cmd argument required maxAttempts delayUs) s = .next t)
    (hr : t.error = some .refused) : cmd.getLsbD 6 = true ∧ maxAttempts ≠ 0 := by
  by_contra hn
  have hcls : (sendCommandRetry cmd argument required maxAttempts delayUs s).1.cls ≠ some .refused := by
    intro h
    cases h6 : cmd.getLsbD 6 with
    | false => exact (sendCommandRetry_cls h6 h).ne_refused rfl
    | true =>
      obtain rfl : maxAttempts = 0 := by simpa [-BitVec.getLsbD_eq_getElem, h6] using hn
      simp [sendCommandRetry, retryFrom] at h
  rw [exec_sendCommandRetry, finishRetry, if_neg hcls] at he
  cases he
  exact hcls hr

theorem finishBool_error_ne {r : Option ErrorClass × State} (h : ∀ c, r.1 = some c → BusClass c) :
    (finishBool r).error ≠ some .refused := fun he => (h _ he).ne_refused rfl

/-- Whatever the card answers, a response item ends in class (a) or without a class. -/
theorem readResponse_error_ne (n : Nat) (make : Byte → List Byte → Result) (s : State) :
    (readResponse n make s).error ≠ some .refused := by
  unfold readResponse
  split <;> simp

theorem receiveToken_error_ne (s : State) : (receiveToken s).error ≠ some .refused := by
  unfold receiveToken
  split
  · simp
  · simp only [State.finish_error]
    split <;> simp

theorem responseItem_error_ne {i : Instr} (hi : isResponseItem i = true) {s t : State} (he : exec i s = .next t) :
    t.error ≠ some .refused := by
  cases i with
  | r1 flags =>
    rw [exec_r1] at he
    cases he
    split <;> simp
  | r2 flags status => cases he; exact readResponse_error_ne _ _ _
  | r3 flags ocr => cases he; exact readResponse_error_ne _ _ _
  | r7 flags value => cases he; exact readResponse_error_ne _ _ _
  | _ => cases hi

theorem dataUnit_error_ne {i : Instr} (hi : isDataUnit i = true) {s t : State} (he : exec i s = .next t) :
    t.error ≠ some .refused := by
  cases i with
  | waitReady =>
    cases he
    refine finishBool_error_ne fun c h => ?_
    simp only at h
    split at h <;> cases h
    exact .timeout
  | receiveBlock o n => cases he; exact finishBool_error_ne fun c h => receiveBlock_cls h
  | transmitBlock o token => cases he; exact finishBool_error_ne fun c h => transmitBlock_cls h
  | tokenStart dir =>
    cases dir with
    | fromCard => cases he; exact receiveToken_error_ne _
    | toCard => cases he; exact finishBool_error_ne fun c h => sendToken_cls h
  | tokenStartMultiWrite => cases he; exact finishBool_error_ne fun c h => sendToken_cls h
  | tokenStopTran => cases he; exact finishBool_error_ne fun c h => transmitFrame_cls h
  | dataResponseAccepted ignored =>
    cases he
    refine finishBool_error_ne fun c h => ?_
    simp only at h
    split at h <;> cases h
    exact .rejection
  | dataBlock dir token payload =>
    cases dir with
    | fromCard => cases he; exact finishBool_error_ne fun c h => receiveBlock_cls h
    | toCard => cases he; exact finishBool_error_ne fun c h => transmitFrame_cls h
  | _ => cases hi

theorem beginOp_error_ne {frequency : Nat} {s t : State} (he : exec (.beginOp frequency) s = .next t) :
    t.error ≠ some .refused := by
  obtain ⟨u, _, _, _, hend⟩ := exec_beginOp_cases frequency s
  obtain ⟨_, _, hu⟩ | ⟨c, _, hclass, hu⟩ := hend
  · cases he.symm.trans hu
    simp [beginDone]
  · cases he.symm.trans hu
    obtain hbus | ⟨rfl, _⟩ := hclass
    · simpa [beginFailed] using hbus.ne_refused
    · simp [beginFailed]

theorem parseFrame_error_ne (f : BitVec 48) : parseClass (parseFrame f) ≠ some .refused := by
  cases parseFrame f <;> simp [parseClass]

/-- A gated operation that reports `refused` has passed the gate and the test for an empty request (R371). -/
theorem gated_reports_refused {s u : State} {n : Nat}
    (hr : (gated s (if n = 0 then s.finish (.bool false) none else u)).error = some .refused) :
    s.initialized = true ∧ n ≠ 0 ∧ u.error = some .refused := by
  unfold gated at hr
  split at hr
  · next hinit =>
    split at hr
    · cases hr
    · next hn => exact ⟨hinit, hn, hr⟩
  · cases hr

theorem readSectors_reports_refused {address : BitVec 64} {count : Nat} {s t : State}
    (he : exec (.readSectors address count) s = .next t) (hr : t.error = some .refused) :
    s.initialized = true ∧ count ≠ 0 ∧ cmdAddr (isBlock s.cardType) address.toNat = none := by
  rw [exec_readSectors, readOperation] at he
  cases he
  obtain ⟨hinit, hn, hu⟩ := gated_reports_refused hr
  refine ⟨hinit, hn, ?_⟩
  split at hu
  · assumption
  · next arg _ =>
    split at hu
    · exact absurd hu ((Body.readSingle address arg).error_ne s)
    · exact absurd hu ((Body.readMultiple address count arg).error_ne s)

theorem writeSectors_reports_refused {address : BitVec 64} {count : Nat} {s t : State}
    (he : exec (.writeSectors address count) s = .next t) (hr : t.error = some .refused) :
    s.initialized = true ∧ count ≠ 0 ∧ cmdAddr (isBlock s.cardType) address.toNat = none := by
  rw [exec_writeSectors, writeOperation] at he
  cases he
  obtain ⟨hinit, hn, hu⟩ := gated_reports_refused hr
  refine ⟨hinit, hn, ?_⟩
  split at hu
  · assumption
  · next arg _ =>
    split at hu
    · exact absurd hu ((Body.writeSingle address arg).error_ne s)
    · exact absurd hu ((Body.writeMultiple address count arg).error_ne s)

/-- Where the first address of a range does not fit, the last does not either. -/
theorem cmdAddr_eq_none_of_le {block : Bool} {a b : Nat} (h : a ≤ b) (ha : cmdAddr block a = none) :
    cmdAddr block b = none := by
  rw [cmdAddr_eq_none] at ha ⊢
  cases block with
  | true => exact Nat.le_trans ha h
  | false => exact Nat.le_trans ha (Nat.mul_le_mul_right 512 h)

theorem eraseSectors_reports_refused {address : BitVec 64} {count : Nat} {s t : State}
    (he : exec (.eraseSectors address count) s = .next t) (hr : t.error = some .refused) :
    s.initialized = true ∧ count ≠ 0 ∧ cmdAddr (isBlock s.cardType) (address.toNat + count - 1) = none := by
  rw [exec_eraseSectors, eraseOperation] at he
  cases he
  obtain ⟨hinit, hn, hu⟩ := gated_reports_refused hr
  refine ⟨hinit, hn, ?_⟩
  split at hu
  · next first last _ _ => exact absurd hu ((Body.erase address count first last).error_ne s)
  · next hfirst => exact cmdAddr_eq_none_of_le (by omega) hfirst
  · assumption

theorem sync_error_ne {s t : State} (he : exec .sync s = .next t) : t.error ≠ some .refused := by
  rw [exec_sync, gated] at he
  cases he
  split
  · exact Body.sync.error_ne s
  · simp

theorem field_reports_refused {value : BitVec 128} {start width : Nat} {s t : State}
    (he : exec (.field value start width) s = .next t) (hr : t.error = some .refused) :
    width = 0 ∨ 128 < start + width := by
  by_contra hw
  rw [exec_field, fieldOf, if_neg hw] at he
  cases he
  cases hr

/-- Class `refused` is reported for the operands of `RefusesOperands` alone, whatever the card answers. -/
theorem refusesOperands_of_report {i : Instr} {s t : State} (he : exec i s = .next t)
    (hr : t.error = some .refused) : RefusesOperands i s := by
  cases hc : commandOf i with
  | some x => exact command_reports_refused hc he hr
  | none =>
    cases hitem : isResponseItem i with
    | true => exact absurd hr (responseItem_error_ne hitem he)
    | false =>
      cases hdata : isDataUnit i with
      | true => exact absurd hr (dataUnit_error_ne hdata he)
      | false =>
        cases i with
        | reserved select => exact .inl ⟨select, rfl⟩
        | sendCommandRetry cmd argument required maxAttempts delayUs =>
          exact .inr (.inr (.inl ⟨cmd, argument, required, maxAttempts, delayUs, rfl, retry_reports_refused he hr⟩))
        | field value start width =>
          exact .inr (.inr (.inr (.inl ⟨value, start, width, rfl, field_reports_refused he hr⟩)))
        | readSectors address count =>
          obtain ⟨hinit, hn, ha⟩ := readSectors_reports_refused he hr
          exact .inr (.inr (.inr (.inr (.inl ⟨address, count, .inl rfl, hinit, hn, cmdAddr_eq_none.1 ha⟩))))
        | writeSectors address count =>
          obtain ⟨hinit, hn, ha⟩ := writeSectors_reports_refused he hr
          exact .inr (.inr (.inr (.inr (.inl ⟨address, count, .inr rfl, hinit, hn, cmdAddr_eq_none.1 ha⟩))))
        | eraseSectors address count =>
          obtain ⟨hinit, hn, ha⟩ := eraseSectors_reports_refused he hr
          exact .inr (.inr (.inr (.inr (.inr ⟨address, count, rfl, hinit, hn, cmdAddr_eq_none.1 ha⟩))))
        | sync => exact absurd hr (sync_error_ne he)
        | beginOp frequency => exact absurd hr (beginOp_error_ne he)
        | parseFrame frame => cases he; exact absurd hr (parseFrame_error_ne frame)
        | csdDecode value =>
          cases he
          simp only [State.finish_error] at hr
          split at hr <;> cases hr
        | endOp | getSectorSize | getSectorCount | getCid | getCsd | crc7 | crc16 | buildFrame | r1Extract
        | r2Extract | r3Extract | r7Extract | cidDecode => cases he; cases hr
        | _ => cases hc <;> cases hitem <;> cases hdata

/-! ### Items on the wire, one by one (log 9) -/

theorem exec_r1_heard {s : State} (hw : 0 < s.params.maxWaitBytes) (flags : BitVec 7) :
    exec (.r1 flags) s = .next
      (((s.heard [responseByte flags]).setAttempt 1).finish (.r1Fields (r1Fields (responseByte flags))) none) := by
  rw [exec_r1, pollResponse_drive hw]
  rfl

theorem exec_r2_heard {s : State} (hw : 0 < s.params.maxWaitBytes) (flags : BitVec 7) (status : Byte) :
    exec (.r2 flags status) s = .next
      ((((s.heard [responseByte flags, status]).setAttempt 1).setResp [status]).finish
        (.r2Fields (r2Fields (responseByte flags) status)) none) := by
  rw [exec_r2]
  exact congrArg _ (readResponse_drive (p := [status]) hw)

theorem exec_r3_heard {s : State} (hw : 0 < s.params.maxWaitBytes) (flags : BitVec 7) (ocr : BitVec 32) :
    exec (.r3 flags ocr) s = .next
      ((((s.heard (responseByte flags :: beBytes 4 ocr.toNat)).setAttempt 1).setResp (beBytes 4 ocr.toNat)).finish
        (.r3Fields (r3Fields (responseByte flags) (beBytes 4 ocr.toNat))) none) := by
  have hread := readResponse_drive (f := flags) (p := beBytes 4 ocr.toNat)
    (make := fun r1 p => .r3Fields (r3Fields r1 p)) hw
  rw [beBytes_length] at hread
  rw [exec_r3, hread]

theorem exec_r7_heard {s : State} (hw : 0 < s.params.maxWaitBytes) (flags : BitVec 7) (value : BitVec 32) :
    exec (.r7 flags value) s = .next
      ((((s.heard (responseByte flags :: beBytes 4 value.toNat)).setAttempt 1).setResp
        (beBytes 4 value.toNat)).finish
        (.r7Fields (r7Fields (responseByte flags) (beBytes 4 value.toNat))) none) := by
  have hread := readResponse_drive (f := flags) (p := beBytes 4 value.toNat)
    (make := fun r1 p => .r7Fields (r7Fields r1 p)) hw
  rw [beBytes_length] at hread
  rw [exec_r7, hread]

/-- The token poll of `43_data_block.md` R205 reads a driven start token at once. -/
theorem receiveToken_drive {s : State} (hw : 0 < s.params.tokenWaitSteps) :
    receiveToken (s.drive [tokenStartByte]) =
      (((s.heard [tokenStartByte]).setAttempt 1).setTok tokenStartByte).finish (.token tokenStartByte) none := by
  have hp := pollFrom_of_answers (stop := isToken) (d := s.params.tokenWaitDelayUs) (k := 1)
    (s := s.drive [tokenStartByte]) (fuel := s.params.tokenWaitSteps) (miss := []) (b := tokenStartByte)
    (rest := s.answers) nofun (by decide) hw rfl
  rw [receiveToken, pollTokenLong, poll, State.drive_params, hp]
  simp [State.heard]

theorem exec_dataResponseAccepted_heard (ignored : BitVec 3) (s : State) :
    exec (.dataResponseAccepted ignored) s = .next
      ((s.heard [acceptedByte ignored]).finish (.bool true) none) := by
  rw [exec_dataResponseAccepted, recv_of_answers (i := acceptedByte ignored) (rest := s.answers) rfl,
    if_pos (isAccepted_acceptedByte ignored)]
  rfl

/-- An accepting data response: three bits that R113 leaves open, then 0b00101. -/
theorem acceptedByte_eq : ∀ ignored : BitVec 3, acceptedByte ignored = ignored ++ (0b00101 : BitVec 5) := by decide

/-- A sent block ends with the card's data response (`43_data_block.md` R213). -/
theorem finishBool_isAccepted (resp : Byte) (s : State) :
    finishBool (if isAccepted resp then none else some .protocolRejection, s) =
      s.finish (.bool (slice resp 0 5 == (0b00101 : BitVec 5)))
        (if slice resp 0 5 = (0b00101 : BitVec 5) then none else some .protocolRejection) := by
  simp only [finishBool, isAccepted, beq_iff_eq]
  split
  · next h => rw [beq_iff_eq.2 h]; rfl
  · next h => rw [beq_eq_false_iff_ne.2 h]; rfl

/-- A driven data block is received whole, its token at the first poll byte. -/
theorem receiveBlock_drive {s : State} (hw : 0 < s.params.tokenWaitSteps) (offset : Nat) (payload : List Byte) :
    receiveBlock offset payload.length
        (s.drive (tokenStartByte :: (payload ++ beBytes 2 (crc16 s.params.crc16Seed payload).toNat))) =
      (none, ((((s.heard (tokenStartByte ::
          (payload ++ beBytes 2 (crc16 s.params.crc16Seed payload).toNat))).setAttempt 1).setTok
        tokenStartByte).setCrc16 (crc16 s.params.crc16Seed payload)).storeBytes offset payload) := by
  generalize hbytes : tokenStartByte :: (payload ++ beBytes 2 (crc16 s.params.crc16Seed payload).toNat) = bytes
  have hblock : (⟨0, payload⟩ : Block).bytes s.params.crc16Seed = bytes := hbytes
  have hcount : (⟨0, payload⟩ : Block).count = bytes.length := by rw [← hblock, Block.bytes_length]
  have hr := receiveBlock_of_block (s := s.drive bytes) (offset := offset) (d := ⟨0, payload⟩)
    (rest := s.answers) hw (by rw [State.drive_params, hblock]; rfl)
  rw [hr, State.received, State.blockHeard, State.drive_params, hblock, hcount, Nat.zero_mul, delay_zero]
  rfl

end Sys2Proof.Machine

/-! ### The statements -/

open Sys2Proof Sys2Proof.Machine

/-- Settles O1: the family `RoundTrip`, row by row. -/
theorem decodeOfEncode : Obligations.DecodeOfEncode := fun seed _ h => decode_encode seed h

/-- Settles O2: each format's decoder, read backwards. -/
theorem decodedIsEncoding : Obligations.DecodedIsEncoding := fun _ _ _ h => decode_ok h

/-- Settles O3: by evaluating the decoder on the sixteen items. -/
theorem specWordsDecode : Obligations.SpecWordsDecode := by
  unfold Obligations.SpecWordsDecode
  decide +kernel

/-- Settles O10: the built frame passes the four checks of PARSE_FRAME, which say where its fields lie. -/
theorem buildFrameLayout : Obligations.BuildFrameLayout := by
  intro index argument s
  obtain ⟨hstart, htransmission, hstop, hcrc, hindex, hargument⟩ :=
    parseFrame_ok (parseFrame_buildFrame index argument)
  exact ⟨buildFrame index argument, exec_buildFrame_eq index argument s, hstart, htransmission, hindex,
    hargument, hcrc.symm, hstop, frameBytes_buildFrame_eq index argument⟩

/-- Settles O21: each kind of refused operand refused before anything is written, and every other end of an
operation without this class. -/
theorem refusedExactly : Obligations.RefusedExactly :=
  fun _ _ => ⟨exec_refuses, fun _ => refusesOperands_of_report⟩

/-- Settles O30: each response is read to its last byte, R1 at the first poll. -/
theorem responseItems : Obligations.ResponseItems := fun _ hw =>
  ⟨exec_r1_heard hw, exec_r2_heard hw, exec_r3_heard hw, exec_r7_heard hw⟩

/-- Settles O31: tokens and data response of the card are read at once; the tokens of the engine follow the ready
wait. -/
theorem tokenItems : Obligations.TokenItems := by
  intro s
  refine ⟨fun hw => ?_, fun ignored => ?_, fun busy rest answer hb hl h => ⟨?_, ?_, ?_⟩⟩
  · rw [exec_tokenStart_fromCard, receiveToken_drive hw]
    rfl
  · rw [exec_dataResponseAccepted_heard, acceptedByte_eq]
  · rw [exec_tokenStart_toCard, sendToken_of_answers hb hl h]
    rfl
  · rw [exec_tokenStartMultiWrite, sendToken_of_answers hb hl h]
    rfl
  · rw [exec_tokenStopTran, transmitFrame_stop hb hl h]
    rfl

/-- Settles O32: by what RECEIVE_BLOCK and TRANSMIT_BLOCK do with a block that arrives or is taken. -/
theorem dataBlockItems : Obligations.DataBlockItems := by
  refine ⟨fun payload s hw => ⟨_, ?_, rfl, fun hbuf => ?_⟩, fun token payload d rest s hwf hd h => ?_⟩
  · rw [exec_dataBlock_fromCard]
    exact congrArg (fun r => Host.Outcome.next (finishBool r)) (receiveBlock_drive hw 0 payload)
  · simpa using Memory.readBytes_writeBytes hbuf 0 payload
  · obtain ⟨hb, hl, hi⟩ := hd
    obtain ⟨htoken, hlen⟩ : (token = 0xFE ∨ token = 0xFC) ∧ payload.length = 512 := by
      simpa [Instr.wellFormed, blockShape] using hwf
    have hstop : token ≠ tokenStopTranByte := by
      obtain rfl | rfl := htoken <;> decide
    rw [exec_dataBlock_toCard, transmitFrame_of_answers hstop hb hl (ignored := d.ignored) (resp := d.resp)
      (by rw [hi, hlen]) (by simpa [Taken.bytes] using h), finishBool_isAccepted]
end

section
/-!
Proofs of the family `40_checksum.md`: the two forms of each CRC (R142), the laws of CRC7 and of CRC16 (R135,
R140), and the two checksum operations (R131, R136).
-/

namespace Sys2Proof.Machine

/-! ### Both CRCs -/

/-- A list of 256 entries that answers `f b` at every byte `b` lists the values of `f` in order. -/
theorem eq_map_range_of_getD {w : Nat} {t : List (BitVec w)} {f : Byte → BitVec w} (hlen : t.length = 256)
    (h : ∀ b : Byte, t.getD b.toNat 0 = f b) : t = (List.range 256).map fun i => f (BitVec.ofNat 8 i) := by
  refine List.ext_getElem (by simpa using hlen) fun i hi _ => ?_
  have hi' : i % 2 ^ 8 = i := Nat.mod_eq_of_lt (hi.trans_eq hlen)
  rw [List.getElem_map, List.getElem_range, ← h, BitVec.toNat_ofNat, hi', List.getD_eq_getElem _ _ hi]

/-- Folding over copies of an element that leaves the accumulator alone. -/
theorem foldl_replicate_of_fixed {α β : Type} {f : α → β → α} {c : α} {b : β} (h : f c b = c) (n : Nat) :
    (List.replicate n b).foldl f c = c := by
  induction n with
  | zero => rfl
  | succ n ih => rw [List.replicate_succ, List.foldl_cons, h, ih]

/-! ### CRC7 -/

theorem crc7_eq_crc7Table (data : List Byte) : crc7 data = crc7Table data := by
  rw [crc7Table, funext₂ crc7TableByte_eq]
  rfl

theorem t7_eq_serialT7 : t7 = serialT7 :=
  eq_map_range_of_getD (f := fun b => crc7 [b]) (by decide +kernel) t7_entry

/-- A zero byte leaves the accumulator 0 as it is (R135 (b)). -/
theorem crc7_leading_zeros (n : Nat) (a : List Byte) : crc7 (List.replicate n 0 ++ a) = crc7 a := by
  have hzeros : crc7 (List.replicate n 0) = 0 := foldl_replicate_of_fixed (by decide) n
  rw [crc7_append, hzeros, crc7]

/-- A last byte is one step from the CRC7 of the bytes before it. -/
theorem crc7_concat (m : List Byte) (b : Byte) : crc7 (m ++ [b]) = crc7Byte (crc7 m) b := crc7_append m [b]

/-- The residue of a built frame: its last byte is the CRC7 of the five before it and the stop bit (R84, R135 (c)). -/
theorem crc7_frameBytes_buildFrame (index : BitVec 6) (argument : BitVec 32) :
    crc7 (frameBytes (buildFrame index argument)) = 0x09 := by
  rw [frameBytes_buildFrame, crc7_concat, crcByte]
  exact (crc7Byte_residue _).2

/-! ### CRC16 -/

theorem crc16_eq_crc16Table (seed : BitVec 16) (data : List Byte) : crc16 seed data = crc16Table seed data := by
  rw [crc16Table, funext₂ crc16TableByte_eq, crc16]

theorem t16_eq_serialT16 : t16 = serialT16 :=
  eq_map_range_of_getD (f := fun b => crc16 0 [b]) (by decide +kernel) fun b => by
    rw [t16_entry, crc16, List.foldl_cons, List.foldl_nil, crc16Byte]
    exact congrArg (crc16Rounds 8) BitVec.zero_xor.symm

/-- A zero byte leaves the accumulator 0 as it is (R140 (c)). -/
theorem crc16_leading_zeros (n : Nat) (a : List Byte) : crc16 0 (List.replicate n 0 ++ a) = crc16 0 a := by
  have hzeros : crc16 0 (List.replicate n 0) = 0 := foldl_replicate_of_fixed (by decide) n
  rw [crc16_append, hzeros]

/-- A trailer of two bytes leaves the residue 0 exactly when it is the CRC16 of what it follows (R140 (b)). -/
theorem crc16_residue_iff (seed : BitVec 16) (m : List Byte) (hi lo : Byte) :
    crc16 seed (m ++ [hi, lo]) = 0 ↔ (crc16 seed m).toNat = fromBe [hi, lo] := by
  rw [crc16_append, crc16_two_eq_zero]

/-- The CRC16 in wire order is such a trailer (R140 (b)). -/
theorem crc16_residue (seed : BitVec 16) (m : List Byte) :
    crc16 seed (m ++ beBytes 2 (crc16 seed m).toNat) = 0 := by
  have htrailer := crc16_trailer (crc16 seed m)
  rw [beBytes_two] at htrailer ⊢
  exact (crc16_residue_iff seed m _ _).2 htrailer.symm

end Sys2Proof.Machine

/-! ### The statements -/

open Sys2Proof Sys2Proof.Machine

/-- Settles O6: the table's step is the bit-serial step, byte by byte. -/
theorem serialAndTableFormsAgree : Obligations.SerialAndTableFormsAgree :=
  ⟨crc7_eq_crc7Table, crc16_eq_crc16Table, t7_eq_serialT7, t16_eq_serialT16⟩

/-- Settles O7: by the linearity of one byte's update and its residue for one accumulator value. -/
theorem crc7Laws : Obligations.Crc7Laws := by
  refine ⟨fun _ _ h => crc7From_xor 0 0 h, crc7_leading_zeros, fun m => ?_, fun a b => (crc7_append a b).symm,
    crc7_frameBytes_buildFrame⟩
  rw [crc7_concat, crc7_concat]
  exact crc7Byte_residue (crc7 m)

/-- Settles O8: by the linearity of one byte's update, and because its rounds take only 0 to 0. -/
theorem crc16Laws : Obligations.Crc16Laws :=
  ⟨fun seed a b => (crc16_append seed a b).symm, crc16_residue 0, crc16_residue_iff 0, crc16_leading_zeros,
    fun _ _ h => crc16_xor 0 0 h⟩

/-- Settles O9: each operation writes its accumulator and the report with the bit-serial result, which is the
table's. -/
theorem checksumOperations : Obligations.ChecksumOperations := by
  refine fun s => ⟨fun data => ?_, fun seed data => ?_⟩
  · rw [exec_crc7, crc7_eq_crc7Table]
    rfl
  · rw [exec_crc16, crc16_eq_crc16Table]
    rfl
end

section
/-!
Proofs of the family `41_command_framer.md`: the frame and its parser (R152, R153), SEND_COMMAND against a card that
answers and against any card (R155-R163, R167), the retry loop (R165).
-/

namespace Sys2Proof.Machine

/-! ### PARSE_FRAME (R152) -/

/-- The six bytes of a 48-bit value are slices of it, in wire order (R81). -/
theorem slices_of_frameBytes_eq {f : BitVec 48} {b0 b1 b2 b3 b4 b5 : Byte}
    (h : frameBytes f = [b0, b1, b2, b3, b4, b5]) :
    b0 = slice f 40 8 ∧ b1 = slice f 32 8 ∧ b2 = slice f 24 8 ∧ b3 = slice f 16 8 ∧ b4 = slice f 8 8 ∧
      b5 = slice f 0 8 := by
  rw [frameBytes_eq] at h
  simpa [eq_comm] using h

/-- A slice of a slice, taken inside it. -/
theorem slice_slice {n w w' : Nat} (v : BitVec n) (start start' : Nat) (h : start' + w' ≤ w) :
    slice (slice v start w) start' w' = slice v (start + start') w' := by
  ext i hi
  simp only [← BitVec.getLsbD_eq_getElem, slice_getLsbD, Nat.add_assoc]
  rw [decide_eq_true (show start' + i < w by omega), Bool.true_and]

/-- The fields of byte 0 and byte 5 in the 48-bit value: start bit, transmission bit, stop bit, CRC7, index (R81, R82,
R84). -/
theorem frame_fields (f : BitVec 48) :
    (slice f 40 8 : Byte).getLsbD 7 = f.getLsbD 47 ∧ (slice f 40 8 : Byte).getLsbD 6 = f.getLsbD 46 ∧
      (slice f 0 8 : Byte).getLsbD 0 = f.getLsbD 0 ∧ slice (slice f 0 8 : Byte) 1 7 = slice f 1 7 ∧
      slice (slice f 40 8 : Byte) 0 6 = slice f 40 6 :=
  ⟨slice_getLsbD f 40 8 7, slice_getLsbD f 40 8 6, slice_getLsbD f 0 8 0, slice_slice f 0 1 (by decide),
    slice_slice f 40 0 (by decide)⟩

/-- The argument of a frame is the number its bytes 1 to 4 make (R81). -/
theorem slice_argument (f : BitVec 48) :
    slice f 8 32 = BitVec.ofNat 32 (fromBe [slice f 32 8, slice f 24 8, slice f 16 8, slice f 8 8]) := by
  apply BitVec.eq_of_toNat_eq
  simp only [BitVec.toNat_ofNat, fromBe, slice_eq_of_toNat, List.length_cons, List.length_nil]
  omega

/-! The four checks in their order (R152). -/

section Checks

variable {f : BitVec 48}

theorem parseFrame_badStartBit (hstart : f.getLsbD 47 = true) : parseFrame f = .badStartBit := by
  rw [parseFrame, if_pos hstart]

theorem parseFrame_badTransmissionBit (hstart : f.getLsbD 47 = false) (htransmission : f.getLsbD 46 = false) :
    parseFrame f = .badTransmissionBit := by
  simp only [parseFrame, hstart, htransmission, Bool.false_eq_true, if_false, Bool.not_false, if_true]

theorem parseFrame_badStopBit (hstart : f.getLsbD 47 = false) (htransmission : f.getLsbD 46 = true)
    (hstop : f.getLsbD 0 = false) : parseFrame f = .badStopBit := by
  simp only [parseFrame, hstart, htransmission, hstop, Bool.false_eq_true, if_false, Bool.not_true, Bool.not_false,
    if_true]

/-- With the three bits in order the CRC7 decides. -/
theorem parseFrame_checksum (hstart : f.getLsbD 47 = false) (htransmission : f.getLsbD 46 = true)
    (hstop : f.getLsbD 0 = true) : parseFrame f =
      if crc7 ((frameBytes f).take 5) ≠ slice f 1 7 then .checksumMismatch
      else .ok (slice f 40 6) (slice f 8 32) := by
  simp only [parseFrame, hstart, htransmission, hstop, Bool.false_eq_true, if_false, Bool.not_true]

/-- The CRC7 is computed only after the three bits (log 20). -/
theorem parseAccumulator_eq (s : State) : parseAccumulator f s =
    if f.getLsbD 47 = false ∧ f.getLsbD 46 = true ∧ f.getLsbD 0 = true then
      s.setCrc7 (crc7 ((frameBytes f).take 5)) else s := by
  simp only [parseAccumulator, Bool.and_eq_true, Bool.not_eq_true', and_assoc]

end Checks

/-- The set of frames is the set of pairs of index and argument (R153). -/
def frameEquiv :
    BitVec 6 × BitVec 32 ≃ { f : BitVec 48 // ∃ index argument, parseFrame f = .ok index argument } where
  toFun x := ⟨buildFrame x.1 x.2, x.1, x.2, parseFrame_buildFrame x.1 x.2⟩
  invFun f := (slice f.1 40 6, slice f.1 8 32)
  left_inv x := by
    obtain ⟨-, -, -, -, hindex, hargument⟩ := parseFrame_ok (parseFrame_buildFrame x.1 x.2)
    exact Prod.ext hindex hargument
  right_inv f := by
    obtain ⟨f, index, argument, h⟩ := f
    obtain ⟨-, -, -, -, rfl, rfl⟩ := parseFrame_ok h
    exact Subtype.ext (buildFrame_of_parseFrame h)

theorem card_bitVec (n : Nat) : Nat.card (BitVec n) = 2 ^ n :=
  (Nat.card_congr BitVec.equivFin.toEquiv).trans (Nat.card_fin _)

theorem card_frames : Nat.card { f : BitVec 48 // ∃ index argument, parseFrame f = .ok index argument } = 2 ^ 38 := by
  rw [← Nat.card_congr frameEquiv, Nat.card_prod, card_bitVec, card_bitVec, ← Nat.pow_add]

/-! ### A command against a card that answers -/

/-- A command row or SEND_COMMAND ends with what its transaction returns. -/
theorem exec_command_eq {i : Instr} {cmd : Byte} {argument : BitVec 32} {n : Nat}
    (hc : commandOf i = some (cmd, argument, n)) {s t : State} {r1 : Byte} {payload : Option (List Byte)}
    {cls : Option ErrorClass} (hr : sendCommand cmd argument n s = (⟨r1, payload, cls⟩, t))
    (hcls : cls ≠ some .refused) : exec i s = .next (t.finish (.response r1 payload) cls) := by
  rw [exec_of_commandOf hc, hr, finishCommand_eq hcls]

/-- SEND_COMMAND_RETRY ends with the response byte of its loop. -/
theorem exec_sendCommandRetry_eq {cmd : Byte} {argument : BitVec 32} {required : Byte} {n d : Nat} {s t : State}
    {r1 : Byte} {cls : Option ErrorClass} (hr : sendCommandRetry cmd argument required n d s = (⟨r1, none, cls⟩, t))
    (hcls : cls ≠ some .refused) :
    exec (.sendCommandRetry cmd argument required n d) s = .next (t.finish (.responseByte r1) cls) := by
  rw [exec_sendCommandRetry, hr, finishRetry, if_neg hcls]

/-- The class of an attempt is (a) or (b), never the one of a refused operand. -/
theorem Attempt.failClass_ne_refused (a : Attempt) : some a.failClass ≠ some .refused := by
  cases a <;> exact nofun

/-- The stuffing byte of a data-bearing command, and only of it (R159). -/
theorem stuffing_of_dataBearing {app : Bool} {index : BitVec 6} {b : Bool} (h : dataBearing app index = b) :
    stuffing app index = if b then 1 else 0 := by
  rw [stuffing, h]

/-- A data-bearing command up to its response byte: an error ends it there, 0 leads on to the data path (R155
line 18, R160), with the answers that are left. -/
theorem sendCommand_data {cmd : Byte} (h6 : cmd.getLsbD 6 = false) (argument : BitVec 32) {n : Nat} (hn : n ≠ 0)
    (hb : dataBearing (cmdApp cmd) (cmdIndex cmd) = true) {p q : Reply} {rest : List Byte} {s : State}
    (hp : p.Leads (cmdApp cmd) s.params.maxWaitBytes) (hq : q.Heard s.params.maxWaitBytes 1)
    (h : s.answers = p.lead (cmdApp cmd) ++ (q.bytes ++ rest)) :
    (sendCommand cmd argument n s =
      if q.r1 ≠ 0 then (⟨q.r1, none, some .protocolRejection⟩,
        (s.led (cmdApp cmd) p).replied (cmdApp cmd) (cmdIndex cmd) argument q)
      else captureData q.r1 n ((s.led (cmdApp cmd) p).replied (cmdApp cmd) (cmdIndex cmd) argument q)) ∧
    ((s.led (cmdApp cmd) p).replied (cmdApp cmd) (cmdIndex cmd) argument q).answers = rest ∧
    ((s.led (cmdApp cmd) p).replied (cmdApp cmd) (cmdIndex cmd) argument q).params = s.params := by
  have hled := led_answers hp h
  have hq' : q.Heard (s.led (cmdApp cmd) p).params.maxWaitBytes (stuffing (cmdApp cmd) (cmdIndex cmd)) := by
    rw [State.led_params, stuffing_of_dataBearing hb]
    exact hq
  refine ⟨?_, replied_answers hq' hled, by simp⟩
  rw [sendCommand_led h6 argument n hp h, transact_data hb hn hq' hled]

/-- Without a token nothing is clocked after the poll (R160). -/
theorem captureData_noToken_answers {r1 : Byte} {n : Nat} {s : State} {rest : List Byte}
    (h : s.answers = fillers s.params.maxWaitBytes ++ rest) : ∃ t,
    captureData r1 n s = (⟨s.params.errSentinel, none, some .transportTimeout⟩, t) ∧ t.answers = rest := by
  refine ⟨_, captureData_noToken h, ?_⟩
  rw [State.setAttempt_answers]
  exact onWire_answers_of_append rfl h

/-- After another token nothing is clocked either (R160). -/
theorem captureData_wrongToken_answers {r1 : Byte} {n k : Nat} {token : Byte} {s : State} {rest : List Byte}
    (hk : k < s.params.maxWaitBytes) (hfiller : token ≠ 0xFF) (hstart : token ≠ tokenStartByte)
    (h : s.answers = fillers k ++ token :: rest) : ∃ t,
    captureData r1 n s = (⟨s.params.errSentinel, none, some .transportTimeout⟩, t) ∧ t.answers = rest := by
  refine ⟨_, captureData_wrongToken hk hfiller hstart h, ?_⟩
  rw [State.setTok_answers, State.setAttempt_answers]
  exact onWire_answers_of_append (i := fillers k ++ [token]) (by simp) (by rw [h, List.append_cons])

/-! ### The exchanges of a command against any card -/

theorem exec_sendCommand_ran (cmd : Byte) (argument : BitVec 32) (n : Nat) (s : State) : ∃ t,
    exec (.sendCommand cmd argument n) s = .next t ∧ Ran (commandBound cmd s.params.maxWaitBytes n) s t :=
  ⟨_, exec_of_commandOf rfl s, (sendCommand_ran cmd argument n s).trans (finishCommand_ran _)⟩

theorem exec_sendCommandRetry_ran (cmd : Byte) (argument : BitVec 32) (required : Byte) (n d : Nat) (s : State) :
    ∃ t, exec (.sendCommandRetry cmd argument required n d) s = .next t ∧
      Ran (n * commandBound cmd s.params.maxWaitBytes 0) s t :=
  ⟨_, exec_sendCommandRetry .., (sendCommandRetry_ran cmd argument required n d s).trans (finishRetry_ran _)⟩

/-- The bound of an accepted code: its own transaction, and CMD55 before an application command (R431). -/
theorem commandBound_eq {cmd : Byte} (h6 : cmd.getLsbD 6 = false) (w n : Nat) :
    commandBound cmd w n =
      (if cmdApp cmd then 6 + w else 0) + transactBound (cmdApp cmd) (cmdIndex cmd) w n := by
  cases h7 : cmdApp cmd with
  | false => rw [commandBound_ordinary h6 h7, if_neg Bool.false_ne_true, Nat.zero_add]
  | true => rw [commandBound_application h6 h7, if_pos rfl]

/-- A command row or SEND_COMMAND is bus activity; it writes RESP only where a payload is captured, TOK and the CRC16
accumulator only where a data block is. -/
theorem exec_command_kept {i : Instr} {cmd : Byte} {argument : BitVec 32} {n : Nat} {s t : State}
    (hc : commandOf i = some (cmd, argument, n)) (he : exec i s = .next t) :
    (∃ m, Ran m s t) ∧ (n = 0 → t.resp = s.resp) ∧
      (n = 0 ∨ dataBearing (cmdApp cmd) (cmdIndex cmd) = false → SameData s t) := by
  obtain rfl := Host.Outcome.next.inj ((exec_of_commandOf hc s).symm.trans he)
  obtain ⟨hresp, hdata⟩ := sendCommand_data_kept cmd argument n s
  obtain ⟨hresp', hdata'⟩ := finishCommand_data_kept (sendCommand cmd argument n s)
  exact ⟨⟨_, (sendCommand_ran cmd argument n s).trans (finishCommand_ran _)⟩,
    fun hn => hresp'.trans (hresp hn), fun hn => (hdata hn).trans hdata'⟩

/-- The retry loop is bus activity and captures nothing. -/
theorem exec_sendCommandRetry_kept {cmd : Byte} {argument : BitVec 32} {required : Byte} {m d : Nat} {s t : State}
    (he : exec (.sendCommandRetry cmd argument required m d) s = .next t) :
    (∃ m, Ran m s t) ∧ t.resp = s.resp ∧ SameData s t := by
  obtain rfl := Host.Outcome.next.inj ((exec_sendCommandRetry ..).symm.trans he)
  obtain ⟨hresp, hdata⟩ := sendCommandRetry_data_kept cmd argument required m d s
  obtain ⟨hresp', hdata'⟩ := finishRetry_data_kept (sendCommandRetry cmd argument required m d s)
  exact ⟨⟨_, (sendCommandRetry_ran cmd argument required m d s).trans (finishRetry_ran _)⟩,
    hresp'.trans hresp, hdata.trans hdata'⟩

end Sys2Proof.Machine

/-! ### The statements -/

open Sys2Proof Sys2Proof.Machine

/-- Settles O11: the three bits and the CRC7 read from the bytes they stand in, each check after those before it. -/
theorem parseFrameChecks : Obligations.ParseFrameChecks := by
  intro b0 b1 b2 b3 b4 b5 f s h
  have hbody : (frameBytes f).take 5 = [b0, b1, b2, b3, b4] := by rw [h]; rfl
  obtain ⟨rfl, rfl, rfl, rfl, rfl, rfl⟩ := slices_of_frameBytes_eq h
  obtain ⟨estart, etransmission, estop, ecrc, eindex⟩ := frame_fields f
  rw [estart, etransmission, estop, ecrc, eindex, ← slice_argument, ← hbody, exec_parseFrame, parseAccumulator_eq]
  refine ⟨fun hstart => ?_, fun hstart htransmission => ?_, fun hstart htransmission hstop => ?_,
    fun hstart htransmission hstop hcrc => ?_, fun hstart htransmission hstop hcrc => ?_⟩
  · rw [parseFrame_badStartBit hstart, if_neg (by simp [-BitVec.getLsbD_eq_getElem, hstart])]
    rfl
  · rw [parseFrame_badTransmissionBit hstart htransmission,
      if_neg (by simp [-BitVec.getLsbD_eq_getElem, htransmission])]
    rfl
  · rw [parseFrame_badStopBit hstart htransmission hstop, if_neg (by simp [-BitVec.getLsbD_eq_getElem, hstop])]
    rfl
  · rw [parseFrame_checksum hstart htransmission hstop, if_pos hcrc, if_pos ⟨hstart, htransmission, hstop⟩]
    rfl
  · rw [parseFrame_checksum hstart htransmission hstop, if_neg (not_not.2 hcrc),
      if_pos ⟨hstart, htransmission, hstop⟩, hcrc]
    rfl

/-- Settles O12: what parses is counted by its index and argument; an application command is CMD55's frame and
its own. -/
theorem frameRoundTrip : Obligations.FrameRoundTrip := by
  refine ⟨parseFrame_buildFrame, fun _ _ _ => buildFrame_of_parseFrame, card_frames, fun _ argument => ⟨?_, ?_⟩⟩
  · exact List.drop_left' (frameBytes_length _)
  · exact List.drop_left' (frameBytes_length _)

/-- Settles O13: CMD55, where there is one, is accepted, and the transaction ends at the response byte. -/
theorem commandWithoutPayload : Obligations.CommandWithoutPayload := by
  intro i cmd argument p q rest s hc h6 hp hq h
  refine exec_command_eq hc ?_ nofun
  rw [sendCommand_led h6 argument 0 hp h, transact_plain (by rwa [State.led_params]) (led_answers hp h)]

/-- Settles O14: after the response byte the payload is received whatever it says. -/
theorem commandWithDirectPayload : Obligations.CommandWithDirectPayload := by
  intro i cmd argument p q payload rest s hc h6 hne hb hp hq h
  refine exec_command_eq hc ?_ nofun
  rw [sendCommand_led h6 argument _ hp h, transact_direct hb ?_ hne (led_answers hp h)]
  rw [State.led_params, stuffing_of_dataBearing hb]
  exact hq

/-- Settles O15: the response byte 0 leads to the data path, where the block arrives whole. -/
theorem commandWithDataBlock : Obligations.CommandWithDataBlock := by
  intro i cmd argument p q d rest s hc h6 hne hb hp hq hr hw h
  have hn : d.payload.length ≠ 0 := mt List.length_eq_zero_iff.1 hne
  obtain ⟨hsend, hleft, hparams⟩ := sendCommand_data h6 argument hn hb hp hq h
  refine exec_command_eq hc ?_ nofun
  rw [hsend, if_neg (not_not.2 hr), captureData_of_block (by rwa [hparams]) (by rwa [hparams]), hr]

/-- Settles O16: a rejected CMD55, a silent card, and a card silent at CMD55 each end the transaction. -/
theorem commandTurnedAway : Obligations.CommandTurnedAway := by
  refine ⟨fun i cmd argument n p rest s hc h6 h7 hp hr h => ?_,
    fun i cmd argument n p ignored silent rest s hc h6 hp hi hl hs h => ?_,
    fun i cmd argument n ignored silent rest s hc h6 h7 hs he h => ?_⟩
  · exact exec_command_eq hc (sendCommand_app_rejected h6 h7 argument n hp hr h) nofun
  · refine exec_command_eq hc ?_ nofun
    rw [sendCommand_led h6 argument n hp h,
      transact_unanswered hi (by rwa [State.led_params]) hs (led_answers hp h), State.led_params]
  · exact exec_command_eq hc (sendCommand_app_unanswered h6 h7 argument n hs he h) nofun

/-- Settles O17: an error R1 ends the command before the data path; the three failures of the data path. -/
theorem commandDataFailures : Obligations.CommandDataFailures := by
  intro i cmd argument n p q tail rest s hc h6 hn hb hp hq h
  obtain ⟨hsend, hleft, hparams⟩ := sendCommand_data h6 argument hn hb hp hq h
  refine ⟨fun hr _ => ?_, fun hr htail => ?_, fun k token hr hk hfiller hstart htail => ?_,
    fun k payload hi lo hr hk hlen hcrc htail => ?_⟩
  · exact exec_command_eq hc (by rw [hsend, if_pos hr]) nofun
  · obtain ⟨t, hdata, hrest⟩ := captureData_noToken_answers (r1 := q.r1) (n := n) (rest := rest)
      (by rw [hleft, hparams, htail])
    rw [if_neg (not_not.2 hr), hdata, hparams] at hsend
    exact ⟨_, exec_command_eq hc hsend nofun, hrest, rfl, rfl⟩
  · obtain ⟨t, hdata, hrest⟩ := captureData_wrongToken_answers (r1 := q.r1) (n := n) (rest := rest)
      (by rwa [hparams]) hfiller hstart (by rw [hleft, htail, List.append_assoc, List.singleton_append])
    rw [if_neg (not_not.2 hr), hdata, hparams] at hsend
    exact ⟨_, exec_command_eq hc hsend nofun, hrest, rfl, rfl⟩
  · subst hlen
    obtain ⟨t, hdata, hrest, -, -⟩ := captureData_badCrc (r1 := q.r1) (hi := hi) (lo := lo) (rest := rest)
      (by rwa [hparams]) (by rwa [hparams]) (by rw [hleft, htail]; simp [tokenStartByte])
    rw [if_neg (not_not.2 hr), hdata, hparams] at hsend
    exact ⟨_, exec_command_eq hc hsend nofun, hrest, rfl, rfl⟩

/-- Settles O18: by the bound of R431 for the command's kind, which R167 covers. -/
theorem commandBounds : Obligations.CommandBounds := by
  refine ⟨fun cmd argument n s => ?_, fun cmd argument required n d s => ?_, fun cmd argument n s => ?_,
    fun cmd n h6 hn => ?_⟩
  · obtain ⟨t, he, hran⟩ := exec_sendCommand_ran cmd argument n s
    exact ⟨t, he, hran.grows.mono (commandBound_le ..)⟩
  · obtain ⟨t, he, hran⟩ := exec_sendCommandRetry_ran cmd argument required n d s
    exact ⟨t, he, hran.grows.mono (Nat.mul_le_mul_left n (commandBound_le_noPayload ..))⟩
  · obtain ⟨t, he, hran⟩ := exec_sendCommand_ran cmd argument n s
    exact ⟨t, he, hran.grows⟩
  · rw [commandBound_eq h6, show defaultParams.maxWaitBytes = 8 from rfl]
    cases hb : dataBearing (cmdApp cmd) (cmdIndex cmd) with
    | false => rw [transactBound_direct hb, if_neg Bool.false_ne_true]
    | true =>
      rw [transactBound_data hb 8 (hn hb), if_pos rfl]
      split <;> omega

/-- Settles O19: the commands are bus activity, and only a captured payload or block writes the data transients. -/
theorem commandFrame : Obligations.CommandFrame := by
  intro i cmd argument n s t hi he
  obtain ⟨⟨m, hran⟩, hresp, hdata⟩ : (∃ m, Ran m s t) ∧ (n = 0 → t.resp = s.resp) ∧
      (n = 0 ∨ dataBearing (cmdApp cmd) (cmdIndex cmd) = false → SameData s t) := by
    obtain hc | ⟨required, maxAttempts, delayUs, -, rfl⟩ := hi
    · exact exec_command_kept hc he
    · obtain ⟨hran, hresp, hdata⟩ := exec_sendCommandRetry_kept he
      exact ⟨hran, fun _ => hresp, fun _ => hdata⟩
  exact ⟨hran.host, hran.session, hran.control, hran.buf, hran.freeCount, hresp,
    fun hn => ⟨(hdata hn).tok, (hdata hn).crc16acc⟩⟩

/-- Settles O20: the loop goes past the attempts that miss, and ends at the one that hits, or with the last. -/
theorem retryOutcomes : Obligations.RetryOutcomes := by
  refine ⟨fun cmd argument required n d misses rest s h6 hm => ⟨fun a hn ha hr h => ?_, fun a hl hn h => ?_⟩,
    fun cmd argument required d s => ?_⟩
  · exact exec_sendCommandRetry_eq (sendCommandRetry_hit h6 argument misses hn hm ha hr h) nofun
  · subst hn
    exact exec_sendCommandRetry_eq (sendCommandRetry_exhausted h6 argument misses hl hm h) a.failClass_ne_refused
  · refine exec_sendCommandRetry_eq ?_ nofun
    rw [sendCommandRetry, if_neg fun hrefused => hrefused.2 rfl, retryFrom]
end

section
/-!
Proofs of the family `42_response_parser.md`: the fields of the four extractors, the three predicates of R1 (R181-R190),
and the laws of R192.
-/

namespace Sys2Proof.Machine

/-! ### The four operations -/

section Exec

variable (s : State)

theorem exec_r1Extract (b : Byte) :
    exec (.r1Extract b) s = .next { s with result := .r1Fields (r1Fields b), error := none } := rfl

theorem exec_r2Extract (first status : Byte) :
    exec (.r2Extract first status) s = .next { s with result := .r2Fields (r2Fields first status), error := none } :=
  rfl

theorem exec_r3Extract (first : Byte) (payload : List Byte) :
    exec (.r3Extract first payload) s = .next { s with result := .r3Fields (r3Fields first payload), error := none } :=
  rfl

theorem exec_r7Extract (first : Byte) (payload : List Byte) :
    exec (.r7Extract first payload) s = .next { s with result := .r7Fields (r7Fields first payload), error := none } :=
  rfl

end Exec

/-! ### The first byte (R181, R182) -/

theorem isIdle_iff {b : Byte} : isIdle b = true ↔ b = 0x01 := beq_iff_eq

theorem isReady_iff {b : Byte} : isReady b = true ↔ b = 0x00 := beq_iff_eq

theorem noError_iff {b : Byte} : noError b = true ↔ b.toNat ≤ 1 := decide_eq_true_iff

/-- Bit 7 of a byte, as a bound. -/
theorem r1Fields_valid_iff {b : Byte} : (r1Fields b).valid = true ↔ b.toNat < 128 := by
  simp only [r1Fields, Bool.not_eq_true', BitVec.getLsbD, Nat.testBit_eq_decide_div_mod_eq, decide_eq_false_iff_not]
  have := b.isLt
  omega

/-- The error bit stands for bits 1 to 6. -/
theorem r1Fields_error_iff {b : Byte} : (r1Fields b).error = true ↔ b.toNat / 2 % 64 ≠ 0 := by
  rw [r1Fields, bne_iff_ne, ne_eq, BitVec.toNat_eq, slice_eq_of_toNat]
  rfl

/-- R182: bit 7 and bits 1 to 6 are 0 in the bytes 0 and 1 alone. -/
theorem noError_iff_fields {b : Byte} :
    noError b = true ↔ (r1Fields b).valid = true ∧ (r1Fields b).error = false := by
  rw [noError_iff, r1Fields_valid_iff, ← Bool.not_eq_true, r1Fields_error_iff]
  omega

/-! ### The payload (R184, R187, R190) -/

/-- A slice above the low part of a concatenation is a slice of its high part. -/
theorem slice_append_high {n m start width : Nat} {x : BitVec n} {y : BitVec m} (h : m ≤ start) :
    slice (x ++ y) start width = slice x (start - m) width := BitVec.extractLsb'_append_eq_of_le h

/-- A slice inside the low part of a concatenation is a slice of it. -/
theorem slice_append_low {n m start width : Nat} {x : BitVec n} {y : BitVec m} (h : start + width ≤ m) :
    slice (x ++ y) start width = slice y start width := BitVec.extractLsb'_append_eq_of_add_le h

/-- R184: the two bytes of R2 as one number. -/
theorem r2Fields_value16 (first status : Byte) :
    (r2Fields first status).value16.toNat = first.toNat * 256 + status.toNat := by
  rw [r2Fields, BitVec.toNat_append, ← Nat.shiftLeft_add_eq_or_of_lt status.isLt, Nat.shiftLeft_eq]

/-- R187: the OCR is the payload, its two flags the upper bits of the first byte. -/
theorem r3Fields_four (first p0 p1 p2 p3 : Byte) :
    r3Fields first [p0, p1, p2, p3] =
      { first := r1Fields first
        ocr := p0 ++ p1 ++ p2 ++ p3
        ccs := p0.getLsbD 6
        powerUp := p0.getLsbD 7
        voltageWindow := slice (p0 ++ p1 ++ p2 ++ p3) 15 9 } := by
  rw [r3Fields, ofNat_fromBe_four]
  simp only [BitVec.getLsbD_append]
  rfl

/-- The low 16 bits of a payload read as a number, byte by byte, at the value an accepted CMD8 echoes (R190). -/
theorem echo_four_iff (p0 p1 p2 p3 : Byte) :
    slice (BitVec.ofNat 32 (fromBe [p0, p1, p2, p3])) 0 16 = (0x01AA : BitVec 16) ↔ p2 = 0x01 ∧ p3 = 0xAA := by
  have h2 := p2.isLt
  have h3 := p3.isLt
  rw [slice_fromBe_four]
  simp only [BitVec.toNat_eq, BitVec.toNat_ofNat, BitVec.reduceToNat]
  omega

/-- R190: the interface condition is the payload, its fields nibbles and bytes of it. -/
theorem r7Fields_four (first p0 p1 p2 p3 : Byte) :
    r7Fields first [p0, p1, p2, p3] =
      { first := r1Fields first
        value := p0 ++ p1 ++ p2 ++ p3
        echoOk := decide (p2 = 0x01 ∧ p3 = 0xAA)
        commandVersion := slice p0 4 4
        voltageAccepted := slice p2 0 4
        checkPattern := p3 } := by
  have hversion : slice (p0 ++ p1 ++ p2 ++ p3) 28 4 = slice p0 4 4 := by
    rw [slice_append_high (by decide), slice_append_high (by decide), slice_append_high (by decide)]
  have hvoltage : slice (p0 ++ p1 ++ p2 ++ p3) 8 4 = slice p2 0 4 := by
    rw [slice_append_high (by decide), slice_append_low (by decide)]
  have hpattern : slice (p0 ++ p1 ++ p2 ++ p3) 0 8 = p3 := BitVec.extractLsb'_append_eq_right
  have hecho : (slice (p0 ++ p1 ++ p2 ++ p3) 0 16 == (0x01AA : BitVec 16)) = decide (p2 = 0x01 ∧ p3 = 0xAA) := by
    rw [← ofNat_fromBe_four]
    exact decide_eq_decide.2 (echo_four_iff p0 p1 p2 p3)
  rw [r7Fields, ofNat_fromBe_four, hversion, hvoltage, hpattern, hecho]

end Sys2Proof.Machine

/-! ### The statements -/

open Sys2Proof Sys2Proof.Machine

/-- Settles O22: the flags stand in the records as the statement has them; what is to be shown is the error bit and the
three predicates as ranges of the byte, and the payload's fields byte by byte. -/
theorem responseFields : Obligations.ResponseFields := by
  refine ⟨fun b s => ?_, fun first status s => ?_, fun first p0 p1 p2 p3 s => ?_, fun first p0 p1 p2 p3 s => ?_⟩
  · exact ⟨_, exec_r1Extract s b, rfl, rfl, rfl, rfl, rfl, rfl, rfl, rfl, r1Fields_error_iff, isIdle_iff, isReady_iff,
      noError_iff, noError_iff_fields⟩
  · exact ⟨_, exec_r2Extract s first status, rfl, r2Fields_value16 first status, rfl, rfl, rfl, rfl, rfl, rfl, rfl, rfl⟩
  · refine ⟨_, exec_r3Extract s first _, ?_⟩
    rw [r3Fields_four]
    exact ⟨rfl, rfl, rfl, rfl, rfl⟩
  · refine ⟨_, exec_r7Extract s first _, ?_⟩
    rw [r7Fields_four]
    exact ⟨rfl, rfl, decide_eq_true_iff, rfl, rfl, rfl⟩

/-- Settles O23: the report of an extractor names no state; four bytes survive the way to a number and back; 0xFF is
tested by evaluation. -/
theorem extractorLaws : Obligations.ExtractorLaws := by
  refine ⟨fun first second payload s s' i hi => ?_,
    fun _ _ h => ⟨beBytes_ofNat_fromBe h, beBytes_ofNat_fromBe h⟩, fun _ h => (noError_iff_fields.1 h).1, by decide⟩
  simp only [List.mem_cons, List.not_mem_nil, or_false] at hi
  obtain rfl | rfl | rfl | rfl := hi
  · exact ⟨_, _, exec_r1Extract s first, exec_r1Extract s' first, rfl, rfl⟩
  · exact ⟨_, _, exec_r2Extract s first second, exec_r2Extract s' first second, rfl, rfl⟩
  · exact ⟨_, _, exec_r3Extract s first payload, exec_r3Extract s' first payload, rfl, rfl⟩
  · exact ⟨_, _, exec_r7Extract s first payload, exec_r7Extract s' first payload, rfl, rfl⟩
end

section
/-!
Proofs of the family `43_data_block.md`: the ready wait (R200), a received block (R204-R208), a sent block (R210-R215),
the bounds of all three (R216, R431), and what the transceiver and the items on the wire leave alone (R199).
-/

namespace Sys2Proof.Machine

/-! ### RECEIVE_BLOCK -/

/-- However a reception ends, it has written no byte but its own (R208). -/
theorem exec_receiveBlock_outside {offset n : Nat} {s t : State} (he : exec (.receiveBlock offset n) s = .next t) :
    SameBufferOutside offset n s t := by
  obtain rfl := Host.Outcome.next.inj ((exec_receiveBlock s offset n).symm.trans he)
  exact (receiveBlock_moved offset n s).outside

theorem exec_dataBlock_fromCard_outside {token : Byte} {payload : List Byte} {s t : State}
    (he : exec (.dataBlock .fromCard token payload) s = .next t) : SameBufferOutside 0 payload.length s t := by
  obtain rfl := Host.Outcome.next.inj ((exec_dataBlock_fromCard s token payload).symm.trans he)
  exact (receiveBlock_moved 0 payload.length _).outside

/-- A reception that fails ends the operation with `false` and its class. -/
theorem exec_receiveBlock_failed {offset n : Nat} {s u : State} {cls : ErrorClass}
    (h : receiveBlock offset n s = (some cls, u)) :
    exec (.receiveBlock offset n) s = .next (u.finish (.bool false) (some cls)) := by
  rw [exec_receiveBlock, h]
  rfl

/-! ### Bounds, whatever the card answers (R216, R431) -/

theorem exec_waitReady_bounds (s : State) : ∃ t, exec .waitReady s = .next t ∧
    Grows (waitReadyBound s.params) s t ∧ Delays (readyWaitDelay s.params) s t :=
  ⟨_, exec_waitReady s, ((waitReady_ran s).trans (Ran.finish _ _ _)).grows, (waitReady_delays s).then_eq rfl⟩

theorem exec_receiveBlock_bounds (offset length : Nat) (s : State) : ∃ t,
    exec (.receiveBlock offset length) s = .next t ∧ Grows (receiveBlockBound s.params length) s t ∧
      Delays (tokenWaitDelay s.params) s t :=
  ⟨_, exec_receiveBlock s offset length,
    ((receiveBlock_moved offset length s).trans ((finishBool_ran _).moved offset length)).grows.mono
      (Nat.add_assoc ..).ge,
    (receiveBlock_delays offset length s).then_eq rfl⟩

theorem exec_transmitBlock_bounds (offset : Nat) (token : Byte) (s : State) : ∃ t,
    exec (.transmitBlock offset token) s = .next t ∧ Grows (transmitBlockBound s.params) s t ∧
      Delays (readyWaitDelay s.params) s t :=
  ⟨_, exec_transmitBlock s offset token, ((transmitBlock_ran offset token s).trans (finishBool_ran _)).grows,
    (transmitBlock_delays offset token s).then_eq rfl⟩

/-! ### What a row of the transceiver, or a response, keeps -/

/-- The storage such a row may write, by the kind of the row (R199). -/
structure UnitKept (i : Instr) (s t : State) : Prop where
  frame    : t.frame = s.frame
  crc7acc  : t.crc7acc = s.crc7acc
  resp     : isDataUnit i = true → t.resp = s.resp
  tok      : awaitsToken i = false → t.tok = s.tok
  crc16acc : carriesPayload i = false → t.crc16acc = s.crc16acc
  buf      : awaitsToken i = false ∨ carriesPayload i = false → t.buf = s.buf ∧ t.freeCount = s.freeCount

theorem SameFraming.finishBool {s : State} {r : Option ErrorClass × State} (h : SameFraming s r.2) :
    SameFraming s (finishBool r) := ⟨h.frame, h.crc7acc, h.resp⟩

theorem SameScratch.finishBool {s : State} {r : Option ErrorClass × State} (h : SameScratch s r.2) :
    SameScratch s (finishBool r) := ⟨h.frame, h.crc7acc, h.crc16acc, h.resp, h.tok⟩

section Kept

variable {i : Instr} {s t : State} {n : Nat} {bytes : List Byte}

/-- Bus activity that writes no transient but the loop index. -/
theorem UnitKept.of_scratch (hr : Ran n (s.drive bytes) t) (hs : SameScratch (s.drive bytes) t) : UnitKept i s t :=
  ⟨hs.frame, hs.crc7acc, fun _ => hs.resp, fun _ => hs.tok, fun _ => hs.crc16acc, fun _ => ⟨hr.buf, hr.freeCount⟩⟩

/-- Bus activity that writes TOK or the CRC16 accumulator as well. -/
theorem UnitKept.of_framing (hr : Ran n (s.drive bytes) t) (hf : SameFraming (s.drive bytes) t)
    (htok : awaitsToken i = false → t.tok = s.tok) (hcrc : carriesPayload i = false → t.crc16acc = s.crc16acc) :
    UnitKept i s t :=
  ⟨hf.frame, hf.crc7acc, fun _ => hf.resp, htok, hcrc, fun _ => ⟨hr.buf, hr.freeCount⟩⟩

/-- A block received into the block buffer writes everything R199 names. -/
theorem UnitKept.of_reception (htoken : awaitsToken i = true) (hpayload : carriesPayload i = true)
    (hf : SameFraming (s.drive bytes) t) : UnitKept i s t where
  frame := hf.frame
  crc7acc := hf.crc7acc
  resp _ := hf.resp
  tok h := absurd (htoken.symm.trans h) nofun
  crc16acc h := absurd (hpayload.symm.trans h) nofun
  buf h := h.elim (fun h => absurd (htoken.symm.trans h) nofun) fun h => absurd (hpayload.symm.trans h) nofun

/-- A response writes RESP, which the transceiver does not. -/
theorem UnitKept.of_response (hi : isDataUnit i = false) (hr : Ran n (s.drive bytes) t) (hframe : t.frame = s.frame)
    (hcrc7 : t.crc7acc = s.crc7acc) (hd : SameData (s.drive bytes) t) : UnitKept i s t :=
  ⟨hframe, hcrc7, fun h => absurd (hi.symm.trans h) nofun, fun _ => hd.tok, fun _ => hd.crc16acc,
    fun _ => ⟨hr.buf, hr.freeCount⟩⟩

end Kept

theorem exec_dataUnit_kept {i : Instr} (hi : isDataUnit i = true) {s t : State} (he : exec i s = .next t) :
    UnitKept i s t := by
  cases i with
  | waitReady =>
    cases he
    exact .of_scratch (bytes := []) ((waitReady_ran s).trans (Ran.finish _ _ _)) (waitReady_scratch s).finishBool
  | receiveBlock o n =>
    cases he
    exact .of_reception (bytes := []) rfl rfl (receiveBlock_framing o n s).finishBool
  | transmitBlock o token =>
    cases he
    obtain ⟨hf, htok⟩ := transmitBlock_framing o token s
    exact .of_framing (bytes := []) ((transmitBlock_ran o token s).trans (finishBool_ran _)) hf.finishBool
      (fun _ => htok) nofun
  | tokenStart dir =>
    cases dir with
    | fromCard =>
      cases he
      obtain ⟨hf, hcrc⟩ := receiveToken_keeps (s.drive [tokenStartByte])
      exact .of_framing (receiveToken_ran _) hf nofun (fun _ => hcrc)
    | toCard =>
      cases he
      exact .of_scratch (bytes := []) ((sendToken_ran _ s).trans (finishBool_ran _)) (sendToken_scratch _ s).finishBool
  | tokenStartMultiWrite =>
    cases he
    exact .of_scratch (bytes := []) ((sendToken_ran _ s).trans (finishBool_ran _)) (sendToken_scratch _ s).finishBool
  | tokenStopTran =>
    cases he
    obtain ⟨hf, htok⟩ := transmitFrame_framing tokenStopTranByte [] s
    exact .of_framing (bytes := []) ((transmitFrame_ran _ _ s).trans (finishBool_ran _)) hf.finishBool
      (fun _ => htok) (fun _ => transmitFrame_stop_crc16acc s)
  | dataResponseAccepted ignored =>
    cases he
    exact .of_scratch ((recv_ran _).trans (Ran.finish _ _ _))
      (recv_scratch (s.drive [acceptedByte ignored])).finishBool
  | dataBlock dir token payload =>
    cases dir with
    | fromCard =>
      cases he
      exact .of_reception rfl rfl (receiveBlock_framing 0 payload.length (s.drive _)).finishBool
    | toCard =>
      cases he
      obtain ⟨hf, htok⟩ := transmitFrame_framing token payload s
      exact .of_framing (bytes := []) ((transmitFrame_ran _ _ s).trans (finishBool_ran _)) hf.finishBool
        (fun _ => htok) nofun
  | _ => cases hi

theorem readResponse_kept {i : Instr} (hi : isDataUnit i = false) (n : Nat) (make : Byte → List Byte → Result)
    (bytes : List Byte) (s : State) : UnitKept i s (readResponse n make (s.drive bytes)) := by
  obtain ⟨hframe, hcrc7, hd⟩ := readResponse_keeps n make (s.drive bytes)
  exact .of_response hi (readResponse_ran (s.drive bytes) n make) hframe hcrc7 hd

/-- R1 is the response poll alone. -/
theorem exec_r1_kept {flags : BitVec 7} {s t : State} (he : exec (.r1 flags) s = .next t) :
    UnitKept (.r1 flags) s t := by
  have hr := poll_ran isResponse 0 s.params.maxWaitBytes (s.drive [responseByte flags])
  have hs := poll_scratch isResponse 0 s.params.maxWaitBytes (s.drive [responseByte flags])
  rw [exec_r1, pollResponse, State.drive_params] at he
  generalize poll isResponse 0 s.params.maxWaitBytes (s.drive [responseByte flags]) = r at hr hs he
  have hkept (v : Result) (c : Option ErrorClass) : UnitKept (.r1 flags) s (r.2.finish v c) :=
    .of_response rfl (hr.trans (Ran.finish _ v c)) hs.frame hs.crc7acc ⟨hs.crc16acc, hs.tok⟩
  obtain ⟨_ | r1, u⟩ := r <;> cases he
  · exact hkept _ _
  · exact hkept _ _

theorem exec_responseItem_kept {i : Instr} (hi : isResponseItem i = true) {s t : State} (he : exec i s = .next t) :
    UnitKept i s t := by
  cases i with
  | r1 flags => exact exec_r1_kept he
  | r2 flags status => cases he; exact readResponse_kept rfl ..
  | r3 flags ocr => cases he; exact readResponse_kept rfl ..
  | r7 flags value => cases he; exact readResponse_kept rfl ..
  | _ => cases hi

theorem isUnit_of_isDataUnit {i : Instr} (h : isDataUnit i = true) : isUnit i = true := by
  cases i with
  | waitReady | receiveBlock | transmitBlock | tokenStart | tokenStartMultiWrite | tokenStopTran
  | dataResponseAccepted | dataBlock => rfl
  | _ => cases h

theorem isUnit_of_isResponseItem {i : Instr} (h : isResponseItem i = true) : isUnit i = true := by
  cases i with
  | r1 | r2 | r3 | r7 => rfl
  | _ => cases h

/-- A unit keeps host, session and control registers. -/
theorem exec_unit_registers {i : Instr} (hi : isUnit i = true) {s t : State} (he : exec i s = .next t) :
    SameHost s t ∧ SameSession s t ∧ SameControl s t := by
  obtain ⟨u, bytes, n, a, len, hu, hm, -⟩ := exec_unit_moved s hi
  cases he.symm.trans hu
  exact ⟨{ hm.host with }, { hm.session with }, { hm.control with }⟩

end Sys2Proof.Machine

/-! ### The statements -/

open Sys2Proof Sys2Proof.Machine

/-- Settles O24: the ready wait stops at the first byte that is not busy, or with its budget. -/
theorem waitReadyOutcomes : Obligations.WaitReadyOutcomes := by
  refine fun busy rest s hb => ⟨fun hl h => ?_, fun hl h => ?_⟩
  · rw [exec_waitReady, waitReady_of_answers hb hl h]
    rfl
  · rw [exec_waitReady, waitReady_exhausted hb hl h]
    rfl

/-- Settles O25: the block is taken to its last byte, and BUF is written at its own bytes alone. -/
theorem receiveBlockCompletes : Obligations.ReceiveBlockCompletes := by
  intro offset d rest s hw h
  have he : exec (.receiveBlock offset d.payload.length) s =
      .next ((s.received offset d).finish (.bool true) none) := by
    rw [exec_receiveBlock, receiveBlock_of_block hw h]
    rfl
  refine ⟨_, he, rfl, blockHeard_answers h, fun hbuf => ?_, exec_receiveBlock_outside he⟩
  rw [State.finish_buf, State.received_buf]
  exact Memory.readBytes_writeBytes hbuf offset d.payload

/-- Settles O26: each of the three failures takes what the card sent for it and ends with its class. -/
theorem receiveBlockFails : Obligations.ReceiveBlockFails := by
  intro offset n tail rest s h
  refine ⟨fun htail => ?_, fun k token hk hfiller hstart htail => ?_, fun k payload hi lo hk hlen hcrc htail => ?_⟩
  · obtain ⟨u, hu, hrest, -⟩ := receiveBlock_noToken (offset := offset) (n := n) (rest := rest) (by rw [h, htail])
    have he := exec_receiveBlock_failed hu
    exact ⟨_, he, hrest, rfl, rfl, exec_receiveBlock_outside he⟩
  · obtain ⟨u, hu, hrest, htok, -⟩ := receiveBlock_wrongToken (offset := offset) (n := n) (rest := rest) hk hfiller
      hstart (by rw [h, htail, List.append_assoc, List.singleton_append])
    have he := exec_receiveBlock_failed hu
    exact ⟨_, he, hrest, htok, rfl, rfl, exec_receiveBlock_outside he⟩
  · subst hlen
    obtain ⟨u, hu, hrest, htok, -⟩ := receiveBlock_badCrc (offset := offset) (rest := rest) hk hcrc
      (by rw [h, htail]; simp [tokenStartByte])
    have he := exec_receiveBlock_failed hu
    exact ⟨_, he, hrest, htok, rfl, rfl, exec_receiveBlock_outside he⟩

/-- Settles O27: the ready wait decides whether anything is sent, the token whether a payload follows. -/
theorem transmitBlockOutcomes : Obligations.TransmitBlockOutcomes := by
  refine fun offset token s => ⟨fun d rest htoken hd h => ?_, fun busy rest ignored htoken hb hl h => ?_,
    fun busy rest hb hl h => ?_⟩
  · obtain ⟨hb, hl, hi⟩ := hd
    rw [exec_transmitBlock, transmitBlock, transmitFrame_of_answers htoken hb hl (ignored := d.ignored)
      (resp := d.resp) (by rw [hi, Memory.readBytes_length]; rfl) (by simpa [Taken.bytes] using h),
      finishBool_isAccepted]
    rfl
  · subst htoken
    exact congrArg (fun r => Host.Outcome.next (finishBool r)) (transmitFrame_stop hb hl h)
  · obtain ⟨u, hu, hrest, hsent⟩ := transmitFrame_busy (token := token)
      (payload := s.buf.readBytes offset sectorSize) hb hl h
    refine ⟨u.finish (.bool false) (some .transportTimeout), ?_, hsent, hrest, rfl, rfl⟩
    rw [exec_transmitBlock, transmitBlock, hu]
    rfl

/-- Settles O28: the bounds of R431, which are those of R216. -/
theorem transceiverBounds : Obligations.TransceiverBounds := by
  refine ⟨fun s => ⟨?_, fun offset length => ?_, fun offset token => ?_⟩, rfl, rfl, rfl, rfl, rfl⟩
  · obtain ⟨t, he, hgrows, hdelays⟩ := exec_waitReady_bounds s
    exact ⟨t, he, hgrows, hgrows, hdelays⟩
  · obtain ⟨t, he, hgrows, hdelays⟩ := exec_receiveBlock_bounds offset length s
    exact ⟨t, he, hgrows, hgrows, hdelays⟩
  · obtain ⟨t, he, hgrows, hdelays⟩ := exec_transmitBlock_bounds offset token s
    exact ⟨t, he, hgrows, hgrows, hdelays⟩

/-- Settles O29: each row is a unit, and by its kind writes no more of the transients and of BUF than R199 names. -/
theorem transceiverFrame : Obligations.TransceiverFrame := by
  intro i s t he hi
  obtain ⟨hhost, hsession, hcontrol⟩ := exec_unit_registers (hi.elim isUnit_of_isDataUnit isUnit_of_isResponseItem) he
  have hk : UnitKept i s t := hi.elim (exec_dataUnit_kept · he) (exec_responseItem_kept · he)
  refine ⟨hhost, hsession, hcontrol, hk.frame, hk.crc7acc, hk.resp, hk.tok, hk.crc16acc, hk.buf, ?_, ?_⟩
  · rintro offset length rfl
    exact exec_receiveBlock_outside he
  · rintro token payload rfl
    exact exec_dataBlock_fromCard_outside he
end

section
/-!
Proofs of the family `44_init_fsm.md`: the transitions of the initialization (R231), BEGIN against a healthy card,
a card with unusable registers, an empty socket and any card (R232-R269), and END (R270).
-/

namespace Sys2Proof.Machine

/-! ### The transitions (R231) -/

/-- The action of a state led to `next`, with an error class exactly where that is `Failed`. -/
structure LeadsTo (next : InitState) (r : InitStep) : Prop where
  initState : r.2.initState = next
  cls       : r.1 ≠ none ↔ next = .failed

theorem leadsTo_goto {next : InitState} (s : State) (h : next ≠ .failed := by decide) : LeadsTo next (goto next s) :=
  ⟨rfl, iff_of_false (fun hr => hr rfl) h⟩

theorem leadsTo_fail (c : ErrorClass) (s : State) : LeadsTo .failed (fail c s) :=
  ⟨rfl, iff_of_true nofun rfl⟩

/-- A branch of the action is a row of the table. -/
theorem LeadsTo.ite {c d : Prop} [Decidable c] [Decidable d] {x y : InitState} {r q : InitStep} (hcd : c ↔ d)
    (hr : LeadsTo x r) (hq : LeadsTo y q) : LeadsTo (if d then x else y) (if c then r else q) := by
  by_cases hc : c
  · rw [if_pos hc, if_pos (hcd.1 hc)]
    exact hr
  · rw [if_neg hc, if_neg (mt hcd.2 hc)]
    exact hq

theorem sizeAccepted_iff {p : Params} {size : Nat} :
    sizeAccepted p size = true ↔ size ≠ 0 ∧ size ≤ p.maxSizeBytes := by
  simp only [sizeAccepted, Bool.and_eq_true, bne_iff_ne, decide_eq_true_eq]

/-- The probe of the legacy path keeps the parameters and the path. -/
theorem readyPoll_start (s : State) : (if s.pathV2 then s else legacyProbe s).params = s.params ∧
    (if s.pathV2 then s else legacyProbe s).pathV2 = s.pathV2 := by
  cases hv : s.pathV2 with
  | true => exact ⟨rfl, hv⟩
  | false =>
    obtain ⟨hprobe, -, hpath, -⟩ := legacyProbe_stepped s
    exact ⟨hprobe.host.params, hpath.trans hv⟩

theorem initReadyPoll_leadsTo {s : State} (hs : s.initState = .readyPoll) :
    LeadsTo (nextInitState s) (initReadyPoll s) := by
  obtain ⟨hparams, hpath⟩ := readyPoll_start s
  simp only [nextInitState, hs, initReadyPoll]
  generalize (if s.pathV2 then s else legacyProbe s) = s1 at hparams hpath ⊢
  have hran := sendCommandRetry_ran s1.pollCmd s1.pollArg 0 s1.params.readyPollAttempts
    s1.params.readyPollDelayUs s1
  rw [hran.control.pathV2, hpath, hparams]
  refine .ite isReady_iff (leadsTo_goto _ ?_) (leadsTo_fail _ _)
  split <;> exact nofun

theorem readCid_leadsTo (s : State) :
    LeadsTo (if (sendCommand 0x0A 0 16 s).1.r1 = 0 then .done else .failed) (readCid s) :=
  .ite isReady_iff (leadsTo_goto _) (leadsTo_fail _ _)

/-- CMD9, the capacity and CMD10 are tested one after the other (R260, R262, R263). -/
theorem initGeometryRead_leadsTo {s : State} (hs : s.initState = .geometryRead) :
    LeadsTo (nextInitState s) (initGeometryRead s) := by
  have hparams := (sendCommand_ran 0x09 0 16 s).host.params
  simp only [nextInitState, hs, initGeometryRead, State.setCsd_params, State.setCsd_csd]
  rw [hparams, ite_and]
  simp only [← and_assoc]
  rw [ite_and]
  exact .ite isReady_iff (.ite sizeAccepted_iff (readCid_leadsTo _) (leadsTo_fail _ _)) (leadsTo_fail _ _)

/-- Every state but `Failed`, which is terminal, takes the transition of the table. -/
theorem initStep_leadsTo {s : State} (h : s.initState ≠ .failed) : LeadsTo (nextInitState s) (initStep s) := by
  cases hs : s.initState with
  | reset =>
    simp only [initStep, nextInitState, hs]
    exact leadsTo_goto _
  | idleNegotiation =>
    simp only [initStep, nextInitState, hs]
    exact .ite isIdle_iff (leadsTo_goto _) (leadsTo_fail _ _)
  | versionBranch =>
    simp only [initStep, nextInitState, hs]
    exact .ite isIdle_iff (leadsTo_goto _) (leadsTo_goto _)
  | voltageCheck =>
    simp only [initStep_voltageCheck hs, nextInitState, hs]
    split <;> exact leadsTo_goto _
  | readyPoll =>
    rw [initStep, hs]
    exact initReadyPoll_leadsTo hs
  | ocrRead =>
    simp only [initStep, nextInitState, hs]
    exact .ite isReady_iff (leadsTo_goto _) (leadsTo_fail _ _)
  | blockLengthSet =>
    simp only [initStep, nextInitState, hs]
    exact .ite isReady_iff (leadsTo_goto _) (leadsTo_fail _ _)
  | geometryRead =>
    rw [initStep, hs]
    exact initGeometryRead_leadsTo hs
  | done =>
    simp only [initStep, nextInitState, hs]
    exact ⟨hs, iff_of_false (fun hr => hr rfl) nofun⟩
  | failed => exact absurd hs h

theorem initStep_initState (s : State) : (initStep s).2.initState = nextInitState s := by
  by_cases h : s.initState = .failed
  · simp only [initStep, nextInitState, h]
  · exact (initStep_leadsTo h).initState

/-- An answer to CMD8 other than 1 selects the legacy path (R243). -/
theorem initStep_versionBranch_pathV2 {s : State} (hs : s.initState = .versionBranch)
    (h : nextInitState s = .readyPoll) : (initStep s).2.pathV2 = false := by
  have hr : (sendCommand 0x08 0x000001AA 4 s).1.r1 ≠ 1 := by
    intro hr
    simp only [nextInitState, hs, if_pos hr] at h
    cases h
  simp only [initStep, hs, initVersionBranch, isIdle_iff, if_neg hr]
  rfl

/-- The echo test of R244 on any bytes. -/
theorem r7Fields_echoOk (b : Byte) (payload : List Byte) :
    (r7Fields b payload).echoOk = decide (fromBe payload % 65536 = 0x01AA) := by
  have hslice : (slice (BitVec.ofNat 32 (fromBe payload)) 0 16 : BitVec 16).toNat = fromBe payload % 65536 := by
    rw [slice_eq_of_toNat, BitVec.toNat_ofNat]
    omega
  rw [Bool.eq_iff_iff, decide_eq_true_iff, ← hslice]
  exact beq_iff_eq.trans BitVec.toNat_inj.symm

theorem initStep_voltageCheck_pathV2 {s : State} (hs : s.initState = .voltageCheck) :
    (initStep s).2.pathV2 = decide (fromBe s.resp % 65536 = 0x01AA) := by
  rw [initStep_voltageCheck hs, ← r7Fields_echoOk 0x01]
  cases (r7Fields 0x01 s.resp).echoOk <;> rfl

/-- No instruction but BEGIN takes a transition (`10_state.md` R30). -/
theorem exec_keeps_initState {i : Instr} {s t : State} (hb : ∀ frequency, i ≠ .beginOp frequency)
    (he : exec i s = .next t) : t.initState = s.initState := by
  cases hg : isGated i with
  | true =>
    obtain ⟨v, c, -, -, hend⟩ | ⟨-, f, hf, hbus⟩ := exec_gated hg s.initialized s.cardType
    · cases he.symm.trans (hend s rfl rfl)
      rfl
    · cases he.symm.trans (hbus s rfl rfl)
      obtain ⟨n, hm⟩ := hf.moved (s.setCs .asserted)
      exact hm.control.initState
  | false =>
    by_cases hend : i = .endOp
    · subst hend
      cases he.symm.trans (exec_endOp s)
      rfl
    · obtain ⟨-, -, hcontrol⟩ := exec_unit_registers (isUnit_of hg hb hend) he
      exact hcontrol.initState

/-! ### BEGIN against any card -/

/-- The transport is configured at the entry of BEGIN (R233, `20_memory.md` R56). -/
theorem beginStart_busConfig (s : State) : (beginStart s).busConfig =
    some ⟨s.params.bitOrder, s.params.clockMode, s.params.fInitHz⟩ := by
  obtain ⟨_, _, h⟩ := beginStart_eq s
  rw [h]
  rfl

theorem sizeAccepted_eq_false_iff {p : Params} {size : Nat} :
    sizeAccepted p size = false ↔ size = 0 ∨ p.maxSizeBytes < size := by
  rw [← Bool.not_eq_true, sizeAccepted_iff]
  omega

theorem InitClass.eq_or {t : State} {c : ErrorClass} (h : InitClass t c) : c = .transportTimeout ∨
    c = .protocolRejection ∨ c = .checksumMismatch ∨ c = .invalidGeometry := by
  obtain (h | h | h) | ⟨h, -⟩ := h
  · exact .inl h
  · exact .inr (.inl h)
  · exact .inr (.inr (.inl h))
  · exact .inr (.inr (.inr h))

/-- Class (d) is that of the capacity alone (R262). -/
theorem InitClass.size {t : State} (h : InitClass t .invalidGeometry) :
    (csdDecode t.csd).size = 0 ∨ t.params.maxSizeBytes < (csdDecode t.csd).size := by
  obtain (h | h | h) | ⟨-, h⟩ := h
  · cases h
  · cases h
  · cases h
  · exact sizeAccepted_eq_false_iff.1 h

theorem beginDone_sectorCount (frequency : Nat) (s : State) :
    (beginDone frequency s).sectorCount = BitVec.ofNat 64 ((csdDecode s.csd).size / 512) := by
  rw [← Nat.shiftRight_eq_div_pow _ 9]
  rfl

/-- A run that reached `Done` (R265, R29). -/
theorem Kept.registers_done {s t : State} (h : Kept s t) (ht : t.initState = .done) :
    ChosenPath t ∧ (s.params.errSentinel ≠ 0 → Fetched t.csd s t ∧ Fetched t.cid s t) := by
  obtain ⟨-, -, hroute, hregisters⟩ := h
  simp only [Route, Registers, ht] at hroute hregisters
  exact ⟨hroute, hregisters⟩

/-- A run that reached `Failed` (R233, R266). -/
theorem Kept.registers_failed {s t : State} (h : Kept s t) (ht : t.initState = .failed) :
    (SamePath s t ∨ ChosenPath t) ∧ t.cid = s.cid ∧
      (s.params.errSentinel ≠ 0 → t.csd = s.csd ∨ Fetched t.csd s t) := by
  obtain ⟨-, -, hroute, hregisters⟩ := h
  simp only [Route, Registers, ht] at hroute hregisters
  exact ⟨hroute, hregisters⟩

/-! ### BEGIN against a card that answers up to GeometryRead -/

/-- `Done` is terminal (R231). -/
theorem runInit_of_done {s : State} (h : s.initState = .done) (n : Nat) : runInit n s = (none, s) := by
  induction n with
  | zero => rfl
  | succ n ih => rw [runInit_step (t := s) (by simp only [initStep, h]), ih]

section GeometryRead

variable {n : Nat} {mosi rest : List Byte} {s w : State}

/-- BEGIN from GeometryRead on, where the registers of the card are healthy (R260-R265). -/
theorem exec_beginOp_completes (frequency : Nat) {c : Closing}
    (hrun : runInit longestPath (beginEntry s) = runInit (n + 1) w)
    (hw : AtGeometry mosi (c.bytes s.params.crc16Seed ++ rest) s w) (hc : c.Healthy s.params) : ∃ t,
    exec (.beginOp frequency) s = .next t ∧ t.result = .bool true ∧ t.error = none ∧ t.initialized = true ∧
      t.initState = .done ∧ t.pathV2 = w.pathV2 ∧ t.pollCmd = w.pollCmd ∧ t.pollArg = w.pollArg ∧
      t.cs = .released ∧ t.clockHz = min frequency s.params.fMaxHz ∧ t.cardType = w.cardType ∧
      t.csd = c.csdValue ∧ t.cid = c.cidValue ∧
      t.sectorCount = BitVec.ofNat 64 ((csdDecode c.csdValue).size / 512) ∧
      t.sent = s.sent ++ (mosi ++ c.mosi) ∧ t.answers = rest ∧ t.buf = s.buf := by
  obtain ⟨u, hstep, hstate, hparams, hbuf, hanswers, hsent, hcsd, hcid, htype, hpath, hcmd, harg⟩ :=
    initStep_geometryRead hw.initState (hw.params ▸ hc) (hw.params ▸ hw.answers)
  refine ⟨beginDone frequency u, ?_, rfl, rfl, rfl, hstate, hpath, hcmd, harg, rfl, ?_, htype, hcsd, hcid, ?_, ?_,
    hanswers, hbuf.trans hw.buf⟩
  · rw [exec_beginOp, hrun, runInit_step hstep, runInit_of_done hstate]
  · show min frequency u.params.fMaxHz = _
    rw [hparams, hw.params]
  · rw [beginDone_sectorCount, hcsd]
  · show u.sent = _
    rw [hsent, hw.sent, List.append_assoc]

/-- BEGIN from GeometryRead on, where the registers of the card make it fail (R260-R263, R266). -/
theorem exec_beginOp_breaks (frequency : Nat) {c : BrokenClosing}
    (hrun : runInit longestPath (beginEntry s) = runInit (n + 1) w)
    (hw : AtGeometry mosi (c.bytes s.params.crc16Seed ++ rest) s w) (hc : c.Breaks s.params) : ∃ t,
    exec (.beginOp frequency) s = .next t ∧ t.result = .bool false ∧ t.error = some c.failClass ∧
      t.initialized = false ∧ t.initState = .failed ∧ t.pathV2 = w.pathV2 ∧ t.pollCmd = w.pollCmd ∧
      t.pollArg = w.pollArg ∧ t.cs = .released ∧ t.clockHz = s.params.fInitHz ∧ t.cardType = 0 ∧
      t.sectorCount = 0 ∧ t.csd = c.csdValue s.csd ∧ t.cid = s.cid ∧
      t.sent = s.sent ++ (mosi ++ c.mosi) ∧ t.answers = rest ∧ t.buf = s.buf := by
  obtain ⟨u, hstep, hstate, -, hbuf, hanswers, hsent, hcsd, hcid, hpath, hcmd, harg⟩ :=
    initStep_geometryRead_broken hw.initState (hw.params ▸ hc) (hw.params ▸ hw.answers)
  have hu : runInit longestPath (beginEntry s) = (some c.failClass, u) := by rw [hrun, runInit, hstep]
  have hclock : u.clockHz = s.params.fInitHz := by
    obtain ⟨v, hv, hstepped, -⟩ := exec_beginOp_cases frequency s
    rw [hu] at hv
    rw [← beginStart_clockHz, ← hstepped.clockHz, hv]
  refine ⟨beginFailed c.failClass u, ?_, rfl, rfl, rfl, hstate, hpath, hcmd, harg, rfl, hclock, rfl, rfl,
    hcsd.trans (by rw [hw.csd]), hcid.trans hw.cid, ?_, hanswers, hbuf.trans hw.buf⟩
  · rw [exec_beginOp, hu]
  · show u.sent = _
    rw [hsent, hw.sent, List.append_assoc]

end GeometryRead

/-! ### BEGIN without a card -/

/-- The entry of BEGIN and the dummy bytes write none of these registers (R233, R240). -/
theorem beginStart_kept (s : State) : Untouched s (beginStart s) ∧ SamePath s (beginStart s) := by
  obtain ⟨hparams, hgot, hroute, hcsd, hcid⟩ := initReset_kept (s0 := s) (s := beginEntry s)
    ⟨rfl, ⟨[], (List.append_nil _).symm⟩, rfl, rfl⟩ ⟨rfl, rfl, rfl⟩
  exact ⟨⟨hparams, hgot, hcsd, hcid⟩, hroute⟩

/-- The dummy bytes on the wire (R240). -/
theorem beginStart_sent_answers (s : State) :
    (beginStart s).sent = s.sent ++ fillers s.params.dummyBytes ∧
      (beginStart s).answers = s.answers.drop s.params.dummyBytes := by
  obtain ⟨is, hl, h⟩ := beginStart_eq s
  rw [h]
  refine ⟨?_, ?_⟩
  · rw [State.setInitState_sent, State.setCs_sent, onWire_sent _ (by rw [hl, fillers_length])]
    rfl
  · rw [State.setInitState_answers, State.setCs_answers, State.onWire_answers, fillers_length]
    rfl

/-- The frame of CMD0. -/
theorem frameBytes_cmd0 : frameBytes (buildFrame 0 0) = [0x40, 0, 0, 0, 0, 0x95] := by decide +kernel

/-- State IdleNegotiation in an empty socket (R241). -/
theorem initStep_idleNegotiation_silent {rest : List Byte} {s : State} (hs : s.initState = .idleNegotiation)
    (h1 : s.params.errSentinel ≠ 1)
    (h : s.answers = fillers (s.params.cmd0Attempts * (6 + s.params.maxWaitBytes)) ++ rest) :
    ∃ t, initStep s = fail .transportTimeout t ∧
      Ran (s.params.cmd0Attempts * commandBound 0x00 s.params.maxWaitBytes 0) s t ∧ t.answers = rest ∧
      t.sent = s.sent ++ (List.replicate s.params.cmd0Attempts ([0x40, 0, 0, 0, 0, 0x95] ++
        fillers s.params.maxWaitBytes)).flatten := by
  obtain ⟨t, ht, ha, hsent⟩ := retryFrom_silent s.params.cmd0Attempts (k := 1) h1 h
  have he : sendCommandRetry 0x00 0 1 s.params.cmd0Attempts s.params.cmd0RetryDelayUs s =
      (⟨s.params.errSentinel, none, some .transportTimeout⟩, t) := by
    rw [sendCommandRetry, if_neg (fun h => absurd h.1 (by decide)), ht]
  have hran := sendCommandRetry_ran 0x00 0 1 s.params.cmd0Attempts s.params.cmd0RetryDelayUs s
  rw [he] at hran
  refine ⟨t, ?_, hran, ha, frameBytes_cmd0 ▸ hsent⟩
  simp only [initStep, hs, initIdleNegotiation, he, isIdle_iff, if_neg h1]
  rfl

/-! ### END -/

/-- The gate turns a gated operation away with no byte exchanged (`60_exceptions.md` R365). -/
theorem exec_gated_notInitialized {i : Instr} {s : State} (h : isGated i = true) (hs : s.initialized = false) :
    exec i s = .next (s.finish (.bool false) (some .notInitialized)) := by
  have hgate (u : State) : gated s u = s.finish (.bool false) (some .notInitialized) := by
    rw [gated, hs]
    rfl
  cases i with
  | readSectors a n => rw [exec_readSectors, hgate]
  | writeSectors a n => rw [exec_writeSectors, hgate]
  | eraseSectors a n => rw [exec_eraseSectors, hgate]
  | sync => rw [exec_sync, hgate]
  | _ => cases h

end Sys2Proof.Machine

/-! ### The statements -/

open Sys2Proof Sys2Proof.Machine

/-- Settles O33: the actions of the states take the rows of the table, and the instructions other than BEGIN are
END, gated operations and units, which write no sequencer register. -/
theorem initTransitions : Obligations.InitTransitions :=
  ⟨fun s => ⟨initStep_initState s, fun h => (initStep_leadsTo h).cls, initStep_versionBranch_pathV2,
    initStep_voltageCheck_pathV2⟩, fun _ _ _ => exec_keeps_initState⟩

/-- Settles O35: whatever the card answers, the machine runs to `Done` or to `Failed`, and what it has kept and
fetched by then is an invariant of its transitions. -/
theorem beginOutcome : Obligations.BeginOutcome := by
  intro frequency s
  obtain ⟨u, hu, hrun, -, hend⟩ := exec_beginOp_cases frequency s
  have hkept : Kept s u := hu ▸ runInit_beginEntry_kept s
  have hhost : SameHost s u := (beginStart_host s).trans hrun.host
  have hbuf : u.buf = s.buf := hrun.buf.trans (beginStart_buf s)
  have hbus := hrun.busConfig.trans (beginStart_busConfig s)
  obtain ⟨asserted, dummy, htrace, hdummy, hreleased, hasserted, -⟩ := beginStart_wire hrun
  obtain ⟨hstate, hfound, he⟩ | ⟨c, hstate, hclass, he⟩ := hend
  · obtain ⟨hcard, hsize⟩ := hfound.done hstate
    obtain ⟨hpath, hfetched⟩ := hkept.registers_done hstate
    rw [sizeAccepted_iff, hhost.params] at hsize
    refine ⟨_, he, ⟨hhost.params, hhost.requests⟩, hbuf, rfl, hbus,
      ⟨asserted, dummy, htrace, hdummy, hreleased, hasserted⟩, .inl ⟨hstate, rfl, rfl, rfl, hcard,
        Nat.pos_of_ne_zero hsize.1, hsize.2, beginDone_sectorCount frequency u, ?_, hpath, hfetched⟩⟩
    exact congrArg (fun p => min frequency p.fMaxHz) hhost.params
  · obtain ⟨hpath, hcid, hcsd⟩ := hkept.registers_failed hstate
    have hclock := hrun.clockHz.trans (beginStart_clockHz s)
    refine ⟨_, he, ⟨hhost.params, hhost.requests⟩, hbuf, rfl, hbus,
      ⟨asserted, dummy, htrace, hdummy, hreleased, hasserted⟩, .inr ⟨hstate, rfl, rfl, rfl, rfl, hclock, ?_, hcid,
        hcsd, ?_, hpath.imp_left fun ⟨hv2, hcmd, harg⟩ => ⟨hv2, hcmd, harg⟩⟩⟩
    · exact hclass.eq_or.imp (congrArg some) (.imp (congrArg some) (.imp (congrArg some) (congrArg some)))
    · intro hc
      cases hc
      exact hhost.params ▸ hclass.size

/-- Settles O36: the V2 path up to GeometryRead, then either end of that state. -/
theorem bringUpOfV2Card : Obligations.BringUpOfV2Card := by
  refine ⟨fun frequency o m c rest s ho hv hm hc h => ?_, fun frequency o m c rest s ho hv hm hc h => ?_⟩
  · obtain ⟨w, hrun, hw, hpath, hcmd, harg, htype⟩ := runInit_v2 ho hv hm h
    have ht := exec_beginOp_completes frequency hrun hw hc
    rwa [hpath, hcmd, harg, htype, List.append_assoc] at ht
  · obtain ⟨w, hrun, hw, hpath, hcmd, harg, -⟩ := runInit_v2 ho hv hm h
    have ht := exec_beginOp_breaks frequency hrun hw hc
    rwa [hpath, hcmd, harg, List.append_assoc] at ht

/-- Settles O37: the legacy path up to GeometryRead, then either end of that state. -/
theorem bringUpOfLegacyCard : Obligations.BringUpOfLegacyCard := by
  refine ⟨fun frequency o m c rest s ho hv hm hc h => ?_, fun frequency o m c rest s ho hv hm hc h => ?_⟩
  · obtain ⟨w, n, hrun, hw, hpath, hcmd, harg, htype⟩ := runInit_legacy ho hv hm h
    have ht := exec_beginOp_completes frequency hrun hw hc
    rwa [hpath, hcmd, harg, htype, List.append_assoc] at ht
  · obtain ⟨w, n, hrun, hw, hpath, hcmd, harg, -⟩ := runInit_legacy ho hv hm h
    have ht := exec_beginOp_breaks frequency hrun hw hc
    rwa [hpath, hcmd, harg, List.append_assoc] at ht

/-- Settles O38: the first command fails, so nothing but the entry of BEGIN and the wire shows. -/
theorem bringUpWithoutCard : Obligations.BringUpWithoutCard := by
  intro frequency rest s h1 h
  obtain ⟨hkept, hpath⟩ := beginStart_kept s
  obtain ⟨hsent, hanswers⟩ := beginStart_sent_answers s
  have hbuf := beginStart_buf s
  have hclock := beginStart_clockHz s
  have hstate : (beginStart s).initState = .idleNegotiation := rfl
  rw [h, ← fillers_append, List.append_assoc, drop_after (fillers_length _).symm] at hanswers
  have he := exec_beginOp s frequency
  rw [runInit_beginEntry] at he
  generalize beginStart s = v at hkept hpath hsent hanswers hbuf hclock hstate he
  obtain ⟨t, hstep, hran, hrest, hmosi⟩ := initStep_idleNegotiation_silent (rest := rest) hstate
    (by rw [hkept.params]; exact h1) (by rw [hkept.params]; exact hanswers)
  rw [runInit, hstep] at he
  refine ⟨_, he, rfl, rfl, rfl, rfl, rfl, rfl, hran.session.csd.trans hkept.csd, hran.session.cid.trans hkept.cid,
    hran.control.pathV2.trans hpath.pathV2, hran.control.pollCmd.trans hpath.pollCmd,
    hran.control.pollArg.trans hpath.pollArg, rfl, hran.control.clockHz.trans hclock, hran.buf.trans hbuf, hrest, ?_⟩
  show t.sent = _
  rw [hmosi, hsent, hkept.params, List.append_assoc]

/-- Settles O40: END is three register writes and the report; the gate reads the flag it cleared. -/
theorem endClearsTheFlag : Obligations.EndClearsTheFlag := by
  refine fun s => ⟨exec_endOp s, fun hflag hcs => ?_, fun i t hi he => ?_⟩
  · rw [exec_endOp, State.setInitialized, State.setCs, ← hflag, ← hcs]
    rfl
  · cases he.symm.trans (exec_endOp s)
    exact exec_gated_notInitialized hi rfl
end

section
/-!
Proofs of the family `45_geometry.md`: FIELD (R281), the fields and the capacity of the CSD (R285-R296), the fields of
the CID (R300, R301), and the laws of R308.
-/

namespace Sys2Proof.Machine

/-! ### The three operations -/

/-- `exec_field_refused` says what FIELD does outside the register. -/
theorem exec_field_inside {start width : Nat} (hw : width ≠ 0) (h : start + width ≤ 128) (value : BitVec 128)
    (s : State) : exec (.field value start width) s = .next
      { s with result := .field width (slice value start width).toNat, error := none } := by
  rw [exec_field, fieldOf_slice hw h]
  rfl

theorem exec_csdDecode (v : BitVec 128) (s : State) : exec (.csdDecode v) s = .next
    { s with result := .csd (csdDecode v)
             error := if (csdDecode v).valid then none else some .invalidGeometry } := rfl

theorem exec_cidDecode (v : BitVec 128) (s : State) :
    exec (.cidDecode v) s = .next { s with result := .cid (cidDecode v), error := none } := rfl

/-! ### Slices -/

section Slices

variable {n : Nat} (v : BitVec n)

theorem testBit_slice {start width k : Nat} (hk : k < width) :
    (slice v start width).toNat.testBit k = v.getLsbD (start + k) := by
  rw [BitVec.testBit_toNat, slice_getLsbD, decide_eq_true hk, Bool.true_and]

/-- Adjacent slices are one slice. -/
theorem slice_append_slice (start a b : Nat) :
    slice v (start + b) a ++ slice v start b = slice v start (a + b) :=
  BitVec.extractLsb'_append_extractLsb'_eq_extractLsb' rfl

/-- Adjacent slices are one slice, as numbers. -/
theorem slice_add_toNat (start a b : Nat) :
    (slice v start (a + b)).toNat = (slice v (start + b) a).toNat * 2 ^ b + (slice v start b).toNat := by
  rw [← slice_append_slice, BitVec.toNat_append, ← Nat.shiftLeft_add_eq_or_of_lt (slice v start b).isLt,
    Nat.shiftLeft_eq]

end Slices

/-- The high part of a concatenation. -/
theorem slice_append_left {n m : Nat} (x : BitVec n) (y : BitVec m) : slice (x ++ y) m n = x := by
  rw [slice_append_high (Nat.le_refl m), Nat.sub_self]
  exact BitVec.extractLsb'_eq_self

/-! ### The capacity (R294-R296) -/

theorem structureCode_cases (x : BitVec 2) : x = 0 ∨ x = 1 ∨ x = 2 ∨ x = 3 := by
  revert x
  decide

theorem sizeV1_eq (cSize : BitVec 12) (cSizeMult : BitVec 3) (readBlLen : BitVec 4) :
    sizeV1 cSize cSizeMult readBlLen =
      (cSize.toNat + 1) * 2 ^ (cSizeMult.toNat + 2) * 2 ^ readBlLen.toNat := by
  rw [sizeV1, Nat.shiftLeft_eq, Nat.shiftLeft_eq]

theorem sizeFlat_mod (cSize : Nat) : sizeFlat cSize % 524288 = 0 := Nat.mul_mod_left _ _

theorem sizeFlat_sectors (cSize : Nat) : sizeFlat cSize >>> 9 = (cSize + 1) * 1024 := by
  rw [sizeFlat, Nat.shiftRight_eq_div_pow]
  omega

/-- R296: the formulas of the three known variants never give 0. -/
theorem variantSize_eq_zero_iff (readBlLen : BitVec 4) (x : CsdVariant) :
    variantSize readBlLen x = 0 ↔ variantValid x = false := by
  cases x with
  | v1 cSize _ _ _ _ cSizeMult =>
    have hpos : 0 < sizeV1 cSize cSizeMult readBlLen := by
      rw [sizeV1_eq]
      positivity
    exact iff_of_false hpos.ne' nofun
  | v2 cSize => exact iff_of_false (Nat.mul_ne_zero cSize.toNat.succ_ne_zero (by decide)) nofun
  | v3 cSize => exact iff_of_false (Nat.mul_ne_zero cSize.toNat.succ_ne_zero (by decide)) nofun
  | none => exact iff_of_true rfl rfl

section Register

variable {v : BitVec 128}

theorem csdDecode_size_zero (h : slice v 126 2 = (0 : BitVec 2)) :
    (csdDecode v).size = sizeV1 (slice v 62 12) (slice v 47 3) (slice v 80 4) :=
  congrArg (variantSize (slice v 80 4)) (csdVariant_zero h)

theorem csdDecode_size_one (h : slice v 126 2 = (1 : BitVec 2)) :
    (csdDecode v).size = sizeFlat (slice v 48 22 : BitVec 22).toNat :=
  congrArg (variantSize (slice v 80 4)) (csdVariant_one h)

theorem csdDecode_size_two (h : slice v 126 2 = (2 : BitVec 2)) :
    (csdDecode v).size = sizeFlat (slice v 48 28 : BitVec 28).toNat :=
  congrArg (variantSize (slice v 80 4)) (csdVariant_two h)

theorem csdDecode_size_three (h : slice v 126 2 = (3 : BitVec 2)) : (csdDecode v).size = 0 :=
  congrArg (variantSize (slice v 80 4)) (csdVariant_three h)

/-- R285: the structures 0, 1 and 2 are known, 3 is not. -/
theorem csdDecode_valid_iff : (csdDecode v).valid = true ↔ slice v 126 2 ≠ (3 : BitVec 2) := by
  show variantValid (csdVariant v) = true ↔ _
  obtain h | h | h | h := structureCode_cases (slice v 126 2)
  · rw [csdVariant_zero h, h]
    exact iff_of_true rfl (by decide)
  · rw [csdVariant_one h, h]
    exact iff_of_true rfl (by decide)
  · rw [csdVariant_two h, h]
    exact iff_of_true rfl (by decide)
  · rw [csdVariant_three h, h]
    exact iff_of_false nofun (by decide)

theorem csdDecode_size_eq_zero_iff : (csdDecode v).size = 0 ↔ (csdDecode v).valid = false :=
  variantSize_eq_zero_iff _ _

end Register

/-- R308 (d): where bits 75:70 are 0, the 28 bits of a v3 register's capacity hold the number of the 22 of a v2
register. -/
theorem csdDecode_size_one_eq_two {low : BitVec 126} (h : slice low 70 6 = (0 : BitVec 6)) :
    (csdDecode ((1 : BitVec 2) ++ low)).size = (csdDecode ((2 : BitVec 2) ++ low)).size := by
  have hcapacity : (slice low 48 28).toNat = (slice low 48 22).toNat := by
    rw [slice_add_toNat low 48 6 22, h]
    exact Nat.zero_add _
  rw [csdDecode_size_one (slice_append_left _ low), csdDecode_size_two (slice_append_left _ low),
    slice_append_low (by decide), slice_append_low (by decide), hcapacity]

/-- R308 (e), R290: the capacity is a function of the structure, of the capacity field and, for v1, of the
multiplier and the block length. -/
theorem csdDecode_size_congr {v w : BitVec 128} (h : slice v 126 2 = (slice w 126 2 : BitVec 2))
    (h0 : slice v 126 2 = (0 : BitVec 2) → slice v 62 12 = (slice w 62 12 : BitVec 12) ∧
      slice v 47 3 = (slice w 47 3 : BitVec 3) ∧ slice v 80 4 = (slice w 80 4 : BitVec 4))
    (h1 : slice v 126 2 = (1 : BitVec 2) → slice v 48 22 = (slice w 48 22 : BitVec 22))
    (h2 : slice v 126 2 = (2 : BitVec 2) → slice v 48 28 = (slice w 48 28 : BitVec 28)) :
    (csdDecode v).size = (csdDecode w).size := by
  obtain hv | hv | hv | hv := structureCode_cases (slice v 126 2)
  · obtain ⟨hcapacity, hmult, hlen⟩ := h0 hv
    rw [csdDecode_size_zero hv, csdDecode_size_zero (h ▸ hv), hcapacity, hmult, hlen]
  · rw [csdDecode_size_one hv, csdDecode_size_one (h ▸ hv), h1 hv]
  · rw [csdDecode_size_two hv, csdDecode_size_two (h ▸ hv), h2 hv]
  · rw [csdDecode_size_three hv, csdDecode_size_three (h ▸ hv)]

/-! ### The CID in wire order (R301) -/

/-- A big-endian string is its high bytes and then its low bytes. -/
theorem beBytes_add (m n v : Nat) : beBytes (m + n) v = beBytes m (v / 256 ^ n) ++ beBytes n v := by
  induction m with
  | zero => rw [Nat.zero_add]; rfl
  | succ m ih =>
    rw [Nat.add_right_comm, beBytes, beBytes, ih, Nat.div_div_eq_div_mul, ← Nat.pow_add, Nat.add_comm n]
    rfl

/-- A big-endian string holds the low bytes of its number alone. -/
theorem beBytes_mod (n v : Nat) : beBytes n (v % 256 ^ n) = beBytes n v := by
  have h := beBytes_fromBe (beBytes n v)
  rwa [beBytes_length, fromBe_beBytes] at h

/-- A slice of whole bytes is `n` bytes of the register's, the `k` bytes below it shifted out (R283). -/
theorem beBytes_slice {w : Nat} (v : BitVec w) (k n : Nat) :
    beBytes n (slice v (8 * k) (8 * n)).toNat = beBytes n (v.toNat / 256 ^ k) := by
  rw [slice_eq_of_toNat, Nat.pow_mul, Nat.pow_mul]
  exact beBytes_mod n _

theorem beBytes_one (b : Byte) : beBytes 1 b.toNat = [b] := by
  rw [beBytes, Nat.pow_zero, Nat.div_one, BitVec.ofNat_toNat, BitVec.setWidth_eq]
  rfl

/-- The register's bytes, cut where the fields of R301 meet. -/
theorem beBytes_sixteen_cid (v : Nat) : beBytes 16 v = beBytes 1 (v / 256 ^ 15) ++ (beBytes 2 (v / 256 ^ 13) ++
    (beBytes 5 (v / 256 ^ 8) ++ (beBytes 1 (v / 256 ^ 7) ++ (beBytes 4 (v / 256 ^ 3) ++ beBytes 3 v)))) := by
  rw [← beBytes_add 4 3, ← beBytes_add 1 7, ← beBytes_add 5 8, ← beBytes_add 2 13, ← beBytes_add 1 15]

theorem cidDecode_bytes (v : BitVec 128) : beBytes 16 v.toNat =
    (cidDecode v).mid :: ((cidDecode v).oid ++ ((cidDecode v).pnm ++
      (((cidDecode v).major ++ (cidDecode v).minor : BitVec 8) ::
        (beBytes 4 (cidDecode v).psn.toNat ++ (beBytes 16 v.toNat).drop 13)))) := by
  have hmid : beBytes 1 (v.toNat / 256 ^ 15) = [(cidDecode v).mid] :=
    (beBytes_slice v 15 1).symm.trans (beBytes_one _)
  have hoid : beBytes 2 (v.toNat / 256 ^ 13) = (cidDecode v).oid := (beBytes_slice v 13 2).symm
  have hpnm : beBytes 5 (v.toNat / 256 ^ 8) = (cidDecode v).pnm := (beBytes_slice v 8 5).symm
  have hprv : beBytes 1 (v.toNat / 256 ^ 7) = [((cidDecode v).major ++ (cidDecode v).minor : BitVec 8)] :=
    ((beBytes_slice v 7 1).symm.trans (beBytes_one _)).trans
      (congrArg (fun b => [b]) (slice_append_slice v 56 4 4).symm)
  have hpsn : beBytes 4 (v.toNat / 256 ^ 3) = beBytes 4 (cidDecode v).psn.toNat := (beBytes_slice v 3 4).symm
  have hrest : (beBytes 16 v.toNat).drop 13 = beBytes 3 v.toNat := rfl
  rw [hrest, beBytes_sixteen_cid, hmid, hoid, hpnm, hprv, hpsn]
  rfl

/-- The date (R301): the year's byte over the month's nibble. -/
theorem cidDecode_date (v : BitVec 128) :
    fieldOf v 8 12 = some (((cidDecode v).year - 2000) * 16 + (cidDecode v).month.toNat) := by
  have hyear : (cidDecode v).year - 2000 = (slice v 12 8).toNat := Nat.add_sub_cancel_left _ _
  rw [fieldOf_slice (by decide) (by decide), hyear, slice_add_toNat v 8 8 4]
  rfl

end Sys2Proof.Machine

/-! ### The statements -/

open Sys2Proof Sys2Proof.Machine

/-- Settles O43: no report names the state; the capacities of the variants are compared case by case of the
structure. -/
theorem capacityLaws : Obligations.CapacityLaws := by
  refine ⟨fun v start width s s' i hi => ?_, fun v => ⟨csdDecode_valid_iff, csdDecode_size_eq_zero_iff⟩,
    by decide, fun v cSize h => ?_, fun low h => csdDecode_size_one_eq_two h,
    fun v w h h0 h1 h2 => csdDecode_size_congr h h0 h1 h2⟩
  · simp only [List.mem_cons, List.not_mem_nil, or_false] at hi
    obtain rfl | rfl | rfl := hi
    · refine ⟨_, _, exec_field s v start width, exec_field s' v start width, ?_⟩
      cases fieldOf v start width with
      | none => exact ⟨rfl, rfl⟩
      | some x => exact ⟨rfl, rfl⟩
    · exact ⟨_, _, exec_csdDecode v s, exec_csdDecode v s', rfl, rfl⟩
    · exact ⟨_, _, exec_cidDecode v s, exec_cidDecode v s', rfl, rfl⟩
  · obtain ⟨hv, rfl⟩ | ⟨hv, rfl⟩ := h
    · rw [csdDecode_size_one hv]
      exact ⟨sizeFlat_mod _, sizeFlat_sectors _⟩
    · rw [csdDecode_size_two hv]
      exact ⟨sizeFlat_mod _, sizeFlat_sectors _⟩

/-- Settles O42: every field is the slice at its position, which is what FIELD reads there; the variant and the
capacity follow the structure. -/
theorem csdFields : Obligations.CsdFields := by
  intro v s
  have field {start width : Nat} (hw : width ≠ 0 := by decide) (h : start + width ≤ 128 := by decide) :
      fieldOf v start width = some (slice v start width).toNat := fieldOf_slice hw h
  have known {k : BitVec 2} (h : slice v 126 2 = k) (hk : k ≠ 3 := by decide) : (csdDecode v).valid = true :=
    csdDecode_valid_iff.2 (h ▸ hk)
  refine ⟨csdDecode v, exec_csdDecode v s, field, field, field, field, field, field, field, field, field, field,
    field, field, field, field, field, field, field, field, field, field, field, field, field, fun h => ?_, fun h => ?_,
    fun h => ?_, fun h => ?_⟩
  · exact ⟨known h, _, _, _, _, _, _, csdVariant_zero h, field, field, field, field, field, field,
      (csdDecode_size_zero h).trans (sizeV1_eq _ _ _)⟩
  · exact ⟨known h, _, csdVariant_one h, field, csdDecode_size_one h⟩
  · exact ⟨known h, _, csdVariant_two h, field, csdDecode_size_two h⟩
  · have hsize := csdDecode_size_three h
    exact ⟨csdDecode_size_eq_zero_iff.1 hsize, csdVariant_three h, hsize⟩

/-- Settles O44: the register's bytes are cut at the fields of the layout; the date is two fields of one. -/
theorem cidFields : Obligations.CidFields := fun v s =>
  ⟨cidDecode v, exec_cidDecode v s, cidDecode_bytes v, beBytes_length _ _, beBytes_length _ _, cidDecode_date v,
    Nat.le_add_right _ _, fieldOf_slice (by decide) (by decide)⟩

/-- Settles O41: inside the register FIELD is the slice, whose bits and value are the statement's; outside it is
refused. -/
theorem fieldReadsTheSlice : Obligations.FieldReadsTheSlice := by
  refine fun value start width s => ⟨fun hw h => ?_, fun h => exec_field_refused h value s⟩
  refine ⟨_, exec_field_inside hw h value s, (slice value start width).isLt, fun k hk => testBit_slice value hk, ?_⟩
  rw [slice_eq_of_toNat, BitVec.toNat_ushiftRight, Nat.shiftRight_eq_div_pow]
end

section
/-!
Proofs of the family `46_block_ops.md`: the four operations on the bus against a card that answers (R323-R343), their
transfers closed against any card (R326, R334), what they leave unchanged (R321, R322), and the accessors (R346-R349).
-/

namespace Sys2Proof.Machine

/-! ### How a gated operation ends -/

/-- A gated operation is turned away with its report alone, or its body runs on the bus (R321). -/
theorem exec_gated_cases {i : Instr} (hi : isGated i = true) {s t : State} (he : exec i s = .next t) :
    (∃ v c, t = s.finish v c) ∨ s.initialized = true ∧ ∃ f, Body i f ∧ t = onBus f s := by
  obtain ⟨v, c, -, -, hend⟩ | ⟨hinit, f, hf, hbus⟩ := exec_gated hi s.initialized s.cardType
  · cases he.symm.trans (hend s rfl rfl)
    exact .inl ⟨v, c, rfl⟩
  · cases he.symm.trans (hbus s rfl rfl)
    exact .inr ⟨hinit, f, hf, rfl⟩

/-- Of the registers a gated operation writes chip select alone (R322). -/
theorem exec_gated_registers {i : Instr} (hi : isGated i = true) {s t : State} (he : exec i s = .next t) :
    SameHost s t ∧ SameSession s t ∧ SameControl (s.setCs t.cs) t := by
  obtain ⟨v, c, rfl⟩ | ⟨-, f, hf, rfl⟩ := exec_gated_cases hi he
  · have hr := Ran.finish s v c
    exact ⟨hr.host, hr.session, hr.control⟩
  · obtain ⟨n, hm⟩ := hf.moved (s.setCs .asserted)
    exact ⟨{ hm.host with }, { hm.session with }, { hm.control with cs := rfl }⟩

/-- A gated operation leaves chip select alone where it is turned away, and releases it otherwise (R33). -/
theorem exec_gated_cs {i : Instr} (hi : isGated i = true) {s t : State} (he : exec i s = .next t) :
    t.cs = s.cs ∨ t.cs = .released := by
  obtain ⟨v, c, rfl⟩ | ⟨-, f, -, rfl⟩ := exec_gated_cases hi he
  · exact .inl rfl
  · exact .inr rfl

/-- The exchanges of a gated operation: none where it is turned away, all with chip select asserted otherwise. -/
theorem exec_gated_wire {i : Instr} (hi : isGated i = true) {s t : State} (he : exec i s = .next t) :
    ∃ new, t.trace = new ++ s.trace ∧ t.xchgCount = s.xchgCount + new.length ∧
      t.answers = s.answers.drop new.length ∧ (∀ e ∈ new, e.cs = .asserted) ∧
      (new ≠ [] → s.initialized = true ∧ t.cs = .released) := by
  obtain ⟨v, c, rfl⟩ | ⟨hinit, f, hf, rfl⟩ := exec_gated_cases hi he
  · exact ⟨[], rfl, rfl, rfl, nofun, fun h => absurd rfl h⟩
  · obtain ⟨n, hm⟩ := hf.moved (s.setCs .asserted)
    obtain ⟨new, htrace, -, hcount, hanswers, hcs⟩ := hm.grows
    exact ⟨new, htrace, hcount, hanswers, hcs, fun _ => ⟨hinit, rfl⟩⟩

/-- READ_SECTORS writes no byte outside the sectors it reads (`20_memory.md` R66). -/
theorem exec_readSectors_outside {address : BitVec 64} {count : Nat} {s t : State}
    (he : exec (.readSectors address count) s = .next t) : SameBufferOutside 0 (512 * count) s t := by
  obtain ⟨v, c, rfl⟩ | ⟨-, f, hf, rfl⟩ := exec_gated_cases rfl he
  · exact fun _ _ => rfl
  · obtain ⟨n, hm⟩ := hf.moved (s.setCs .asserted)
    exact hm.outside

/-- A gated operation that receives no block writes neither BUF nor TOK. -/
theorem exec_gated_kept {i : Instr} (hi : isGated i = true) (hread : ∀ address count, i ≠ .readSectors address count)
    {s t : State} (he : exec i s = .next t) : t.buf = s.buf ∧ t.tok = s.tok ∧ t.freeCount = s.freeCount := by
  obtain ⟨v, c, rfl⟩ | ⟨-, f, hf, rfl⟩ := exec_gated_cases hi he
  · exact ⟨rfl, rfl, rfl⟩
  · obtain ⟨htok, hfree, -⟩ := hf.kept hread (s.setCs .asserted)
    exact ⟨hf.buf hread (s.setCs .asserted), htok, hfree⟩

theorem exec_gated_resp {i : Instr} (hi : isGated i = true) {s t : State} (he : exec i s = .next t) :
    t.resp = s.resp := by
  obtain ⟨v, c, rfl⟩ | ⟨-, f, hf, rfl⟩ := exec_gated_cases hi he
  · rfl
  · exact hf.resp (s.setCs .asserted)

/-- A gated operation that moves no block computes no CRC16. -/
theorem exec_gated_crc16acc {i : Instr} (hi : isGated i = true)
    (hread : ∀ address count, i ≠ .readSectors address count)
    (hwrite : ∀ address count, i ≠ .writeSectors address count) {s t : State} (he : exec i s = .next t) :
    t.crc16acc = s.crc16acc := by
  obtain ⟨v, c, rfl⟩ | ⟨-, f, hf, rfl⟩ := exec_gated_cases hi he
  · rfl
  · obtain ⟨-, -, hcrc⟩ := hf.kept hread (s.setCs .asserted)
    exact hcrc hwrite

/-- SYNC sends no command. -/
theorem exec_sync_framing {s t : State} (he : exec .sync s = .next t) : SameFraming s t := by
  obtain ⟨v, c, rfl⟩ | ⟨-, f, hf, rfl⟩ := exec_gated_cases rfl he
  · exact ⟨rfl, rfl, rfl⟩
  · cases hf
    exact { (waitReady_scratch (s.setCs .asserted)).framing with }

/-- The body of SYNC is one ready wait (R343). -/
theorem syncBody_eq {s t : State} {ready : Bool} (h : waitReady s = (ready, t)) :
    syncBody s = (if ready then none else some .transportTimeout, t) := by
  rw [syncBody, h]

/-- No instruction but BEGIN writes a session or sequencer register, but for the flag (END) and chip select (END
and the gated operations). -/
theorem exec_keeps_registers {i : Instr} {s t : State} (hb : ∀ frequency, i ≠ .beginOp frequency)
    (he : exec i s = .next t) :
    SameSession (s.setInitialized t.initialized) t ∧ SameControl (s.setCs t.cs) t ∧
      (i ≠ .endOp → t.initialized = s.initialized) ∧ (isGated i = false → i ≠ .endOp → t.cs = s.cs) := by
  cases hg : isGated i with
  | true =>
    obtain ⟨-, hsession, hcontrol⟩ := exec_gated_registers hg he
    exact ⟨{ hsession with initialized := rfl }, hcontrol, fun _ => hsession.initialized, nofun⟩
  | false =>
    by_cases hend : i = .endOp
    · subst hend
      cases he.symm.trans (exec_endOp s)
      exact ⟨⟨rfl, rfl, rfl, rfl, rfl⟩, ⟨rfl, rfl, rfl, rfl, rfl, rfl, rfl⟩, fun h => absurd rfl h,
        fun _ h => absurd rfl h⟩
    · obtain ⟨-, hsession, hcontrol⟩ := exec_unit_registers (isUnit_of hg hb hend) he
      exact ⟨{ hsession with initialized := rfl }, { hcontrol with cs := rfl }, fun _ => hsession.initialized,
        fun _ _ => hcontrol.cs⟩

/-! ### The command that opens a transfer -/

/-- A command that must answer 0 fails with its class where it does not (`30_encoding.md` R102). -/
theorem requireReady_eq (o : CmdOut) : requireReady o = if o.r1 = 0 then none else some o.failClass := by
  simp only [requireReady, isReady_iff]

section Opened

variable {arg : BitVec 32} {count : Nat} {s u : State} {o : CmdOut}

theorem readSingle_accepted (h : sendCommand 0x11 arg 0 s = (o, u)) (h0 : o.r1 = 0) :
    readSingle arg s = receiveBlock 0 sectorSize u := by
  simp only [readSingle, h, requireReady_eq, if_pos h0]

theorem readSingle_rejected (h : sendCommand 0x11 arg 0 s = (o, u)) (h0 : o.r1 ≠ 0) :
    readSingle arg s = (some o.failClass, u.unspecify 0 sectorSize) := by
  simp only [readSingle, h, requireReady_eq, if_neg h0]

theorem readMultiple_accepted (h : sendCommand 0x12 arg 0 s = (o, u)) (h0 : o.r1 = 0) :
    readMultiple arg count s =
      ((readBlocks count 0 u).1, (sendCommand 0x0C 0 0 (readBlocks count 0 u).2).2) := by
  simp only [readMultiple, h, requireReady_eq, if_pos h0]

theorem readMultiple_rejected (h : sendCommand 0x12 arg 0 s = (o, u)) (h0 : o.r1 ≠ 0) :
    readMultiple arg count s = (some o.failClass, u.unspecify 0 (sectorSize * count)) := by
  simp only [readMultiple, h, requireReady_eq, if_neg h0]

theorem writeSingle_accepted (h : sendCommand 0x18 arg 0 s = (o, u)) (h0 : o.r1 = 0) :
    writeSingle arg s = transmitBlock 0 tokenStartByte u := by
  simp only [writeSingle, h, requireReady_eq, if_pos h0]

theorem writeSingle_rejected (h : sendCommand 0x18 arg 0 s = (o, u)) (h0 : o.r1 ≠ 0) :
    writeSingle arg s = (some o.failClass, u) := by
  simp only [writeSingle, h, requireReady_eq, if_neg h0]

theorem writeMultiple_accepted (h : sendCommand 0x19 arg 0 (preErase count s) = (o, u)) (h0 : o.r1 = 0) :
    writeMultiple arg count s =
      ((writeBlocks count 0 u).1.or (transmitBlock 0 tokenStopTranByte (writeBlocks count 0 u).2).1,
        (transmitBlock 0 tokenStopTranByte (writeBlocks count 0 u).2).2) := by
  simp only [writeMultiple, h, requireReady_eq, if_pos h0]

theorem writeMultiple_rejected (h : sendCommand 0x19 arg 0 (preErase count s) = (o, u)) (h0 : o.r1 ≠ 0) :
    writeMultiple arg count s = (some o.failClass, u) := by
  simp only [writeMultiple, h, requireReady_eq, if_neg h0]

end Opened

/-! ### The blocks of a read -/

theorem State.sector_congr {s t : State} (h : t.buf = s.buf) (k : Nat) : t.sector k = s.sector k := by
  rw [State.sector, h, State.sector]

/-- A sector below the part of BUF that may change is kept. -/
theorem SameBufferOutside.sector {k j n : Nat} {s t : State} (h : SameBufferOutside (sectorSize * k) n s t)
    (hj : j < k) : t.sector j = s.sector j :=
  Memory.readBytes_congr fun c _ hc => h c (.inl (hc.trans_le (Nat.mul_le_mul_left sectorSize hj)))

/-- The block loop of a read has received `n` bytes, the first of them the good blocks `blocks` (R325). -/
structure BlocksRead (blocks : List Block) (n : Nat) (rest : List Byte) (s t : State) : Prop where
  params  : t.params = s.params
  answers : t.answers = rest
  sent    : t.sent = s.sent ++ fillers n
  sector  : ∀ k d, blocks[k]? = some d → t.sector k = d.payload

section Loop

variable {blocks : List Block} {rest : List Byte} {s : State}

/-- The loop over good blocks alone. -/
theorem readBlocks_whole (hd : ∀ d ∈ blocks, d.Sector s.params.tokenWaitSteps)
    (h : s.answers = blocks.flatMap (Block.bytes s.params.crc16Seed) ++ rest) (hw : s.buf.wf = true) :
    ∃ t, readBlocks blocks.length 0 s = (none, t) ∧ BlocksRead blocks (blocks.map Block.count).sum rest s t := by
  obtain ⟨t, hloop, hrest, hparams, -, hsent, hsector⟩ := readBlocks_scripted blocks (k := 0) hd h hw
  exact ⟨t, hloop 0, hparams, hrest, hsent, fun k d hk => Nat.zero_add k ▸ hsector k d hk⟩

/-- The loop breaks off at the first block that does not arrive; what it leaves unspecified lies above the good
sectors (R327). -/
theorem readBlocks_broken {broken : List Byte} {cls : ErrorClass} {count : Nat} (hlt : blocks.length < count)
    (hd : ∀ d ∈ blocks, d.Sector s.params.tokenWaitSteps) (hb : BrokenBlock s.params 512 broken cls)
    (h : s.answers = blocks.flatMap (Block.bytes s.params.crc16Seed) ++ (broken ++ rest)) (hw : s.buf.wf = true) :
    ∃ t, readBlocks count 0 s = (some cls, t) ∧
      BlocksRead blocks ((blocks.map Block.count).sum + broken.length) rest s t := by
  obtain ⟨u, hloop, hanswers, hparams, -, hsent, hsector⟩ := readBlocks_scripted blocks (k := 0) hd h hw
  obtain ⟨n, rfl⟩ := Nat.exists_eq_add_of_lt hlt
  obtain ⟨v, hv, hrest, hmosi⟩ := receiveBlock_broken (offset := sectorSize * (0 + blocks.length)) (n := 512)
    (hparams ▸ hb) hanswers
  have hend : readBlocks (n + 1) (0 + blocks.length) u =
      (some cls, v.unspecify (sectorSize * (0 + blocks.length + 1)) (sectorSize * n)) := by
    simp only [readBlocks, sectorSize] at hv ⊢
    rw [hv]
  have hmoved := readBlocks_moved (n + 1) (0 + blocks.length) u
  rw [hend] at hmoved
  refine ⟨_, (hloop (n + 1)).trans hend, hmoved.host.params.trans hparams, hrest, ?_, fun k d hk => ?_⟩
  · rw [State.unspecify_sent, hmosi, hsent, List.append_assoc, fillers_append]
  · obtain ⟨hlt, -⟩ := List.getElem?_eq_some_iff.1 hk
    rw [hmoved.outside.sector (by omega), ← hsector k d hk, Nat.zero_add]

end Loop

/-! ### READ_SECTORS against a card that answers -/

section Read

variable {address : BitVec 64} {arg : BitVec 32} {q : Reply} {rest : List Byte} {s : State}

/-- One sector: CMD17 accepted, then whatever the reception of the block ends with (R324). -/
theorem exec_readSectors_single (hi : s.initialized = true)
    (hc : cmdAddr (isBlock s.cardType) address.toNat = some arg) (hq : q.Heard s.params.maxWaitBytes 1)
    (h0 : q.r1 = 0) (h : s.answers = q.bytes ++ rest) : ∃ u, Said (q.mosi false 17 arg) rest s u ∧
      ∀ c t, receiveBlock 0 sectorSize u = (c, t) →
        exec (.readSectors address 1) s = .next ((t.setCs .released).finish (.bool c.isNone) c) := by
  obtain ⟨u, hcmd, hsaid⟩ := sendCommand_said (cmd := 0x11) (by decide) (by decide) arg (s := s.setCs .asserted) hq h
  refine ⟨u, { hsaid with }, fun c t ht => ?_⟩
  rw [exec_readSectors_one hi hc, onBus_eq ((readSingle_accepted hcmd h0).trans ht)]

/-- Several sectors: CMD18 accepted, the block loop, and CMD12, however that goes (R325, R326). -/
theorem exec_readSectors_multiple {stop : Attempt} {blocks : List Block} {count n : Nat} {script : List Byte}
    {c : Option ErrorClass} (hi : s.initialized = true)
    (hc : cmdAddr (isBlock s.cardType) address.toNat = some arg) (hn : 1 < count)
    (hq : q.Heard s.params.maxWaitBytes 0) (h0 : q.r1 = 0) (hstop : stop.Runs s.params false 12)
    (h : s.answers = q.bytes ++ script)
    (hloop : ∀ u, u.params = s.params → u.buf = s.buf → u.answers = script →
      ∃ v, readBlocks count 0 u = (c, v) ∧ BlocksRead blocks n (stop.bytes false ++ rest) u v) : ∃ t,
      exec (.readSectors address count) s = .next t ∧ t.result = .bool c.isNone ∧ t.error = c ∧
      (∀ k d, blocks[k]? = some d → t.sector k = d.payload) ∧
      SameBufferOutside 0 (512 * count) s t ∧ t.cs = .released ∧ t.answers = rest ∧
      t.sent = s.sent ++ (q.mosi false 18 arg ++ (fillers n ++ stop.mosi false 12 0)) := by
  obtain ⟨u, hcmd, hsaid⟩ := sendCommand_said (cmd := 0x12) (by decide) (by decide) arg (s := s.setCs .asserted) hq h
  obtain ⟨v, hv, hblocks⟩ := hloop u hsaid.params hsaid.buf hsaid.answers
  obtain ⟨w, _, hw, hclosed⟩ := sendCommand_attempted_said (cmd := 0x0C) (by decide) 0
    (by rw [hblocks.params, hsaid.params]; exact hstop) hblocks.answers
  have he : exec (.readSectors address count) s = .next ((w.setCs .released).finish (.bool c.isNone) c) := by
    rw [exec_readSectors_many hi hn hc, onBus_eq (t := w) (c := c) (by rw [readMultiple_accepted hcmd h0, hv, hw])]
  refine ⟨_, he, rfl, rfl, fun k d hk => ?_, exec_readSectors_outside he, rfl, hclosed.answers, ?_⟩
  · exact (State.sector_congr hclosed.buf k).trans (hblocks.sector k d hk)
  · rw [State.finish_sent, State.setCs_sent, hclosed.sent, hblocks.sent, hsaid.sent, List.append_assoc,
      List.append_assoc]
    rfl

end Read

/-! ### WRITE_SECTORS against a card that answers -/

/-- On an SD card the pre-erase hint goes out, however it goes; on another card nothing does (R331). -/
theorem preErase_said {hint : Attempt} {count : Nat} {rest : List Byte} {s : State} (hh : hint.Runs s.params true 23)
    (h : s.answers = (if isSd1 s.cardType || isSd2 s.cardType then hint.bytes true else []) ++ rest) :
    Said (if isSd1 s.cardType || isSd2 s.cardType then hint.mosi true 23 (BitVec.ofNat 32 count) else []) rest s
      (preErase count s) := by
  by_cases hsd : (isSd1 s.cardType || isSd2 s.cardType) = true
  · rw [if_pos hsd] at h ⊢
    obtain ⟨t, _, he, hsaid⟩ := sendCommand_attempted_said (cmd := 0x97) (by decide) (BitVec.ofNat 32 count) hh h
    rw [preErase, if_pos hsd, he]
    exact hsaid
  · rw [if_neg hsd] at h ⊢
    rw [preErase, if_neg hsd]
    exact (Ran.refl s).said (List.append_nil _).symm h

/-- WRITE_SECTORS only reads BUF (`20_memory.md` R61). -/
theorem exec_writeSectors_buf {address : BitVec 64} {count : Nat} {s t : State}
    (he : exec (.writeSectors address count) s = .next t) : t.buf = s.buf := by
  obtain ⟨hbuf, -, -⟩ := exec_gated_kept (i := .writeSectors address count) rfl nofun he
  exact hbuf

theorem Taken.Heard.ignored_length {w : Nat} {d : Taken} (h : d.Heard w) (s : State) (k : Nat) :
    d.ignored.length = (s.sector k).length + 3 := by
  obtain ⟨-, -, hlen⟩ := h
  rw [hlen, State.sector, Memory.readBytes_length, sectorSize]

/-- The stop token after a ready wait that ends in time (R334). -/
theorem transmitBlock_stop {busy rest : List Byte} {x : Byte} {s : State} (offset : Nat) (hb : ∀ b ∈ busy, b ≠ 0xFF)
    (hl : busy.length < s.params.readyWaitSteps) (h : s.answers = readyBytes busy ++ x :: rest) :
    ∃ t, transmitBlock offset tokenStopTranByte s = (none, t) ∧ t.answers = rest ∧
      t.sent = s.sent ++ (fillers (busy.length + 1) ++ [0xFD]) := by
  refine ⟨_, transmitFrame_stop hb hl h, onWire_answers_of_append (i := [x]) rfl (waited_answers h), ?_⟩
  rw [onWire_sent _ (by simp), waited_sent, List.append_assoc]
  rfl

section Write

variable {address : BitVec 64} {arg : BitVec 32} {count : Nat} {o : CmdOut} {s u t : State} {c : Option ErrorClass}
  (hi : s.initialized = true) (hc : cmdAddr (isBlock s.cardType) address.toNat = some arg)
include hi hc

/-- One sector of a card that accepted CMD24: the end of the block is the end of the write (R332). -/
theorem exec_writeSectors_single (h : sendCommand 0x18 arg 0 (s.setCs .asserted) = (o, u)) (h0 : o.r1 = 0)
    (ht : transmitBlock 0 tokenStartByte u = (c, t)) :
    exec (.writeSectors address 1) s = .next ((t.setCs .released).finish (.bool c.isNone) c) := by
  rw [exec_writeSectors_one hi hc, onBus_eq ((writeSingle_accepted h h0).trans ht)]

/-- Several sectors of a card that accepted CMD25: the blocks, then the stop token (R333, R334). -/
theorem exec_writeSectors_multiple (hn : 1 < count)
    (h : sendCommand 0x19 arg 0 (preErase count (s.setCs .asserted)) = (o, u)) (h0 : o.r1 = 0)
    {e : Option ErrorClass} {v : State} (hv : writeBlocks count 0 u = (c, v))
    (ht : transmitBlock 0 tokenStopTranByte v = (e, t)) :
    exec (.writeSectors address count) s = .next ((t.setCs .released).finish (.bool (c.or e).isNone) (c.or e)) := by
  rw [exec_writeSectors_many hi hn hc, onBus_eq (c := c.or e) (t := t) (by rw [writeMultiple_accepted h h0, hv, ht])]

end Write

/-! ### Transfers against any card (R324-R326, R332-R334) -/

section Transfer

variable {address : BitVec 64} {arg : BitVec 32} {count : Nat} {o : CmdOut} {s t u : State}

theorem count_cases (hn : count ≠ 0) : count = 1 ∨ 1 < count := by omega

theorem readCommand_many (hn : 1 < count) : readCommand count arg s = sendCommand 0x12 arg 0 (s.setCs .asserted) := by
  rw [readCommand, if_neg hn.ne']

theorem writeCommand_many (hn : 1 < count) :
    writeCommand count arg s = sendCommand 0x19 arg 0 (preErase count (s.setCs .asserted)) := by
  rw [writeCommand, if_neg hn.ne']

theorem readCommand_frame (count : Nat) (arg : BitVec 32) (s : State) :
    (readCommand count arg s).2.frame = buildFrame (if count = 1 then 17 else 18) arg := by
  rw [readCommand]
  split
  · exact sendCommand_frame (by decide) (by decide) arg 0 _
  · exact sendCommand_frame (by decide) (by decide) arg 0 _

theorem writeCommand_frame (count : Nat) (arg : BitVec 32) (s : State) :
    (writeCommand count arg s).2.frame = buildFrame (if count = 1 then 24 else 25) arg := by
  rw [writeCommand]
  split
  · exact sendCommand_frame (by decide) (by decide) arg 0 _
  · exact sendCommand_frame (by decide) (by decide) arg 0 _

theorem readCommand_ran (count : Nat) (arg : BitVec 32) (s : State) :
    ∃ n, Ran n (s.setCs .asserted) (readCommand count arg s).2 := ⟨_, sendCommand_ran ..⟩

theorem writeCommand_ran (count : Nat) (arg : BitVec 32) (s : State) :
    ∃ n, Ran n (s.setCs .asserted) (writeCommand count arg s).2 := by
  rw [writeCommand]
  split
  · exact ⟨_, sendCommand_ran ..⟩
  · obtain ⟨n, hn⟩ := preErase_ran count (s.setCs .asserted)
    exact ⟨_, hn.trans (sendCommand_ran ..)⟩

theorem writeBlocks_framing (n k : Nat) (s : State) : SameFraming s (writeBlocks n k s).2 := by
  induction n generalizing k s with
  | zero => exact ⟨rfl, rfl, rfl⟩
  | succ n ih =>
    obtain ⟨hblock, -⟩ := transmitBlock_framing (sectorSize * k) tokenStartMultiWriteByte s
    rw [writeBlocks]
    split <;> rename_i he <;> rw [he] at hblock
    · exact hblock.trans (ih (k + 1) _)
    · exact hblock

theorem stopCommand_frame (s : State) : (sendCommand 0x0C 0 0 s).2.frame = buildFrame 12 0 :=
  sendCommand_frame (by decide) (by decide) 0 0 s

/-- The end of an accepted read of several sectors: fillers during the blocks, then CMD12 (R325, R326). -/
theorem readClosed_sent (count : Nat) (u : State) : ∃ n k, k ≤ u.params.maxWaitBytes ∧
    (sendCommand 0x0C 0 0 (readBlocks count 0 u).2).2.sent =
      u.sent ++ (fillers n ++ (frameBytes (buildFrame 12 0) ++ fillers k)) := by
  obtain ⟨n, hblocks⟩ := readBlocks_sent count 0 u
  obtain ⟨k, hk, hstop⟩ := sendCommand_sent (cmd := 0x0C) (by decide) (by decide) 0 (readBlocks count 0 u).2
  rw [(readBlocks_moved count 0 u).host.params] at hk
  refine ⟨n, k, hk, ?_⟩
  rw [hstop, hblocks, List.append_assoc, show cmdIndex 0x0C = 12 by decide, show stuffing false 12 = 0 by decide,
    Nat.zero_add]

theorem transmitBlock_stop_ready (offset : Nat) (h : (waitReady s).1 = true) :
    transmitBlock offset tokenStopTranByte s = (none, send tokenStopTranByte (waitReady s).2) := by
  simp only [transmitBlock, transmitFrame, sendToken, h, if_true]

/-- Without a ready card the stop token is not sent (R211). -/
theorem transmitBlock_stop_busy (offset : Nat) (h : (waitReady s).1 = false) :
    transmitBlock offset tokenStopTranByte s = (some .transportTimeout, (waitReady s).2) := by
  simp only [transmitBlock, transmitFrame, sendToken, h, Bool.false_eq_true, if_false]

section Ends

variable (hi : s.initialized = true) (hc : cmdAddr (isBlock s.cardType) address.toNat = some arg)
include hi hc

theorem exec_readSectors_rejected (hn : count ≠ 0) (h : readCommand count arg s = (o, u)) (h0 : o.r1 ≠ 0) :
    exec (.readSectors address count) s = .next
      (((u.unspecify 0 (sectorSize * count)).setCs .released).finish (.bool false) (some o.failClass)) := by
  obtain rfl | h1 := count_cases hn
  · rw [exec_readSectors_one hi hc, onBus_eq (readSingle_rejected h h0)]
    rfl
  · rw [readCommand_many h1] at h
    rw [exec_readSectors_many hi h1 hc, onBus_eq (readMultiple_rejected h h0)]
    rfl

theorem exec_readSectors_accepted (hn : 1 < count) (h : readCommand count arg s = (o, u)) (h0 : o.r1 = 0) :
    exec (.readSectors address count) s = .next
      (((sendCommand 0x0C 0 0 (readBlocks count 0 u).2).2.setCs .released).finish
        (.bool (readBlocks count 0 u).1.isNone) (readBlocks count 0 u).1) := by
  rw [readCommand_many hn] at h
  rw [exec_readSectors_many hi hn hc, onBus_eq (readMultiple_accepted h h0)]

theorem exec_writeSectors_rejected (hn : count ≠ 0) (h : writeCommand count arg s = (o, u)) (h0 : o.r1 ≠ 0) :
    exec (.writeSectors address count) s = .next
      ((u.setCs .released).finish (.bool false) (some o.failClass)) := by
  obtain rfl | h1 := count_cases hn
  · rw [exec_writeSectors_one hi hc, onBus_eq (writeSingle_rejected h h0)]
    rfl
  · rw [writeCommand_many h1] at h
    rw [exec_writeSectors_many hi h1 hc, onBus_eq (writeMultiple_rejected h h0)]
    rfl

/-- The last frame of a write is its opening command: blocks and stop token build none. -/
theorem exec_writeSectors_frame (hn : count ≠ 0) (he : exec (.writeSectors address count) s = .next t) :
    t.frame = buildFrame (if count = 1 then 24 else 25) arg := by
  rw [← writeCommand_frame count arg s]
  rcases hcmd : writeCommand count arg s with ⟨o, u⟩
  by_cases h0 : o.r1 = 0
  · obtain rfl | h1 := count_cases hn
    · cases he.symm.trans (exec_writeSectors_single hi hc hcmd h0 (Prod.eta _).symm)
      exact (transmitBlock_framing 0 tokenStartByte u).1.frame
    · rw [writeCommand_many h1] at hcmd
      cases he.symm.trans (exec_writeSectors_multiple hi hc h1 hcmd h0 (Prod.eta _).symm (Prod.eta _).symm)
      exact ((writeBlocks_framing count 0 u).trans (transmitBlock_framing ..).1).frame
  · cases he.symm.trans (exec_writeSectors_rejected hi hc hn hcmd h0)
    rfl

/-- The end of an accepted write of several sectors: the stop token where the card becomes ready for it, `false`
where it does not (R334). -/
theorem exec_writeSectors_closed (hn : 1 < count) (hcmd : writeCommand count arg s = (o, u)) (h0 : o.r1 = 0)
    (he : exec (.writeSectors address count) s = .next t) :
    ((waitReady (writeBlocks count 0 u).2).1 = true → t.trace.head?.map Exchange.mosi = some 0xFD) ∧
      ((waitReady (writeBlocks count 0 u).2).1 = false → t.result = .bool false) := by
  rw [writeCommand_many hn] at hcmd
  refine ⟨fun hready => ?_, fun hbusy => ?_⟩
  · cases he.symm.trans (exec_writeSectors_multiple hi hc hn hcmd h0 (Prod.eta _).symm
      (transmitBlock_stop_ready 0 hready))
    rfl
  · cases he.symm.trans (exec_writeSectors_multiple hi hc hn hcmd h0 (Prod.eta _).symm
      (transmitBlock_stop_busy 0 hbusy))
    cases (writeBlocks count 0 u).1 <;> rfl

end Ends

end Transfer

/-! ### A block that is not accepted -/

section Untaken

variable {blocks : List Taken} {last : Untaken} {rest : List Byte} {count : Nat} {s : State}

/-- The block loop of a write ends at the first block that is not accepted (R335). -/
theorem writeBlocks_untaken (hlt : blocks.length < count)
    (hd : ∀ d ∈ blocks, d.Heard s.params.readyWaitSteps ∧ slice d.resp 0 5 = (0b00101 : BitVec 5))
    (hl : last.Heard s.params.readyWaitSteps) (h : s.answers = blocks.flatMap Taken.bytes ++ (last.bytes ++ rest)) :
    ∃ t, writeBlocks count 0 s = (some last.failClass, t) ∧ t.params = s.params ∧
      t.sent = s.sent ++ ((blocks.mapIdx fun k d => d.mosi s.params.crc16Seed 0xFC (s.sector k)).flatten ++
        last.mosi s.params.crc16Seed 0xFC (s.sector blocks.length)) := by
  obtain ⟨u, hloop, hanswers, hparams, hbuf, hsent⟩ := writeBlocks_scripted blocks (k := 0) hd h
  obtain ⟨n, rfl⟩ := Nat.exists_eq_add_of_lt hlt
  obtain ⟨t, ht, hmosi⟩ := transmitBlock_untaken (k := 0 + blocks.length) (token := tokenStartMultiWriteByte)
    (by decide) (hparams ▸ hl) hanswers
  have hend : writeBlocks (blocks.length + (n + 1)) 0 s = (some last.failClass, t) := by
    rw [hloop (n + 1), writeBlocks, ht]
  obtain ⟨_, hran⟩ := writeBlocks_ran (blocks.length + (n + 1)) 0 s
  rw [hend] at hran
  refine ⟨t, hend, hran.host.params, ?_⟩
  rw [hmosi, hsent, hparams, State.sector_congr hbuf, List.append_assoc]
  simp only [Nat.zero_add]
  rfl

variable {address : BitVec 64} {arg : BitVec 32} {o : CmdOut} {t u : State}

/-- An accepted write whose block is not accepted (R332, R333, R335): what is sent is the blocks before, the block
itself, and of several sectors the ready wait and the stop token. -/
theorem exec_writeSectors_untaken (hi : s.initialized = true)
    (hc : cmdAddr (isBlock s.cardType) address.toNat = some arg) (hcmd : writeCommand count arg s = (o, u))
    (h0 : o.r1 = 0) (hlt : blocks.length < count)
    (hd : ∀ d ∈ blocks, d.Heard s.params.readyWaitSteps ∧ slice d.resp 0 5 = (0b00101 : BitVec 5))
    (hl : last.Heard s.params.readyWaitSteps) (h : u.answers = blocks.flatMap Taken.bytes ++ (last.bytes ++ rest))
    (he : exec (.writeSectors address count) s = .next t) :
    t.result = .bool false ∧ t.error = some last.failClass ∧
      ∃ stop : List Byte, t.sent = u.sent ++
          ((blocks.mapIdx (fun k d => d.mosi s.params.crc16Seed (if count = 1 then 0xFE else 0xFC)
            (s.sector k))).flatten ++
          (last.mosi s.params.crc16Seed (if count = 1 then 0xFE else 0xFC) (s.sector blocks.length) ++ stop)) ∧
        (count = 1 → stop = []) ∧
        ∃ n, n ≤ s.params.readyWaitSteps ∧ (stop = fillers n ∨ stop = fillers n ++ [0xFD]) := by
  obtain ⟨_, hran⟩ := writeCommand_ran count arg s
  rw [hcmd] at hran
  have hparams : u.params = s.params := hran.host.params
  have hsector : ∀ k, u.sector k = s.sector k := State.sector_congr hran.buf
  obtain rfl | h1 := count_cases (Nat.ne_zero_of_lt hlt)
  · obtain rfl : blocks = [] := List.length_eq_zero_iff.1 (Nat.lt_one_iff.1 hlt)
    obtain ⟨v, hv, hsent⟩ := transmitBlock_untaken (k := 0) (token := tokenStartByte) (by decide) (hparams ▸ hl) h
    cases he.symm.trans (exec_writeSectors_single hi hc hcmd h0 hv)
    refine ⟨rfl, rfl, [], ?_, fun _ => rfl, 0, Nat.zero_le _, .inl rfl⟩
    rw [State.finish_sent, State.setCs_sent, hsent, hparams, hsector, List.append_nil]
    rfl
  · obtain ⟨v, hv, hvparams, hsent⟩ := writeBlocks_untaken hlt (hparams ▸ hd) (hparams ▸ hl) h
    obtain ⟨n, hn, hstop⟩ := transmitStop_sent 0 v
    rw [writeCommand_many h1] at hcmd
    cases he.symm.trans (exec_writeSectors_multiple hi hc h1 hcmd h0 hv (Prod.eta _).symm)
    rw [hvparams, hparams] at hn
    simp only [hsent, hparams, hsector, List.append_assoc] at hstop
    simp only [h1.ne', if_false]
    obtain hstop | hstop := hstop
    · exact ⟨rfl, rfl, _, hstop, False.elim, n, hn, .inl rfl⟩
    · exact ⟨rfl, rfl, _, hstop, False.elim, n, hn, .inr rfl⟩

end Untaken

end Sys2Proof.Machine

/-! ### The statements -/

open Sys2Proof Sys2Proof.Machine

/-- Settles O34: END's two register writes, and what units and gated operations keep. -/
theorem sessionWrittenByBeginAlone : Obligations.SessionWrittenByBeginAlone := by
  intro i s t hb he
  obtain ⟨hsession, hcontrol, hflag, hcs⟩ := exec_keeps_registers hb he
  exact ⟨hsession.cardType, hsession.sectorCount, hsession.csd, hsession.cid, hcontrol.pathV2, hcontrol.pollCmd,
    hcontrol.pollArg, hcontrol.clockHz, hcontrol.busConfig, hflag, hcs⟩

/-- Settles O47: the opening command, the blocks, each at its sector, and CMD12 after several. -/
theorem readSectorsCompletes : Obligations.ReadSectorsCompletes := by
  refine ⟨fun address arg q d rest s hi hc hq h0 hd h hw => ?_,
    fun address arg q stop blocks rest s hi hc hn hq h0 hd hstop h hw => ?_⟩
  · obtain ⟨hwait, hlen⟩ := hd
    obtain ⟨u, hsaid, he⟩ := exec_readSectors_single hi hc hq h0 h
    have hu : u.answers = d.bytes u.params.crc16Seed ++ rest := by rw [hsaid.answers, hsaid.params]
    have hblock := receiveBlock_of_block (offset := 0) (hsaid.params ▸ hwait) hu
    rw [hlen] at hblock
    have he := he _ _ hblock
    refine ⟨_, he, rfl, rfl, ?_, exec_readSectors_outside he, rfl, ?_, ?_⟩
    · have hread := Memory.readBytes_writeBytes hw 0 d.payload
      rw [hlen, ← hsaid.buf, ← received_buf] at hread
      exact hread
    · rw [State.finish_answers, State.setCs_answers, received_answers hu]
    · rw [State.finish_sent, State.setCs_sent, received_sent, hsaid.sent, List.append_assoc]
  · refine exec_readSectors_multiple (c := none) hi hc hn hq h0 hstop h fun u hparams hbuf hanswers => ?_
    exact readBlocks_whole (hparams ▸ hd) (hparams ▸ hanswers) (hbuf ▸ hw)

/-- Settles O48: the good blocks as in a whole read, then the one that breaks off; CMD12 closes a read of several. -/
theorem abortedReadKeepsGoodSectors : Obligations.AbortedReadKeepsGoodSectors := by
  refine ⟨fun address arg q broken rest cls s hi hc hq h0 hb h => ?_,
    fun address count arg q stop blocks broken rest cls s hi hc hn hlt hq h0 hd hb hstop h hw => ?_⟩
  · obtain ⟨u, hsaid, he⟩ := exec_readSectors_single hi hc hq h0 h
    obtain ⟨v, hv, hrest, hsent⟩ := receiveBlock_broken (offset := 0) (hsaid.params ▸ hb) hsaid.answers
    have he := he _ _ hv
    refine ⟨_, he, rfl, rfl, exec_readSectors_outside he, rfl, hrest, ?_⟩
    rw [State.finish_sent, State.setCs_sent, hsent, hsaid.sent, List.append_assoc]
  · refine exec_readSectors_multiple (c := some cls) hi hc hn hq h0 hstop h fun u hparams hbuf hanswers => ?_
    exact readBlocks_broken hlt (hparams ▸ hd) (hparams ▸ hb) (hparams ▸ hanswers) (hbuf ▸ hw)

/-- Settles O49: the opening command with its hint, the blocks from the sectors of BUF, and the stop token after
several. -/
theorem writeSectorsCompletes : Obligations.WriteSectorsCompletes := by
  refine ⟨fun address arg q d rest s hi hc hq h0 hd hr h => ?_,
    fun address arg hint q blocks busy ignored rest s hi hc hn hh hq h0 hd hb hl h => ?_⟩
  · obtain ⟨u, hcmd, hsaid⟩ := sendCommand_said (cmd := 0x18) (by decide) (by decide) arg (s := s.setCs .asserted) hq h
    have hblock := transmitBlock_taken (k := 0) (token := tokenStartByte) (by decide) (hsaid.params ▸ hd) hr
      hsaid.answers
    have he := exec_writeSectors_single hi hc hcmd h0 hblock
    refine ⟨_, he, rfl, rfl, exec_writeSectors_buf he, rfl, ?_, ?_⟩
    · rw [State.finish_answers, State.setCs_answers]
      exact transmitted_answers (hd.ignored_length u 0) hsaid.answers
    · rw [State.finish_sent, State.setCs_sent, transmitted_sent (hd.ignored_length u 0), hsaid.sent, hsaid.params,
        State.sector_congr hsaid.buf, List.append_assoc]
      rfl
  · have hhint := preErase_said (s := s.setCs .asserted) (count := blocks.length) hh h
    obtain ⟨u, hcmd, hsaid⟩ := sendCommand_said (cmd := 0x19) (by decide) (by decide) arg
      (hhint.params ▸ hq) hhint.answers
    have hparams := hsaid.params.trans hhint.params
    obtain ⟨v, hloop, hanswers, hv, -, hsent⟩ := writeBlocks_scripted blocks (k := 0) (hparams ▸ hd) hsaid.answers
    obtain ⟨t, hstop, hrest, hmosi⟩ := transmitBlock_stop 0 hb (hv.trans hparams ▸ hl) hanswers
    have he := exec_writeSectors_multiple hi hc hn hcmd h0 (hloop 0) hstop
    refine ⟨_, he, rfl, rfl, exec_writeSectors_buf he, rfl, hrest, ?_⟩
    rw [State.finish_sent, State.setCs_sent, hmosi, hsent, hsaid.sent, hhint.sent, hparams]
    simp only [List.append_assoc, Nat.zero_add, State.sector_congr (hsaid.buf.trans hhint.buf)]
    rfl

/-- Settles O50: each command in turn with its answer; the ready wait with its last byte or its budget. -/
theorem eraseAndSyncOutcomes : Obligations.EraseAndSyncOutcomes := by
  refine ⟨fun address count first last a0 a1 a2 rest s hi hn hfirst hlast h0 => ?_, fun busy rest s hi hb =>
    ⟨fun hl h => ?_, fun hl h => ?_⟩⟩
  · obtain ⟨e0, e1, e2⟩ := eraseRange_attempted (first := first) (last := last) (a1 := a1) (a2 := a2) (rest := rest)
      (s := s.setCs .asserted) h0
    rw [exec_eraseSectors_range hi hn hfirst hlast]
    refine ⟨fun hz h => ?_, fun hz h1 hz1 h => ?_, fun hz h1 hz1 h2 h => ?_⟩
    · rw [onBus_eq (e0 hz h)]
      rfl
    · rw [onBus_eq (e1 hz h1 hz1 h)]
      rfl
    · rw [onBus_eq (e2 hz h1 hz1 h2 h), State.setCs_params]
      by_cases hz2 : a2.r1 s.params.errSentinel = 0
      · simp only [hz2, if_true, decide_true, Option.isNone_none]
      · simp only [hz2, if_false, decide_false, Option.isNone_some]
  · rw [exec_sync_of hi, onBus_eq (syncBody_eq (waitReady_of_answers (s := s.setCs .asserted) hb hl h))]
    rfl
  · rw [exec_sync_of hi, onBus_eq (syncBody_eq (waitReady_exhausted (s := s.setCs .asserted) hb hl h))]
    rfl

/-- Settles O51: the opening command decides whether there is a transfer; a read of several is closed by CMD12, a
write of several by the stop token. -/
theorem acceptedTransfersAreClosed : Obligations.AcceptedTransfersAreClosed := by
  intro address count arg s t hi hn hc
  refine ⟨fun he => ?_, fun he => ⟨exec_writeSectors_frame hi hc hn he, fun h0 => ?_, fun h0 h1 =>
    exec_writeSectors_closed hi hc h1 (Prod.eta _).symm h0 he, fun blocks last rest h0 hlt hd hl h =>
    exec_writeSectors_untaken hi hc (Prod.eta _).symm h0 hlt hd hl h he⟩⟩
  · obtain ⟨_, hran⟩ := readCommand_ran count arg s
    refine ⟨fun h0 => ?_, fun h0 h1 => ?_⟩
    · cases he.symm.trans (exec_readSectors_rejected hi hc hn (Prod.eta _).symm h0)
      rw [State.finish_trace, State.setCs_trace, State.unspecify_trace, State.finish_frame, State.setCs_frame,
        State.unspecify_frame, readCommand_frame]
      exact ⟨rfl, rfl, rfl, rfl⟩
    · cases he.symm.trans (exec_readSectors_accepted hi hc h1 (Prod.eta _).symm h0)
      rw [State.finish_frame, State.finish_sent, State.setCs_frame, State.setCs_sent, stopCommand_frame]
      obtain ⟨n, k, hk, hsent⟩ := readClosed_sent count (readCommand count arg s).2
      rw [hran.host.params] at hk
      exact ⟨rfl, n, k, hk, hsent⟩
  · cases he.symm.trans (exec_writeSectors_rejected hi hc hn (Prod.eta _).symm h0)
    exact ⟨rfl, rfl, rfl⟩

/-- Settles O52: a gated operation is turned away, or runs its body between the two writes of chip select. -/
theorem blockOperationFrame : Obligations.BlockOperationFrame := by
  intro i s t hi he
  obtain ⟨hhost, -, -⟩ := exec_gated_registers hi he
  refine ⟨hhost, exec_gated_cs hi he, exec_gated_wire hi he, ?_, fun hread => exec_gated_kept hi hread he,
    exec_gated_resp hi he, ?_, ?_⟩
  · rintro address count rfl
    exact exec_readSectors_outside he
  · rintro address count (rfl | rfl)
    · exact exec_gated_crc16acc (i := .eraseSectors address count) rfl nofun nofun he
    · exact exec_gated_crc16acc (i := .sync) rfl nofun nofun he
  · rintro rfl
    have hf := exec_sync_framing he
    exact ⟨hf.frame, hf.crc7acc⟩

/-- Settles O53: each accessor reports what it reads, and writes nothing else. -/
theorem accessors : Obligations.Accessors := fun _ => ⟨rfl, rfl, rfl, rfl⟩
end

section
/-!
Proofs of the families `60_exceptions.md` and `70_reset_and_hazards.md`: what no instruction reads (R361, R365, R368),
the gate (R365, R371), the bounds of BEGIN (R431), and the card that keeps answering its busy byte (R421).
-/

namespace Sys2Proof.Machine

/-! ### The report and the flag, for every instruction -/

/-- BEGIN clears the flag before it reads anything, and writes flag and report at either end (R233, R265, R266). -/
theorem exec_beginOp_veil (frequency : Nat) (b : Bool) (v : Result) (e : Option ErrorClass) (s : State) :
    exec (.beginOp frequency) (s.veil b v e) = exec (.beginOp frequency) s := by
  rw [exec_beginOp, exec_beginOp, beginEntry_veil, veil_runInit]
  rcases runInit longestPath (beginEntry s) with ⟨_ | c, u⟩ <;> rfl

theorem exec_endOp_veil (b : Bool) (v : Result) (e : Option ErrorClass) (s : State) :
    exec .endOp (s.veil b v e) = exec .endOp s := by
  rw [exec_endOp, exec_endOp]
  rfl

theorem Body.initialized {i : Instr} {f : State → Option ErrorClass × State} (h : Body i f) (s : State) :
    (f s).2.initialized = s.initialized := by
  obtain ⟨n, hm⟩ := h.moved s
  exact hm.session.initialized

/-- A gated operation does not read the report: its turning away and its body write their own. -/
theorem exec_gated_veil {i : Instr} (hi : isGated i = true) (v : Result) (e : Option ErrorClass) (s : State) :
    exec i (s.veil s.initialized v e) = exec i s := by
  obtain ⟨w, c, -, -, hend⟩ | ⟨-, f, hf, hbus⟩ := exec_gated hi s.initialized s.cardType
  · rw [hend s rfl rfl]
    exact hend (s.veil s.initialized v e) rfl rfl
  · have hflag : (onBus f s).initialized = s.initialized := hf.initialized (s.setCs .asserted)
    rw [hbus (s.veil s.initialized v e) rfl rfl, veil_onBus s.initialized v e s (hf.veil s.initialized v e),
      hbus s rfl rfl, ← hflag]
    rfl

/-- A unit instruction carries another flag through, whatever the report was. -/
theorem exec_unit_flag {i : Instr} (hi : isUnit i = true) {s t : State} (he : exec i s = .next t) (b : Bool)
    (v : Result) (e : Option ErrorClass) : exec i (s.veil b v e) = .next { t with initialized := b } := by
  obtain ⟨u, hu, hveil⟩ := exec_unit_veil s hi b v e
  cases he.symm.trans hu
  exact hveil

theorem exec_unit_report {i : Instr} (hi : isUnit i = true) (v : Result) (e : Option ErrorClass) (s : State) :
    exec i (s.veil s.initialized v e) = exec i s := by
  obtain ⟨t, he, hveil⟩ := exec_unit_veil s hi s.initialized v e
  obtain ⟨-, hsession, -⟩ := exec_unit_registers hi he
  rw [hveil, he, ← hsession.initialized]

/-! ### What BEGIN spends -/

/-- At either end of the bring-up the row charged is that of the path taken, and both loops may have delayed. -/
theorem Spent.ended {s u : State} (h : Spent s u) (hu : u.initState = .done ∨ u.initState = .failed) :
    u.xchgCount ≤ s.xchgCount + beginBound s.params u.pathV2 ∧
      Delays (cmd0LoopDelay s.params + readyPollDelay s.params) s u := by
  have hx := h.exchanges
  have hd := h.delays
  obtain hu | hu := hu <;> simp only [budget, chargedV2, hu] at hx hd <;> exact ⟨hx, hd⟩

/-- BEGIN led from `s` to `t` with the exchanges `new`, within the bounds of R431 for the path it took. -/
structure BeginSpent (new : List Exchange) (s t : State) : Prop where
  trace     : t.trace = new ++ s.trace
  xchgCount : t.xchgCount = s.xchgCount + new.length
  answers   : t.answers = s.answers.drop new.length
  exchanges : new.length ≤ beginBound s.params t.pathV2
  delays    : Delays (cmd0LoopDelay s.params + readyPollDelay s.params) s t

/-- The end of BEGIN writes the session and the outputs, and neither exchanges a byte nor delays. -/
theorem exec_beginOp_spent (frequency : Nat) (s : State) :
    ∃ t new, exec (.beginOp frequency) s = .next t ∧ BeginSpent new s t := by
  obtain ⟨u, hu, hrun, -, hend⟩ := exec_beginOp_cases frequency s
  have hspent : Spent s u := hu ▸ runInit_beginEntry_spent s
  obtain ⟨asserted, dummy, htrace, -, -, -, -, hcount, hanswers⟩ := beginStart_wire hrun
  have hbound : u.initState = .done ∨ u.initState = .failed → BeginSpent (asserted ++ dummy) s u := fun hstate =>
    have ⟨hx, hd⟩ := hspent.ended hstate
    ⟨by rw [htrace, List.append_assoc], hcount, hanswers, by omega, hd⟩
  obtain ⟨hstate, -, he⟩ | ⟨c, hstate, -, he⟩ := hend
  · exact ⟨_, _, he, { hbound (.inl hstate) with }⟩
  · exact ⟨_, _, he, { hbound (.inr hstate) with }⟩

/-- Either path within one sum: the probe of the legacy path takes longer than the OCR of V2. -/
theorem beginBound_le (p : Params) (v2 : Bool) : beginBound p v2 ≤
    p.dummyBytes + p.cmd0Attempts * (6 + p.maxWaitBytes) + (6 + p.maxWaitBytes + 4) + 2 * (6 + p.maxWaitBytes) +
      p.readyPollAttempts * (2 * (6 + p.maxWaitBytes)) + (6 + p.maxWaitBytes) +
      2 * (6 + 1 + p.maxWaitBytes + p.maxWaitBytes + 16 + 2) := by
  rw [beginBound_eq]
  cases v2
  · exact Nat.le_refl _
  · simp only [if_true]
    omega

theorem beginBound_default_v2 : beginBound defaultParams true = 28198 := beginBound_eq ..

theorem beginBound_default_legacy : beginBound defaultParams false = 28222 := beginBound_eq ..

theorem beginBound_default_le (v2 : Bool) : beginBound defaultParams v2 ≤ 28222 := by
  cases v2
  · exact beginBound_default_legacy.le
  · exact beginBound_default_v2.trans_le (by decide)

/-- The two loops of the bring-up delay, each in its own state (R241, R248). -/
theorem stateDelay_eq (p : Params) (x : InitState) : stateDelay p x =
    if x = .idleNegotiation then cmd0LoopDelay p else if x = .readyPoll then readyPollDelay p else 0 := by
  cases x <;> rfl

/-! ### A card that keeps answering its busy byte (R421) -/

/-- What a command with `stuff` stuffing bytes hears of such a card: the byte 0x00 is a response, and the one that
says the card is ready. -/
def busyReply (stuff : Nat) : Reply := ⟨List.replicate (6 + stuff) 0, [], 0⟩

theorem busyReply_bytes (stuff : Nat) : (busyReply stuff).bytes = List.replicate (6 + stuff + 1) 0 := by
  rw [List.replicate_succ']
  rfl

theorem busyReply_heard {w : Nat} (hw : 0 < w) (stuff : Nat) : (busyReply stuff).Heard w stuff :=
  ⟨List.length_replicate, nofun, hw, BitVec.getLsbD_zero⟩

/-- Every command to such a card is accepted. -/
theorem sendCommand_busy {cmd : Byte} (h6 : cmd.getLsbD 6 = false) (h7 : cmd.getLsbD 7 = false)
    (argument : BitVec 32) {rest : List Byte} {s : State} (hw : 0 < s.params.maxWaitBytes)
    (h : s.answers = List.replicate (6 + stuffing false (cmdIndex cmd) + 1) 0 ++ rest) :
    ∃ t, sendCommand cmd argument 0 s = (⟨0, none, none⟩, t) ∧ t.params = s.params ∧ t.answers = rest := by
  rw [← busyReply_bytes] at h
  obtain ⟨t, he, hsaid⟩ := sendCommand_said h6 h7 argument (busyReply_heard hw _) h
  exact ⟨t, he, hsaid.params, hsaid.answers⟩

/-- The same byte is no start token (R205). -/
theorem receiveBlock_busy {s : State} {rest : List Byte} (hw : 0 < s.params.tokenWaitSteps)
    (h : s.answers = 0 :: rest) (offset n : Nat) : ∃ t, receiveBlock offset n s = (some .transportTimeout, t) := by
  obtain ⟨t, he, -⟩ := receiveBlock_wrongToken (k := 0) (token := 0) hw (by decide) (by decide) h
  exact ⟨t, he⟩

theorem readBlocks_busy {s : State} {rest : List Byte} (hw : 0 < s.params.tokenWaitSteps)
    (h : s.answers = 0 :: rest) {n : Nat} (hn : n ≠ 0) (k : Nat) :
    (readBlocks n k s).1 = some .transportTimeout := by
  obtain ⟨m, rfl⟩ := Nat.exists_eq_succ_of_ne_zero hn
  obtain ⟨t, ht⟩ := receiveBlock_busy hw h (sectorSize * k) sectorSize
  rw [readBlocks, ht]

/-- Three commands, each accepted with its busy byte. -/
theorem eraseRange_busy {first last : BitVec 32} {rest : List Byte} {s : State} (hw : 0 < s.params.maxWaitBytes)
    (h : s.answers = List.replicate 21 0 ++ rest) : ∃ t, eraseRange first last s = (none, t) ∧ t.answers = rest := by
  obtain ⟨t, ht, hpt, hat⟩ := sendCommand_busy (cmd := 0x20) (by decide) (by decide) first hw
    (rest := List.replicate 14 0 ++ rest) h
  obtain ⟨u, hu, hpu, hau⟩ := sendCommand_busy (cmd := 0x21) (by decide) (by decide) last (hpt ▸ hw)
    (rest := List.replicate 7 0 ++ rest) hat
  obtain ⟨v, hv, -, hav⟩ := sendCommand_busy (cmd := 0x26) (by decide) (by decide) 0 (hpu ▸ hpt ▸ hw) hau
  refine ⟨v, ?_, hav⟩
  simp only [eraseRange, ht, hu, hv, requireReady_of]

/-- CMD17 is accepted, and its block does not arrive. -/
theorem readSingle_busy {rest : List Byte} {s : State} (hw : 0 < s.params.maxWaitBytes)
    (ht : 0 < s.params.tokenWaitSteps) (h : s.answers = List.replicate 21 0 ++ rest) (arg : BitVec 32) :
    (readSingle arg s).1 = some .transportTimeout := by
  obtain ⟨u, hcmd, hp, ha⟩ := sendCommand_busy (cmd := 0x11) (by decide) (by decide) arg hw
    (rest := List.replicate 13 0 ++ rest) h
  obtain ⟨v, hv⟩ := receiveBlock_busy (hp ▸ ht) ha 0 sectorSize
  rw [readSingle_accepted hcmd rfl, hv]

/-- CMD18 is accepted, and its first block does not arrive. -/
theorem readMultiple_busy {rest : List Byte} {s : State} (hw : 0 < s.params.maxWaitBytes)
    (ht : 0 < s.params.tokenWaitSteps) (h : s.answers = List.replicate 21 0 ++ rest) (arg : BitVec 32) {n : Nat}
    (hn : n ≠ 0) : (readMultiple arg n s).1 = some .transportTimeout := by
  obtain ⟨u, hcmd, hp, ha⟩ := sendCommand_busy (cmd := 0x12) (by decide) (by decide) arg hw
    (rest := List.replicate 14 0 ++ rest) h
  rw [readMultiple_accepted hcmd rfl]
  exact readBlocks_busy (hp ▸ ht) ha hn 0

/-- A body that fails on the bus is answered with `false` and its class. -/
theorem onBus_failed {f : State → Option ErrorClass × State} {s : State} {c : ErrorClass}
    (h : (f (s.setCs .asserted)).1 = some c) : (onBus f s).result = .bool false ∧ (onBus f s).error = some c := by
  rw [onBus, h]
  exact ⟨rfl, rfl⟩

end Sys2Proof.Machine

/-! ### The statements -/

open Sys2Proof Sys2Proof.Machine

/-- Settles O58: BEGIN and END write the report themselves, and neither a gated operation nor a unit reads it. -/
theorem reportsAreNeverRead : Obligations.ReportsAreNeverRead := by
  intro i s v e
  show exec i (s.veil s.initialized v e) = exec i s
  cases i with
  | beginOp frequency => exact exec_beginOp_veil frequency s.initialized v e s
  | endOp => exact exec_endOp_veil s.initialized v e s
  | readSectors | writeSectors | eraseSectors | sync => exact exec_gated_veil rfl v e s
  | _ => exact exec_unit_report rfl v e s

/-- Settles O59: BEGIN and END overwrite the flag, and a unit carries it through. -/
theorem onlyTheGateReadsTheFlag : Obligations.OnlyTheGateReadsTheFlag := by
  intro i s t b hg he
  show exec i (s.veil b s.result s.error) = _
  cases i with
  | beginOp frequency => exact (exec_beginOp_veil frequency b s.result s.error s).trans he
  | endOp => exact (exec_endOp_veil b s.result s.error s).trans he
  | readSectors | writeSectors | eraseSectors | sync => cases hg
  | _ => exact exec_unit_flag rfl he b s.result s.error

/-- Settles O45: the gate is the first test of the four operations, the count the second of three of them. -/
theorem gateComesFirst : Obligations.GateComesFirst := by
  refine ⟨fun i s hg hi => exec_gated_notInitialized hg hi, fun i address s hi hmem => ?_⟩
  simp only [List.mem_cons, List.not_mem_nil, or_false] at hmem
  obtain rfl | rfl | rfl := hmem
  · rw [exec_readSectors, gated_of hi]
    rfl
  · rw [exec_writeSectors, gated_of hi]
    rfl
  · rw [exec_eraseSectors, gated_of hi]
    rfl

/-- Settles O39: what a bring-up has spent is an invariant of its transitions, and at either end it is the row of
R431 for the path taken. -/
theorem beginBound : Obligations.BeginBound := by
  refine ⟨fun frequency s => ?_, fun frequency s hp => ?_, fun s => ?_, rfl, rfl, rfl, rfl⟩
  · obtain ⟨t, new, he, h⟩ := exec_beginOp_spent frequency s
    exact ⟨t, new, he, h.trace, h.xchgCount, h.answers, h.exchanges.trans (beginBound_le s.params t.pathV2),
      h.exchanges, h.delays⟩
  · obtain ⟨t, new, he, h⟩ := exec_beginOp_spent frequency s
    have hx := h.exchanges
    have hd := h.delays
    rw [hp] at hx hd
    exact ⟨t, new, he, h.trace, hx.trans (beginBound_default_le t.pathV2),
      fun hv => hx.trans (hv ▸ beginBound_default_v2.le), hd⟩
  · rw [← stateDelay_eq]
    exact initStep_delays s

/-- Settles O54: the busy byte is the response of an accepted command, and it is no start token. -/
theorem busyCardHazard : Obligations.BusyCardHazard := by
  intro address count first last rest s hi hn hw ht hfirst hlast h
  refine ⟨?_, ?_⟩
  · obtain ⟨t, he, ha⟩ := eraseRange_busy (first := first) (last := last) (s := s.setCs .asserted) hw h
    rw [exec_eraseSectors_range hi hn hfirst hlast, onBus_eq he]
    exact ⟨_, rfl, rfl, ha⟩
  · obtain rfl | h1 := count_cases hn
    · exact ⟨_, exec_readSectors_one hi hfirst, onBus_failed (readSingle_busy (s := s.setCs .asserted) hw ht h first)⟩
    · exact ⟨_, exec_readSectors_many hi h1 hfirst,
        onBus_failed (readMultiple_busy (s := s.setCs .asserted) hw ht h first hn)⟩
end
